-- ==== Sys2Proof/Word.lean ====
section
/-! DEFINITION. The data sizes of R8 and the two shapes of table every part of the state is kept in. -/

namespace Sys2Proof

/-- R8: 8 bits. -/
abbrev Byte := BitVec 8
/-- R8: 32 bits. -/
abbrev Word := BitVec 32
/-- R8: 64 bits; also one instruction word (R89). -/
abbrev Dword := BitVec 64
/-- R8: 128 bits. -/
abbrev Quad := BitVec 128

/-- A finite table by number, keys strictly rising (`Sys2Proof.Machine.rising`). -/
abbrev Tab (α : Type) := List (Nat × α)

/-- `n KiB`, R9. -/
abbrev kib (n : Nat) : Nat := n * 1024
/-- `n MiB`, R9. -/
abbrev mib (n : Nat) : Nat := n * 1048576
/-- `n GiB`, R9. -/
abbrev gib (n : Nat) : Nat := n * 1073741824

end Sys2Proof
end

