-- ==== Sys2Proof/Syntax.lean ====
section
/-! DEFINITION. The whole instruction set as data: operand specifiers (R91), the codes the formats share
(R97 to R99, R101), and one constructor of `Instr` for every row of the opcode table. The first part of
`Instr` are the instruction words of R100; the second part are the table's steps that no core issues (what
engines, the hub, the host and the outside world do), with the data that says which one happens. -/

namespace Sys2Proof

/-- R91: what a 9-bit operand specifier names. -/
inductive Reg where
  | v (n : BitVec 8)
  | s (n : BitVec 6)
  | p (n : BitVec 3)
  | t (n : BitVec 4)
  | tl (n : BitVec 3)
  | inp (n : BitVec 3)
  | outp (n : BitVec 2)
  | ac (n : BitVec 3)
  | h (n : BitVec 5)
  | hv (n : BitVec 4)
  | none
  deriving DecidableEq, Repr

/-- The three execution models. -/
inductive Model where
  | thr | vec | spa
  deriving DecidableEq, Repr

/-- R98: lane types. -/
inductive Ty where
  | i32 | n32 | i64 | n64 | i16x2 | n16x2 | i8x4 | n8x4 | f32 | e8m10 | bf16x2 | f16x2 | f64
  deriving DecidableEq, Repr

/-- R99: the 28 operand formats of R16, in code order. -/
inductive Fmt where
  | f64 | f32 | e8m10 | bf16 | f16 | e5m2 | e4m3 | e3m2 | e2m3 | e2m1 | e8m0
  | mxf8e5 | mxf8e4 | mxf6e3 | mxf6e2 | mxf4 | mxi8 | dx8 | dx6 | dx4 | dx3
  | i32 | i16 | i8 | i4 | i2 | n8 | n4
  deriving DecidableEq, Repr

/-- R29: rounding modes. -/
inductive Rnd where
  | rne | rz | rp | rm | rs
  deriving DecidableEq, Repr

/-- R97: ordering scopes. -/
inductive Scope where
  | grp | core | clu | die | dev | sys
  deriving DecidableEq, Repr

/-- R97: orderings. -/
inductive Order where
  | rlx | acq | rel | acqrel
  deriving DecidableEq, Repr

/-- R72: the addressed memory spaces. -/
inductive Space where
  | g | l | k
  deriving DecidableEq, Repr

/-- R101: memory types. -/
inductive MemTy where
  | i8 | n8 | i16 | n16 | i32 | i64 | i128
  deriving DecidableEq, Repr

/-- R101: address modes of LD and ST. -/
inductive Mode where
  | scalar | lane | absolute
  deriving DecidableEq, Repr

/-- R129: compare conditions. -/
inductive Cond where
  | eq | ne | lt | le | gt | ge | un | or
  deriving DecidableEq, Repr

/-- R193: shuffle modes. -/
inductive ShflMode where
  | idx | up | down | xor
  deriving DecidableEq, Repr

/-- R205: wait conditions. -/
inductive WaitCond where
  | eq | ne | ge
  deriving DecidableEq, Repr

/-- R89: the fields every threaded or vector-control word carries. -/
structure Fixed where
  sw : Bool
  stop : Bool
  pred : BitVec 3
  sense : Bool
  deriving DecidableEq, Repr

/-- R120: a word of one of the sixteen integer operations, in its four classes. -/
inductive IntForm where
  | salu (ty : Ty) (d a b c : Reg) (sat : Bool)
  | salui (ty : Ty) (d a : Reg) (imm : BitVec 25) (sat : Bool)
  | valu (ty : Ty) (d a b c : Reg) (sat : Bool)
  | valui (ty : Ty) (d a : Reg) (imm : BitVec 25) (sat : Bool)
  deriving DecidableEq, Repr

/-- R133: a word of class 0x07. -/
structure FaluForm where
  ty : Ty
  d : Reg
  a : Reg
  b : Reg
  c : Reg
  sat : Bool
  rnd : Rnd
  deriving DecidableEq, Repr

/-- R128 to R131: a typed word of classes 0x05 and 0x06, no rounding. -/
structure BitForm where
  ty : Ty
  d : Reg
  a : Reg
  b : Reg
  c : Reg
  deriving DecidableEq, Repr

/-- R135: a word of class 0x08. -/
structure TrnForm where
  ty : Ty
  d : Reg
  a : Reg
  rnd : Rnd
  deriving DecidableEq, Repr

/-- R136: a word of class 0x09; `j` is the element index of `pack` and `unpack`. -/
structure CvtForm where
  dst : Fmt
  src : Fmt
  d : Reg
  a : Reg
  b : Reg
  sat : Bool
  j : BitVec 4
  rnd : Rnd
  deriving DecidableEq, Repr

/-- R140: a word of class 0x0A. -/
structure BlkForm where
  fmt : Fmt
  d : Reg
  a : Reg
  sat : Bool
  rnd : Rnd
  deriving DecidableEq, Repr

/-- R148: a word of classes 0x10 and 0x11. -/
structure MemForm where
  space : Space
  ty : MemTy
  mode : Mode
  data : Reg
  base : Reg
  off : BitVec 21
  deriving DecidableEq, Repr

/-- R151: a word of class 0x12. `lane`: per-lane base. -/
structure AtomForm where
  w64 : Bool
  uns : Bool
  loc : Bool
  lane : Bool
  data : Reg
  base : Reg
  off : BitVec 21
  scope : Scope
  ord : Order
  deriving DecidableEq, Repr

/-- R156, R173: a format-M word with no scope and no ordering. -/
structure AddrForm where
  data : Reg
  base : Reg
  off : BitVec 21
  deriving DecidableEq, Repr

/-- R193: a word of class 0x23. -/
structure ShflForm where
  mode : ShflMode
  w64 : Bool
  d : Reg
  a : Reg
  b : Reg
  c : Reg
  deriving DecidableEq, Repr

/-- A format-X word with nothing but its four operands. -/
structure Ops4 where
  d : Reg
  a : Reg
  b : Reg
  c : Reg
  deriving DecidableEq, Repr

/-- R337, R338: where the loader puts a kernel of a code object: its handle, and the bases of its texts,
cold cache, safe-point table, location list, image (0 when absent). -/
structure KernelPlace where
  handle : Nat
  hotThr : Nat
  hotVec : Nat
  hotSpa : Nat
  cold : Nat
  cache : Nat
  table : Nat
  image : Nat
  deriving DecidableEq, Repr

/-- R416: what the outside decides about a start-up step: it works, or its alternative works. -/
structure StepOutcome where
  ok : Bool
  alt : Bool
  deriving DecidableEq, Repr

/-- R411 to R414: the arrays in which an uncorrectable error can be met, and where. `blk`: the block whose
register file, local memory, scratchpad or poisoned read it is. `ob` and `am` give cluster and 32-bit word. `hbm`, `l2` poison
the 32-byte burst, or 64 bytes, at a device-memory place. `shadowBlk`, `shadowOb`, `shadowAm`: a word of the shadow store
that holds what left a saved block's core, or a swapped-out partition's buffers (R400). -/
inductive ErrorSite where
  | blk (block : Nat)
  | ob (cluster word : Nat)
  | am (cluster word : Nat)
  | hbm (place : Nat)
  | l2 (place : Nat)
  | shadowBlk (block : Nat)
  | shadowOb (part cluster word : Nat)
  | shadowAm (part cluster word : Nat)
  deriving DecidableEq, Repr

/-- R418: a spare-column remap: of fabric row `unit` (`row`), or of an array of cluster `unit`, by its row in R411's table. -/
structure Remap where
  row : Bool
  unit : Nat
  array : Nat
  column : Nat
  spare : Nat
  deriving DecidableEq, Repr

/-- R418: what a repair record says of rows and columns: the fabric rows it disables and its spare-column remaps. -/
structure RowsAndColumns where
  off : List Nat
  remaps : List Remap
  deriving DecidableEq, Repr

/-- R377: TDISP 1.0 interface states. -/
inductive Tdisp where
  | unlocked | locked | run | error
  deriving DecidableEq, Repr

/-- Every row of spec/opcode_table.json. -/
inductive Instr where
  | nop (f : Fixed)
  | addInteger (f : Fixed) (o : IntForm)
  | subInteger (f : Fixed) (o : IntForm)
  | mulInteger (f : Fixed) (o : IntForm)
  | mulhi (f : Fixed) (o : IntForm)
  | madInteger (f : Fixed) (o : IntForm)
  | andInteger (f : Fixed) (o : IntForm)
  | orInteger (f : Fixed) (o : IntForm)
  | xorInteger (f : Fixed) (o : IntForm)
  | shl (f : Fixed) (o : IntForm)
  | shr (f : Fixed) (o : IntForm)
  | sar (f : Fixed) (o : IntForm)
  | minInteger (f : Fixed) (o : IntForm)
  | maxInteger (f : Fixed) (o : IntForm)
  | absInteger (f : Fixed) (o : IntForm)
  | movInteger (f : Fixed) (o : IntForm)
  | negInteger (f : Fixed) (o : IntForm)
  | popc (f : Fixed) (o : BitForm)
  | clz (f : Fixed) (o : BitForm)
  | brev (f : Fixed) (o : BitForm)
  | bfe (f : Fixed) (o : BitForm)
  | bfi (f : Fixed) (o : BitForm)
  | cmp (f : Fixed) (cond : Cond) (o : BitForm)
  | sel (f : Fixed) (o : BitForm)
  | pand (f : Fixed) (o : Ops4)
  | por (f : Fixed) (o : Ops4)
  | pxor (f : Fixed) (o : Ops4)
  | pnot (f : Fixed) (o : Ops4)
  | addFloat (f : Fixed) (o : FaluForm)
  | subFloat (f : Fixed) (o : FaluForm)
  | mulFloat (f : Fixed) (o : FaluForm)
  | fma (f : Fixed) (o : FaluForm)
  | fnma (f : Fixed) (o : FaluForm)
  | minFloat (f : Fixed) (o : FaluForm)
  | maxFloat (f : Fixed) (o : FaluForm)
  | absFloat (f : Fixed) (o : FaluForm)
  | negFloat (f : Fixed) (o : FaluForm)
  | rcp (f : Fixed) (o : TrnForm)
  | rsqrt (f : Fixed) (o : TrnForm)
  | sqrt (f : Fixed) (o : TrnForm)
  | exp2 (f : Fixed) (o : TrnForm)
  | log2 (f : Fixed) (o : TrnForm)
  | sinpi (f : Fixed) (o : TrnForm)
  | cospi (f : Fixed) (o : TrnForm)
  | tanh (f : Fixed) (o : TrnForm)
  | cvt (f : Fixed) (o : CvtForm)
  | pack (f : Fixed) (o : CvtForm)
  | unpack (f : Fixed) (o : CvtForm)
  | dxenc (f : Fixed) (o : BlkForm)
  | dxdec (f : Fixed) (o : BlkForm)
  | mxenc (f : Fixed) (o : BlkForm)
  | mxdec (f : Fixed) (o : BlkForm)
  | crd (f : Fixed) (d : Reg) (num : BitVec 25)
  | cwr (f : Fixed) (a : Reg) (num : BitVec 25)
  | li (f : Fixed) (d : Reg) (imm : BitVec 35)
  | lih (f : Fixed) (d : Reg) (imm : BitVec 35)
  | liPair (f : Fixed) (d : Reg) (imm : BitVec 35)
  | ld (f : Fixed) (o : MemForm)
  | st (f : Fixed) (o : MemForm)
  | atomAdd (f : Fixed) (o : AtomForm)
  | atomMin (f : Fixed) (o : AtomForm)
  | atomMax (f : Fixed) (o : AtomForm)
  | atomAnd (f : Fixed) (o : AtomForm)
  | atomOr (f : Fixed) (o : AtomForm)
  | atomXor (f : Fixed) (o : AtomForm)
  | atomXchg (f : Fixed) (o : AtomForm)
  | atomCas (f : Fixed) (o : AtomForm)
  | atomLd (f : Fixed) (o : AtomForm)
  | atomSt (f : Fixed) (o : AtomForm)
  | fence (f : Fixed) (scope : Scope) (ord : Order)
  | cstore (f : Fixed) (w64 : Bool) (o : AddrForm)
  | xload (f : Fixed) (w64 : Bool) (o : AddrForm)
  | acopy (f : Fixed) (o : Ops4)
  | acopyPull (f : Fixed) (o : Ops4)
  | gath (f : Fixed) (o : Ops4)
  | scat (f : Fixed) (o : Ops4)
  | tlwait (f : Fixed) (d a : Reg) (imm : BitVec 25)
  | tlbind (f : Fixed) (d a : Reg) (imm : BitVec 25)
  | tlread (f : Fixed) (d a : Reg) (imm : BitVec 25)
  | tbarInit (f : Fixed) (o : AddrForm)
  | tbarArrive (f : Fixed) (o : AddrForm)
  | tbarExpect (f : Fixed) (o : AddrForm)
  | tbarWait (f : Fixed) (o : AddrForm)
  | predhint (f : Fixed)
  | waitpred (f : Fixed)
  | br (f : Fixed) (off : BitVec 32)
  | call (f : Fixed) (off : BitVec 32)
  | brind (f : Fixed) (a : Reg)
  | callind (f : Fixed) (d a : Reg)
  | ret (f : Fixed) (a : Reg)
  | gjoin (f : Fixed) (a : Reg) (tag : BitVec 25)
  | gleave (f : Fixed)
  | elect (f : Fixed) (d : Reg)
  | ballot (f : Fixed) (d : Reg)
  | shfl (f : Fixed) (o : ShflForm)
  | shflX (f : Fixed) (o : ShflForm)
  | grow (f : Fixed) (n : BitVec 25)
  | shrink (f : Fixed) (n : BitVec 25)
  | spawn (f : Fixed) (o : Ops4)
  | klaunch (f : Fixed) (o : Ops4)
  | eqenq (f : Fixed) (o : Ops4)
  | eqstat (f : Fixed) (o : Ops4)
  | hopReq (f : Fixed) (n : BitVec 25)
  | mwait (f : Fixed) (cond : WaitCond) (o : AddrForm) (scope : Scope) (ord : Order)
  | trap (f : Fixed) (n : BitVec 4)
  | tret (f : Fixed)
  | cnclaim (f : Fixed) (o : Ops4)
  | cnfree (f : Fixed) (o : Ops4)
  | xrd (f : Fixed) (o : Ops4)
  | xwr (f : Fixed) (o : Ops4)
  | tcfg (f : Fixed) (o : Ops4)
  | mma (f : Fixed) (sat : Bool) (tl : BitVec 3) (o : Ops4)
  | mmaPair (f : Fixed) (sat : Bool) (tl : BitVec 3) (o : Ops4)
  | aalloc (f : Fixed) (o : Ops4)
  | afree (f : Fixed) (o : Ops4)
  | aclaim (f : Fixed) (o : Ops4)
  | ard (f : Fixed) (w64 : Bool) (o : Ops4)
  | azero (f : Fixed) (o : Ops4)
  | vstrip (f : Fixed) (o : Ops4)
  | vsrc (f : Fixed) (o : Ops4)
  | vsnk (f : Fixed) (o : Ops4)
  | vaccReset (f : Fixed) (o : Ops4)
  | vdrain (f : Fixed) (o : Ops4)
  | fload (f : Fixed) (o : Ops4)
  | frun (f : Fixed) (o : Ops4)
  | fdrain (f : Fixed) (o : Ops4)
  | fsave (f : Fixed) (o : Ops4)
  | fpush (f : Fixed) (half null : Bool) (o : Ops4)
  | fpop (f : Fixed) (half : Bool) (o : Ops4)
  -- the steps of the table that no instruction word stands for
  | shflXMatch (g₁ g₂ : Nat)
  | rowGrant (core : Nat)
  | groupSwapIn (core : Nat)
  | allocationSetReturn (core : Nat)
  | mwaitRecheck (g : Nat)
  | matrixPassGrant (cluster : Nat)
  | matrixPassAgeing (cluster : Nat)
  | matrixPassRetire (cluster index : Nat)
  | bandOpCompletion (first : Nat)
  | stageFiring (first stage : Nat)
  | rareEventGroup (first : Nat)
  | rowWakeDone (first row : Nat)
  | rowInstallDone (first row : Nat)
  | rowLower (first row : Nat)
  | rowHoist (first row : Nat)
  | configStoreReload (first row : Nat)
  | portSpillRetry (first port : Nat)
  | longLatencyResult (g : Nat)
  | groupUnpark (g : Nat)
  | activeSetEntry (core : Nat)
  | groupStarvation (g : Nat)
  | trapDelivery (g : Nat)
  | copyExecute (sector ctx : Nat)
  | iseExecute (die ctx : Nat)
  | iseSpillRetry (die ctx elem : Nat)
  | engineOpCompletion (kind unit ctx : Nat)
  | translationFaultRecord (tag : Nat)
  | translationFaultTimeout (tag : Nat)
  | xlresRetry (part tag : Nat)
  | xlresFail (part tag : Nat)
  | tlbInvalidate (part : Nat)
  | invalidationComplete (part : Nat)
  | hopCommit (block : Nat)
  | hopDisarm (block : Nat)
  | codeObjectLoad (part addr : Nat) (places : List KernelPlace)
  | coldGranuleCopy (handle granule : Nat)
  | icacheFill (cluster line : Nat)
  | queueNotify (part queue value : Nat)
  | queueSlotMap (part queue : Nat)
  | launchBegin (part queue : Nat)
  | blockPlacement (launch core : Nat)
  | blockEnd (block : Nat)
  | launchCompletion (launch : Nat)
  | hangFreeze (block : Nat)
  | eqLoadQueue (part id : Nat)
  | eqLoadGroup (part id : Nat)
  | eqUnloadQueue (part id : Nat)
  | eqUnloadGroup (part id : Nat)
  | queueUnloadComplete (queue : Nat)
  | equDispatchDecision
  | combineMark (launch : Nat)
  | preemption (block : Nat)
  | blockRestore (block core : Nat)
  | partitionCreate (part : Nat) (sectors groups : List Nat) (nonce : BitVec 256)
  | partitionDestroy (part : Nat)
  | secondStageEdit (part addr : Nat) (entry : Dword) (command : List Byte)
  | partitionSwapOut (part : Nat)
  | partitionSwapIn (part : Nat)
  | getMeasurements (index : Nat) (signed : Bool)
  | epochClose (part : Nat)
  | ideStreamViolation (part : Nat)
  | hypervisorRegisterWrite (part num : Nat) (high : Bool) (value : Dword)
  | halt (part addr : Nat)
  | save (part addr : Nat)
  | restore (part addr : Nat)
  | resume (part addr : Nat)
  | kill (part addr : Nat)
  | release (part addr : Nat)
  | detach (part addr : Nat)
  | counterIntervalRecord (bank : Nat)
  | traceSample (unit : Nat)
  | uncorrectableError (site : ErrorSite)
  | hbmScrub (pseudoChannel : Nat)
  | operatingPointChange (island point : Nat)
  | deviceReset (steps : List StepOutcome)
  | enterTest
  | leaveTest
  | leaveRecovery
  | checkpoint
  | checkpointRestore
  | linkPortDown (port : Nat)
  | linkPortTrained (port : Nat)
  | storeQueueDrain (core index : Nat)
  | memoryPortElement (first port : Nat)
  | tdispRequest (part : Nat) (wanted : Tdisp)
  | hostBarRequest (part addr : Nat) (write : Option (List Byte)) (bytes : Nat)
  | peerWindowAccess (part gpa : Nat) (write : Option (List Byte)) (bytes : Nat)
  | startRecordClear
  | repairMapAdd (clusters : List Nat) (rows : RowsAndColumns)
  deriving DecidableEq, Repr

end Sys2Proof
end

