-- ==== Sys2Proof/Config.lean ====
section
/-! DEFINITION. What the manual leaves open. Each constant has no body: nothing can be proved of its value, so
what holds in the model holds for every value. They are applied to `State.free`, a counter that every draw
advances, or to the operands of which the value is a function (R41). -/

namespace Sys2Proof.Config

/-- A dword the manual leaves undefined (log 5). -/
opaque freeDword : Nat → Dword
/-- A word the manual leaves undefined (log 5). -/
opaque freeWord : Nat → Word
/-- A choice among a finite number of outcomes, or an amount, that the manual leaves open (log 5). -/
opaque freeNat : Nat → Nat

/-- The condition of a stage's `cmp` of a type (log 5). -/
opaque stageCond : Nat → Nat
/-- The high half of a 64-bit operand of a stage word, from its slot and the 32-bit value there (log 5). -/
opaque stageHigh : Nat → Word → Word
/-- A lane of a null token read as an operand (log 5). -/
opaque nullLane : Nat → Word

/-- What lane `l` receives from a block encoder whose group a fault has cut, and at 32 its flags: from its modes, the lanes
the group has, those that take part, its operands and its generators (log 47). -/
opaque cutLane (dx : Bool) (fmt : Fmt) (rnd : Rnd) (sat : Bool) (have_ on : Word) (vals gens : List Dword) (l : Nat) : Dword
/-- What a `pack` finds in an out port's element: from its modes, its field and its operands (log 5). -/
opaque packOut (dst src : Fmt) (rnd : Rnd) (sat : Bool) (j : Nat) (a b : Dword) (g : Word) : Dword
/-- What a port whose stream has no element left supplies as an operand (log 5). -/
opaque noElement : Dword
/-- The 32-bit value a port takes from an 8-byte element (log 5). -/
opaque longElement : Dword → Word
/-- A of a lane in which the partner of a `shfl.x` has no member: from the mode, the issuer's members, lanes, A and b, the
partner's, and the lane (log 5). -/
opaque noMember (mode : ShflMode) (members lanes : Word) (vals : List Dword) (ops : List Word) (members' lanes' : Word)
  (vals' : List Dword) (ops' : List Word) (l : Nat) : Dword

/-- R408: the UNIT that names an engine context, given by kind, instance and context (log 5). -/
opaque contextNumber : Nat → Nat → Nat → Nat
/-- R377: the meter configuration of a partition (log 8). -/
opaque meterConfig : Nat → Dword

end Sys2Proof.Config
end

