-- ==== Sys2Proof/WellFormed.lean ====
section
/-! DEFINITION. Which instruction words are well formed by themselves: the part of R90 to R102 and of R111
that looks at one word and at nothing else. What a word may name in the model and mode that issues it
(register families, handler registers, pairs) is `Sys2Proof.Machine.legal`. -/

namespace Sys2Proof

/-- R90: PRED = 7 and SENSE = 0. -/
def Fixed.whole (f : Fixed) : Bool := f.pred == 7 && !f.sense

/-- A register of the group as a whole: s, or h in a handler (R390). -/
def Reg.scalar : Reg → Bool
  | .s _ => true
  | .h _ => true
  | _ => false

/-- The operand field is used. -/
def Reg.used (r : Reg) : Bool := r != .none

/-- The operand field holds 0x1FF. -/
def Reg.absent (r : Reg) : Bool := r == .none

namespace Ty

/-- R98: types 0x0 to 0x7. -/
def integer : Ty → Bool
  | .i32 | .n32 | .i64 | .n64 | .i16x2 | .n16x2 | .i8x4 | .n8x4 => true
  | _ => false

/-- R122: the types SALU and SALUI accept. -/
def wholeInt : Ty → Bool
  | .i32 | .n32 | .i64 | .n64 => true
  | _ => false

/-- R135: the types TRN accepts. -/
def trn : Ty → Bool
  | .f32 | .bf16x2 => true
  | _ => false

/-- R117, R130: types whose lane value is 64 bits. -/
def wide : Ty → Bool
  | .i64 | .n64 | .f64 => true
  | _ => false

/-- R120: signed element types. -/
def signed : Ty → Bool
  | .i32 | .i64 | .i16x2 | .i8x4 => true
  | _ => false

end Ty

namespace Fmt

/-- R136: the scalar floating formats, e8m0 and the integer formats. -/
def plain : Fmt → Bool
  | .mxf8e5 | .mxf8e4 | .mxf6e3 | .mxf6e2 | .mxf4 | .mxi8 | .dx8 | .dx6 | .dx4 | .dx3 => false
  | _ => true

def mx : Fmt → Bool
  | .mxf8e5 | .mxf8e4 | .mxf6e3 | .mxf6e2 | .mxf4 | .mxi8 => true
  | _ => false

def dx : Fmt → Bool
  | .dx8 | .dx6 | .dx4 | .dx3 => true
  | _ => false

/-- R137: the elements of a packable format in a 32-bit register; 0 for a format that is not packable. -/
def perWord : Fmt → Nat
  | .bf16 | .f16 | .i16 => 2
  | .e5m2 | .e4m3 | .e8m0 | .i8 | .n8 | .mxf8e5 | .mxf8e4 | .mxi8 | .dx8 => 4
  | .e3m2 | .e2m3 | .mxf6e3 | .mxf6e2 | .dx6 | .dx3 => 4
  | .e2m1 | .i4 | .n4 | .mxf4 | .dx4 => 8
  | .i2 => 16
  | _ => 0

end Fmt

/-- R120: the operations that accept `.sat`. -/
def intSat (op : Nat) : Bool := [0, 1, 2, 4, 13, 15].contains op

/-- R120: the operations with an immediate form. -/
def intImm (op : Nat) : Bool := !([4, 13, 15].contains op)

/-- R120: the operations with one source. -/
def intUnary (op : Nat) : Bool := [13, 14, 15].contains op

/-- R119 to R123: integer operation `op` in one of its four classes. -/
def IntForm.wf (op : Nat) (f : Fixed) : IntForm → Bool
  | .salu ty d a b c sat => ty.wholeInt && f.whole && d.used && a.used && (b.used == !intUnary op) &&
      (c.used == (op == 4)) && (!sat || intSat op)
  | .valu ty d a b c sat => ty.integer && d.used && a.used && (b.used == !intUnary op) &&
      (c.used == (op == 4)) && (!sat || intSat op)
  | .salui ty d a _ sat => ty.wholeInt && f.whole && d.used && (a.used == (op != 14)) && intImm op &&
      (!sat || intSat op)
  | .valui ty d a _ sat => ty.integer && d.used && (a.used == (op != 14)) && intImm op &&
      (!sat || intSat op)

/-- R128: bit operation `op`. -/
def BitForm.wf (op : Nat) (o : BitForm) : Bool :=
  o.ty.integer && o.d.used && o.a.used && (o.b.used == decide (3 ≤ op)) && (o.c.used == (op == 4))

/-- R129: a compare. -/
def cmpWf (cond : Cond) (o : BitForm) : Bool :=
  o.d.used && o.a.used && o.b.used && o.c.absent && (!o.ty.integer || (cond != .un && cond != .or))

/-- R133: floating operation `op`. -/
def FaluForm.wf (op : Nat) (o : FaluForm) : Bool :=
  !o.ty.integer && o.d.used && o.a.used && (o.b.used == decide (op ≤ 6)) &&
    (o.c.used == (op == 3 || op == 4)) && (decide (op ≤ 4) || (!o.sat && o.rnd == .rne))

/-- R135: `root`: the word is `sqrt`, the only one that rounds by RND. -/
def TrnForm.wf (root : Bool) (o : TrnForm) : Bool :=
  o.ty.trn && o.d.used && o.a.used && (root || o.rnd == .rne)

/-- R136, R139: `kind` 0 `cvt`, 1 `pack`, 2 `unpack`. DESIGN CHOICE (log 55): a `pack` to an MX format may carry SAT = 1, which has
no effect there. -/
def CvtForm.wf (kind : Nat) (o : CvtForm) : Bool :=
  o.d.used && o.a.used &&
    match kind with
    | 0 => o.src.plain && o.dst.plain && o.b.absent && o.j == 0
    | 1 => (o.src == .f32 || o.src == .e8m10 || o.src == .i32) && decide (o.j.toNat < o.dst.perWord) &&
        (o.b.used == !o.dst.plain) && (!o.dst.dx || (!o.sat && o.rnd == .rne))
    | _ => (o.dst == .f32 || o.dst == .i32) && decide (o.j.toNat < o.src.perWord) &&
        (o.b.used == !o.src.plain) && (!o.src.dx || o.rnd == .rne)

/-- R140: `kind` 0 `dxenc`, 1 `dxdec`, 2 `mxenc`, 3 `mxdec`. -/
def BlkForm.wf (kind : Nat) (o : BlkForm) : Bool :=
  o.d.used && o.a.used &&
    match kind with
    | 0 => o.fmt.dx && o.rnd == .rne
    | 1 => o.fmt.dx && o.rnd == .rne && !o.sat
    | 2 => o.fmt.mx && !o.sat
    | _ => o.fmt.mx

/-- R148: the spaces, modes and types of loads (`store` false) and stores. -/
def MemForm.wf (store : Bool) (f : Fixed) (o : MemForm) : Bool :=
  o.data.used && (o.base.used == (o.mode != .absolute)) && (!o.data.scalar || f.whole) &&
    (match o.mode with
      | .scalar => true
      | .lane => o.space != .k
      | .absolute => o.space != .g) &&
    (!store || (o.space != .k && o.ty != .n8 && o.ty != .n16))

/-- R151: `op` is the operation field. -/
def AtomForm.wf (op : Nat) (f : Fixed) (o : AtomForm) : Bool :=
  o.data.used && (!o.data.scalar || f.whole) && (o.base.used || (o.loc && !o.lane)) &&
    (decide (op < 8) || !o.uns) &&
    (op != 8 || o.ord == .rlx || o.ord == .acq) && (op != 9 || o.ord == .rlx || o.ord == .rel) &&
    (!o.loc || o.scope == .grp || o.scope == .core)

/-- R156: compress-store and expand-load; STOP is illegal. -/
def csxWf (f : Fixed) (o : AddrForm) : Bool := !f.stop && o.data.used && o.base.used

/-- R173: barrier words; only `tbar.arrive` may lack DATA. -/
def tbarWf (arrive : Bool) (f : Fixed) (o : AddrForm) : Bool := f.whole && (arrive || o.data.used)

/-- R193: a shuffle; `x`: across cores. -/
def ShflForm.wf (x : Bool) (o : ShflForm) : Bool :=
  o.d.used && o.a.used && o.b.used && (o.c.used == x)

/-- R196: a multiple of 8 from 8 to 256. -/
def allocWf (n : BitVec 25) : Bool := n.toNat % 8 == 0 && decide (8 ≤ n.toNat) && decide (n.toNat ≤ 256)

/-- Which of D, A, B and C a word names. -/
def Ops4.named (o : Ops4) (d a b c : Bool) : Bool :=
  o.d.used == d && o.a.used == a && o.b.used == b && o.c.used == c

/-- R206: the checks of every word of class 0x29. -/
def sysWf (f : Fixed) : Bool := f.whole && !f.stop

namespace Instr

/-- The word obeys every rule of R90 to R111 that one word decides. Steps that are no words are
well formed. -/
def wf : Instr → Bool
  | .nop _ => true
  | .addInteger f o => o.wf 0 f
  | .subInteger f o => o.wf 1 f
  | .mulInteger f o => o.wf 2 f
  | .mulhi f o => o.wf 3 f
  | .madInteger f o => o.wf 4 f
  | .andInteger f o => o.wf 5 f
  | .orInteger f o => o.wf 6 f
  | .xorInteger f o => o.wf 7 f
  | .shl f o => o.wf 8 f
  | .shr f o => o.wf 9 f
  | .sar f o => o.wf 10 f
  | .minInteger f o => o.wf 11 f
  | .maxInteger f o => o.wf 12 f
  | .absInteger f o => o.wf 13 f
  | .movInteger f o => o.wf 14 f
  | .negInteger f o => o.wf 15 f
  | .popc _ o => o.wf 0
  | .clz _ o => o.wf 1
  | .brev _ o => o.wf 2
  | .bfe _ o => o.wf 3
  | .bfi _ o => o.wf 4
  | .cmp _ cond o => cmpWf cond o
  | .sel _ o => o.d.used && o.a.used && o.b.used && o.c.used
  | .pand _ o => o.named true true true false
  | .por _ o => o.named true true true false
  | .pxor _ o => o.named true true true false
  | .pnot _ o => o.named true true false false
  | .addFloat _ o => o.wf 0
  | .subFloat _ o => o.wf 1
  | .mulFloat _ o => o.wf 2
  | .fma _ o => o.wf 3
  | .fnma _ o => o.wf 4
  | .minFloat _ o => o.wf 5
  | .maxFloat _ o => o.wf 6
  | .absFloat _ o => o.wf 7
  | .negFloat _ o => o.wf 8
  | .rcp _ o => o.wf false
  | .rsqrt _ o => o.wf false
  | .sqrt _ o => o.wf true
  | .exp2 _ o => o.wf false
  | .log2 _ o => o.wf false
  | .sinpi _ o => o.wf false
  | .cospi _ o => o.wf false
  | .tanh _ o => o.wf false
  | .cvt _ o => o.wf 0
  | .pack _ o => o.wf 1
  | .unpack _ o => o.wf 2
  | .dxenc _ o => o.wf 0
  | .dxdec _ o => o.wf 1
  | .mxenc _ o => o.wf 2
  | .mxdec _ o => o.wf 3
  | .crd f d _ => d.used && (!d.scalar || f.whole)
  | .cwr f a _ => a.used && (!a.scalar || f.whole)
  | .li f d _ => d.used && (!d.scalar || f.whole)
  | .lih f d imm => d.used && (!d.scalar || f.whole) && decide (imm.toNat < 536870912)
  | .liPair _ d _ => d.used && !d.scalar
  | .ld f o => o.wf false f
  | .st f o => o.wf true f
  | .atomAdd f o => o.wf 0 f
  | .atomMin f o => o.wf 1 f
  | .atomMax f o => o.wf 2 f
  | .atomAnd f o => o.wf 3 f
  | .atomOr f o => o.wf 4 f
  | .atomXor f o => o.wf 5 f
  | .atomXchg f o => o.wf 6 f
  | .atomCas f o => o.wf 7 f
  | .atomLd f o => o.wf 8 f
  | .atomSt f o => o.wf 9 f
  | .fence f _ ord => f.whole && ord != .rlx
  | .cstore f _ o => csxWf f o
  | .xload f _ o => csxWf f o
  | .acopy f o => f.whole && o.named true true true o.c.used
  | .acopyPull f o => f.whole && o.named true true true o.c.used
  | .gath f o => f.whole && o.named true true true false
  | .scat f o => f.whole && o.named true true true false
  | .tlwait f _ a _ => f.whole && a.used
  | .tlbind f d a imm => f.whole && d.used && a.used && imm == 0
  | .tlread f d a imm => f.whole && d.used && a.used && imm == 0
  | .tbarInit f o => tbarWf false f o
  | .tbarArrive f o => tbarWf true f o
  | .tbarExpect f o => tbarWf false f o
  | .tbarWait f o => tbarWf false f o
  | .predhint f => f.whole
  | .waitpred f => f.whole
  | .br _ _ => true
  | .call _ _ => true
  | .brind f a => f.whole && a.used
  | .callind f d a => f.whole && d.used && a.used
  | .ret f a => f.whole && a.used
  | .gjoin f a _ => f.whole && a.used
  | .gleave _ => true
  | .elect _ d => d.used
  | .ballot _ d => d.used
  | .shfl _ o => o.wf false
  | .shflX _ o => o.wf true
  | .grow f n => f.whole && allocWf n
  | .shrink f n => f.whole && allocWf n
  | .spawn _ o => o.named true true true false
  | .klaunch f o => f.whole && o.named true true true false
  | .eqenq _ o => o.named true true true false
  | .eqstat f o => f.whole && o.named true true false false
  | .hopReq f n => f.whole && decide (n.toNat ≤ 3)
  | .mwait f _ o _ ord => f.whole && o.data.used && o.base.used && (ord == .rlx || ord == .acq)
  | .trap f _ => sysWf f
  | .tret f => sysWf f
  | .cnclaim f o => sysWf f && o.named true true false false
  | .cnfree f o => sysWf f && o.named false true false false
  | .xrd f o => sysWf f && o.named true true false false
  | .xwr f o => sysWf f && o.named true true false false
  | .tcfg f o => f.whole && o.named true true false false
  | .mma f _ _ o => f.whole && o.named true true true true
  | .mmaPair f _ _ o => f.whole && o.named true true true true
  | .aalloc f o => f.whole && o.named true true false false
  | .afree f o => f.whole && o.named false true false false
  | .aclaim f o => f.whole && o.named true true false false
  | .ard f _ o => (!o.d.scalar || f.whole) && o.named true true false false
  | .azero f o => f.whole && o.named false true false false
  | .vstrip f o => f.whole && o.named false true false false
  | .vsrc f o => f.whole && o.named true true false false
  | .vsnk f o => f.whole && o.named true true false false
  | .vaccReset f o => f.whole && o.named true o.a.used false false
  | .vdrain f o => f.whole && o.named false false false false
  | .fload f o => f.whole && o.named true true true o.c.used
  | .frun f o => f.whole && o.named true true true o.c.used
  | .fdrain f o => f.whole && o.named true false true o.c.used
  | .fsave f o => f.whole && o.named true true true o.c.used
  | .fpush _ _ _ o => o.named true true true false
  | .fpop _ _ o => o.named true true false true
  | .shflXMatch .. | .rowGrant .. | .groupSwapIn .. | .allocationSetReturn .. | .mwaitRecheck ..
  | .matrixPassGrant .. | .matrixPassAgeing .. | .matrixPassRetire .. | .bandOpCompletion ..
  | .stageFiring .. | .rareEventGroup .. | .rowWakeDone .. | .rowInstallDone .. | .rowLower ..
  | .rowHoist .. | .configStoreReload .. | .portSpillRetry .. | .longLatencyResult .. | .groupUnpark ..
  | .activeSetEntry .. | .groupStarvation .. | .trapDelivery .. | .copyExecute .. | .iseExecute ..
  | .iseSpillRetry .. | .engineOpCompletion .. | .translationFaultRecord .. | .translationFaultTimeout ..
  | .xlresRetry .. | .xlresFail .. | .tlbInvalidate .. | .invalidationComplete .. | .hopCommit ..
  | .hopDisarm .. | .codeObjectLoad .. | .coldGranuleCopy .. | .icacheFill .. | .queueNotify ..
  | .queueSlotMap .. | .launchBegin .. | .blockPlacement .. | .blockEnd .. | .launchCompletion ..
  | .hangFreeze .. | .eqLoadQueue .. | .eqLoadGroup .. | .eqUnloadQueue .. | .eqUnloadGroup ..
  | .queueUnloadComplete .. | .equDispatchDecision | .combineMark .. | .preemption .. | .blockRestore ..
  | .partitionCreate .. | .partitionDestroy .. | .secondStageEdit .. | .partitionSwapOut ..
  | .partitionSwapIn .. | .getMeasurements .. | .epochClose .. | .ideStreamViolation ..
  | .hypervisorRegisterWrite .. | .halt .. | .save .. | .restore .. | .resume .. | .kill .. | .release ..
  | .detach .. | .counterIntervalRecord .. | .traceSample .. | .uncorrectableError .. | .hbmScrub ..
  | .operatingPointChange .. | .deviceReset .. | .enterTest | .leaveTest | .leaveRecovery | .checkpoint
  | .checkpointRestore | .linkPortDown .. | .linkPortTrained .. | .storeQueueDrain ..
  | .memoryPortElement .. | .tdispRequest .. | .hostBarRequest .. | .peerWindowAccess ..
  | .startRecordClear | .repairMapAdd .. => true

/-- The row is an instruction word, which a core fetches; the other rows are steps nobody fetches. -/
def isWord : Instr → Bool
  | .shflXMatch .. | .rowGrant .. | .groupSwapIn .. | .allocationSetReturn .. | .mwaitRecheck ..
  | .matrixPassGrant .. | .matrixPassAgeing .. | .matrixPassRetire .. | .bandOpCompletion ..
  | .stageFiring .. | .rareEventGroup .. | .rowWakeDone .. | .rowInstallDone .. | .rowLower ..
  | .rowHoist .. | .configStoreReload .. | .portSpillRetry .. | .longLatencyResult .. | .groupUnpark ..
  | .activeSetEntry .. | .groupStarvation .. | .trapDelivery .. | .copyExecute .. | .iseExecute ..
  | .iseSpillRetry .. | .engineOpCompletion .. | .translationFaultRecord .. | .translationFaultTimeout ..
  | .xlresRetry .. | .xlresFail .. | .tlbInvalidate .. | .invalidationComplete .. | .hopCommit ..
  | .hopDisarm .. | .codeObjectLoad .. | .coldGranuleCopy .. | .icacheFill .. | .queueNotify ..
  | .queueSlotMap .. | .launchBegin .. | .blockPlacement .. | .blockEnd .. | .launchCompletion ..
  | .hangFreeze .. | .eqLoadQueue .. | .eqLoadGroup .. | .eqUnloadQueue .. | .eqUnloadGroup ..
  | .queueUnloadComplete .. | .equDispatchDecision | .combineMark .. | .preemption .. | .blockRestore ..
  | .partitionCreate .. | .partitionDestroy .. | .secondStageEdit .. | .partitionSwapOut ..
  | .partitionSwapIn .. | .getMeasurements .. | .epochClose .. | .ideStreamViolation ..
  | .hypervisorRegisterWrite .. | .halt .. | .save .. | .restore .. | .resume .. | .kill .. | .release ..
  | .detach .. | .counterIntervalRecord .. | .traceSample .. | .uncorrectableError .. | .hbmScrub ..
  | .operatingPointChange .. | .deviceReset .. | .enterTest | .leaveTest | .leaveRecovery | .checkpoint
  | .checkpointRestore | .linkPortDown .. | .linkPortTrained .. | .storeQueueDrain ..
  | .memoryPortElement .. | .tdispRequest .. | .hostBarRequest .. | .peerWindowAccess ..
  | .startRecordClear | .repairMapAdd .. => false
  | _ => true

end Instr

end Sys2Proof
end

