-- ==== Sys2Proof/Decode.lean ====
section
/-! DEFINITION. The decoder: the fixed fields of R89, the formats of R92 to R96 and the opcode map of R100,
total on any 64 bits; then the encoder, written from the same tables. `classify` gives the first answer of
R113 (is the class and minor pair assigned at all), `decode` the whole word. -/

namespace Sys2Proof

/-! ## Field codes -/

/-- R91. -/
def Reg.ofCode (c : BitVec 9) : Option Reg :=
  let n := c.toNat
  if n < 0x100 then some (.v (.ofNat 8 n))
  else if n < 0x140 then some (.s (.ofNat 6 (n - 0x100)))
  else if n < 0x148 then some (.p (.ofNat 3 (n - 0x140)))
  else if n < 0x158 then some (.t (.ofNat 4 (n - 0x148)))
  else if n < 0x160 then some (.tl (.ofNat 3 (n - 0x158)))
  else if n < 0x168 then some (.inp (.ofNat 3 (n - 0x160)))
  else if n < 0x16C then some (.outp (.ofNat 2 (n - 0x168)))
  else if n < 0x170 then Option.none
  else if n < 0x178 then some (.ac (.ofNat 3 (n - 0x170)))
  else if n < 0x180 then Option.none
  else if n < 0x1A0 then some (.h (.ofNat 5 (n - 0x180)))
  else if n < 0x1B0 then some (.hv (.ofNat 4 (n - 0x1A0)))
  else if n = 0x1FF then some .none
  else Option.none

/-- R91. -/
def Reg.code : Reg → BitVec 9
  | .v n => .ofNat 9 n.toNat
  | .s n => .ofNat 9 (0x100 + n.toNat)
  | .p n => .ofNat 9 (0x140 + n.toNat)
  | .t n => .ofNat 9 (0x148 + n.toNat)
  | .tl n => .ofNat 9 (0x158 + n.toNat)
  | .inp n => .ofNat 9 (0x160 + n.toNat)
  | .outp n => .ofNat 9 (0x168 + n.toNat)
  | .ac n => .ofNat 9 (0x170 + n.toNat)
  | .h n => .ofNat 9 (0x180 + n.toNat)
  | .hv n => .ofNat 9 (0x1A0 + n.toNat)
  | .none => 0x1FF

/-- R98. -/
def Ty.ofCode (c : BitVec 4) : Option Ty :=
  match c.toNat with
  | 0x0 => some .i32 | 0x1 => some .n32 | 0x2 => some .i64 | 0x3 => some .n64
  | 0x4 => some .i16x2 | 0x5 => some .n16x2 | 0x6 => some .i8x4 | 0x7 => some .n8x4
  | 0x8 => some .f32 | 0x9 => some .e8m10 | 0xA => some .bf16x2 | 0xB => some .f16x2 | 0xC => some .f64
  | _ => none

/-- R98. -/
def Ty.code : Ty → BitVec 4
  | .i32 => 0x0 | .n32 => 0x1 | .i64 => 0x2 | .n64 => 0x3
  | .i16x2 => 0x4 | .n16x2 => 0x5 | .i8x4 => 0x6 | .n8x4 => 0x7
  | .f32 => 0x8 | .e8m10 => 0x9 | .bf16x2 => 0xA | .f16x2 => 0xB | .f64 => 0xC

/-- R99. -/
def Fmt.ofCode (c : BitVec 5) : Option Fmt :=
  match c.toNat with
  | 0x00 => some .f64 | 0x01 => some .f32 | 0x02 => some .e8m10 | 0x03 => some .bf16 | 0x04 => some .f16
  | 0x05 => some .e5m2 | 0x06 => some .e4m3 | 0x07 => some .e3m2 | 0x08 => some .e2m3 | 0x09 => some .e2m1
  | 0x0A => some .e8m0 | 0x0B => some .mxf8e5 | 0x0C => some .mxf8e4 | 0x0D => some .mxf6e3
  | 0x0E => some .mxf6e2 | 0x0F => some .mxf4 | 0x10 => some .mxi8 | 0x11 => some .dx8 | 0x12 => some .dx6
  | 0x13 => some .dx4 | 0x14 => some .dx3 | 0x15 => some .i32 | 0x16 => some .i16 | 0x17 => some .i8
  | 0x18 => some .i4 | 0x19 => some .i2 | 0x1A => some .n8 | 0x1B => some .n4
  | _ => none

/-- R99. -/
def Fmt.code : Fmt → BitVec 5
  | .f64 => 0x00 | .f32 => 0x01 | .e8m10 => 0x02 | .bf16 => 0x03 | .f16 => 0x04
  | .e5m2 => 0x05 | .e4m3 => 0x06 | .e3m2 => 0x07 | .e2m3 => 0x08 | .e2m1 => 0x09
  | .e8m0 => 0x0A | .mxf8e5 => 0x0B | .mxf8e4 => 0x0C | .mxf6e3 => 0x0D
  | .mxf6e2 => 0x0E | .mxf4 => 0x0F | .mxi8 => 0x10 | .dx8 => 0x11 | .dx6 => 0x12
  | .dx4 => 0x13 | .dx3 => 0x14 | .i32 => 0x15 | .i16 => 0x16 | .i8 => 0x17
  | .i4 => 0x18 | .i2 => 0x19 | .n8 => 0x1A | .n4 => 0x1B

/-- R97. -/
def Rnd.ofCode (c : BitVec 3) : Option Rnd :=
  match c.toNat with
  | 0 => some .rne | 1 => some .rz | 2 => some .rp | 3 => some .rm | 4 => some .rs
  | _ => none

/-- R97. -/
def Rnd.code : Rnd → BitVec 3
  | .rne => 0 | .rz => 1 | .rp => 2 | .rm => 3 | .rs => 4

/-- R97. -/
def Scope.ofCode (c : BitVec 3) : Option Scope :=
  match c.toNat with
  | 0 => some .grp | 1 => some .core | 2 => some .clu | 3 => some .die | 4 => some .dev | 5 => some .sys
  | _ => none

/-- R97. -/
def Scope.code : Scope → BitVec 3
  | .grp => 0 | .core => 1 | .clu => 2 | .die => 3 | .dev => 4 | .sys => 5

/-- R97. -/
def Order.ofCode (c : BitVec 2) : Order :=
  match c.toNat with
  | 0 => .rlx | 1 => .acq | 2 => .rel
  | _ => .acqrel

/-- R97. -/
def Order.code : Order → BitVec 2
  | .rlx => 0 | .acq => 1 | .rel => 2 | .acqrel => 3

/-- R100: spaces of classes 0x10 and 0x11. -/
def Space.ofCode (c : BitVec 2) : Option Space :=
  match c.toNat with
  | 0 => some .g | 1 => some .l | 2 => some .k
  | _ => none

def Space.code : Space → BitVec 2
  | .g => 0 | .l => 1 | .k => 2

/-- R101. -/
def MemTy.ofCode (c : BitVec 4) : Option MemTy :=
  match c.toNat with
  | 0 => some .i8 | 1 => some .n8 | 2 => some .i16 | 3 => some .n16 | 4 => some .i32 | 5 => some .i64
  | 6 => some .i128
  | _ => none

def MemTy.code : MemTy → BitVec 4
  | .i8 => 0 | .n8 => 1 | .i16 => 2 | .n16 => 3 | .i32 => 4 | .i64 => 5 | .i128 => 6

/-- R101. -/
def Mode.ofCode (c : BitVec 2) : Option Mode :=
  match c.toNat with
  | 0 => some .scalar | 1 => some .lane | 2 => some .absolute
  | _ => none

def Mode.code : Mode → BitVec 2
  | .scalar => 0 | .lane => 1 | .absolute => 2

/-- R129. -/
def Cond.ofCode (c : BitVec 4) : Option Cond :=
  match c.toNat with
  | 0 => some .eq | 1 => some .ne | 2 => some .lt | 3 => some .le | 4 => some .gt | 5 => some .ge
  | 6 => some .un | 7 => some .or
  | _ => none

def Cond.code : Cond → BitVec 4
  | .eq => 0 | .ne => 1 | .lt => 2 | .le => 3 | .gt => 4 | .ge => 5 | .un => 6 | .or => 7

/-- R193. -/
def ShflMode.ofCode (c : BitVec 2) : ShflMode :=
  match c.toNat with
  | 0 => .idx | 1 => .up | 2 => .down
  | _ => .xor

def ShflMode.code : ShflMode → BitVec 2
  | .idx => 0 | .up => 1 | .down => 2 | .xor => 3

/-- R205. -/
def WaitCond.ofCode (n : Nat) : Option WaitCond :=
  match n with
  | 0 => some .eq | 1 => some .ne | 2 => some .ge
  | _ => none

def WaitCond.code : WaitCond → Nat
  | .eq => 0 | .ne => 1 | .ge => 2

/-- A one-bit field as a Bool, and back. -/
abbrev bitOf (c : BitVec 1) : Bool := c == 1
abbrev ofBit (b : Bool) : BitVec 1 := if b then 1 else 0

/-! ## Formats -/

/-- R89. -/
def classOf (w : Dword) : Nat := (w.extractLsb' 56 6).toNat
/-- R89. -/
def minorOf (w : Dword) : Nat := (w.extractLsb' 48 8).toNat

/-- R89. -/
def fixedOf (w : Dword) : Fixed :=
  { sw := bitOf (w.extractLsb' 63 1), stop := bitOf (w.extractLsb' 62 1), pred := w.extractLsb' 13 3,
    sense := bitOf (w.extractLsb' 12 1) }

/-- R92: format X. -/
structure FormX where
  f : Fixed
  d : BitVec 9
  a : BitVec 9
  b : BitVec 9
  sat : Bool
  aux : BitVec 4
  c : BitVec 9
  rnd : BitVec 3
  deriving DecidableEq, Repr

/-- R93: format I. -/
structure FormI where
  f : Fixed
  d : BitVec 9
  a : BitVec 9
  imm : BitVec 25
  sat : Bool
  deriving DecidableEq, Repr

/-- R94: format M. -/
structure FormM where
  f : Fixed
  data : BitVec 9
  base : BitVec 9
  off : BitVec 21
  scope : BitVec 3
  ord : BitVec 2
  deriving DecidableEq, Repr

/-- R95: format L. -/
structure FormL where
  f : Fixed
  d : BitVec 9
  imm : BitVec 35
  deriving DecidableEq, Repr

/-- R96: format B; `res` is its reserved field. -/
structure FormB where
  f : Fixed
  off : BitVec 32
  res : BitVec 12
  deriving DecidableEq, Repr

/-- R92. -/
def FormX.read (w : Dword) : FormX :=
  { f := fixedOf w, d := w.extractLsb' 39 9, a := w.extractLsb' 30 9, b := w.extractLsb' 21 9,
    sat := bitOf (w.extractLsb' 20 1), aux := w.extractLsb' 16 4, c := w.extractLsb' 3 9,
    rnd := w.extractLsb' 0 3 }

/-- R93: the immediate is IMMH ∥ IMML. -/
def FormI.read (w : Dword) : FormI :=
  { f := fixedOf w, d := w.extractLsb' 39 9, a := w.extractLsb' 30 9,
    imm := w.extractLsb' 16 14 ++ w.extractLsb' 0 11, sat := bitOf (w.extractLsb' 11 1) }

/-- R94: the offset is OFFH ∥ OFFL. -/
def FormM.read (w : Dword) : FormM :=
  { f := fixedOf w, data := w.extractLsb' 39 9, base := w.extractLsb' 30 9,
    off := w.extractLsb' 16 14 ++ w.extractLsb' 5 7, scope := w.extractLsb' 2 3, ord := w.extractLsb' 0 2 }

/-- R95: the immediate is IMMH ∥ IMML. -/
def FormL.read (w : Dword) : FormL :=
  { f := fixedOf w, d := w.extractLsb' 39 9, imm := w.extractLsb' 16 23 ++ w.extractLsb' 0 12 }

/-- R96. -/
def FormB.read (w : Dword) : FormB :=
  { f := fixedOf w, off := w.extractLsb' 16 32, res := w.extractLsb' 0 12 }

/-! ## The opcode map -/

/-- R98, R100: OP ∥ TY with OP below `ops` and TY from `lo` to `hi`. -/
def opTy (minor ops lo hi : Nat) : Bool :=
  decide (minor / 16 < ops) && decide (lo ≤ minor % 16) && decide (minor % 16 ≤ hi)

/-- R100, R120, R128 to R140, R148, R151: the assigned (class, minor) pairs. -/
def assigned (cls minor : Nat) : Bool :=
  match cls with
  | 0x00 => minor == 0
  | 0x01 => opTy minor 16 0 3
  | 0x02 => opTy minor 16 0 3 && intImm (minor / 16)
  | 0x03 => opTy minor 16 0 7
  | 0x04 => opTy minor 16 0 7 && intImm (minor / 16)
  | 0x05 => opTy minor 5 0 7
  | 0x06 => opTy minor 2 0 12 || [0x20, 0x30, 0x40, 0x50].contains minor
  | 0x07 => opTy minor 9 8 12
  | 0x08 => opTy minor 8 8 8 || opTy minor 8 10 10
  | 0x09 => decide (minor / 32 < 3)
  | 0x0A => decide (minor < 64 ∧ 0x11 ≤ minor % 32 ∧ minor % 32 ≤ 0x14) ||
      decide (64 ≤ minor ∧ minor < 128 ∧ 0x0B ≤ minor % 32 ∧ minor % 32 ≤ 0x10)
  | 0x0B => decide (minor < 2)
  | 0x0C => decide (minor < 3)
  | 0x10 => decide (minor / 64 < 3)
  | 0x11 => decide (minor / 64 < 2) && minor / 4 % 16 != 1 && minor / 4 % 16 != 3
  | 0x12 => decide (minor / 16 < 10)
  | 0x13 => minor == 0
  | 0x14 => decide (minor < 4)
  | 0x15 => decide (minor < 2)
  | 0x16 => decide (minor < 2)
  | 0x17 => decide (minor < 3)
  | 0x18 => decide (minor < 4)
  | 0x19 => decide (minor < 2)
  | 0x20 => decide (minor < 2)
  | 0x21 => decide (minor < 3)
  | 0x22 => decide (minor < 4)
  | 0x23 => decide (minor < 8)
  | 0x24 => decide (minor < 2)
  | 0x25 => decide (minor < 2)
  | 0x26 => decide (minor < 2)
  | 0x27 => minor == 0
  | 0x28 => decide (minor < 3)
  | 0x29 => decide (minor < 6)
  | 0x30 => minor == 0
  | 0x31 => decide (minor < 2)
  | 0x32 => decide (minor < 5)
  | 0x33 => decide (minor < 5)
  | 0x34 => decide (minor < 6)
  | 0x38 => decide (minor < 4)
  | _ => false

/-- R100: the models each class is marked for. -/
def classModel (cls minor : Nat) (m : Model) : Bool :=
  match m with
  | .thr => !([0x33, 0x38].contains cls)
  | .vec => !([0x14, 0x22, 0x23, 0x24, 0x38].contains cls) && !(cls == 0x25 && minor == 0)
  | .spa => [0x03, 0x05, 0x06, 0x07, 0x38].contains cls

/-- R112: the features a hypervisor may mask. -/
inductive Feature where
  | me | vec | fab | copy | ise | equ | hop | klaunch | cnt
  deriving DecidableEq, Repr

/-- R112. Any word of a vector version also belongs to VEC: see `Sys2Proof.Machine.maskedBy`. -/
def featureOf (cls minor : Nat) : Option Feature :=
  match cls with
  | 0x30 | 0x31 | 0x32 => some .me
  | 0x33 => some .vec
  | 0x34 => some .fab
  | 0x15 => some .copy
  | 0x16 => some .ise
  | 0x26 => some .equ
  | 0x27 => some .hop
  | 0x25 => if minor = 1 then some .klaunch else none
  | 0x29 => if minor = 2 ∨ minor = 3 then some .cnt else none
  | _ => none

/-! ## The decoder, class by class -/

/-- `some x` when the check holds. -/
def ensure (b : Bool) (x : Option α) : Option α := if b then x else none

/-- R97, R92: SAT, AUX and RND of a word to which the entry gives none of them. -/
def FormX.bare (x : FormX) : Bool := !x.sat && x.aux == 0 && x.rnd == 0

/-- The four operands. -/
def FormX.ops (x : FormX) : Option Ops4 := do
  let d ← Reg.ofCode x.d
  let a ← Reg.ofCode x.a
  let b ← Reg.ofCode x.b
  let c ← Reg.ofCode x.c
  return { d, a, b, c }

/-- R120: operation number to instruction. -/
def intInstr (op : Nat) (f : Fixed) (o : IntForm) : Instr :=
  match op with
  | 0 => .addInteger f o | 1 => .subInteger f o | 2 => .mulInteger f o | 3 => .mulhi f o
  | 4 => .madInteger f o | 5 => .andInteger f o | 6 => .orInteger f o | 7 => .xorInteger f o
  | 8 => .shl f o | 9 => .shr f o | 10 => .sar f o | 11 => .minInteger f o | 12 => .maxInteger f o
  | 13 => .absInteger f o | 14 => .movInteger f o | _ => .negInteger f o

/-- Classes 0x01 (`scalar`) and 0x03. -/
def decIntX (scalar : Bool) (minor : Nat) (x : FormX) : Option Instr := do
  let ty ← Ty.ofCode (.ofNat 4 minor)
  let o ← x.ops
  ensure (x.aux == 0 && x.rnd == 0) <|
    some (intInstr (minor / 16) x.f
      (if scalar then .salu ty o.d o.a o.b o.c x.sat else .valu ty o.d o.a o.b o.c x.sat))

/-- Classes 0x02 (`scalar`) and 0x04. -/
def decIntI (scalar : Bool) (minor : Nat) (x : FormI) : Option Instr := do
  let ty ← Ty.ofCode (.ofNat 4 minor)
  let d ← Reg.ofCode x.d
  let a ← Reg.ofCode x.a
  some (intInstr (minor / 16) x.f
    (if scalar then .salui ty d a x.imm x.sat else .valui ty d a x.imm x.sat))

/-- Class 0x05. -/
def decBit (minor : Nat) (x : FormX) : Option Instr := do
  let ty ← Ty.ofCode (.ofNat 4 minor)
  let o ← x.ops
  let k : BitForm := { ty, d := o.d, a := o.a, b := o.b, c := o.c }
  ensure x.bare <|
    match minor / 16 with
    | 0 => some (.popc x.f k) | 1 => some (.clz x.f k) | 2 => some (.brev x.f k) | 3 => some (.bfe x.f k)
    | 4 => some (.bfi x.f k)
    | _ => none

/-- Class 0x06. -/
def decCmp (minor : Nat) (x : FormX) : Option Instr := do
  let ty ← Ty.ofCode (.ofNat 4 minor)
  let o ← x.ops
  let k : BitForm := { ty, d := o.d, a := o.a, b := o.b, c := o.c }
  ensure (!x.sat && x.rnd == 0) <|
    match minor / 16 with
    | 0 => (Cond.ofCode x.aux).map (fun c => .cmp x.f c k)
    | 1 => ensure (x.aux == 0) (some (.sel x.f k))
    | 2 => ensure (x.aux == 0 && ty == .i32) (some (.pand x.f o))
    | 3 => ensure (x.aux == 0 && ty == .i32) (some (.por x.f o))
    | 4 => ensure (x.aux == 0 && ty == .i32) (some (.pxor x.f o))
    | 5 => ensure (x.aux == 0 && ty == .i32) (some (.pnot x.f o))
    | _ => none

/-- Class 0x07. -/
def decFalu (minor : Nat) (x : FormX) : Option Instr := do
  let ty ← Ty.ofCode (.ofNat 4 minor)
  let o ← x.ops
  let rnd ← Rnd.ofCode x.rnd
  let k : FaluForm := { ty, d := o.d, a := o.a, b := o.b, c := o.c, sat := x.sat, rnd }
  ensure (x.aux == 0) <|
    match minor / 16 with
    | 0 => some (.addFloat x.f k) | 1 => some (.subFloat x.f k) | 2 => some (.mulFloat x.f k)
    | 3 => some (.fma x.f k) | 4 => some (.fnma x.f k) | 5 => some (.minFloat x.f k)
    | 6 => some (.maxFloat x.f k) | 7 => some (.absFloat x.f k) | 8 => some (.negFloat x.f k)
    | _ => none

/-- Class 0x08. -/
def decTrn (minor : Nat) (x : FormX) : Option Instr := do
  let ty ← Ty.ofCode (.ofNat 4 minor)
  let o ← x.ops
  let rnd ← Rnd.ofCode x.rnd
  let k : TrnForm := { ty, d := o.d, a := o.a, rnd }
  ensure (!x.sat && x.aux == 0 && o.b.absent && o.c.absent) <|
    match minor / 16 with
    | 0 => some (.rcp x.f k) | 1 => some (.rsqrt x.f k) | 2 => some (.sqrt x.f k)
    | 3 => some (.exp2 x.f k) | 4 => some (.log2 x.f k) | 5 => some (.sinpi x.f k)
    | 6 => some (.cospi x.f k) | 7 => some (.tanh x.f k)
    | _ => none

/-- Class 0x09: C holds the source format in [8:4] (R136). -/
def decCvt (minor : Nat) (x : FormX) : Option Instr := do
  let dst ← Fmt.ofCode (.ofNat 5 minor)
  let src ← Fmt.ofCode (x.c.extractLsb' 4 5)
  let d ← Reg.ofCode x.d
  let a ← Reg.ofCode x.a
  let b ← Reg.ofCode x.b
  let rnd ← Rnd.ofCode x.rnd
  let k : CvtForm := { dst, src, d, a, b, sat := x.sat, j := x.aux, rnd }
  ensure (x.c.extractLsb' 0 4 == 0) <|
    match minor / 32 with
    | 0 => some (.cvt x.f k) | 1 => some (.pack x.f k) | 2 => some (.unpack x.f k)
    | _ => none

/-- Class 0x0A. -/
def decBlk (minor : Nat) (x : FormX) : Option Instr := do
  let fmt ← Fmt.ofCode (.ofNat 5 minor)
  let o ← x.ops
  let rnd ← Rnd.ofCode x.rnd
  let k : BlkForm := { fmt, d := o.d, a := o.a, sat := x.sat, rnd }
  ensure (x.aux == 0 && o.b.absent && o.c.absent) <|
    match minor / 32 with
    | 0 => some (.dxenc x.f k) | 1 => some (.dxdec x.f k) | 2 => some (.mxenc x.f k)
    | 3 => some (.mxdec x.f k)
    | _ => none

/-- Class 0x0B: the unused one of D and A holds 0x1FF (R125). -/
def decCreg (minor : Nat) (x : FormI) : Option Instr := do
  let d ← Reg.ofCode x.d
  let a ← Reg.ofCode x.a
  ensure (!x.sat) <|
    match minor with
    | 0 => ensure a.absent (some (.crd x.f d x.imm))
    | 1 => ensure d.absent (some (.cwr x.f a x.imm))
    | _ => none

/-- Class 0x0C. -/
def decLimm (minor : Nat) (x : FormL) : Option Instr := do
  let d ← Reg.ofCode x.d
  match minor with
    | 0 => some (.li x.f d x.imm)
    | 1 => some (.lih x.f d x.imm)
    | 2 => some (.liPair x.f d x.imm)
    | _ => none

/-- Classes 0x10 and 0x11 (`store`). -/
def decMem (store : Bool) (minor : Nat) (x : FormM) : Option Instr := do
  let space ← Space.ofCode (.ofNat 2 (minor / 64))
  let ty ← MemTy.ofCode (.ofNat 4 (minor / 4))
  let mode ← Mode.ofCode (.ofNat 2 minor)
  let data ← Reg.ofCode x.data
  let base ← Reg.ofCode x.base
  let k : MemForm := { space, ty, mode, data, base, off := x.off }
  ensure (x.scope == 0 && x.ord == 0) <| some (if store then .st x.f k else .ld x.f k)

/-- Class 0x12. -/
def decAtom (minor : Nat) (x : FormM) : Option Instr := do
  let data ← Reg.ofCode x.data
  let base ← Reg.ofCode x.base
  let scope ← Scope.ofCode x.scope
  let k : AtomForm :=
    { w64 := minor / 8 % 2 == 1, uns := minor / 4 % 2 == 1, loc := minor / 2 % 2 == 1,
      lane := minor % 2 == 1, data, base, off := x.off, scope, ord := Order.ofCode x.ord }
  match minor / 16 with
    | 0 => some (.atomAdd x.f k) | 1 => some (.atomMin x.f k) | 2 => some (.atomMax x.f k)
    | 3 => some (.atomAnd x.f k) | 4 => some (.atomOr x.f k) | 5 => some (.atomXor x.f k)
    | 6 => some (.atomXchg x.f k) | 7 => some (.atomCas x.f k) | 8 => some (.atomLd x.f k)
    | 9 => some (.atomSt x.f k)
    | _ => none

/-- Class 0x13. -/
def decFence (x : FormM) : Option Instr := do
  let data ← Reg.ofCode x.data
  let base ← Reg.ofCode x.base
  let scope ← Scope.ofCode x.scope
  ensure (data.absent && base.absent && x.off == 0) (some (.fence x.f scope (Order.ofCode x.ord)))

/-- A format-M word whose scope and ordering fields are zero. -/
def FormM.addr (x : FormM) : Option AddrForm := do
  let data ← Reg.ofCode x.data
  let base ← Reg.ofCode x.base
  ensure (x.scope == 0 && x.ord == 0) (some { data, base, off := x.off })

/-- Class 0x14. -/
def decCsx (minor : Nat) (x : FormM) : Option Instr := do
  let k ← x.addr
  match minor with
    | 0 => some (.cstore x.f false k) | 1 => some (.cstore x.f true k)
    | 2 => some (.xload x.f false k) | 3 => some (.xload x.f true k)
    | _ => none

/-- A format-X word of four operands and nothing else. -/
def decOps (x : FormX) (make : Fixed → Ops4 → Instr) : Option Instr := do
  let o ← x.ops
  ensure x.bare (some (make x.f o))

/-- A format-X word with no operand at all. -/
def decEmpty (x : FormX) (make : Fixed → Instr) : Option Instr := do
  let o ← x.ops
  ensure (x.bare && o.named false false false false) (some (make x.f))

/-- A format-I word without SAT. -/
def decImm (x : FormI) (make : Fixed → Reg → Reg → BitVec 25 → Instr) : Option Instr := do
  let d ← Reg.ofCode x.d
  let a ← Reg.ofCode x.a
  ensure (!x.sat) (some (make x.f d a x.imm))

/-- A format-I word with an immediate and nothing else. -/
def decNum (x : FormI) (make : Fixed → BitVec 25 → Instr) : Option Instr := do
  let d ← Reg.ofCode x.d
  let a ← Reg.ofCode x.a
  ensure (!x.sat && d.absent && a.absent) (some (make x.f x.imm))

/-- Class 0x17. -/
def decTl (minor : Nat) (x : FormI) : Option Instr :=
  match minor with
  | 0 => decImm x .tlwait
  | 1 => decImm x .tlbind
  | 2 => decImm x .tlread
  | _ => none

/-- Class 0x18. -/
def decTbar (minor : Nat) (x : FormM) : Option Instr := do
  let k ← x.addr
  match minor with
    | 0 => some (.tbarInit x.f k) | 1 => some (.tbarArrive x.f k) | 2 => some (.tbarExpect x.f k)
    | 3 => some (.tbarWait x.f k)
    | _ => none

/-- Class 0x20. -/
def decBr (minor : Nat) (x : FormB) : Option Instr :=
  ensure (x.res == 0) <|
    match minor with
    | 0 => some (.br x.f x.off)
    | 1 => some (.call x.f x.off)
    | _ => none

/-- Class 0x21. -/
def decJmp (minor : Nat) (x : FormX) : Option Instr := do
  let o ← x.ops
  ensure (x.bare && o.b.absent && o.c.absent) <|
    match minor with
    | 0 => ensure o.d.absent (some (.brind x.f o.a))
    | 1 => some (.callind x.f o.d o.a)
    | 2 => ensure o.d.absent (some (.ret x.f o.a))
    | _ => none

/-- Class 0x22: minor 0x00 is format I, the others format X. -/
def decGrp (minor : Nat) (w : Dword) : Option Instr :=
  let x := FormX.read w
  match minor with
  | 0 => do
    let y := FormI.read w
    let d ← Reg.ofCode y.d
    let a ← Reg.ofCode y.a
    ensure (!y.sat && d.absent) (some (.gjoin y.f a y.imm))
  | 1 => decEmpty x .gleave
  | 2 => do
    let o ← x.ops
    ensure (x.bare && o.a.absent && o.b.absent && o.c.absent) (some (.elect x.f o.d))
  | 3 => do
    let o ← x.ops
    ensure (x.bare && o.a.absent && o.b.absent && o.c.absent) (some (.ballot x.f o.d))
  | _ => none

/-- Class 0x23. -/
def decShfl (minor : Nat) (x : FormX) : Option Instr := do
  let o ← x.ops
  let k : ShflForm :=
    { mode := ShflMode.ofCode (.ofNat 2 minor), w64 := bitOf (x.aux.extractLsb' 0 1), d := o.d, a := o.a,
      b := o.b, c := o.c }
  ensure (!x.sat && x.rnd == 0 && x.aux.extractLsb' 1 3 == 0) <|
    match minor / 4 with
    | 0 => some (.shfl x.f k)
    | 1 => some (.shflX x.f k)
    | _ => none

/-- Class 0x28. -/
def decMwait (minor : Nat) (x : FormM) : Option Instr := do
  let cond ← WaitCond.ofCode minor
  let data ← Reg.ofCode x.data
  let base ← Reg.ofCode x.base
  let scope ← Scope.ofCode x.scope
  some (.mwait x.f cond { data, base, off := x.off } scope (Order.ofCode x.ord))

/-- Class 0x29. -/
def decSys (minor : Nat) (x : FormX) : Option Instr :=
  match minor with
  | 0 => do
    let o ← x.ops
    ensure (!x.sat && x.rnd == 0 && o.named false false false false) (some (.trap x.f x.aux))
  | 1 => decEmpty x .tret
  | 2 => decOps x .cnclaim
  | 3 => decOps x .cnfree
  | 4 => decOps x .xrd
  | 5 => decOps x .xwr
  | _ => none

/-- Class 0x31: AUX holds N, and SAT is `.sat` (R218). -/
def decMma (minor : Nat) (x : FormX) : Option Instr := do
  let o ← x.ops
  ensure (x.rnd == 0 && x.aux.extractLsb' 3 1 == 0) <|
    match minor with
    | 0 => some (.mma x.f x.sat (x.aux.extractLsb' 0 3) o)
    | 1 => some (.mmaPair x.f x.sat (x.aux.extractLsb' 0 3) o)
    | _ => none

/-- Class 0x32. -/
def decAmb (minor : Nat) (x : FormX) : Option Instr :=
  match minor with
  | 0 => decOps x .aalloc
  | 1 => decOps x .afree
  | 2 => decOps x .aclaim
  | 3 => do
    let o ← x.ops
    ensure (!x.sat && x.rnd == 0 && x.aux.extractLsb' 1 3 == 0)
      (some (.ard x.f (bitOf (x.aux.extractLsb' 0 1)) o))
  | 4 => decOps x .azero
  | _ => none

/-- Class 0x33. -/
def decVctl (minor : Nat) (x : FormX) : Option Instr :=
  match minor with
  | 0 => decOps x .vstrip
  | 1 => decOps x .vsrc
  | 2 => decOps x .vsnk
  | 3 => decOps x .vaccReset
  | 4 => decOps x .vdrain
  | _ => none

/-- Class 0x34. -/
def decFab (minor : Nat) (x : FormX) : Option Instr :=
  match minor with
  | 0 => decOps x .fload
  | 1 => decOps x .frun
  | 2 => decOps x .fdrain
  | 3 => decOps x .fsave
  | 4 => do
    let o ← x.ops
    ensure (!x.sat && x.rnd == 0 && x.aux.extractLsb' 2 2 == 0)
      (some (.fpush x.f (bitOf (x.aux.extractLsb' 0 1)) (bitOf (x.aux.extractLsb' 1 1)) o))
  | 5 => do
    let o ← x.ops
    ensure (!x.sat && x.rnd == 0 && x.aux.extractLsb' 1 3 == 0)
      (some (.fpop x.f (bitOf (x.aux.extractLsb' 0 1)) o))
  | _ => none

/-- The word as its class and format lay it out, before the checks of `Instr.wf`. -/
def decodeFields (w : Dword) : Option Instr :=
  let minor := minorOf w
  let x := FormX.read w
  match classOf w with
  | 0x00 => if minor = 0 then decEmpty x .nop else none
  | 0x01 => decIntX true minor x
  | 0x02 => decIntI true minor (FormI.read w)
  | 0x03 => decIntX false minor x
  | 0x04 => decIntI false minor (FormI.read w)
  | 0x05 => decBit minor x
  | 0x06 => decCmp minor x
  | 0x07 => decFalu minor x
  | 0x08 => decTrn minor x
  | 0x09 => decCvt minor x
  | 0x0A => decBlk minor x
  | 0x0B => decCreg minor (FormI.read w)
  | 0x0C => decLimm minor (FormL.read w)
  | 0x10 => decMem false minor (FormM.read w)
  | 0x11 => decMem true minor (FormM.read w)
  | 0x12 => decAtom minor (FormM.read w)
  | 0x13 => if minor = 0 then decFence (FormM.read w) else none
  | 0x14 => decCsx minor (FormM.read w)
  | 0x15 => if minor = 0 then decOps x .acopy else if minor = 1 then decOps x .acopyPull else none
  | 0x16 => if minor = 0 then decOps x .gath else if minor = 1 then decOps x .scat else none
  | 0x17 => decTl minor (FormI.read w)
  | 0x18 => decTbar minor (FormM.read w)
  | 0x19 => if minor = 0 then decEmpty x .predhint else if minor = 1 then decEmpty x .waitpred else none
  | 0x20 => decBr minor (FormB.read w)
  | 0x21 => decJmp minor x
  | 0x22 => decGrp minor w
  | 0x23 => decShfl minor x
  | 0x24 =>
    if minor = 0 then decNum (FormI.read w) .grow
    else if minor = 1 then decNum (FormI.read w) .shrink else none
  | 0x25 => if minor = 0 then decOps x .spawn else if minor = 1 then decOps x .klaunch else none
  | 0x26 => if minor = 0 then decOps x .eqenq else if minor = 1 then decOps x .eqstat else none
  | 0x27 => if minor = 0 then decNum (FormI.read w) .hopReq else none
  | 0x28 => decMwait minor (FormM.read w)
  | 0x29 => decSys minor x
  | 0x30 => if minor = 0 then decOps x .tcfg else none
  | 0x31 => decMma minor x
  | 0x32 => decAmb minor x
  | 0x33 => decVctl minor x
  | 0x34 => decFab minor x
  | _ => none

/-- The instruction a word stands for; none when the word by itself is illegal (R111). -/
def decode (w : Dword) : Option Instr :=
  ensure (assigned (classOf w) (minorOf w)) <|
    match decodeFields w with
    | some i => ensure i.wf (some i)
    | none => none

/-- R7: the word of eight bytes, lowest address first. -/
def wordOfBytes (bs : List Byte) : Dword :=
  bs.foldr (fun b acc => (acc <<< 8) ||| b.setWidth 64) 0

/-- The instruction at the head of a byte list, and the rest. -/
def decodeBytes (bs : List Byte) : Option (Instr × List Byte) :=
  if bs.length < 8 then none else (decode (wordOfBytes (bs.take 8))).map (fun i => (i, bs.drop 8))

/-- The instruction of `nbits` bits with value `w`, the missing bits zero: words are 64 bits wide. -/
def decodeTableWord (nbits w : Nat) : Option Instr :=
  if nbits ≤ 64 then
    (decodeBytes ((List.range 8).map (fun i => BitVec.ofNat 8 ((w % 2 ^ nbits) / 2 ^ (8 * i))))).map Prod.fst
  else none

/-! ## The encoder -/

/-- R89: the fixed fields around the two format parts `hi` ([47:16]) and `lo` ([11:0]). -/
def packWord (cls minor : Nat) (f : Fixed) (hi : BitVec 32) (lo : BitVec 12) : Dword :=
  ofBit f.sw ++ ofBit f.stop ++ BitVec.ofNat 6 cls ++ BitVec.ofNat 8 minor ++ hi ++ f.pred ++
    ofBit f.sense ++ lo

/-- R92. -/
def packX (cls minor : Nat) (f : Fixed) (d a b : Reg) (sat : Bool) (aux : BitVec 4) (c : BitVec 9)
    (rnd : BitVec 3) : Dword :=
  packWord cls minor f (d.code ++ a.code ++ b.code ++ ofBit sat ++ aux) (c ++ rnd)

/-- R93. -/
def packI (cls minor : Nat) (f : Fixed) (d a : Reg) (imm : BitVec 25) (sat : Bool) : Dword :=
  packWord cls minor f (d.code ++ a.code ++ imm.extractLsb' 11 14) (ofBit sat ++ imm.extractLsb' 0 11)

/-- R94. -/
def packM (cls minor : Nat) (f : Fixed) (data base : Reg) (off : BitVec 21) (scope : BitVec 3)
    (ord : BitVec 2) : Dword :=
  packWord cls minor f (data.code ++ base.code ++ off.extractLsb' 7 14) (off.extractLsb' 0 7 ++ scope ++ ord)

/-- R95. -/
def packL (cls minor : Nat) (f : Fixed) (d : Reg) (imm : BitVec 35) : Dword :=
  packWord cls minor f (d.code ++ imm.extractLsb' 12 23) (imm.extractLsb' 0 12)

/-- R96. -/
def packB (cls minor : Nat) (f : Fixed) (off : BitVec 32) : Dword := packWord cls minor f off 0

/-- R98: OP ∥ TY. -/
def opTyCode (op : Nat) (ty : Ty) : Nat := 16 * op + ty.code.toNat

def encInt (op : Nat) (f : Fixed) : IntForm → Dword
  | .salu ty d a b c sat => packX 0x01 (opTyCode op ty) f d a b sat 0 c.code 0
  | .salui ty d a imm sat => packI 0x02 (opTyCode op ty) f d a imm sat
  | .valu ty d a b c sat => packX 0x03 (opTyCode op ty) f d a b sat 0 c.code 0
  | .valui ty d a imm sat => packI 0x04 (opTyCode op ty) f d a imm sat

def encBit (op : Nat) (f : Fixed) (o : BitForm) : Dword :=
  packX 0x05 (opTyCode op o.ty) f o.d o.a o.b false 0 o.c.code 0

def encFalu (op : Nat) (f : Fixed) (o : FaluForm) : Dword :=
  packX 0x07 (opTyCode op o.ty) f o.d o.a o.b o.sat 0 o.c.code o.rnd.code

def encTrn (op : Nat) (f : Fixed) (o : TrnForm) : Dword :=
  packX 0x08 (opTyCode op o.ty) f o.d o.a .none false 0 0x1FF o.rnd.code

def encCvt (kind : Nat) (f : Fixed) (o : CvtForm) : Dword :=
  packX 0x09 (32 * kind + o.dst.code.toNat) f o.d o.a o.b o.sat o.j (o.src.code ++ (0 : BitVec 4)) o.rnd.code

def encBlk (kind : Nat) (f : Fixed) (o : BlkForm) : Dword :=
  packX 0x0A (32 * kind + o.fmt.code.toNat) f o.d o.a .none o.sat 0 0x1FF o.rnd.code

def encMem (cls : Nat) (f : Fixed) (o : MemForm) : Dword :=
  packM cls (64 * o.space.code.toNat + 4 * o.ty.code.toNat + o.mode.code.toNat) f o.data o.base o.off 0 0

def encAtom (op : Nat) (f : Fixed) (o : AtomForm) : Dword :=
  packM 0x12 (16 * op + 8 * o.w64.toNat + 4 * o.uns.toNat + 2 * o.loc.toNat + o.lane.toNat) f o.data o.base
    o.off o.scope.code o.ord.code

def encAddr (cls minor : Nat) (f : Fixed) (o : AddrForm) : Dword :=
  packM cls minor f o.data o.base o.off 0 0

def encOps (cls minor : Nat) (f : Fixed) (o : Ops4) (sat : Bool) (aux : BitVec 4) : Dword :=
  packX cls minor f o.d o.a o.b sat aux o.c.code 0

def encEmpty (cls minor : Nat) (f : Fixed) : Dword :=
  packX cls minor f .none .none .none false 0 0x1FF 0

namespace Instr

/-- The word of an instruction, by R92 to R96, R100 and its entry; 0 for a step that is no word. -/
def encode : Instr → Dword
  | .nop f => encEmpty 0x00 0 f
  | .addInteger f o => encInt 0 f o
  | .subInteger f o => encInt 1 f o
  | .mulInteger f o => encInt 2 f o
  | .mulhi f o => encInt 3 f o
  | .madInteger f o => encInt 4 f o
  | .andInteger f o => encInt 5 f o
  | .orInteger f o => encInt 6 f o
  | .xorInteger f o => encInt 7 f o
  | .shl f o => encInt 8 f o
  | .shr f o => encInt 9 f o
  | .sar f o => encInt 10 f o
  | .minInteger f o => encInt 11 f o
  | .maxInteger f o => encInt 12 f o
  | .absInteger f o => encInt 13 f o
  | .movInteger f o => encInt 14 f o
  | .negInteger f o => encInt 15 f o
  | .popc f o => encBit 0 f o
  | .clz f o => encBit 1 f o
  | .brev f o => encBit 2 f o
  | .bfe f o => encBit 3 f o
  | .bfi f o => encBit 4 f o
  | .cmp f cond o => packX 0x06 (opTyCode 0 o.ty) f o.d o.a o.b false cond.code o.c.code 0
  | .sel f o => packX 0x06 (opTyCode 1 o.ty) f o.d o.a o.b false 0 o.c.code 0
  | .pand f o => encOps 0x06 0x20 f o false 0
  | .por f o => encOps 0x06 0x30 f o false 0
  | .pxor f o => encOps 0x06 0x40 f o false 0
  | .pnot f o => encOps 0x06 0x50 f o false 0
  | .addFloat f o => encFalu 0 f o
  | .subFloat f o => encFalu 1 f o
  | .mulFloat f o => encFalu 2 f o
  | .fma f o => encFalu 3 f o
  | .fnma f o => encFalu 4 f o
  | .minFloat f o => encFalu 5 f o
  | .maxFloat f o => encFalu 6 f o
  | .absFloat f o => encFalu 7 f o
  | .negFloat f o => encFalu 8 f o
  | .rcp f o => encTrn 0 f o
  | .rsqrt f o => encTrn 1 f o
  | .sqrt f o => encTrn 2 f o
  | .exp2 f o => encTrn 3 f o
  | .log2 f o => encTrn 4 f o
  | .sinpi f o => encTrn 5 f o
  | .cospi f o => encTrn 6 f o
  | .tanh f o => encTrn 7 f o
  | .cvt f o => encCvt 0 f o
  | .pack f o => encCvt 1 f o
  | .unpack f o => encCvt 2 f o
  | .dxenc f o => encBlk 0 f o
  | .dxdec f o => encBlk 1 f o
  | .mxenc f o => encBlk 2 f o
  | .mxdec f o => encBlk 3 f o
  | .crd f d num => packI 0x0B 0 f d .none num false
  | .cwr f a num => packI 0x0B 1 f .none a num false
  | .li f d imm => packL 0x0C 0 f d imm
  | .lih f d imm => packL 0x0C 1 f d imm
  | .liPair f d imm => packL 0x0C 2 f d imm
  | .ld f o => encMem 0x10 f o
  | .st f o => encMem 0x11 f o
  | .atomAdd f o => encAtom 0 f o
  | .atomMin f o => encAtom 1 f o
  | .atomMax f o => encAtom 2 f o
  | .atomAnd f o => encAtom 3 f o
  | .atomOr f o => encAtom 4 f o
  | .atomXor f o => encAtom 5 f o
  | .atomXchg f o => encAtom 6 f o
  | .atomCas f o => encAtom 7 f o
  | .atomLd f o => encAtom 8 f o
  | .atomSt f o => encAtom 9 f o
  | .fence f scope ord => packM 0x13 0 f .none .none 0 scope.code ord.code
  | .cstore f w64 o => encAddr 0x14 w64.toNat f o
  | .xload f w64 o => encAddr 0x14 (2 + w64.toNat) f o
  | .acopy f o => encOps 0x15 0 f o false 0
  | .acopyPull f o => encOps 0x15 1 f o false 0
  | .gath f o => encOps 0x16 0 f o false 0
  | .scat f o => encOps 0x16 1 f o false 0
  | .tlwait f d a imm => packI 0x17 0 f d a imm false
  | .tlbind f d a imm => packI 0x17 1 f d a imm false
  | .tlread f d a imm => packI 0x17 2 f d a imm false
  | .tbarInit f o => encAddr 0x18 0 f o
  | .tbarArrive f o => encAddr 0x18 1 f o
  | .tbarExpect f o => encAddr 0x18 2 f o
  | .tbarWait f o => encAddr 0x18 3 f o
  | .predhint f => encEmpty 0x19 0 f
  | .waitpred f => encEmpty 0x19 1 f
  | .br f off => packB 0x20 0 f off
  | .call f off => packB 0x20 1 f off
  | .brind f a => packX 0x21 0 f .none a .none false 0 0x1FF 0
  | .callind f d a => packX 0x21 1 f d a .none false 0 0x1FF 0
  | .ret f a => packX 0x21 2 f .none a .none false 0 0x1FF 0
  | .gjoin f a tag => packI 0x22 0 f .none a tag false
  | .gleave f => encEmpty 0x22 1 f
  | .elect f d => packX 0x22 2 f d .none .none false 0 0x1FF 0
  | .ballot f d => packX 0x22 3 f d .none .none false 0 0x1FF 0
  | .shfl f o => packX 0x23 o.mode.code.toNat f o.d o.a o.b false ((0 : BitVec 3) ++ ofBit o.w64) o.c.code 0
  | .shflX f o =>
    packX 0x23 (4 + o.mode.code.toNat) f o.d o.a o.b false ((0 : BitVec 3) ++ ofBit o.w64) o.c.code 0
  | .grow f n => packI 0x24 0 f .none .none n false
  | .shrink f n => packI 0x24 1 f .none .none n false
  | .spawn f o => encOps 0x25 0 f o false 0
  | .klaunch f o => encOps 0x25 1 f o false 0
  | .eqenq f o => encOps 0x26 0 f o false 0
  | .eqstat f o => encOps 0x26 1 f o false 0
  | .hopReq f n => packI 0x27 0 f .none .none n false
  | .mwait f cond o scope ord => packM 0x28 cond.code f o.data o.base o.off scope.code ord.code
  | .trap f n => packX 0x29 0 f .none .none .none false n 0x1FF 0
  | .tret f => encEmpty 0x29 1 f
  | .cnclaim f o => encOps 0x29 2 f o false 0
  | .cnfree f o => encOps 0x29 3 f o false 0
  | .xrd f o => encOps 0x29 4 f o false 0
  | .xwr f o => encOps 0x29 5 f o false 0
  | .tcfg f o => encOps 0x30 0 f o false 0
  | .mma f sat tl o => encOps 0x31 0 f o sat ((0 : BitVec 1) ++ tl)
  | .mmaPair f sat tl o => encOps 0x31 1 f o sat ((0 : BitVec 1) ++ tl)
  | .aalloc f o => encOps 0x32 0 f o false 0
  | .afree f o => encOps 0x32 1 f o false 0
  | .aclaim f o => encOps 0x32 2 f o false 0
  | .ard f w64 o => encOps 0x32 3 f o false ((0 : BitVec 3) ++ ofBit w64)
  | .azero f o => encOps 0x32 4 f o false 0
  | .vstrip f o => encOps 0x33 0 f o false 0
  | .vsrc f o => encOps 0x33 1 f o false 0
  | .vsnk f o => encOps 0x33 2 f o false 0
  | .vaccReset f o => encOps 0x33 3 f o false 0
  | .vdrain f o => encOps 0x33 4 f o false 0
  | .fload f o => encOps 0x34 0 f o false 0
  | .frun f o => encOps 0x34 1 f o false 0
  | .fdrain f o => encOps 0x34 2 f o false 0
  | .fsave f o => encOps 0x34 3 f o false 0
  | .fpush f half null o => encOps 0x34 4 f o false ((0 : BitVec 2) ++ ofBit null ++ ofBit half)
  | .fpop f half o => encOps 0x34 5 f o false ((0 : BitVec 3) ++ ofBit half)
  | .shflXMatch .. | .rowGrant .. | .groupSwapIn .. | .allocationSetReturn .. | .mwaitRecheck ..
  | .matrixPassGrant .. | .matrixPassAgeing .. | .matrixPassRetire .. | .bandOpCompletion ..
  | .stageFiring .. | .rareEventGroup .. | .rowWakeDone .. | .rowInstallDone .. | .rowLower ..
  | .rowHoist .. | .configStoreReload .. | .portSpillRetry .. | .longLatencyResult .. | .groupUnpark ..
  | .activeSetEntry .. | .groupStarvation .. | .trapDelivery .. | .copyExecute .. | .iseExecute ..
  | .iseSpillRetry .. | .engineOpCompletion .. | .translationFaultRecord .. | .translationFaultTimeout ..
  | .xlresRetry .. | .xlresFail .. | .tlbInvalidate .. | .invalidationComplete .. | .hopCommit ..
  | .hopDisarm .. | .codeObjectLoad .. | .coldGranuleCopy .. | .icacheFill .. | .queueNotify ..
  | .queueSlotMap .. | .launchBegin .. | .blockPlacement .. | .blockEnd .. | .launchCompletion ..
  | .hangFreeze .. | .eqLoadQueue .. | .eqLoadGroup .. | .eqUnloadQueue .. | .eqUnloadGroup ..
  | .queueUnloadComplete .. | .equDispatchDecision | .combineMark .. | .preemption .. | .blockRestore ..
  | .partitionCreate .. | .partitionDestroy .. | .secondStageEdit .. | .partitionSwapOut ..
  | .partitionSwapIn .. | .getMeasurements .. | .epochClose .. | .ideStreamViolation ..
  | .hypervisorRegisterWrite .. | .halt .. | .save .. | .restore .. | .resume .. | .kill .. | .release ..
  | .detach .. | .counterIntervalRecord .. | .traceSample .. | .uncorrectableError .. | .hbmScrub ..
  | .operatingPointChange .. | .deviceReset .. | .enterTest | .leaveTest | .leaveRecovery | .checkpoint
  | .checkpointRestore | .linkPortDown .. | .linkPortTrained .. | .storeQueueDrain ..
  | .memoryPortElement .. | .tdispRequest .. | .hostBarRequest .. | .peerWindowAccess ..
  | .startRecordClear | .repairMapAdd .. => 0

end Instr

end Sys2Proof
end

