-- ==== Sys2Proof/Machine/State.lean ====
section
/-! DEFINITION. The state of one CLM-8H as plain data: what the manual gives the device, from a group's
registers to the hub's records, and nothing it does not name but the few fields marked "model's own".
Tables (`Tab`) are keyed lists with rising keys, so equal states are equal data. Register files and memory
list only what is not zero. -/

namespace Sys2Proof.Machine

/-! ## Reasons to stop -/

/-- Why a step stops with a fault.
The device itself never stops by a fault: what goes wrong inside it is a trap, a frozen block or a record. -/
inductive Fault where
  /-- Raised by an instruction word executed when `State.cur` names no resident group: nobody issues it.
  `step` never raises it (it picks an existing group). Safe: the hardware has no such situation. -/
  | noIssuer
  deriving DecidableEq, Repr

/-- Why a step is refused. -/
inductive Refusal where
  /-- Raised by a row of the opcode table that has no meaning yet. Safe: nothing can be proved of it. -/
  | notModelled (mnemonic : String)
  deriving DecidableEq, Repr

/-! ## A group's execution context (R42, R53 to R62) -/

/-- Where a result goes: a register of the context, its flags, or the old value of a register that lives
outside the context (a control register or a tile register, L = 2 in R54). -/
inductive Dest where
  | v (n : Nat)
  | s (n : Nat)
  | p (n : Nat)
  | tl (n : Nat)
  | ac (n : Nat)
  /-- R126: flags to OR into `c.fstat`. -/
  | flagsSet
  /-- R126: flags that `cwr c.fstat` clears. -/
  | flagsClear
  /-- The value control register `n` had before a `cwr` that is not yet visible. -/
  | cregWas (n : Nat)
  /-- The half `2t` (low) or `2t + 1` (high) of tile register `t` before a `tcfg` not yet visible. -/
  | tileWas (half : Nat)
  /-- R209: a result still under way whose destination `xwr` has written meanwhile: it comes to nothing. -/
  | gone
  deriving DecidableEq, Repr

/-- When a held result becomes visible: at an issue index of its group (R54), or at the next marker (R55). -/
inductive Vis where
  | at (issue : Nat)
  | marker
  deriving DecidableEq, Repr

/-- A result held back (R54, R55, R62). `vals`: one value for a scalar, 32 for lanes. `seq`: program order. -/
structure Held where
  dest : Dest
  mask : Word
  vals : List Dword
  vis : Vis
  seq : Nat
  deriving DecidableEq, Repr

/-- R151: atomic operations. -/
inductive AtomOp where
  | add | min | max | and | or | xor | xchg | cas | ld | st
  deriving DecidableEq, Repr

/-- One lane's access of an atomic: `lane` 32 is the group as a whole. -/
structure AtomLane where
  lane : Nat
  key : Nat
  x : Dword
  next : Dword
  deriving DecidableEq, Repr

/-- R195: what a cross-core shuffle offers. `sc`: bits [31:0] of sC. `vals` is the issuer's A, `ops` its operand b,
per home slot. -/
structure ShflOffer where
  sc : Word
  mode : ShflMode
  n16 : Bool
  members : Word
  vals : List Dword
  ops : List Word
  lanes : Word
  deriving DecidableEq, Repr

/-- R227: the AM requests with a result. `lanes`: the lanes that read; `scalar`: a control thread reads. -/
inductive AmOp where
  | alloc
  | claim
  | read (wide scalar : Bool) (lanes : Word)
  deriving DecidableEq, Repr

/-- The work that still stands between a long-latency instruction and its result. -/
inductive Work where
  /-- A load of `n` bytes per access: (lane, memory key) of the accesses still to make, 32 for the group as a whole;
  `got`: what those made have read, by lane (R147). `far`: by lane, the key of the page in which an access through `k:` that
  crosses a page ends (R342). -/
  | load (n : Nat) (signed : Bool) (accs got far : List (Nat × Nat))
  | atom (op : AtomOp) (n : Nat) (uns : Bool) (accs : List AtomLane) (got : List (Nat × Nat))
  /-- The value is fixed; it only has to arrive. One list of lane values per destination. -/
  | value (mask : Word) (vals : List (List Dword))
  | offer (o : ShflOffer)
  /-- R329: an AM request with its operand. -/
  | am (op : AmOp) (x : Dword)
  /-- R210: a claim that its hub cycle has still to decide. -/
  | claim
  deriving DecidableEq, Repr

/-- A long-latency result under way (R55), in program order. `id` is the same in every group that inherited it
through a split (R181): it is performed once, for all of them. -/
structure Pending where
  id : Nat
  seq : Nat
  dests : List Dest
  work : Work
  /-- R375: translated before the invalidation in progress. -/
  stale : Bool
  deriving DecidableEq, Repr

/-- R52, R159: an engine context. -/
structure EngRef where
  kind : Nat
  unit : Nat
  ctx : Nat
  deriving DecidableEq, Repr

/-- R59: a pending token. -/
structure Token where
  reg : Nat
  eng : EngRef
  op : Nat
  deriving DecidableEq, Repr

/-- What a group, a control thread or a trap handler issues from: R42, R53, R57, R58, R59. In a handler
`s` are h0 to h31 and `p` the bank's predicates (R61, R332). -/
structure Ctx where
  pc : Dword
  /-- R58: the run count. -/
  run : Nat
  /-- R53: instructions issued so far; distances are differences of it. -/
  issued : Nat
  /-- R353: the address of the word issued last. -/
  last : Dword
  s : Tab Dword
  p : Tab Word
  tl : Tab Dword
  held : List Held
  pend : List Pending
  toks : List Token
  /-- Model's own: the number from which the free values of the shadow bank's unlisted registers are drawn at a
  handler's entry (R61); none in a group's own context, whose unlisted registers read zero. -/
  undef : Option Nat
  deriving DecidableEq, Repr

/-! ## Groups and threads -/

/-- What a parked group waits for (R253). -/
inductive Park where
  /-- A switch marker: every result of the run (R57). -/
  | marker
  /-- A word that begins with the work of a marker and has not issued: every result of the run, and a control thread's
  sink writes (R185, R187, R208). -/
  | results
  /-- A pending token (R59): the instruction that reads it has not issued. -/
  | token (reg : Nat)
  /-- The same in a handler, of a token of the interrupted group that `xrd` reads (R209). -/
  | ownToken (reg : Nat)
  /-- A full engine queue or reservation table (R159, R220): the instruction has not issued. -/
  | full (eng : EngRef)
  | tlwait (eng : EngRef) (n : Nat)
  | tbar (key : Nat) (phase : Word)
  | mwait (cond : WaitCond) (va : Dword) (key : Nat) (cmp : Dword) (acquire : Bool) (lastTest : Nat)
      (ready : Bool)
  | grow (n : Nat)
  /-- R199: the spawner waits for rows: the start address, (home slot, pool index, v0), whether its word is marked. -/
  | spawn (start : Dword) (lanes : List (Nat × Nat × Word)) (mark : Bool)
  | join (tag : Nat) (mask : Word) (word : Dword)
  | waitpred
  /-- R195: a second `shfl.x` before the first has matched; it has not issued. -/
  | offer
  /-- R240: `vdrain`. -/
  | drain
  /-- R267: at the word of the armed hop's ordinal. -/
  | hop (ord : Nat)
  /-- R175: a strict `tbar.init` waits until no queued store of the core touches its quad; it has not issued. -/
  | typed (key : Nat)
  /-- R329: a strip that reads an AM stream waits for the group's earlier `afree` and `azero`. -/
  | am
  /-- R405: halted by the debug agent at a safe point. -/
  | halted
  deriving DecidableEq, Repr

/-- A trap raised and not yet delivered (R61, R389, R391). `given`: h2 and h4 as the save image it came from holds them (R402). -/
structure Trap where
  cause : Nat
  write : Bool
  addr : Dword
  word : Dword
  given : Option (Dword × Dword) := none
  deriving DecidableEq, Repr

/-- R164, R236: one dimension of a copy or stream: count, periodic shift, source and destination strides. -/
structure Dim where
  cnt : Nat
  shift : Nat
  sstr : Int
  dstr : Int
  deriving DecidableEq, Repr

/-- R236: a stream specification. `space`: 0 global, 1 local, 2 AM. -/
structure StreamSpec where
  base : Nat
  space : Nat
  signed : Bool
  esz : Nat
  dims : List Dim
  deriving DecidableEq, Repr

/-- A source or sink port (R42): its stream, if it has one, and its position counter. -/
structure Port where
  spec : Option StreamSpec
  pos : Nat
  deriving DecidableEq, Repr

/-- The registers only a vector control thread has (R42). `ac` is keyed 32 × accumulator + lane. -/
structure VecRegs where
  ac : Tab Dword
  ins : Tab Port
  outs : Tab Port
  deriving DecidableEq, Repr

/-- A resident or swapped-out group, or a vector block's control thread. -/
structure Group where
  block : Nat
  core : Nat
  /-- The allocation set (R197). -/
  set : Nat
  /-- `c.gmask` (R48). -/
  mask : Word
  /-- A(G) of R197. -/
  view : Nat
  ctx : Ctx
  fstat : Dword
  cxp : Dword
  amerr : Dword
  vstrip : Dword
  vec : Option VecRegs
  /-- R253: in the active set. -/
  active : Bool
  /-- R255: the cycle since which the group is pending and ready, and whether it starves. -/
  readyAt : Option Nat
  starving : Bool
  park : Option Park
  trap : Option Trap
  /-- In handler mode: the core's shadow bank issues for it (R391). -/
  handler : Bool
  /-- The ordinal of the last safe point passed (R61). -/
  lastSafe : Nat
  /-- The next word is the first after `tret` (R158, R239). -/
  returned : Bool
  /-- R405: released from a halt; it issues the stop word it stands at without halting again. -/
  pass : Bool
  /-- R398: the control thread stands at a strip boundary: no word has issued since its block's start or its last strip. -/
  strip : Bool
  /-- R182, R396: in the save area, not on the core. -/
  swapped : Bool
  /-- R397: the swap slot its record was written to, if one was free. -/
  slot : Option Nat
  /-- R307: the rare event it serves: band, port table entry, stage. -/
  rare : Option (Nat × Nat × Nat)
  deriving DecidableEq, Repr

/-- A thread of a set: its pool index and its block-relative index, none for a spawned one (R199, R251). -/
structure Thread where
  pool : Nat
  index : Option Nat
  deriving DecidableEq, Repr

/-- R197: an allocation set. `v` is keyed 32 × register + home slot; `rng` and `threads` by home slot. -/
structure AllocSet where
  block : Nat
  core : Nat
  rows : Nat
  v : Tab Word
  rng : Tab Word
  threads : Tab Thread
  deriving DecidableEq, Repr

/-! ## Cores -/

/-- R61: the trap shadow bank. `hv` is keyed 32 × register + home slot. -/
structure Shadow where
  ctx : Ctx
  hv : Tab Word
  deriving DecidableEq, Repr

/-- A store waiting in its group's FIFO queue (R150). `owners`: the groups it belongs to (R181).
`sink`: a strip's sink write (R241). `seq`: a stamp in the order of issue, of the same count as `Pending.id`. -/
structure StoreEnt where
  block : Nat
  owners : List Nat
  key : Nat
  bytes : List Byte
  sink : Bool
  seq : Nat
  /-- R375: translated before the invalidation in progress. -/
  stale : Bool
  deriving DecidableEq, Repr

/-- A core. `order`: its groups, oldest first (R254). `serving`: the group whose handler runs (R63). -/
structure Core where
  order : List Nat
  shadow : Shadow
  serving : Option Nat
  storeQ : List StoreEnt
  /-- `c.mestat` (R224). -/
  mestat : Dword
  /-- R63: halted by a double trap. -/
  halted : Bool
  deriving DecidableEq, Repr

/-! ## Blocks and launches -/

/-- R392, R352: why a block is frozen. -/
inductive Freeze where
  | hang | unhandled | double
  deriving DecidableEq, Repr

/-- R266: an armed hop. `rows`: the rows of the reserved band. `met`: the conditions of R267 have been found to hold within
its limit. -/
structure Hop where
  ord : Nat
  target : Nat
  armedAt : Nat
  /-- The reserved core, or the first row of the reserved band. -/
  place : Nat
  rows : Nat
  met : Bool
  deriving DecidableEq, Repr

/-- R264: a closed span. -/
structure Span where
  elems : Nat
  fired : Nat
  deriving DecidableEq, Repr

/-- R405, R260: a HALT in force. `ord`: only there. `command`: its command block, none after RESUME. `reached`: a spatial block's stage has reached it, and the band
drains. -/
structure HaltReq where
  ord : Option Nat
  command : Option Nat
  reached : Bool
  deriving DecidableEq, Repr

/-- R244: an operation of a band context. `kind`: 0 fload, 1 frun, 2 fdrain, 3 fsave. `flags`: what it delivers;
`wait`: the tag of the fault its record waits on. -/
structure BandOp where
  no : Nat
  kind : Nat
  addr : Nat
  record : Option Nat
  block : Nat
  started : Bool
  code : Option Nat
  info : Dword
  flags : BitVec 6
  wait : Option Nat
  deriving DecidableEq, Repr

/-- A run in progress (R246): its parameters, whether its sources are stopped, and the CODE that stopped it. -/
structure Run where
  params : List Dword
  stopped : Bool
  code : Option Nat
  deriving DecidableEq, Repr

/-- What a save image has no record for, of a saved band (R398): its rows, its context's counts and operations, its run,
whether the next begins anew, and whether it was configured. -/
structure SavedBand where
  p : Nat
  issued : Nat
  count : Nat
  ops : List BandOp
  run : Option Run
  anew : Bool
  configured : Bool
  deriving DecidableEq, Repr

/-- What a save image has no record for, of one saved group. `last`: as in `Ctx`. `was`: the held values of registers that have no register
code, their places those of a rebuilt context. `pend`: its unmatched `shfl.x` offer. `hand`: what the shadow record leaves out
of its handler's context. -/
structure SavedGroup where
  gid : Nat
  set : Nat
  was : List Held
  last : Dword
  pend : List Pending
  hand : Option Ctx
  park : Option Park
  trap : Option Trap
  lastSafe : Nat
  returned : Bool
  rare : Option (Nat × Nat × Nat)
  deriving DecidableEq, Repr

/-- R399: an event that a saved block awaits and that came meanwhile: an engine's token write; its write to the local
window; its decrement of a barrier there. -/
inductive SaveEvent where
  | token (t : Token) (value : Dword)
  | write (addr : Nat) (bytes : List Byte)
  | decrement (addr : Nat)
  deriving DecidableEq, Repr

/-- A block pre-empted or swapped out (R398): the address of its image, what the image has no record for, oldest
group first, and the events that came in the meantime, in order (R399). The image carries the architectural state.
`poisoned`: the shadow store has met an uncorrectable error in it (R411). -/
structure SavedBlock where
  image : Nat
  groups : List SavedGroup
  band : Option SavedBand
  events : List SaveEvent
  poisoned : Bool
  deriving DecidableEq, Repr

/-- A block from its placement to its end. `kern`: its kernel, the launch's unless a debug RESTORE named another (R403).
`ver`: 0 thr, 1 vec, 2 spa. -/
structure Block where
  part : Nat
  launch : Nat
  kern : Nat
  index : Nat
  core : Nat
  ver : Nat
  /-- First row of its band; none for a block that has none (R242). -/
  band : Option Nat
  strict : Bool
  n16 : Bool
  dbg : Bool
  hzd : Bool
  hinted : Bool
  frozen : Option Freeze
  /-- It was frozen by the hang monitor and not released (R343). -/
  hung : Bool
  halt : Option HaltReq
  halted : Bool
  /-- R398: it has issued a word of classes 0x30 to 0x32. -/
  clusterBound : Bool
  hopReq : Option Nat
  hop : Option Hop
  /-- R270, R330: the next arrival at this ordinal is not decided on. -/
  skipArrival : Option Nat
  arrivals : Tab Nat
  /-- R266: issues of an equivalence point's word per thread, keyed 1,024 × EP index + thread. -/
  threadArrivals : Tab Nat
  spans : List Span
  spanFrom : Nat
  fired : Nat
  /-- R267: a thread of the T has ended. -/
  threadEnded : Bool
  /-- R352: what the hang timer counts. -/
  hangCount : Nat
  saveBase : Nat
  /-- R175: the quads of the local window whose hidden type bit is set. -/
  typed : List Nat
  relaunched : Bool
  saved : Option SavedBlock
  deriving DecidableEq, Repr

/-- R364: the expert firing a launch is. `queue`: the local queue id; `phys`: its physical number, and `born` the number of
its load; `group`: the physical combine group; `buffer`: the batch buffer's number, and `addr` its address. -/
structure Firing where
  queue : Nat
  phys : Nat
  born : Nat
  group : Nat
  buffer : Nat
  addr : Nat
  count : Nat
  deriving DecidableEq, Repr

/-- R342, R343: a launch in progress. `kern` is its handle. -/
structure Launch where
  part : Nat
  queue : Nat
  seq : Nat
  kern : Nat
  gx : Nat
  gy : Nat
  gz : Nat
  pri : Nat
  tm1 : Nat
  args : Dword
  const : Dword
  csize : Nat
  seed : Dword
  done : Dword
  save : Dword
  preds : List (Nat × Nat)
  /-- Latch order of its notify (R350). -/
  order : Nat
  placed : Nat
  lost : Nat
  hungLost : Bool
  refused : Bool
  firing : Option Firing
  /-- R413: blocks to run once more from block start. -/
  rerun : List Nat
  /-- R365: an expert firing that has ended with this CODE and waits for its marking. -/
  ended : Option Nat
  deriving DecidableEq, Repr

/-- R345, R346, R348: a launch queue as the hub holds it. `head` and `tail` count while it is mapped; else the
descriptor does. `marks`: latched tails with the order of their notify (R350), oldest first. -/
structure HubQueue where
  head : Nat
  tail : Nat
  mapped : Bool
  runnableSince : Option Nat
  marks : List (Nat × Nat)
  deriving DecidableEq, Repr

/-! ## Kernels (R334 to R338) -/

/-- R336: one entry of a safe-point table. `map`: the target version of a state map. -/
structure SafePoint where
  ord : Nat
  ver : Nat
  ep : Bool
  addr : Dword
  map : Option Nat
  locs : List Dword
  deriving DecidableEq, Repr

/-- A loaded text: its base address and byte size. -/
structure Text where
  base : Nat
  size : Nat
  deriving DecidableEq, Repr

/-- A loaded kernel. `text` and `coldText` by version; `granules`: the cold granules already copied (R339); `scratch`: bytes
of local memory above LOCAL that the words of a translated vector version use (R340). -/
structure Kernel where
  part : Nat
  header : Dword
  text : Tab Text
  coldText : Tab Text
  coldHost : Nat
  cache : Nat
  granules : List Nat
  table : Nat
  image : Nat
  safe : List SafePoint
  scratch : Nat
  deriving DecidableEq, Repr

/-! ## Engines -/

/-- R163: a checked copy descriptor. -/
structure CopyDesc where
  src : Nat
  dst : Nat
  srcLocal : Bool
  dstLocal : Bool
  barrier : Option Nat
  periodic : Nat
  esz : Nat
  dims : List Dim
  status : Option (Bool × Nat)
  deriving DecidableEq, Repr

/-- R168: a checked parameter block. -/
structure IseDesc where
  idx : Nat
  tbl : Nat
  dense : Nat
  denseLocal : Bool
  count : Nat
  op : Nat
  wide : Bool
  esz : Nat
  stride : Int
  status : Option (Bool × Nat)
  deriving DecidableEq, Repr

/-- What an operation of a copy or ISE context does. -/
inductive EngWork where
  | copy (pull : Bool) (d : CopyDesc)
  | gath (d : IseDesc)
  | scat (d : IseDesc)
  deriving DecidableEq, Repr

/-- R159, R160: an operation from its issue to its completion. `next`: the next element; `wait`: the tag of
the fault it waits on; `spill`: spilled ordinals, each with the tag of the fault it waits on, none once it may be retried
(R170); `zero`: failed ordinals whose dense slot waits for its zero (R170); `decs`: barrier decrements made; `code`, `fails`, `first`: what has gone wrong so far. `ended`: its elements are
settled, with this CODE; `reported`: its status record is written or lost. `covered`: the bytes it has written of OB words that
read uncorrectable, by offset (R414). -/
structure EngOp where
  no : Nat
  part : Nat
  block : Nat
  core : Nat
  work : EngWork
  token : Bool
  next : Nat
  wait : Option Nat
  spill : List (Nat × Option Nat)
  zero : List Nat
  decs : Nat
  code : Nat
  fails : Nat
  first : Option Nat
  ended : Option Nat
  reported : Bool
  covered : List Nat
  deriving DecidableEq, Repr

/-- R159: an engine context: operations issued, the timeline counter, the operations in order.
`done`: completed numbers above the counter. -/
structure EngCtx where
  issued : Nat
  count : Nat
  ops : List EngOp
  done : List Nat
  deriving DecidableEq, Repr

/-- R379, R422: a fault waiting for service: of an engine's element or record, or (`eng.kind` 255) of a launch's record,
`op` then its launch. `elem`: the ordinal; 2^64 for the operation's record. -/
structure XFault where
  part : Nat
  eng : EngRef
  op : Nat
  elem : Nat
  addr : Dword
  write : Bool
  since : Nat
  recorded : Bool
  block : Nat
  deriving DecidableEq, Repr

/-- R51 as a pass copies it (R217). -/
structure Tile where
  lo : Dword
  hi : Dword
  deriving DecidableEq, Repr

/-- R218, R273: a pass in the reservation table or running. `array`: 0 west, 1 east, 2 both. `words`: AM
words it writes, with every value each held since the grant (R223). `events`: bits for `c.mestat` (R224). -/
structure Pass where
  no : Nat
  ctx : Nat
  block : Nat
  launch : Nat
  set : Nat
  part : Nat
  core : Nat
  tileA : Tile
  tileB : Tile
  target : Dword
  sat : Bool
  pair : Bool
  pri : Nat
  entered : Nat
  aged : Bool
  array : Nat
  wrote : Bool
  words : List (Nat × List Word)
  events : Dword
  deriving DecidableEq, Repr

/-- R226: a bank's owner (a launch) and claim (an allocation set). -/
structure Bank where
  launch : Nat
  claim : Option Nat
  deriving DecidableEq, Repr

/-- R229: an `afree` or `azero` that waits for passes, by context and number, to retire. `owners`: the groups it belongs
to (R181). `seq`: its stamp in the order of issue, of the same count as `Pending.id`. -/
structure BankOp where
  zero : Bool
  range : Dword
  owners : List Nat
  launch : Nat
  set : Nat
  seq : Nat
  passes : List (Nat × Nat)
  deriving DecidableEq, Repr

/-- A cluster's ME (R213 to R233): tile halves keyed 2t and 2t + 1, banks, contexts, table, running passes. -/
structure Cluster where
  tiles : Tab Dword
  ctxs : Tab EngCtx
  table : List Pass
  running : List Pass
  banks : Tab Bank
  bankOps : List BankOp
  /-- R414: OB and AM words that read uncorrectable: key 0 to 262,143 OB words, above that AM words. -/
  bad : List Nat
  deriving DecidableEq, Repr

/-! ## The spatial fabric (R299 to R328) -/

/-- R300: a token. -/
structure Tok where
  null : Bool
  lanes : List Word
  deriving DecidableEq, Repr

/-- R106: a stage word's fields. -/
structure StageWord where
  stop : Bool
  cls : Nat
  minor : Nat
  conA : Nat
  conB : Nat
  ib : Bool
  imm : Nat
  port : Nat
  sat : Bool
  rnd : Nat
  pes : Nat
  /-- `simm` only: K. -/
  k : Word
  deriving DecidableEq, Repr

/-- R105: a stage program. Counts are indexed by port. -/
structure StageProg where
  keep : Bool
  spord : Nat
  incnt : List Nat
  outcnt : List Nat
  comm : Nat
  nullok : Nat
  rdout : Nat
  words : List StageWord
  bytes : Nat
  deriving DecidableEq, Repr

/-- R311. -/
structure StageCfg where
  vrow : Nat
  pek : Nat
  fpb : Nat
  prog : StageProg
  deriving DecidableEq, Repr

/-- R312. -/
structure ChanCfg where
  pstg : Nat
  pport : Nat
  cstg : Nat
  cport : Nat
  depth : Nat
  usesu : Bool
  suk : Nat
  crow : Nat
  cen : Bool
  csat : Bool
  crnd : Nat
  sfmt : Nat
  dfmt : Nat
  deriving DecidableEq, Repr

/-- R313. `kind`: 0 load, 1 store, 2 core input, 3 core output. -/
structure PortCfg where
  kind : Nat
  stg : Nat
  port : Nat
  cmpl : Option (Nat × Nat)
  param : Nat
  spec : StreamSpec
  rentry : Nat
  rregs : Nat
  deriving DecidableEq, Repr

/-- A checked configuration image (R310). Its channels are numbered in table order, then one for each port table entry,
then one for each completion output. -/
structure Config where
  image : Nat
  sig : Word
  v : Nat
  p : Nat
  scrsz : Nat
  rdch : Nat
  stages : List StageCfg
  chans : List ChanCfg
  ports : List PortCfg
  deriving DecidableEq, Repr

/-- R306, R307: a rare event of the `word`th `srare` word of a stage. `seq`: its stamp in the order events were raised. -/
structure Rare where
  b : Tok
  a : Tok
  stage : Nat
  word : Nat
  ordinal : Nat
  seq : Nat
  /-- The group created for it, if any. -/
  group : Option Nat
  deriving DecidableEq, Repr

/-- R302, R320: a stage's state. `keep`: latches keyed 4 × word + slot. `batches`: times its row has been hoisted.
`eos`: input ports that passed their end-of-stream marker; `differ`: its streams have been found to differ in length
(R34). -/
structure StageSt where
  keep : Tab Tok
  rng : List Word
  flags : BitVec 6
  fired : Nat
  batchFired : Nat
  batches : Nat
  eos : List Nat
  differ : Bool
  deriving DecidableEq, Repr

/-- R300, R321: a channel's tokens: in its buffers, and landed. -/
structure ChanSt where
  q : List Tok
  landed : List Tok
  deriving DecidableEq, Repr

/-- R291 to R296, R306: a port's state. `pos`: the next element. `part`: values by element: read and not yet delivered
(loads), or spilled (stores). `spill`: elements waiting, with fault tags as in `EngOp`; `lost`: elements that failed.
`cmpl`: the next completion to emit; `ended`: its marker is delivered. `rare`: events whose reservation is not filled,
oldest first; `slots`: the reservations from the oldest unfilled one on. -/
structure PortSt where
  pos : Nat
  part : Tab Word
  spill : List (Nat × Option Nat)
  lost : List Nat
  cmpl : Nat
  ended : Bool
  rare : List Rare
  slots : List (Option Tok)
  deriving DecidableEq, Repr

/-- R323: a physical row. -/
inductive RowState where
  | gated | waking | install | live | done | lower | hoist
  deriving DecidableEq, Repr

/-- A physical row of a band: its state, the index of its current hoist, when it became DONE. -/
structure Row where
  st : RowState
  hoist : Nat
  since : Nat
  deriving DecidableEq, Repr

/-- A spatial block's band (R242, R316). `anew`: its last run has ended, so the next begins its streams anew (R246). -/
structure Band where
  first : Nat
  p : Nat
  part : Nat
  block : Nat
  issued : Nat
  count : Nat
  ops : List BandOp
  cfg : Option Config
  run : Option Run
  anew : Bool
  stages : Tab StageSt
  chans : Tab ChanSt
  ports : Tab PortSt
  rows : Tab Row
  /-- R326: a turnover stops being started. -/
  frozenRows : Bool
  deriving DecidableEq, Repr

/-! ## The expert queue unit (R356 to R370) -/

/-- R360, R361: an entry, its arrival in hub cycles, and the core and group it came from. -/
structure EqEntry where
  bits : Quad
  arrived : Nat
  core : Nat
  group : Nat
  deriving DecidableEq, Repr

/-- R357, R361: a loaded queue, by physical number. `born`: a number of its load; `buffers`: the busy batch buffers;
`freed`: those last freed, each with its hub cycle (R363); `fullAt`: the hub cycle in which its ring was last full. -/
structure EqQueue where
  part : Nat
  id : Nat
  kern : Nat
  args : Dword
  gm1 : Nat
  pri : Nat
  cgrp : Nat
  tm1 : Nat
  tmr : Nat
  thr : Nat
  ring : Nat
  bbase : Nat
  nbuf : Nat
  rlsz : Nat
  seed : Dword
  save : Dword
  chip : List EqEntry
  spill : List EqEntry
  ringHead : Nat
  born : Nat
  buffers : List Nat
  freed : List (Nat × Nat)
  draining : Bool
  hold : List Nat
  fullAt : Option Nat
  deriving DecidableEq, Repr

/-- R358, R366, R367: a loaded combine group. `tokens`: distinct tokens enqueued; `released`: its counter. -/
structure EqGroup where
  part : Nat
  id : Nat
  cbase : Nat
  dst : Nat
  mbase : Nat
  pbase : Nat
  dim : Nat
  k : Nat
  npos : Nat
  nseq : Nat
  tokens : List Nat
  released : Nat
  deriving DecidableEq, Repr

/-- R361: the request that has reached the EQU last: its hub cycle, its core and its group. -/
structure EqMark where
  at_ : Nat
  core : Nat
  group : Nat
  deriving DecidableEq, Repr

/-- R363: the EQU. `nextDecision`, in hub cycles; `last`: the request that has reached it last. -/
structure Equ where
  queues : Tab EqQueue
  groups : Tab EqGroup
  nextDecision : Nat
  last : Option EqMark
  deriving DecidableEq, Repr

/-! ## Partitions and translation (R371 to R388) -/

/-- R372 to R376: a cached leaf of the first (`stage` 1) or second stage. `size` in bytes; `out`: the address
the leaf maps to; `entry`: the memory key of the table entry it was read from, none for a leaf that stands in
no table. -/
structure Tlb where
  part : Nat
  stage : Nat
  va : Nat
  size : Nat
  out : Nat
  r : Bool
  w : Bool
  x : Bool
  /-- The leaf's A and D have been set through this entry. -/
  a : Bool
  d : Bool
  entry : Option Nat
  deriving DecidableEq, Repr

/-- R386 to R388: the meter chain, and a snapshot. -/
structure Snapshot where
  epoch : Nat
  counters : List Dword
  chain : BitVec 384
  final : Bool
  deriving DecidableEq, Repr

/-- R400: what a partition's sectors held when it was swapped out, and when that was (R368). -/
structure Stash where
  since : Nat
  cores : Tab Core
  clusters : Tab Cluster
  copies : Tab EngCtx
  ises : Tab EngCtx
  cells : List Host.Cell
  deriving DecidableEq, Repr

/-- R210: a claim of a Crow's Nest resource that the hub cycle has still to decide: the core and group it comes from, the
number of its pending result, and whether the group has given the resource up again since. -/
structure Claim where
  core : Nat
  group : Nat
  key : Nat
  id : Nat
  freed : Bool
  deriving DecidableEq, Repr

/-- R380: a partition. `regs`: partition registers 0x200 to 0x2FF keyed 2n (low) and 2n + 1 (high dword).
`root`: the first-stage root in force (R382). -/
structure Partition where
  sectors : List Nat
  groups : List Nat
  regs : Tab Dword
  root : Dword
  /-- `c.tlbinv` PEND (R375). -/
  invalidating : Bool
  tdisp : Tdisp
  s2digest : BitVec 384
  /-- R390: `c.trapvec` as it stood when the present hub cycle began: what its traps find. -/
  trapvec : Dword
  /-- R377: measurements taken at lock. -/
  lockMeasure : List Byte
  epoch : Nat
  epochFrom : Nat
  chain : BitVec 384
  swappedOut : Bool
  /-- R400: what its sectors held when it was swapped out; none in a partition that is being destroyed (R380). -/
  stash : Option Stash
  /-- R13: low dwords of 128-bit registers the hypervisor has written and not completed, by register. -/
  staged : Tab Dword
  /-- R382, R383: the hypervisor's writes of registers in the present hub cycle, which take effect after it: register, low
  and high dword, oldest first. -/
  hyper : List (Nat × Dword × Dword)
  /-- R210: its groups' claims in the present hub cycle, in the order in which they are decided. -/
  claims : List Claim
  /-- R386: the 14 meters as the present hub cycle found them. -/
  meters : List Dword
  /-- A debug command is running: its address (R404). -/
  command : Option Nat
  lost : Nat
  deriving DecidableEq, Repr

/-! ## The Crow's Nest (R407 to R410) -/

/-- A counter bank or trace unit: its register (R408), its owner, what it has counted this interval. -/
structure Nest where
  lo : Dword
  hi : Dword
  owner : Option Nat
  counts : List Nat
  seq : Nat
  from_ : Nat
  deriving DecidableEq, Repr

/-! ## Hours: modes, start-up, islands, links (R415 to R421) -/

/-- R419. -/
inductive DeviceMode where
  | startUp | normal | test | recovery | service
  deriving DecidableEq, Repr

/-- R417: the start record: one byte per step, and the count of failed starts. -/
structure StartRecord where
  steps : List Byte
  fails : Nat
  deriving DecidableEq, Repr

/-- R418, R50: a record of the repair map: spare-column remaps, and lists of disabled clusters and rows. -/
structure RepairRecord where
  clusters : List Nat
  rows : List Nat
  remaps : List Remap
  deriving DecidableEq, Repr

/-- R420: a checkpoint in the safe tier. -/
structure Checkpoint where
  mem : List Host.Cell
  digests : List (BitVec 384)
  poisoned : List Nat
  deriving DecidableEq, Repr

/-- What the device has answered to the outside: the bytes of a read or a measurement, and a status. -/
structure Answer where
  status : Nat
  bytes : List Byte
  deriving DecidableEq, Repr

/-- R411: the arrays whose corrected errors are counted. -/
inductive CodedArray where
  | hbm | l2 | shadow | regs | loc | su | ob | am | stores | flash
  deriving DecidableEq, Repr

/-- What the outside world and the order of the agents supply: the manual fixes neither. -/
inductive Turn where
  /-- Group `g` issues its next instruction. -/
  | issue (g : Nat)
  /-- A step of the table happens, if it can. -/
  | event (i : Instr)
  /-- Reference cycles pass. -/
  | tick (n : Nat)
  /-- R416: the next start-up step. -/
  | startStep (o : StepOutcome)
  /-- A translation cache drops entry `n` of its list (R375). -/
  | evict (n : Nat)
  /-- The host or a peer writes its own memory. -/
  | outsideWrite (key : Nat) (bytes : List Byte)
  /-- R378: the host's IOMMU, or the peer, begins or ceases to refuse a partition's accesses to a 4 KiB page of its memory. -/
  | outsideRefuse (part key : Nat) (refuses : Bool)
  /-- R383: the hypervisor reads a dword of a register through its page. -/
  | hyperRead (part num : Nat) (high : Bool)
  /-- R411: an array corrects an error. -/
  | corrected (a : CodedArray)
  deriving DecidableEq, Repr

/-- Hub and device state that lives across launches, and what the outside refuses. -/
structure Hours where
  mode : DeviceMode
  start : StartRecord
  /-- The next step of R416, 1 to 10; 11 when start-up is over. -/
  startStep : Nat
  repair : List RepairRecord
  /-- R50: GRADE and STEP of `c.cap`, and disabled clusters and rows. -/
  step : Byte
  grade : Byte
  clustersOff : List Nat
  rowsOff : List Nat
  points : Tab Nat
  /-- R415: of each island, when its clock took which rate, in elevenths of point 0's, newest first. -/
  rates : Tab (List (Nat × Nat))
  portsDown : List Nat
  checkpoint : Option Checkpoint
  reports : Tab Snapshot
  /-- R416 step 8: the partition numbers whose final reports are marked lost. -/
  reportsLost : List Nat
  /-- HBM places of poisoned 32-byte bursts (R411). -/
  poison : List Nat
  /-- R418: the spare-column remaps in force. -/
  remaps : List Remap
  /-- R411: how many errors each array has corrected. -/
  corrected : List (CodedArray × Nat)
  /-- R378: the host and peer pages, by memory key / 4,096, whose accesses by a partition are refused. -/
  refused : List (Nat × Nat)
  deriving DecidableEq, Repr

/-- The whole device. `clock`: reference cycles (R5); `cur`: the group an instruction word issues from;
`turns`: what happens next, empty for the model's own order; `free`: how many free values have been drawn
(model's own). Memory keys are those of `Sys2Proof.Machine.Ops`. -/
structure State where
  mem : List Host.Cell
  groups : Tab Group
  sets : Tab AllocSet
  cores : Tab Core
  blocks : Tab Block
  launches : Tab Launch
  queues : Tab HubQueue
  kernels : Tab Kernel
  copies : Tab EngCtx
  ises : Tab EngCtx
  faults : Tab XFault
  clusters : Tab Cluster
  bands : Tab Band
  equ : Equ
  parts : Tab Partition
  tlb : List Tlb
  nest : Tab Nest
  hours : Hours
  answers : List Answer
  clock : Nat
  cur : Nat
  fresh : Nat
  turns : List Turn
  free : Nat
  deriving DecidableEq, Repr

/-- A context at block start (R44): every register zero, nothing held. -/
def Ctx.start (pc : Dword) : Ctx :=
  { pc := pc, run := 0, issued := 0, last := 0, s := [], p := [], tl := [], held := [], pend := [], toks := [],
    undef := none }

/-- A core as device reset leaves it. -/
def Core.init : Core :=
  { order := [], shadow := { ctx := Ctx.start 0, hv := [] }, serving := none, storeQ := [], mestat := 0,
    halted := false }

/-- R159: a context no operation has reached. -/
def EngCtx.init : EngCtx := { issued := 0, count := 0, ops := [], done := [] }

/-- A cluster as device reset leaves it; the reset tile descriptor (R51) is what an unlisted half reads. -/
def Cluster.init : Cluster :=
  { tiles := [], ctxs := [], table := [], running := [], banks := [], bankOps := [], bad := [] }

/-- R356: no queue and no group is loaded. -/
def Equ.init : Equ := { queues := [], groups := [], nextDecision := 0, last := none }

/-- The device right after device reset (R416, R419): start-up mode, no partition, no block, step 1 of the
start-up to run, every island at operating point 0, memory listing nothing. -/
def State.reset : State :=
  { mem := [], groups := [], sets := [], cores := [], blocks := [], launches := [], queues := [],
    kernels := [], copies := [], ises := [], faults := [], clusters := [], bands := [], equ := Equ.init,
    parts := [], tlb := [], nest := [],
    hours :=
      { mode := .startUp, start := { steps := List.replicate 10 0, fails := 0 }, startStep := 1,
        repair := [], step := 0, grade := 0, clustersOff := [], rowsOff := [], points := [], rates := [], portsDown := [],
        checkpoint := none, reports := [], reportsLost := [], poison := [], remaps := [], corrected := [], refused := [] },
    answers := [], clock := 0, cur := 0, fresh := 0, turns := [], free := 0 }

end Sys2Proof.Machine
end

