-- ==== Sys2Proof/Machine/Table.lean ====
section
/-! DEFINITION. Tables by number: lists of (key, value) pairs with strictly rising keys, so that equal tables are
equal lists. `getZ` and `putZ` serve register files and memory, which list nothing that is zero. -/

namespace Sys2Proof.Machine

/-- The value at a key. -/
def look : Tab α → Nat → Option α
  | [], _ => none
  | (j, v) :: t, k => if j = k then some v else look t k

/-- Sets a key, in its place. -/
def put : Tab α → Nat → α → Tab α
  | [], k, v => [(k, v)]
  | (j, w) :: t, k, v =>
    if k < j then (k, v) :: (j, w) :: t
    else if k = j then (k, v) :: t
    else (j, w) :: put t k v

/-- Removes a key. -/
def drop : Tab α → Nat → Tab α
  | [], _ => []
  | (j, w) :: t, k => if j = k then t else (j, w) :: drop t k

/-- Changes the value at a key, if there is one. -/
def upd (t : Tab α) (k : Nat) (f : α → α) : Tab α :=
  match look t k with
  | none => t
  | some v => put t k (f v)

/-- The value at a key; zero when it is not listed. -/
def getZ (t : Tab (BitVec w)) (k : Nat) : BitVec w := (look t k).getD 0

/-- Sets a key; a zero is not listed. -/
def putZ (t : Tab (BitVec w)) (k : Nat) (v : BitVec w) : Tab (BitVec w) :=
  if v = 0 then drop t k else put t k v

/-- Strictly rising keys, all at or above `lo`. -/
def risingFrom : Nat → Tab α → Bool
  | _, [] => true
  | lo, (k, _) :: t => decide (lo ≤ k) && risingFrom (k + 1) t

/-- The canonical form of a table. -/
def rising (t : Tab α) : Bool := risingFrom 0 t

/-- The first number at or above `lo`, within `fuel` steps, for which `p` holds. -/
def firstFrom (p : Nat → Bool) (lo : Nat) : Nat → Option Nat
  | 0 => none
  | n + 1 => if p lo then some lo else firstFrom p (lo + 1) n

/-- The element with the least measure, the earliest among equals. -/
def leastBy (f : α → Nat) : List α → Option α
  | [] => none
  | x :: xs =>
    match leastBy f xs with
    | none => some x
    | some y => if f y < f x then some y else some x

/-- Element n of a list, changed. -/
def setAt : List α → Nat → α → List α
  | [], _, _ => []
  | _ :: xs, 0, v => v :: xs
  | x :: xs, n + 1, v => x :: setAt xs n v

end Sys2Proof.Machine
end

