-- ==== Sys2Proof/Machine/Channels.lean ====
section
/-! DEFINITION. The channels of a band's configuration by number (R300, R312, R321), the state of its stages, ports and channels,
and how landed tokens stream in. -/

namespace Sys2Proof.Machine

/-! ## What a configuration says -/

def StageProg.inputs (p : StageProg) (k : Nat) : Nat := p.incnt.getD k 0
def StageProg.outputs (p : StageProg) (k : Nat) : Nat := p.outcnt.getD k 0

/-- The stages' virtual row. -/
def rowOf (stages : List StageCfg) (s : Nat) : Nat := match stages[s]? with
  | some c => c.vrow
  | none => 0

/-- R321, R322: tokens of a channel's landing ring. -/
def ringOf (stages : List StageCfg) (c : ChanCfg) : Nat :=
  match stages[c.pstg]? with
  | some s => s.fpb * s.prog.outputs c.pport
  | none => 0

/-- R319: the image scrolls. -/
def Config.scrolls (c : Config) : Bool := decide (c.p < c.v)

def Config.stage (c : Config) (i : Nat) : Option StageCfg := c.stages[i]?

/-- The channel that feeds an input port, in the numbering of `Config`. -/
def Config.inPath (c : Config) (s p : Nat) : Option Nat :=
  (c.chans.findIdx? (fun x => x.cstg == s && x.cport == p)).or
    (((c.ports.findIdx? (fun e => e.kind % 2 == 0 && e.stg == s && e.port == p)).map (c.chans.length + ·)).or
      ((c.ports.findIdx? (fun e => e.cmpl == some (s, p))).map (c.chans.length + c.ports.length + ·)))

/-- The channel an output port feeds. -/
def Config.outPath (c : Config) (s p : Nat) : Option Nat :=
  (c.chans.findIdx? (fun x => x.pstg == s && x.pport == p)).or
    ((c.ports.findIdx? (fun e => e.kind % 2 == 1 && e.stg == s && e.port == p)).map (c.chans.length + ·))

/-- The channel of a port table entry, and of its completion output. -/
def Config.portPath (c : Config) (i : Nat) : Nat := c.chans.length + i
def Config.cmplPath (c : Config) (i : Nat) : Nat := c.chans.length + c.ports.length + i

/-- The stage and input port a channel feeds; none for one that leaves the fabric. -/
def Config.consumer (c : Config) (id : Nat) : Option (Nat × Nat) :=
  if id < c.chans.length then (c.chans[id]?).map (fun x => (x.cstg, x.cport))
  else if id < c.chans.length + c.ports.length then
    (c.ports[id - c.chans.length]?).bind (fun e => if e.kind % 2 = 0 then some (e.stg, e.port) else none)
  else (c.ports[id - c.chans.length - c.ports.length]?).bind (·.cmpl)

/-- R300: a channel's depth; 8 where no table entry gives it. -/
def Config.depth (c : Config) (id : Nat) : Nat := match c.chans[id]? with
  | some x => x.depth
  | none => 8

/-- R321: a channel's landing ring; for one that no stage feeds, a batch of its consumer (log 25). -/
def Config.ring (c : Config) (id : Nat) : Nat :=
  match c.chans[id]? with
  | some x => ringOf c.stages x
  | none => match c.consumer id with
    | some (s, p) => (match c.stage s with
      | some k => k.fpb * k.prog.inputs p
      | none => 0)
    | none => 0

/-- R105: the input ports a stage declares. -/
def StageProg.ins (p : StageProg) : List Nat := (List.range 8).filter (fun k => p.inputs k != 0)
def StageProg.outs (p : StageProg) : List Nat := (List.range 8).filter (fun k => p.outputs k != 0)

/-- The channels of a configuration, by number. -/
def Config.paths (c : Config) : List Nat := List.range (c.chans.length + 2 * c.ports.length)

/-! ## What a band holds -/

def ChanSt.empty : ChanSt := { q := [], landed := [] }
def Band.chan (b : Band) (id : Nat) : ChanSt := (look b.chans id).getD ChanSt.empty
def Band.setChan (b : Band) (id : Nat) (c : ChanSt) : Band := { b with chans := put b.chans id c }

def PortSt.init : PortSt :=
  { pos := 0, part := [], spill := [], lost := [], cmpl := 0, ended := false, rare := [], slots := [] }
def Band.port (b : Band) (i : Nat) : PortSt := (look b.ports i).getD PortSt.init
def Band.setPort (b : Band) (i : Nat) (p : PortSt) : Band := { b with ports := put b.ports i p }

/-- A stage as its install leaves it. Its latches hold zero (log 25). -/
def StageSt.init (rng : List Word) : StageSt :=
  { keep := [], rng, flags := 0, fired := 0, batchFired := 0, batches := 0, eos := [], differ := false }
def Band.stage (b : Band) (i : Nat) : StageSt := (look b.stages i).getD (StageSt.init [])
def Band.setStage (b : Band) (i : Nat) (st : StageSt) : Band := { b with stages := put b.stages i st }

/-- R319, R323: the virtual row stands on a row that is LIVE or DONE. -/
def Band.resident (b : Band) (c : Config) (vrow : Nat) : Bool :=
  b.rows.any (fun r => (r.2.st == .live || r.2.st == .done) && r.2.hoist % c.v == vrow)

/-- R320: the stage has passed end-of-stream on every input. -/
def Band.drained (b : Band) (c : Config) (i : Nat) : Bool :=
  match c.stage i with
  | some k => !k.prog.ins.isEmpty && k.prog.ins.all (fun p => (b.stage i).eos.contains p)
  | none => true

/-- R320: the stage is complete for its batch. -/
def Band.complete (b : Band) (c : Config) (i : Nat) : Bool :=
  match c.stage i with
  | some k => c.scrolls && (decide (k.fpb ≤ (b.stage i).batchFired) || b.drained c i)
  | none => true

/-- R321: tokens enter the channel's buffers: its consumer is resident and not complete for its batch. -/
def Band.accepts (b : Band) (c : Config) (id : Nat) : Bool :=
  match c.consumer id with
  | none => true
  | some (s, _) => b.resident c (rowOf c.stages s) && !b.complete c s

/-- R321, R326: landed tokens stream into a channel that accepts them. -/
def Band.stream (b : Band) (c : Config) (id : Nat) : Band :=
  let ch := b.chan id
  if ch.landed = [] ∨ b.frozenRows ∨ !b.accepts c id then b
  else
    let n := c.depth id - ch.q.length
    b.setChan id { q := ch.q ++ ch.landed.take n, landed := ch.landed.drop n }

/-- R321: the same of every channel of the band's configuration. -/
def Band.streamAll (b : Band) : Band :=
  match b.cfg with
  | some c => c.paths.foldl (fun b id => b.stream c id) b
  | none => b

end Sys2Proof.Machine
end

