-- ==== Sys2Proof/Machine/Flags.lean ====
section
/-! DEFINITION. The sticky flags of R34 in the bit order of `c.fstat` (R45), and the event bits of `c.mestat`
(R224) and `c.amerr` (R232). Every operation that can set flags answers a `Flags`; they are joined by OR. -/

namespace Sys2Proof.Machine

/-- R45: bits [5:0] of `c.fstat`. -/
abbrev Flags := BitVec 6

/-- R34: an invalid operation. -/
def flagNV : Flags := 1
/-- R34: division by zero, or the logarithm of zero. -/
def flagDZ : Flags := 2
/-- R34: overflow. -/
def flagOF : Flags := 4
/-- R34: tiny and inexact. -/
def flagUF : Flags := 8
/-- R34: inexact. -/
def flagNX : Flags := 16
/-- R34, R238: streams of different length. -/
def flagLMIS : Flags := 32

/-- The flag `x` when `b` holds. -/
def flagIf (b : Bool) (x : Flags) : Flags := if b then x else 0

/-- R34: the flags of all lanes are ORed together. -/
def flagsJoin (fs : List Flags) : Flags := fs.foldl (· ||| ·) 0

/-- R224: a pass event received a NaN, an infinity, saturated, wrapped. -/
def evNaN : Dword := 1
def evInf : Dword := 2
def evSat : Dword := 4
def evWrap : Dword := 8
def evForeign : Dword := 16
def evClaimed : Dword := 32
def evUncorr : Dword := 64

/-- R232. -/
def amRange : Dword := 1
def amUnalloc : Dword := 2
def amForeign : Dword := 4
def amClaimed : Dword := 8
def amUncorr : Dword := 16

end Sys2Proof.Machine
end

