-- ==== Sys2Proof/Machine/Mem.lean ====
section
/-! DEFINITION. The memories of R276 and R1 as one list of (key, byte) cells: where each of them lies among the
keys, and reading and writing bytes. A byte nothing has written reads as zero (log 1). -/

namespace Sys2Proof.Machine

/-! ## Keys -/

/-- R1, R381: HBM, by channel group and offset; 64 groups of 16 GiB from key 0. -/
def hbmSize : Nat := gib 1024
/-- R371: host and CXL memory, by bits [49:0] of a host-class GPA. -/
def hostBase : Nat := 2 ^ 50
/-- R213: operand buffers, 1 MiB per cluster. -/
def obBase : Nat := 2 ^ 52
/-- R219: accumulator memories, 512 KiB per cluster, by byte. -/
def amBase : Nat := 2 ^ 53
/-- R276, R78: local windows, 256 KiB per block (log 2). -/
def localBase : Nat := 2 ^ 54
/-- R378: peer memory, by port, peer partition and offset. -/
def peerBase : Nat := 2 ^ 56

def obKey (cluster byte : Nat) : Nat := obBase + cluster * mib 1 + byte
def amKey (cluster word : Nat) : Nat := amBase + cluster * kib 512 + 4 * word
def localKey (block addr : Nat) : Nat := localBase + block * kib 256 + addr
def peerKey (port rpart offset : Nat) : Nat := peerBase + (16 * port + rpart) * 2 ^ 46 + offset

/-- R381: the place in HBM of an offset in a partition's device memory: 4 KiB units interleaved across its channel
groups in ascending group number. None beyond its memory. -/
def devicePlace (groups : List Nat) (offset : Nat) : Option Nat :=
  let m := groups.length
  if offset < gib 16 * m then
    (groups[offset / 4096 % m]?).map (fun g => gib 16 * g + offset / 4096 / m * 4096 + offset % 4096)
  else none

/-! ## The canonical form -/

/-- Keys strictly rising, and no zero byte listed. -/
def Memory.wf (m : List Host.Cell) : Bool := rising m && m.all (fun c => c.2 != 0)

/-! ## Bytes -/

/-- Writes bytes from a key up. -/
def writeCells (m : List Host.Cell) (k : Nat) : List Byte → List Host.Cell
  | [] => m
  | b :: bs => writeCells (putZ m k b) (k + 1) bs

/-- Reads `n` bytes from a key up. -/
def readCells (m : List Host.Cell) (k : Nat) : Nat → List Byte
  | 0 => []
  | n + 1 => getZ m k :: readCells m (k + 1) n

/-- R7: a little-endian number. -/
def leNat : List Byte → Nat
  | [] => 0
  | b :: bs => b.toNat + 256 * leNat bs

/-- R7: `n` little-endian bytes of a number. -/
def leBytes (x : Nat) : Nat → List Byte
  | 0 => []
  | n + 1 => BitVec.ofNat 8 x :: leBytes (x / 256) n

/-- One byte of the machine's memory. -/
def readByte (s : State) (k : Nat) : Byte := getZ s.mem k

def readBytes (s : State) (k n : Nat) : List Byte := readCells s.mem k n

/-- R7: the `n`-byte number at a key. -/
def loadLE (s : State) (k n : Nat) : Nat := leNat (readBytes s k n)

/-- Writes bytes to the machine's memory. R411: a written burst is no longer poisoned where every byte of it is
written. -/
def writeBytes (s : State) (k : Nat) (bs : List Byte) : State :=
  { s with
    mem := writeCells s.mem k bs
    hours := { s.hours with poison := s.hours.poison.filter (fun p => !(decide (k ≤ p) && decide (p + 32 ≤ k + bs.length))) } }

/-- R7: stores an `n`-byte number. -/
def storeLE (s : State) (k n x : Nat) : State := writeBytes s k (leBytes x n)

/-- A field of a dword, by its bits [hi:lo]. -/
def field (x : Dword) (hi lo : Nat) : Nat := x.toNat / 2 ^ lo % 2 ^ (hi + 1 - lo)

/-- Bit n of a dword. -/
def bitAt (x : Dword) (n : Nat) : Bool := x.getLsbD n

/-- The dword of memory at a key. -/
def dwordAt (s : State) (k : Nat) : Dword := BitVec.ofNat 64 (loadLE s k 8)

/-- `n` zero bytes. -/
def zeroBytes (n : Nat) : List Byte := List.replicate n 0

end Sys2Proof.Machine
end

