-- ==== Sys2Proof/Machine/Translate.lean ====
section
/-! DEFINITION. Partition registers, the two stages of translation (R371 to R378) and accesses to global
addresses through them. A walk may set A and D bits and fills a translation cache, so it answers a state. -/

namespace Sys2Proof.Machine

/-! ## Partition registers (R103, R383) -/

/-- The low dword of partition register `n`. -/
def partReg (s : State) (part n : Nat) : Dword :=
  match look s.parts part with
  | some p => getZ p.regs (2 * n)
  | none => 0

/-- The high dword of a 128-bit partition register. -/
def partRegHigh (s : State) (part n : Nat) : Dword :=
  match look s.parts part with
  | some p => getZ p.regs (2 * n + 1)
  | none => 0

/-- Sets the low dword of partition register `n`. -/
def setPartReg (s : State) (part n : Nat) (v : Dword) : State :=
  { s with parts := upd s.parts part (fun p => { p with regs := putZ p.regs (2 * n) v }) }

def setPartRegHigh (s : State) (part n : Nat) (v : Dword) : State :=
  { s with parts := upd s.parts part (fun p => { p with regs := putZ p.regs (2 * n + 1) v }) }

/-- R384, R400: meter `n` of a partition counts `k` more, saturating; nothing while the partition is swapped out. -/
def addMeter (s : State) (part n k : Nat) : State :=
  match look s.parts part with
  | none => s
  | some p =>
    if p.stash.isSome then s
    else setPartReg s part (0x230 + n) (BitVec.ofNat 64 (min (2 ^ 64 - 1) ((partReg s part (0x230 + n)).toNat + k)))

/-- R371: a memory key of device memory. -/
def isHbm (k : Nat) : Bool := decide (k < hbmSize)
/-- R371: a memory key of host or CXL memory. -/
def isHost (k : Nat) : Bool := decide (hostBase ≤ k) && decide (k < hostBase + 2 ^ 50)

/-- R384: host-link payload. -/
def meterHost (s : State) (part k n : Nat) : State := if isHost k then addMeter s part 12 n else s

/-- R382: bit `n` of the feature mask. -/
def masked (s : State) (part n : Nat) : Bool := bitAt (partReg s part 0x218) n

/-! ## Walking (R372, R373) -/

/-- R374: what an access requires. -/
structure Need where
  r : Bool
  w : Bool
  x : Bool
  deriving DecidableEq, Repr

def needR : Need := { r := true, w := false, x := false }
def needW : Need := { r := false, w := true, x := false }
def needRW : Need := { r := true, w := true, x := false }
def needX : Need := { r := false, w := false, x := true }

/-- Why an access is not performed. `link`: the far side refuses it or cannot be reached (R378, R421). -/
inductive XCause where
  | translation | permission | nonCanonical | link
  deriving DecidableEq, Repr

/-- The answer of a translation: the memory key of the first byte. -/
inductive XRes where
  | ok (key : Nat)
  | bad (c : XCause)
  deriving DecidableEq, Repr

/-- A translation's answer with the state it leaves. -/
structure XOut where
  s : State
  res : XRes
  deriving DecidableEq, Repr

/-- R372: a reserved bit of an entry is set. -/
def entryReserved (e : Dword) : Bool :=
  field e 63 61 != 0 || field e 57 52 != 0 || field e 11 7 != 0 || bitAt e 3

/-- R373: the level of a size code and the bytes it covers. -/
def leafLevel (sz : Nat) : Nat := if sz < 3 then 0 else if sz < 6 then 1 else 2
def leafSize (sz : Nat) : Nat :=
  match sz with
  | 0 => kib 4 | 1 => kib 16 | 2 => kib 64 | 3 => mib 2 | 4 => mib 32 | 5 => mib 512 | 6 => gib 1
  | _ => gib 16

/-- A leaf a walk reached: the entry, where it stands. -/
structure Leaf where
  entry : Dword
  key : Nat
  deriving DecidableEq, Repr

/-- R372, R373: the walk below `table` through the levels left. `place`: the memory key of a table address. -/
def walk (s : State) (place : Nat → Option Nat) (va table : Nat) : List Nat → Option Leaf
  | [] => none
  | l :: ls =>
    match place (table + 8 * (va / 2 ^ (12 + 9 * l) % 512)) with
    | none => none
    | some k =>
      let e := dwordAt s k
      if !bitAt e 0 || entryReserved e then none
      else if bitAt e 1 || bitAt e 2 || bitAt e 6 then
        let sz := field e 60 58
        if leafLevel sz = l ∧ field e 51 12 * 4096 % leafSize sz = 0 then some { entry := e, key := k } else none
      else if field e 60 58 ≠ 0 ∨ l = 0 then none
      else walk s place va (field e 51 12 * 4096) ls

/-- R372: the levels from the root. -/
def levels : List Nat := [4, 3, 2, 1, 0]

/-- R375: a leaf as a translation cache holds it. -/
def cacheLeaf (part stage va : Nat) (leaf : Leaf) : Tlb :=
  let size := leafSize (field leaf.entry 60 58)
  { part, stage, va := va / size * size, size, out := field leaf.entry 51 12 * 4096,
    r := bitAt leaf.entry 1, w := bitAt leaf.entry 2, x := bitAt leaf.entry 6,
    a := bitAt leaf.entry 5, d := bitAt leaf.entry 4, entry := some leaf.key }

/-- The cached leaf covers the address. -/
def Tlb.covers (t : Tlb) (part stage va : Nat) : Bool :=
  t.part == part && t.stage == stage && decide (t.va ≤ va) && decide (va < t.va + t.size)

/-- R374, R376: the access is permitted. The second stage limits only X and W. -/
def Tlb.permits (t : Tlb) (n : Need) : Bool :=
  (!n.r || t.r || t.stage == 2) && (!n.w || t.w) && (!n.x || t.x)

/-- R374: the access sets A or D in the leaf's entry. -/
def Tlb.touches (t : Tlb) (n : Need) : Bool := !(t.a && (t.d || !n.w))

/-- R374: A on the first access through a leaf, D on the first write, each an OR on the entry in memory. -/
def touchLeaf (s : State) (t : Tlb) (n : Need) : State :=
  let d := t.d || n.w
  let mem := match t.entry with
    | some k => (storeLE s k 8 ((dwordAt s k) ||| 0x20#64 ||| (if n.w then 0x10#64 else 0#64)).toNat)
    | none => s
  if !t.touches n then s
  else { mem with tlb := mem.tlb.map (fun u => if u = t then { t with a := true, d } else u) }

/-- One stage: from the cache, or by a walk that fills it. -/
def stageOf (s : State) (part stage va : Nat) (root : Nat) (place : Nat → Option Nat) (n : Need) : XOut :=
  match s.tlb.find? (fun t => t.covers part stage va) with
  | some t =>
    if t.permits n then { s := touchLeaf s t n, res := .ok (t.out + (va - t.va)) }
    else { s, res := .bad .permission }
  | none =>
    match walk s place va root levels with
    | none => { s, res := .bad .translation }
    | some leaf =>
      let t := cacheLeaf part stage va leaf
      if t.permits n then
        { s := touchLeaf { s with tlb := t :: s.tlb } t n, res := .ok (t.out + (va - t.va)) }
      else { s, res := .bad .permission }

/-- R381: the memory key of an offset in the partition's channel groups. -/
def partPlace (s : State) (part offset : Nat) : Option Nat :=
  match look s.parts part with
  | some p => devicePlace p.groups offset
  | none => none

/-- R371, R376: a device-memory GPA through the second stage. Its tables lie at offsets in the partition's channel
groups (log 6). -/
def stage2 (s : State) (part gpa : Nat) (n : Need) : XOut :=
  match partPlace s part gpa with
  | none => { s, res := .bad .translation }
  | some _ =>
    let o := stageOf s part 2 gpa (field (partReg s part 0x217) 51 12 * 4096) (partPlace s part) n
    match o.res with
    | .bad c => { s := o.s, res := .bad c }
    | .ok offset =>
      match partPlace o.s part offset with
      | some k => { s := o.s, res := .ok k }
      | none => { s := o.s, res := .bad .translation }

/-- R378: the key of memory outside the device, or the refusal of the host or peer that owns it. -/
def outsideKeyOf (s : State) (part k : Nat) : XRes := if s.hours.refused.contains (part, k / 4096) then .bad .link else .ok k

/-- R377: an interface in ERROR cuts the partition off from the host. -/
def hostCut (s : State) (part k : Nat) : Bool :=
  isHost k && match look s.parts part with
    | some p => p.tdisp == .error
    | none => false

/-- R371, R378: a GPA of any class. -/
def gpaKey (s : State) (part gpa : Nat) (n : Need) : XOut :=
  match gpa / 2 ^ 50 % 4 with
  | 0 => stage2 s part gpa n
  | 1 => { s, res := .bad .translation }
  | 2 =>
    match look s.parts part with
    | some p =>
      if p.tdisp = .error then { s, res := .bad .link } else { s, res := outsideKeyOf s part (hostBase + gpa % 2 ^ 50) }
    | none => { s, res := .bad .translation }
  | _ =>
    let win := partReg s part (0x220 + gpa / 2 ^ 46 % 16)
    let port := field win 59 56
    if !bitAt win 63 || s.hours.portsDown.contains port then { s, res := .bad .translation }
    else { s, res := outsideKeyOf s part (peerKey port (field win 55 52) (gpa % 2 ^ 46)) }

/-- R371: canonical: bits [63:57] equal bit 56. -/
def canonical (va : Nat) : Bool :=
  let x := va % 2 ^ 64 / 2 ^ 56
  x == 0 || x == 0xFF

/-- R372: the addresses of the entries a walk reads, in order. -/
def walkReads (s : State) (place : Nat → Option Nat) (va table : Nat) : List Nat → List Nat
  | [] => []
  | l :: ls =>
    let a := table + 8 * (va / 2 ^ (12 + 9 * l) % 512)
    a :: match place a with
      | none => []
      | some k =>
        let e := dwordAt s k
        if !bitAt e 0 || entryReserved e || bitAt e 1 || bitAt e 2 || bitAt e 6 then [] else walkReads s place va (field e 51 12 * 4096) ls

/-- R374, R376: what a first-stage translation does to the second stage: a walk reads its entries through it, and the leaf's is
written through it where A or D is set there, be the leaf cached or not. -/
def walkTouches (s : State) (part va root : Nat) (place : Nat → Option Nat) (n : Need) : List (Nat × Need) :=
  let reads := walkReads s place va root levels
  let written (t : Tlb) : List (Nat × Need) :=
    if t.permits n && t.touches n then (reads.getLast?.map (fun a => (a, needW))).toList else []
  match s.tlb.find? (fun t => t.covers part 1 va) with
  | some t => written t
  | none => reads.map (fun a => (a, needR)) ++ match walk s place va root levels with
    | some l => written (cacheLeaf part 1 va l)
    | none => []

/-- R371 to R378: the memory key of a virtual address of a partition, for one access that lies in one page. -/
def xlate (s : State) (part va : Nat) (n : Need) : XOut :=
  if !canonical va then { s, res := .bad .nonCanonical }
  else
    let root := match look s.parts part with
      | some p => field p.root 51 12 * 4096
      | none => 0
    let va := va % 2 ^ 57
    let place := fun gpa =>
      match (gpaKey s part gpa needR).res with
      | .ok k => if gpa / 2 ^ 50 % 4 = 0 then some k else none
      | .bad _ => none
    let t := (walkTouches s part va root place n).foldl (fun s x => (gpaKey s part x.1 x.2).s) s
    let o := stageOf t part 1 va root place n
    match o.res with
    | .bad _ => o
    | .ok gpa => gpaKey o.s part (gpa % 2 ^ 52) n

/-! ## Whole-range accesses of the hub and the engines -/

/-- The bytes of a virtual range in pieces that cross no 4 KiB boundary: (address, bytes). -/
def pieces (va n : Nat) : Nat → List (Nat × Nat)
  | 0 => []
  | f + 1 =>
    if n = 0 then []
    else
      let k := min n (4096 - va % 4096)
      (va, k) :: pieces (va + k) (n - k) f

/-- The result of reading or writing a range. -/
structure RangeOut where
  s : State
  bytes : List Byte
  bad : Option (XCause × Nat)
  deriving DecidableEq, Repr

/-- Reads the pieces in order, stopping at the first that is refused. -/
def readPieces (s : State) (part : Nat) : List (Nat × Nat) → RangeOut
  | [] => { s, bytes := [], bad := none }
  | (va, n) :: ps =>
    let o := xlate s part va needR
    match o.res with
    | .bad c => { s := o.s, bytes := [], bad := some (c, va) }
    | .ok k =>
      let rest := readPieces (meterHost o.s part k n) part ps
      { rest with bytes := readBytes o.s k n ++ rest.bytes }

/-- Reads `n` bytes of a partition's virtual memory. -/
def readVirtual (s : State) (part va n : Nat) : RangeOut := readPieces s part (pieces va n (n / 4096 + 2))

/-- The keys of the pieces of a range to be written, checked before any byte is written. -/
def placePieces (s : State) (part : Nat) : List (Nat × Nat) → State × Option (XCause × Nat) × List (Nat × Nat)
  | [] => (s, none, [])
  | (va, n) :: ps =>
    let o := xlate s part va needW
    match o.res with
    | .bad c => (o.s, some (c, va), [])
    | .ok k =>
      let (s', bad, ks) := placePieces o.s part ps
      (s', bad, (k, n) :: ks)

/-- Writes consecutive bytes at the keys of their pieces. -/
def writePieces (s : State) : List (Nat × Nat) → List Byte → State
  | [], _ => s
  | (k, n) :: ks, bs => writePieces (writeBytes s k (bs.take n)) ks (bs.drop n)

/-- Writes bytes to a partition's virtual memory, all or none. -/
def writeVirtual (s : State) (part va : Nat) (bs : List Byte) : RangeOut :=
  match placePieces s part (pieces va bs.length (bs.length / 4096 + 2)) with
  | (s', some e, _) => { s := s', bytes := [], bad := some e }
  | (s', none, ks) => { s := ks.foldl (fun s k => meterHost s part k.1 k.2) (writePieces s' ks bs), bytes := [], bad := none }

/-- A dword of virtual memory, zero where the read is refused. -/
def readDword (s : State) (part va : Nat) : Dword := BitVec.ofNat 64 (leNat (readVirtual s part va 8).bytes)

end Sys2Proof.Machine
end

