-- ==== Sys2Proof/Machine/Record.lean ====
section
/-! DEFINITION. What the device reports: fault records (R393 to R395), Crow's Nest event counts and trace
records (R408 to R410). -/

namespace Sys2Proof.Machine

/-! ## Choices the manual leaves open -/

/-- One element of a list; which one the manual leaves open (log 45). -/
def freePick (s : State) : List α → Option α
  | [] => none
  | [x] => some x
  | x :: y :: xs => (x :: y :: xs)[Config.freeNat s.free % (xs.length + 2)]?

/-- A list in an order the manual leaves open: `fuel` picks, drawn from `n` on (log 45). -/
def freeOrder : Nat → Nat → List α → List α
  | 0, _, _ => []
  | fuel + 1, n, xs =>
    match xs[Config.freeNat n % max 1 xs.length]? with
    | some x => x :: freeOrder fuel (n + 1) (xs.eraseIdx (Config.freeNat n % max 1 xs.length))
    | none => []

/-- Free values drawn. -/
def drawn (s : State) (n : Nat) : State := { s with free := s.free + n }

/-! ## Fault records -/

/-- R393: records the ring holds. -/
def ringRecords (high : Dword) : Nat := 2 ^ (field high 11 8 + 7)

/-- R393, R395: the ring takes a record now. -/
def ringReady (s : State) (part : Nat) : Bool :=
  let lo := partReg s part 0x21C
  let hi := partRegHigh s part 0x21C
  bitAt hi 0 && decide ((field lo 31 0 + 2 ^ 32 - field lo 63 32) % 2 ^ 32 < ringRecords hi)

/-- R394: BLK and the QUEUE and EXP fields for a block. -/
def recordBlock (s : State) (blk : Option Nat) : Nat × Nat :=
  match blk.bind (look s.blocks) with
  | none => (2 ^ 32 - 1, 0)
  | some b =>
    match look s.launches b.launch with
    | none => (b.index, 0)
    | some l =>
      match l.firing with
      | some f => (b.index, 2 ^ 19 + f.queue * 2 ^ 20)
      | none => (b.index, l.queue * 2 ^ 20)

/-- R394: the bytes of a fault record. -/
def faultBytes (type tag lost : Nat) (blkField queueField : Nat) (addr info : Dword) : List Byte :=
  leBytes (type + tag * 2 ^ 16 + min lost (2 ^ 32 - 1) * 2 ^ 32) 8 ++
    leBytes (queueField + blkField * 2 ^ 32) 8 ++ leBytes addr.toNat 8 ++ leBytes info.toNat 8

/-- R393 to R395: writes a fault record, or drops it into LOST. A record whose own write is refused is dropped too
(log 7). -/
def faultRecord (s : State) (part type tag : Nat) (blk : Option Nat) (addr info : Dword) : State :=
  match look s.parts part with
  | none => s
  | some p =>
    let lose := { s with parts := put s.parts part { p with lost := p.lost + 1 } }
    if ringReady s part then
      let lo := partReg s part 0x21C
      let hi := partRegHigh s part 0x21C
      let (bf, qf) := recordBlock s blk
      let o := writeVirtual s part (field hi 63 12 * 4096 + 32 * (field lo 31 0 % ringRecords hi))
        (faultBytes type tag p.lost bf qf addr info)
      match o.bad with
      | some _ => lose
      | none =>
        let s := setPartReg o.s part 0x21C
          (BitVec.ofNat 64 (field lo 63 32 * 2 ^ 32 + (field lo 31 0 + 1) % 2 ^ 32))
        { s with parts := upd s.parts part (fun p => { p with lost := 0 }) }
    else lose

/-- All ones, for ADDR where no address is concerned. -/
def noAddr : Dword := BitVec.allOnes 64

/-! ## Crow's Nest -/

/-- R408: where an event of a band happened, by the band's first row; cores are themselves. -/
def bandPlace (first : Nat) : Nat := 4096 + first

/-- R408: where a block counts. -/
def Block.place (b : Block) : Nat :=
  match b.ver, b.band with
  | 2, some f => bandPlace f
  | _, _ => b.core

/-- R408: where an event of an engine context happened. -/
def engPlace (e : EngRef) : Nat := 2 ^ 40 + e.kind * 2 ^ 36 + e.unit % 2 ^ 16 * 2 ^ 8 + e.ctx % 2 ^ 8

/-- R408: the number of the engine context of a place: a band's stands for its context. -/
def placeContext (p : Nat) : Option Nat :=
  if 2 ^ 40 ≤ p then some (Config.contextNumber (p / 2 ^ 36 % 16) (p / 2 ^ 8 % 2 ^ 16) (p % 2 ^ 8) % 2 ^ 14)
  else if 4096 ≤ p then some (Config.contextNumber 3 (p - 4096) 0 % 2 ^ 14)
  else none

/-- R408: an event at a place (a core, `bandPlace` or `engPlace`) of partition `part` is in the scope of a bank or unit. -/
def Nest.inScope (n : Nest) (part : Nat) (core : Option Nat) : Bool :=
  n.owner == some part && bitAt n.lo 63 &&
    match field n.lo 47 46 with
    | 0 => true
    | 1 => core.any (fun p => decide (p < 2 ^ 40) && p % 4096 == field n.lo 45 32)
    | 2 => core.any (fun p => decide (p < 4096) && p / 4 == field n.lo 45 32)
    | _ => core.bind placeContext == some (field n.lo 45 32)

/-- R408: the event code of counter `c`. -/
def Nest.code (n : Nest) (c : Nat) : Nat := field n.lo (8 * c + 7) (8 * c)

/-- Adds to every counter of a bank that counts `code`. -/
def Nest.add (n : Nest) (code k : Nat) : Nest :=
  { n with counts := (List.range 4).map (fun c => n.counts.getD c 0 + (if n.code c = code then k else 0)) }

/-- R409: counts an event. Banks are keys 0 to 15 of the table. -/
def countEvent (s : State) (part : Nat) (core : Option Nat) (code : Nat) : State :=
  { s with
    nest := s.nest.map (fun e => if e.1 < 16 ∧ e.2.inScope part core then (e.1, e.2.add code 1) else e) }

/-- R410: the bytes of a trace record. -/
def traceBytes (type blk info ord time : Nat) : List Byte :=
  leBytes (type + blk % 2 ^ 24 * 2 ^ 8 + info % 2 ^ 16 * 2 ^ 32 + ord % 2 ^ 16 * 2 ^ 48) 8 ++ leBytes time 8

/-- R410: one trace unit writes a record, the oldest overwritten. -/
def traceUnit (s : State) (part u : Nat) (bs : List Byte) : State :=
  match look s.nest u with
  | none => s
  | some n =>
    let o := writeVirtual s part (field n.hi 63 12 * 4096 + 16 * (n.seq % 2 ^ (field n.hi 11 8 + 4))) bs
    { o.s with nest := put o.s.nest u { n with seq := n.seq + 1 } }

/-- R408, R410: every trace unit in scope whose SEL bit `sel` is set writes a record. Units are keys 16 to 19. -/
def traceEvent (s : State) (part : Nat) (core : Option Nat) (sel : Nat) (type blk info ord : Nat) : State :=
  [16, 17, 18, 19].foldl (fun s u =>
    match look s.nest u with
    | some n =>
      if n.inScope part core && bitAt n.lo sel then traceUnit s part u (traceBytes type blk info ord s.clock)
      else s
    | none => s) s

/-- R407, R409: the code counts cycles or instruction fills: the timing the model has no account of. -/
def timedCode (c : Nat) : Bool := (decide (1 ≤ c) && decide (c ≤ 5)) || c == 8 || c == 0x18 || (decide (0x20 ≤ c) && decide (c ≤ 0x2F))

/-- R410: the counters of an interval. What depends on timing is a free value (log 5). -/
def Nest.values (n : Nest) (free : Nat) : List Dword :=
  (List.range 4).map (fun c => if timedCode (n.code c) then Config.freeDword (free + c) else BitVec.ofNat 64 (n.counts.getD c 0))

/-- R410: the bank writes its record and a new interval begins. -/
def bankRecord (s : State) (part bank : Nat) : State :=
  match look s.nest bank with
  | none => s
  | some n =>
    let bs := leBytes n.seq 8 ++ leBytes s.clock 8 ++ (n.values s.free).flatMap (fun v => leBytes v.toNat 8) ++ zeroBytes 16
    let o := writeVirtual s part (field n.hi 63 12 * 4096 + 64 * (n.seq % 2 ^ (field n.hi 11 8 + 4))) bs
    { o.s with
      nest := put o.s.nest bank { n with seq := n.seq + 1, counts := [0, 0, 0, 0], from_ := s.clock }, free := o.s.free + 4 }

/-- R408: a configuration interval ends for every bank in scope that counts by them. -/
def endIntervals (s : State) (part : Nat) (core : Option Nat) : State :=
  (List.range 16).foldl (fun s k =>
    match look s.nest k with
    | some n => if n.inScope part core && field n.lo 62 48 == 0 then bankRecord s part k else s
    | none => s) s

end Sys2Proof.Machine
end

