-- ==== Sys2Proof/Machine/Ops.lean ====
section
/-! DEFINITION. The operations every instruction word is built from: who issues it, what it reads at its place in
the group's issue order (R53 to R57), how its results are held, how it finishes, parks, or takes a trap, the
delivery of a trap and the return from one (R389 to R392, R61 to R63, R208). -/

namespace Sys2Proof.Machine

/-! ## Who issues -/

/-- The group that issues an instruction word, as the word finds it. `at`: the word's place in the group's issue
order (R53). `lanes`: the lanes it has (R48, R391). -/
structure Issuer where
  gid : Nat
  g : Group
  b : Block
  ctx : Ctx
  hv : Tab Word
  hand : Bool
  at_ : Nat
  lanes : Word
  deriving DecidableEq, Repr

/-- The shadow bank of a core. -/
def shadowOf (s : State) (core : Nat) : Shadow :=
  match look s.cores core with
  | some c => c.shadow
  | none => { ctx := Ctx.start 0, hv := [] }

/-- A core's state; device reset's where nothing has happened on it. -/
def coreOf (s : State) (core : Nat) : Core := (look s.cores core).getD Core.init

def setCore (s : State) (core : Nat) (c : Core) : State := { s with cores := put s.cores core c }

/-- The group that `State.cur` names, if it is resident. -/
def issuer (s : State) : Option Issuer :=
  match look s.groups s.cur with
  | none => none
  | some g =>
    match look s.blocks g.block with
    | none => none
    | some b =>
      let sh := shadowOf s g.core
      let ctx := if g.handler then sh.ctx else g.ctx
      some
        { gid := s.cur, g, b, ctx, hv := sh.hv, hand := g.handler, at_ := ctx.issued + 1,
          lanes := if g.handler || g.vec.isSome then BitVec.allOnes 32 else g.mask }

/-- The issuer is a vector control thread outside a handler. -/
def Issuer.vec (q : Issuer) : Bool := q.g.vec.isSome && !q.hand

/-- The partition. -/
def Issuer.part (q : Issuer) : Nat := q.b.part

/-- R42: what names the issuer's registers. -/
inductive Where where
  | thr | vec | hand | body
  deriving DecidableEq, Repr

def Issuer.where_ (q : Issuer) : Where := if q.hand then .hand else if q.g.vec.isSome then .vec else .thr

/-- Changes a group. -/
def modGroup (s : State) (gid : Nat) (f : Group → Group) : State := { s with groups := upd s.groups gid f }

/-- Changes a block. -/
def modBlock (s : State) (blk : Nat) (f : Block → Block) : State := { s with blocks := upd s.blocks blk f }

/-- Changes the context a group issues from: its own, or in a handler the core's shadow bank. -/
def modCtx (s : State) (q : Issuer) (f : Ctx → Ctx) : State :=
  if q.hand then
    let c := coreOf s q.g.core
    setCore s q.g.core { c with shadow := { c.shadow with ctx := f c.shadow.ctx } }
  else modGroup s q.gid (fun g => { g with ctx := f g.ctx })

/-! ## Reading registers (R54 to R56) -/

/-- R54, R55: a held result is visible to the instruction at an issue index. -/
def Held.seen (h : Held) (at_ : Nat) : Bool :=
  match h.vis with
  | .at i => decide (i ≤ at_)
  | .marker => false

/-- The value a held result has for a lane. -/
def Held.lane (h : Held) (l : Nat) : Dword := h.vals.getD (if h.vals.length = 1 then 0 else l) 0

/-- R56: the youngest visible result for a register and a lane, else the base value. DESIGN CHOICE (log 42): an older result
that becomes visible later is discarded lane by lane, and shows in the lanes that the younger one's predicate disabled. -/
def youngest (held : List Held) (d : Dest) (l at_ : Nat) (base : Dword) : Dword :=
  held.foldl (fun acc h => if h.dest = d && h.seen at_ && h.mask.getLsbD l then h.lane l else acc) base

/-- A register of a context that lists it, or the value unlisted registers have: zero, or in the shadow bank a free
value (R61). -/
def baseS (c : Ctx) (n : Nat) : Dword :=
  match look c.s n with
  | some v => v
  | none => match c.undef with
    | none => 0
    | some k => Config.freeDword (k + n)

def baseP (c : Ctx) (n : Nat) : Word :=
  match look c.p n with
  | some v => v
  | none => match c.undef with
    | none => 0
    | some k => Config.freeWord (k + 64 + n)

/-- The register's value at the last marker, in one lane. -/
def baseV (s : State) (q : Issuer) (n l : Nat) : Word :=
  if q.hand then
    match look q.hv (32 * n + l) with
    | some v => v
    | none => match q.ctx.undef with
      | none => 0
      | some k => Config.freeWord (k + 128 + 32 * n + l)
  else match look s.sets q.g.set with
    | some a => getZ a.v (32 * n + l)
    | none => 0

/-- R56: scalar register `n` (h in a handler). -/
def readS (q : Issuer) (n : Nat) : Dword := youngest q.ctx.held (.s n) 0 q.at_ (baseS q.ctx n)

/-- R56: vector register `n` (hv in a handler) in lane `l`. -/
def readV (s : State) (q : Issuer) (n l : Nat) : Word :=
  (youngest q.ctx.held (.v n) l q.at_ ((baseV s q n l).setWidth 64)).setWidth 32

/-- A word built from the bits of the lanes. -/
def ofLanes (f : Nat → Bool) : Word := (List.range 32).foldl (fun w l => if f l then w ||| (1#32 <<< l) else w) 0

/-- R42, R56: predicate register `n`; p7 reads all ones. -/
def readP (q : Issuer) (n : Nat) : Word :=
  if n = 7 then BitVec.allOnes 32
  else
    q.ctx.held.foldl (fun acc h =>
      if h.dest = .p n && h.seen q.at_ then (acc &&& ~~~h.mask) ||| ((h.lane 0).setWidth 32 &&& h.mask) else acc)
      (baseP q.ctx n)

/-- R56: timeline binding `n`. -/
def readTl (q : Issuer) (n : Nat) : Dword := youngest q.ctx.held (.tl n) 0 q.at_ (getZ q.ctx.tl n)

/-- R44: accumulator `n` of a vector control thread, in lane `l`. -/
def readAc (q : Issuer) (n l : Nat) : Dword :=
  youngest q.ctx.held (.ac n) l q.at_
    (match q.g.vec with
      | some v => getZ v.ac (32 * n + l)
      | none => 0)

/-- R126: `c.fstat` as the word sees it: the effects of the visible producers in program order. In a handler the
interrupted group's own results count as its next word would see them, then the handler's. -/
def flagsSeen (held : List Held) (at_ : Nat) (base : Dword) : Dword :=
  held.foldl (fun acc h =>
    if h.seen at_ then
      match h.dest with
      | .flagsSet => acc ||| h.lane 0
      | .flagsClear => acc &&& ~~~(h.lane 0)
      | _ => acc
    else acc) base

def readFstat (q : Issuer) : Dword :=
  let own := flagsSeen q.g.ctx.held (q.g.ctx.issued + 1) q.g.fstat
  if q.hand then flagsSeen q.ctx.held q.at_ own else own

/-- R54, L = 2: the value an earlier control register or tile register write hides from this word: the oldest
one not yet visible names what the register held before it. -/
def hidden (q : Issuer) (d : Dest) (now : Dword) : Dword :=
  match q.ctx.held.find? (fun h => h.dest = d && !h.seen q.at_) with
  | some h => h.lane 0
  | none => now

/-- R74, R119: the active lanes: members whose predicate bit agrees with SENSE. -/
def active (q : Issuer) (f : Fixed) : Word :=
  let p := readP q f.pred.toNat
  q.lanes &&& (if f.sense then ~~~p else p)

/-- The numbers of the set lanes, ascending. -/
def laneList (m : Word) : List Nat := (List.range 32).filter (fun l => m.getLsbD l)

/-! ## Holding results -/

/-- Puts a result in its place in program order. -/
def insertHeld (h : Held) : List Held → List Held
  | [] => [h]
  | x :: xs => if h.seq < x.seq then h :: x :: xs else x :: insertHeld h xs

def holdCtx (d : Dest) (mask : Word) (vals : List Dword) (vis : Vis) (seq : Nat) (c : Ctx) : Ctx :=
  { c with held := insertHeld { dest := d, mask, vals, vis, seq } c.held }

/-- R54: a result of this word visible at distance `lat`. -/
def hold (s : State) (q : Issuer) (d : Dest) (mask : Word) (vals : List Dword) (lat : Nat) : State :=
  modCtx s q (holdCtx d mask vals (.at (q.at_ + lat)) q.at_)

/-- A scalar result. -/
def holdS (s : State) (q : Issuer) (r : Reg) (v : Dword) (lat : Nat) : State :=
  match r with
  | .s n => hold s q (.s n.toNat) (BitVec.allOnes 32) [v] lat
  | .h n => hold s q (.s n.toNat) (BitVec.allOnes 32) [v] lat
  | _ => s

/-- R42, R129: a predicate result in some lanes; p7 discards it. -/
def holdP (s : State) (q : Issuer) (r : Reg) (mask bits : Word) (lat : Nat) : State :=
  match r with
  | .p n => if n = 7 then s else hold s q (.p n.toNat) mask [bits.setWidth 64] lat
  | _ => s

/-- A vector result in some lanes, `wide` in a pair with the low half in the even register (R42). -/
def holdV (s : State) (q : Issuer) (r : Reg) (wide : Bool) (mask : Word) (vals : List Dword) (lat : Nat) : State :=
  let go (n : Nat) : State :=
    let s := hold s q (.v n) mask (vals.map (fun x => (x.setWidth 32).setWidth 64)) lat
    if wide then hold s q (.v (n + 1)) mask (vals.map (fun (x : Dword) => x >>> 32)) lat else s
  match r with
  | .v n => go n.toNat
  | .hv n => go n.toNat
  | .ac n => hold s q (.ac n.toNat) mask vals lat
  | _ => s

/-- R34, R126: ORs flags into `c.fstat` at distance `lat`; a word that can set flags is a producer of it even when it
sets none (R60). -/
def holdFlags (s : State) (q : Issuer) (fl : Flags) (lat : Nat) : State :=
  hold s q .flagsSet (BitVec.allOnes 32) [fl.setWidth 64] lat

/-- R55: a long-latency result of this word, under way. -/
def addPending (s : State) (q : Issuer) (dests : List Dest) (work : Work) : State :=
  let s' := { s with fresh := s.fresh + 1 }
  modCtx s' q (fun c => { c with pend := c.pend ++ [{ id := s.fresh, seq := q.at_, dests, work, stale := false }] })

/-- The destinations of a register operand of `n` consecutive registers. -/
def destsOf (r : Reg) (n : Nat) : List Dest :=
  match r with
  | .s k => (List.range n).map (fun i => .s (k.toNat + i))
  | .h k => (List.range n).map (fun i => .s (k.toNat + i))
  | .v k => (List.range n).map (fun i => .v (k.toNat + i))
  | .hv k => (List.range n).map (fun i => .v (k.toNat + i))
  | .ac k => [.ac k.toNat]
  | .p k => [.p k.toNat]
  | _ => []

/-- R55: a scalar result whose value is settled and only has to arrive. -/
def pendS (s : State) (q : Issuer) (r : Reg) (v : Dword) : State :=
  match destsOf r 1 with
  | [] => s
  | ds => addPending s q ds (.value (BitVec.allOnes 32) [[v]])

/-! ## Markers and finishing -/

/-- Writes lanes of a vector register. -/
def putLanes (t : Tab Word) (n : Nat) (h : Held) : Tab Word :=
  (laneList h.mask).foldl (fun t l => putZ t (32 * n + l) ((h.lane l).setWidth 32)) t

/-- The same in the shadow bank, where a zero is listed: what it does not list is free. -/
def putLanesAll (t : Tab Word) (n : Nat) (h : Held) : Tab Word :=
  (laneList h.mask).foldl (fun t l => put t (32 * n + l) ((h.lane l).setWidth 32)) t

/-- Applies a held result to the registers of a group's own context. -/
def applyOwn (gid : Nat) (s : State) (h : Held) : State :=
  match h.dest with
  | .v n =>
    match look s.groups gid with
    | some g => { s with sets := upd s.sets g.set (fun a => { a with v := putLanes a.v n h }) }
    | none => s
  | .s n => modGroup s gid (fun g => { g with ctx := { g.ctx with s := putZ g.ctx.s n (h.lane 0) } })
  | .p n =>
    modGroup s gid (fun g =>
      { g with ctx := { g.ctx with p := putZ g.ctx.p n ((getZ g.ctx.p n &&& ~~~h.mask) ||| ((h.lane 0).setWidth 32 &&& h.mask)) } })
  | .tl n => modGroup s gid (fun g => { g with ctx := { g.ctx with tl := putZ g.ctx.tl n (h.lane 0) } })
  | .ac n =>
    modGroup s gid (fun g =>
      { g with
        vec := g.vec.map (fun v =>
          { v with ac := (laneList h.mask).foldl (fun t l => putZ t (32 * n + l) (h.lane l)) v.ac }) })
  | .flagsSet => modGroup s gid (fun g => { g with fstat := g.fstat ||| h.lane 0 })
  | .flagsClear => modGroup s gid (fun g => { g with fstat := g.fstat &&& ~~~(h.lane 0) })
  | .cregWas _ => s
  | .tileWas _ => s
  | .gone => s

/-- R126: flags a handler sets, or clears, in the interrupted group's `c.fstat`: what its own older words still hold
against them comes to nothing (R56). -/
def Group.putFlags (g : Group) (on : Bool) (x : Dword) : Group :=
  { g with
    fstat := if on then g.fstat ||| x else g.fstat &&& ~~~x
    ctx := { g.ctx with held := g.ctx.held.map (fun h =>
      if h.dest = (if on then .flagsClear else .flagsSet) then { h with vals := h.vals.map (· &&& ~~~x) } else h) } }

/-- R56: a register outside the context is written by a younger producer: no older write hides it any more. -/
def Group.unhide (g : Group) (d : Dest) : Group := { g with ctx := { g.ctx with held := g.ctx.held.filter (fun h => h.dest != d) } }

/-- Applies a held result of a handler to the shadow bank; its flags and its writes of control registers go to the
interrupted group (R391). -/
def applyShadow (gid core : Nat) (s : State) (h : Held) : State :=
  let c := coreOf s core
  let onCtx (f : Ctx → Ctx) : State := setCore s core { c with shadow := { c.shadow with ctx := f c.shadow.ctx } }
  match h.dest with
  | .v n => setCore s core { c with shadow := { c.shadow with hv := putLanesAll c.shadow.hv n h } }
  | .s n => onCtx (fun x => { x with s := put x.s n (h.lane 0) })
  | .p n => onCtx (fun x => { x with p := put x.p n ((baseP x n &&& ~~~h.mask) ||| ((h.lane 0).setWidth 32 &&& h.mask)) })
  | .tl n => onCtx (fun x => { x with tl := putZ x.tl n (h.lane 0) })
  | .flagsSet => modGroup s gid (·.putFlags true (h.lane 0))
  | .flagsClear => modGroup s gid (·.putFlags false (h.lane 0))
  | .cregWas n => modGroup s gid (·.unhide (.cregWas n))
  | _ => s

/-- R57: the group passes a switch marker: every held result is applied in program order, and a run begins. -/
def passMarker (s : State) (gid : Nat) : State :=
  match look s.groups gid with
  | none => s
  | some g =>
    if g.handler then
      let sh := shadowOf s g.core
      let s := sh.ctx.held.foldl (applyShadow gid g.core) s
      let c := coreOf s g.core
      setCore s g.core { c with shadow := { c.shadow with ctx := { c.shadow.ctx with held := [], run := 0 } } }
    else
      let s := g.ctx.held.foldl (applyOwn gid) s
      modGroup s gid (fun g => { g with ctx := { g.ctx with held := [], run := 0 } })

/-- The context a group issues from. -/
def ctxOf (s : State) (g : Group) : Ctx := if g.handler then (shadowOf s g.core).ctx else g.ctx

/-- R253: the group parks and leaves the active set. -/
def parkGroup (s : State) (gid : Nat) (p : Park) : State :=
  modGroup s gid (fun g => { g with park := some p, active := false, readyAt := none })

/-- R253: the group is pending and ready. -/
def unparkGroup (s : State) (gid : Nat) : State :=
  modGroup s gid (fun g => { g with park := none, readyAt := if g.active then none else some s.clock })

/-- R255: a group of the core starves. DESIGN CHOICE (log 19): one of a frozen or halted block, which does not move, counts too. -/
def coreStarving (s : State) (core : Nat) : Bool := s.groups.any (fun e => e.2.core == core && e.2.starving)

/-- R57, R255: the group is at a switch marker: it passes if every result of the run is in, and parks otherwise.
While a group of the core starves, one that passes leaves the active set. -/
def atMarker (s : State) (gid : Nat) : State :=
  match look s.groups gid with
  | none => s
  | some g =>
    if (ctxOf s g).pend = [] then
      let s := passMarker s gid
      if coreStarving s g.core && !g.starving then
        modGroup s gid (fun g => { g with active := false, readyAt := some s.clock })
      else s
    else parkGroup s gid .marker

/-- R53, R58: counts the word as issued; its next word is at `pc`. R352: the block's hang timer restarts. R264: a
threaded block's issue slot fired. -/
def countIssue (s : State) (q : Issuer) (pc : Dword) : State :=
  let s := modCtx s q (fun c => { c with pc, run := c.run + 1, issued := c.issued + 1, last := c.pc })
  let s := modGroup s q.gid (fun g => { g with pass := false, strip := false })
  modBlock s q.g.block (fun b => { b with hangCount := 0, fired := if b.ver = 0 then b.fired + 1 else b.fired })

/-- The word is done; the group goes on at `pc`. `mark`: it acts as a switch marker. -/
def finishAt (s : State) (q : Issuer) (pc : Dword) (mark : Bool) : State :=
  let s := countIssue s q pc
  if mark then atMarker s q.gid else s

/-- The word is done; the group goes on at the next word. -/
def finish (s : State) (q : Issuer) (f : Fixed) : State := finishAt s q (q.ctx.pc + 8) f.sw

/-! ## Bits of control registers -/

/-- Bits [hi:lo] of a dword, set. -/
def bitsOf (hi lo : Nat) : Dword := BitVec.ofNat 64 (2 ^ (hi + 1) - 2 ^ lo)

/-- R12, R34, R157, R232, R239: the bits of `c.fstat`, `c.cxp`, `c.amerr` and `c.vstrip` that are not reserved. -/
def fstatBits : Dword := bitsOf 5 0
def cxpBits : Dword := bitsOf 63 63 ||| bitsOf 5 0
def amerrBits : Dword := bitsOf 4 0
def vstripBits : Dword := bitsOf 63 63 ||| bitsOf 31 0

/-! ## Traps (R61, R63, R389 to R392) -/

/-- R389. -/
def causeIllegal : Nat := 0x01
def causeMasked : Nat := 0x02
def causeRun : Nat := 0x03
def causeRange : Nat := 0x04
def causeToken : Nat := 0x05
def causeExposed : Nat := 0x06
def causeSafePoint : Nat := 0x07
def causeAlign : Nat := 0x10
def causeLocal : Nat := 0x11
def causeConst : Nat := 0x12
def causeAddress : Nat := 0x13
def causeXlate : Nat := 0x14
def causePermission : Nat := 0x15
def causeAtomic : Nat := 0x16
def causeFetch : Nat := 0x17
def causeBarrierStore : Nat := 0x18
def causeBarrierType : Nat := 0x19
def causeBranch : Nat := 0x20
def causeJoin : Nat := 0x21
def causeOrphan : Nat := 0x22
def causeBinding : Nat := 0x30
def causeDescriptor : Nat := 0x31
def causeTile : Nat := 0x32
def causeBody : Nat := 0x33

/-- R379, R145: the cause of a core access that translation refuses; a refusal of the far side is an address fault
(R378). -/
def causeOf : XCause → Nat
  | .translation => causeXlate
  | .permission => causePermission
  | .nonCanonical => causeAddress
  | .link => causeAddress

/-- R390: the address lies in the threaded text of a kernel loaded in the partition. -/
def inText (k : Kernel) (ver : Nat) (a : Nat) : Bool :=
  let holds (t : Option Text) : Bool :=
    match t with
    | some t => decide (t.base ≤ a) && decide (a + 8 ≤ t.base + t.size)
    | none => false
  holds (look k.text ver) || holds (look k.coldText ver)

/-- R390: a handler is installed and its entry lies in loaded threaded text, by the vector of the hub cycles before. -/
def handlerEntry (s : State) (part : Nat) : Option Dword :=
  let v := match look s.parts part with
    | some p => p.trapvec
    | none => 0
  let entry := v &&& 0xFFFFFFFFFFFFFFF8#64
  if bitAt v 0 && s.kernels.any (fun k => k.2.part == part && inText k.2 0 entry.toNat) then some entry else none

/-- R260, R321, R326: the bands of a block that stood still for a hop or a halt start turnovers again, and tokens that landed
meanwhile stream in. -/
def unholdBands (s : State) (blk : Nat) : State :=
  let going (d : Band) : Bool := match d.run with
    | some r => !r.stopped
    | none => false
  { s with bands := s.bands.map (fun d => (d.1, if d.2.block == blk && going d.2 then { d.2 with frozenRows := false : Band }.streamAll else d.2)) }

/-- R270: an armed hop of the block is disarmed: its parked groups issue the word, undecided again at that arrival.
R409: counted. -/
def disarmHop (s : State) (blk : Nat) : State :=
  match look s.blocks blk with
  | none => s
  | some b =>
    match b.hop with
    | none => s
    | some _ =>
      let s := modBlock s blk (fun b => { b with hop := none })
      let s := { s with
        groups := s.groups.map (fun e =>
          match e.2.park with
          | some (.hop _) =>
            if e.2.block = blk then (e.1, { e.2 with park := none, readyAt := some s.clock }) else e
          | _ => e) }
      countEvent (unholdBands s blk) b.part (some b.place) 0x11

/-- R392: the block issues nothing more. -/
def freezeBlock (s : State) (blk : Nat) (why : Freeze) : State :=
  modBlock s blk (fun b => { b with frozen := some (b.frozen.getD why) })

/-- R389, R61: h0. -/
def trapWord (t : Trap) : Dword := BitVec.ofNat 64 (t.cause % 2 ^ 16 + (if t.write then 2 ^ 16 else 0))

/-- R61: h2 and h4 at a trap of a group: the last safe point and the members. -/
def trapOf (g : Group) (t : Trap) : Dword × Dword :=
  t.given.getD (BitVec.ofNat 64 g.lastSafe, if g.vec.isSome then 0xFFFFFFFF#64 else g.mask.setWidth 64)

/-- R61, R391: the shadow bank at a handler's entry: h0 to h4, and every other register free. -/
def entryBank (s : State) (g : Group) (t : Trap) (entry : Dword) : Shadow :=
  { ctx := { Ctx.start entry with
      s := [(0, trapWord t), (1, t.word), (2, (trapOf g t).1), (3, t.addr), (4, (trapOf g t).2)],
      undef := some s.free },
    hv := [] }

/-- R391, R392: delivers a trap to a group outside handler mode, its core's shadow bank being free. -/
def deliverTrap (s : State) (gid : Nat) (t : Trap) : State :=
  match look s.groups gid with
  | none => s
  | some g =>
    match look s.blocks g.block with
    | none => s
    | some b =>
      let s := modGroup s gid (fun g => { g with trap := none })
      let s := disarmHop s g.block
      let s := countEvent s b.part (some g.core) 0x12
      let s := traceEvent s b.part (some g.core) 1 2 b.index t.cause g.lastSafe
      match handlerEntry s b.part with
      | none =>
        let s := freezeBlock s g.block .unhandled
        faultRecord s b.part 0x09 0 (some g.block) t.word (BitVec.ofNat 64 t.cause)
      | some entry =>
        let c := coreOf s g.core
        let s := setCore s g.core { c with shadow := entryBank s g t entry, serving := some gid }
        let s := { s with free := s.free + 1024 }
        modGroup s gid (fun g => { g with handler := true, park := none, readyAt := if g.active then none else some s.clock })

/-- R63, R392: a trap of the handler itself: the core halts and every block with a group on it freezes. -/
def doubleTrap (s : State) (q : Issuer) (t : Trap) : State :=
  let c := coreOf s q.g.core
  let s := setCore s q.g.core { c with halted := true }
  let blks := (s.groups.filter (fun e => e.2.core == q.g.core)).map (fun e => e.2.block)
  let s := blks.foldl (fun s b => freezeBlock s b .double) s
  faultRecord s q.b.part 0x08 0 (some q.g.block) t.word
    (BitVec.ofNat 64 (t.cause % 2 ^ 16 + q.g.core * 2 ^ 16))

/-- TAKING AN EXCEPTION. R63, R389: a group traps. In a handler that is a double trap; otherwise the trap is
delivered at once when the core's shadow bank is free, and waits parked behind the running handler when not. -/
def takeTrap (s : State) (q : Issuer) (t : Trap) : State :=
  if q.hand then doubleTrap s q t
  else if (coreOf s q.g.core).serving = none then deliverTrap s q.gid t
  else modGroup s q.gid (fun g => { g with trap := some t, active := false, readyAt := none })

/-- A trap precise before the word issues. -/
def trapBefore (s : State) (q : Issuer) (cause : Nat) (addr : Dword) (write : Bool) : State :=
  takeTrap s q { cause, write, addr, word := q.ctx.pc }

/-- The word does not issue; the group waits. -/
def stall (s : State) (q : Issuer) (p : Park) : State := parkGroup s q.gid p

/-- The oldest group of a core that has a trap waiting (R63). -/
def nextTrap (s : State) (core : Nat) : Option (Nat × Trap) :=
  (coreOf s core).order.findSome? (fun gid =>
    match look s.groups gid with
    | some g => g.trap.map (fun t => (gid, t))
    | none => none)

/-- THE RETURN. R208: every write of the handler is visible; the interrupted group goes on at h1 with its held
results and its run count, and the core serves the next pending trap (R63). -/
def leaveHandler (s : State) (gid core : Nat) : State :=
  let h1 := baseS (shadowOf s core).ctx 1
  let c := coreOf s core
  let s := setCore s core { c with serving := none, shadow := { ctx := Ctx.start 0, hv := [] } }
  let s := modGroup s gid (fun g =>
    { g with
      handler := false, returned := true, ctx := { g.ctx with pc := h1 }
      readyAt := if g.active then none else some s.clock })
  match nextTrap s core with
  | some (gid', t) => deliverTrap s gid' t
  | none => s

/-! ## Groups of a core -/

/-- R254: the groups of a core, oldest first. -/
def residents (s : State) (core : Nat) : List Nat := (coreOf s core).order

/-- The groups of a block, by number. -/
def blockGroups (s : State) (blk : Nat) : List (Nat × Group) := s.groups.filter (fun e => e.2.block == blk)

/-- A number for a new group, set, block, launch or fault. -/
def newId (s : State) : Nat × State := (s.fresh, { s with fresh := s.fresh + 1 })

/-- Draws a free dword (log 5). -/
def drawDword (s : State) : Dword × State := (Config.freeDword s.free, { s with free := s.free + 1 })

end Sys2Proof.Machine
end

