-- ==== Sys2Proof/Machine/Banks.lean ====
section
/-! DEFINITION. Accumulator memory (R219, R226 to R233, R329): banks and their owners, the words a party may read,
and the AM requests as an ME applies them. -/

namespace Sys2Proof.Machine

/-! ## Clusters -/

/-- A cluster's ME; device reset's where nothing has happened on it. -/
def clusterOf (s : State) (c : Nat) : Cluster := (look s.clusters c).getD Cluster.init

def setCluster (s : State) (n : Nat) (c : Cluster) : State := { s with clusters := put s.clusters n c }

/-- The cluster of a core. -/
def coreCluster (core : Nat) : Nat := core / 4

/-! ## Banks (R226) -/

/-- R219: AM words of an ME. -/
def amWords : Nat := 131072
/-- The number under which AM word `i` stands in `Cluster.bad`. -/
def amBad (i : Nat) : Nat := 262144 + i

/-- R227: a range word. `bad`: one of its other bits is set. -/
structure RangeWord where
  bank : Nat
  count : Nat
  rel : Bool
  bad : Bool
  deriving DecidableEq, Repr

def rangeOf (x : Dword) : RangeWord :=
  { bank := field x 6 0, count := field x 14 8 + 1, rel := bitAt x 15, bad := bitAt x 7 || field x 63 16 != 0 }

/-- The banks a range names that exist. -/
def RangeWord.banks (r : RangeWord) : List Nat := ((List.range r.count).map (r.bank + ·)).filter (fun b => decide (b < 128))

/-- R229: the range passes bank 127. -/
def RangeWord.past (r : RangeWord) : Bool := decide (128 < r.bank + r.count)

def bankOwned (c : Cluster) (launch b : Nat) : Bool :=
  match look c.banks b with
  | some k => k.launch == launch
  | none => false

/-- The bank is claimed by a set other than `set`. -/
def bankClaimed (c : Cluster) (set b : Nat) : Bool :=
  match look c.banks b with
  | some k => match k.claim with
    | some o => o != set
    | none => false
  | none => false

/-- R219, R220: the banks an output region touches: `es` words an entry. -/
def Pass.entrySize (p : Pass) : Nat := if field p.tileA.lo 4 0 = 0 then 2 else 1
def Pass.m (p : Pass) : Nat := field p.tileA.lo 55 44 + 1
def Pass.n (p : Pass) : Nat := field p.tileB.lo 55 44 + 1
def Pass.k (p : Pass) : Nat := field p.tileA.lo 43 32 + 1
/-- R219: entries per output row. -/
def Pass.stride (p : Pass) : Nat := if field p.target 31 16 = 0 then p.n else field p.target 31 16
def Pass.firstBank (p : Pass) : Nat := field p.target 6 0
/-- R220: the last AM word of the output region. -/
def Pass.lastWord (p : Pass) : Nat := 1024 * p.firstBank + p.entrySize * ((p.m - 1) * p.stride + p.n) - 1
def Pass.lastBank (p : Pass) : Nat := p.lastWord / 1024
/-- R219, R221: the banks of the output region. DESIGN CHOICE (log 58): a bank that lies between two output rows, whole, is one
of them. -/
def Pass.banks (p : Pass) : List Nat := (List.range (p.lastBank + 1 - p.firstBank)).map (p.firstBank + ·)

/-- R219, R229, R230: the pass writes a bank of the list: some output row has an entry there. -/
def Pass.writes (p : Pass) (bs : List Nat) : Bool :=
  (List.range p.m).any (fun i =>
    let first := 1024 * p.firstBank + p.entrySize * (i * p.stride)
    bs.any (fun b => decide (1024 * b < first + p.entrySize * p.n) && decide (first < 1024 * (b + 1))))

/-- R229, R230: entered and unretired passes that write a bank of the list, by context and number. -/
def passesTo (c : Cluster) (bs : List Nat) : List (Nat × Nat) :=
  ((c.table ++ c.running).filter (fun p => p.writes bs)).map (fun p => (p.ctx, p.no))

/-! ## Words -/

/-- R228, R229: the banks' words become zero, and read correctly again (R414). -/
def zeroBanks (s : State) (cl : Nat) (bs : List Nat) : State :=
  let inBank (k : Nat) : Bool := bs.any (fun b => decide (amKey cl (1024 * b) ≤ k) && decide (k < amKey cl (1024 * (b + 1))))
  let c := clusterOf s cl
  let good (w : Nat) : Bool := !bs.any (fun b => decide (amBad (1024 * b) ≤ w) && decide (w < amBad (1024 * (b + 1))))
  setCluster { s with mem := s.mem.filter (fun e => !inBank e.1) } cl { c with bad := c.bad.filter good }

/-- R226: when a launch ends its banks are free. -/
def freeBanks (s : State) (launch : Nat) : State :=
  { s with clusters := s.clusters.map (fun c => (c.1, { c.2 with banks := c.2.banks.filter (fun e => e.2.launch != launch) })) }

/-- A word as a reader of AM receives it, and the bits of `c.amerr` it sets. -/
structure AmRead where
  s : State
  v : Word
  err : Dword
  deriving DecidableEq, Repr

/-- R223: a word that a running pass writes: some value it held since the grant, a free choice (log 5). -/
def amRunning (c : Cluster) (i : Nat) : Option (List Word) :=
  c.running.findSome? (fun p => (p.words.find? (fun w => w.1 == i)).map (·.2))

/-- R231, R414: word `i` as a party of `launch` and `set` reads it. -/
def amWord (s : State) (cl launch set i : Nat) : AmRead :=
  let c := clusterOf s cl
  let b := i / 1024
  if amWords ≤ i then { s, v := 0, err := amRange }
  else if (look c.banks b).isNone then { s, v := 0, err := amUnalloc }
  else if !bankOwned c launch b then { s, v := 0, err := amForeign }
  else if bankClaimed c set b then { s, v := 0, err := amClaimed }
  else if c.bad.contains (amBad i) then { s, v := 0, err := amUncorr }
  else match amRunning c i with
    | some vs =>
      { s := { s with free := s.free + 1 }, v := vs.getD (Config.freeNat s.free % max 1 vs.length) 0, err := 0 }
    | none => { s, v := BitVec.ofNat 32 (loadLE s (amKey cl i) 4), err := 0 }

/-- R231: `n` consecutive words from word `i`, the first lowest. -/
def amWordsAt (s : State) (cl launch set i : Nat) : Nat → State × Dword × Dword
  | 0 => (s, 0, 0)
  | n + 1 =>
    let r := amWord s cl launch set i
    let (s, v, err) := amWordsAt r.s cl launch set (i + 1) n
    (s, r.v.setWidth 64 ||| (v <<< 32), r.err ||| err)

/-! ## Requests -/

/-- R228: the lowest run of `n` free banks. -/
def freeRun (c : Cluster) (n : Nat) : Option Nat :=
  (List.range (129 - n)).find? (fun f => (List.range n).all (fun i => (look c.banks (f + i)).isNone))

/-- R228: `aalloc` with operand `x`; the result. -/
def allocBanks (s : State) (cl launch : Nat) (x : Dword) : State × Dword :=
  let n := field x 7 0
  if field x 63 8 ≠ 0 ∨ n = 0 ∨ 128 < n then (s, 0x101)
  else match freeRun (clusterOf s cl) n with
    | none => (s, 0x100)
    | some f =>
      let bs := (List.range n).map (f + ·)
      let s := zeroBanks s cl bs
      let c := clusterOf s cl
      (setCluster s cl { c with banks := bs.foldl (fun t b => put t b { launch, claim := none }) c.banks },
        BitVec.ofNat 64 f)

/-- R230: `aclaim` with operand `x`; the result. -/
def claimBanks (s : State) (cl launch set : Nat) (x : Dword) : State × Dword :=
  let r := rangeOf x
  let c := clusterOf s cl
  let setClaims (f : Bank → Bank) : State := setCluster s cl { c with banks := r.banks.foldl (fun t b => upd t b f) c.banks }
  if r.rel then (setClaims (fun k => if k.claim = some set then { k with claim := none } else k), 0)
  else if r.bad || r.past || !r.banks.all (bankOwned c launch) then (s, 2)
  else if r.banks.any (bankClaimed c set) || passesTo c r.banks ≠ [] then (s, 1)
  else (setClaims (fun k => { k with claim := some set }), 0)

/-- R229: an `afree` or `azero` is applied; the bit of `c.amerr` it sets. -/
def freeOrZero (s : State) (cl : Nat) (o : BankOp) : State × Dword :=
  let r := rangeOf o.range
  let c := clusterOf s cl
  if r.bad || r.rel || r.past then (s, amRange)
  else if !r.banks.all (bankOwned c o.launch) then (s, amForeign)
  else if r.banks.any (bankClaimed c o.set) then (s, amClaimed)
  else if o.zero then (zeroBanks s cl r.banks, 0)
  else (setCluster s cl { c with banks := r.banks.foldl drop c.banks }, 0)

/-- R232: sets bits of `c.amerr` of some groups. -/
def setAmerr (s : State) (gids : List Nat) (err : Dword) : State :=
  if err = 0 then s else gids.foldl (fun s g => modGroup s g (fun g => { g with amerr := g.amerr ||| err })) s

/-! ## Their order (R329) -/

/-- An AM request of the group issued before `seq` has not been applied. -/
def amPendingBefore (s : State) (gid seq : Nat) : Bool :=
  let isAm (p : Pending) : Bool := decide (p.id < seq) && match p.work with
    | .am .. => true
    | _ => false
  match look s.groups gid with
  | some g => g.ctx.pend.any isAm || (g.handler && (shadowOf s g.core).ctx.pend.any isAm)
  | none => false

/-- An `afree` or `azero` of the group issued before `seq` waits. -/
def amBlocked (s : State) (cl gid seq : Nat) : Bool :=
  (clusterOf s cl).bankOps.any (fun o => o.owners.contains gid && decide (o.seq < seq))

/-- R229, R329: the request may be applied: its passes have retired, and its group's earlier requests are applied. -/
def BankOp.ready (s : State) (cl : Nat) (o : BankOp) : Bool :=
  let c := clusterOf s cl
  o.passes.all (fun p => !(c.table ++ c.running).any (fun q => q.ctx == p.1 && q.no == p.2)) &&
    o.owners.all (fun g => !amPendingBefore s g o.seq && !amBlocked s cl g o.seq)

/-- R229: applies every waiting `afree` and `azero` that may be. -/
def settleBanks (s : State) (cl : Nat) : Nat → State
  | 0 => s
  | f + 1 =>
    let c := clusterOf s cl
    match c.bankOps.find? (BankOp.ready s cl) with
    | none => s
    | some o =>
      let s := setCluster s cl { c with bankOps := c.bankOps.filter (· != o) }
      let (s, err) := freeOrZero s cl o
      settleBanks (setAmerr s o.owners err) cl f

/-- The waiting requests of a cluster, as fuel. -/
def bankOpCount (s : State) (cl : Nat) : Nat := (clusterOf s cl).bankOps.length

/-- The groups that wait for a pending result. -/
def holdersOf (s : State) (id : Nat) : List Nat :=
  (s.groups.filter (fun e => e.2.ctx.pend.any (fun p => p.id == id) ||
    (e.2.handler && (shadowOf s e.2.core).ctx.pend.any (fun p => p.id == id)))).map (·.1)

/-- R228, R230, R231: an AM request with a result is applied; the values it reads, by lane, 32 for the whole. -/
def applyAm (s : State) (cl launch set : Nat) (op : AmOp) (x : Dword) : State × List (Nat × Dword) × Dword :=
  match op with
  | .alloc =>
    let (s, v) := allocBanks s cl launch x
    (s, [(32, v)], 0)
  | .claim =>
    let (s, v) := claimBanks s cl launch set x
    (s, [(32, v)], 0)
  | .read wide scalar lanes =>
    let n := if wide then 2 else 1
    let first := field x 16 0
    if scalar then
      let (s, v, err) := amWordsAt s cl launch set first n
      (s, [(32, v)], err)
    else
      (laneList lanes).foldl (fun acc l =>
        let (s, v, err) := amWordsAt acc.1 cl launch set (first + n * l) n
        (s, acc.2.1 ++ [(l, v)], acc.2.2 ||| err)) (s, [], 0)

/-- R181, R329: waiting requests belong to the groups that come of their group. -/
def reownBanks (s : State) (cl : Nat) (f : List Nat → List Nat) : State :=
  let c := clusterOf s cl
  if c.bankOps = [] then s
  else setCluster s cl { c with bankOps := c.bankOps.map (fun o => { o with owners := f o.owners }) }

end Sys2Proof.Machine
end

