-- ==== Sys2Proof/Machine/Hash.lean ====
section
/-! DEFINITION. CRC-32C (R310, R334, R401) and SHA-384 (R377, R386, R420), the two digests the manual names. Their
definitions are those of the published standards (log 8); SHA-384's constants are the fractional parts of roots of
primes, computed here. -/

namespace Sys2Proof.Machine

/-! ## CRC-32C -/

/-- One bit of the reflected CRC with polynomial 0x1EDC6F41. -/
def crcBit (c : Word) : Word := if c.getLsbD 0 then (c >>> 1) ^^^ 0x82F63B78#32 else c >>> 1

def crcByte (c : Word) (b : Byte) : Word :=
  let x := c ^^^ b.setWidth 32
  crcBit (crcBit (crcBit (crcBit (crcBit (crcBit (crcBit (crcBit x)))))))

/-- CRC-32C of a byte string. -/
def crc32c (bs : List Byte) : Word := ~~~(bs.foldl crcByte (BitVec.allOnes 32))

/-! ## SHA-384 -/

/-- The largest r below 2^`bits` with r^k ≤ n, bit by bit from the top. -/
def rootFrom (k n r : Nat) : Nat → Nat
  | 0 => r
  | b + 1 => if (r + 2 ^ b) ^ k ≤ n then rootFrom k n (r + 2 ^ b) b else rootFrom k n r b

/-- The first 64 fraction bits of the k-th root of `p`, for p below 512. -/
def rootFrac (k p : Nat) : Dword := BitVec.ofNat 64 (rootFrom k (p * 2 ^ (64 * k)) 0 70)

/-- The first 80 primes. -/
def primes80 : List Nat :=
  [2, 3, 5, 7, 11, 13, 17, 19, 23, 29, 31, 37, 41, 43, 47, 53, 59, 61, 67, 71, 73, 79, 83, 89, 97, 101, 103, 107,
    109, 113] ++
  [127, 131, 137, 139, 149, 151, 157, 163, 167, 173, 179, 181, 191, 193, 197, 199, 211, 223, 227, 229, 233, 239,
    241, 251, 257, 263, 269, 271, 277, 281] ++
  [283, 293, 307, 311, 313, 317, 331, 337, 347, 349, 353, 359, 367, 373, 379, 383, 389, 397, 401, 409]

/-- The round constants. -/
def shaK : List Dword := primes80.map (rootFrac 3)

/-- The initial hash value: square roots of the ninth to sixteenth primes. -/
def shaInit : List Dword := ((primes80.drop 8).take 8).map (rootFrac 2)

def rotr (x : Dword) (n : Nat) : Dword := (x >>> n) ||| (x <<< (64 - n))

/-- The message schedule, newest word first. -/
def shaSchedule (w : List Dword) : Nat → List Dword
  | 0 => w
  | n + 1 =>
    let at_ (i : Nat) : Dword := w.getD (i - 1) 0
    let s0 := rotr (at_ 15) 1 ^^^ rotr (at_ 15) 8 ^^^ (at_ 15 >>> 7)
    let s1 := rotr (at_ 2) 19 ^^^ rotr (at_ 2) 61 ^^^ (at_ 2 >>> 6)
    shaSchedule ((at_ 16 + s0 + at_ 7 + s1) :: w) n

/-- One round over the working variables a to h. -/
def shaRound (v : List Dword) (kw : Dword × Dword) : List Dword :=
  match v with
  | [a, b, c, d, e, f, g, h] =>
    let t1 := h + (rotr e 14 ^^^ rotr e 18 ^^^ rotr e 41) + ((e &&& f) ^^^ (~~~e &&& g)) + kw.1 + kw.2
    let t2 := (rotr a 28 ^^^ rotr a 34 ^^^ rotr a 39) + ((a &&& b) ^^^ (a &&& c) ^^^ (b &&& c))
    [t1 + t2, a, b, c, d + t1, e, f, g]
  | _ => v

/-- A big-endian number. -/
def beNat (bs : List Byte) : Nat := bs.foldl (fun n b => 256 * n + b.toNat) 0

/-- The sixteen big-endian words of a 128-byte block. -/
def beWords (bs : List Byte) : List Dword :=
  (List.range 16).map (fun i => BitVec.ofNat 64 (beNat ((bs.drop (8 * i)).take 8)))

/-- One 128-byte block. -/
def shaBlock (h : List Dword) (bs : List Byte) : List Dword :=
  let w := (shaSchedule (beWords bs).reverse 64).reverse
  let v := (shaK.zip w).foldl shaRound h
  (h.zip v).map (fun x => x.1 + x.2)

/-- The blocks of a padded message. -/
def shaBlocks (h : List Dword) (bs : List Byte) : Nat → List Dword
  | 0 => h
  | n + 1 => shaBlocks (shaBlock h (bs.take 128)) (bs.drop 128) n

/-- `n` big-endian bytes of a number. -/
def beBytes (x n : Nat) : List Byte := (leBytes x n).reverse

/-- SHA-384 of a byte string. -/
def sha384 (bs : List Byte) : BitVec 384 :=
  let pad := (128 - (bs.length + 17) % 128) % 128
  let m := bs ++ [0x80#8] ++ zeroBytes pad ++ beBytes (8 * bs.length) 16
  BitVec.ofNat 384 (beNat (((shaBlocks shaInit m (m.length / 128)).take 6).flatMap (fun x => beBytes x.toNat 8)))

end Sys2Proof.Machine
end

