-- ==== Sys2Proof/Machine/Num.lean ====
section
/-! DEFINITION. Exact arithmetic of chapter "Within an instruction: number formats and arithmetic": the value
of every scalar format (R17 to R20), exact sums and products, and the one rounding of R30 with its flags
(R34) to a floating format, to e8m0 and to an integer format (R35). A finite value is ±m × 2^e, so nothing is
lost before the single rounding. -/

namespace Sys2Proof.Machine

/-- The value of an operand, or an exact result. -/
inductive Val where
  | nan (signalling : Bool)
  | inf (neg : Bool)
  | fin (neg : Bool) (m : Nat) (e : Int)
  deriving DecidableEq, Repr

/-- R17: what a floating format does with its all-ones exponent. -/
inductive Top where
  /-- IEEE: infinities and NaNs. -/
  | ieee
  /-- e4m3: one NaN code per sign, no infinity. -/
  | oneNaN
  /-- Ordinary finite values only. -/
  | finite
  deriving DecidableEq, Repr

/-- R17: a floating format. `shift`: bits below the mantissa in its container (R18). -/
structure FloatFmt where
  ebits : Nat
  mbits : Nat
  bias : Int
  top : Top
  shift : Nat
  deriving DecidableEq, Repr

/-- R20: an integer format. -/
structure IntFmt where
  bits : Nat
  signed : Bool
  deriving DecidableEq, Repr

/-- The kinds of scalar format. -/
inductive Kind where
  | flt (f : FloatFmt)
  | int (f : IntFmt)
  | scale
  | block
  deriving DecidableEq, Repr

/-- R16 to R20. -/
def kindOf : Fmt → Kind
  | .f64 => .flt { ebits := 11, mbits := 52, bias := 1023, top := .ieee, shift := 0 }
  | .f32 => .flt { ebits := 8, mbits := 23, bias := 127, top := .ieee, shift := 0 }
  | .e8m10 => .flt { ebits := 8, mbits := 10, bias := 127, top := .ieee, shift := 13 }
  | .bf16 => .flt { ebits := 8, mbits := 7, bias := 127, top := .ieee, shift := 0 }
  | .f16 => .flt { ebits := 5, mbits := 10, bias := 15, top := .ieee, shift := 0 }
  | .e5m2 => .flt { ebits := 5, mbits := 2, bias := 15, top := .ieee, shift := 0 }
  | .e4m3 => .flt { ebits := 4, mbits := 3, bias := 7, top := .oneNaN, shift := 0 }
  | .e3m2 => .flt { ebits := 3, mbits := 2, bias := 3, top := .finite, shift := 0 }
  | .e2m3 => .flt { ebits := 2, mbits := 3, bias := 1, top := .finite, shift := 0 }
  | .e2m1 => .flt { ebits := 2, mbits := 1, bias := 1, top := .finite, shift := 0 }
  | .e8m0 => .scale
  | .i32 => .int { bits := 32, signed := true }
  | .i16 => .int { bits := 16, signed := true }
  | .i8 => .int { bits := 8, signed := true }
  | .i4 => .int { bits := 4, signed := true }
  | .i2 => .int { bits := 2, signed := true }
  | .n8 => .int { bits := 8, signed := false }
  | .n4 => .int { bits := 4, signed := false }
  | _ => .block

/-- R16: the element width in bits; e8m10 in its 32-bit container (R18, R214). -/
def fmtWidth : Fmt → Nat
  | .f64 => 64
  | .f32 | .e8m10 | .i32 => 32
  | .bf16 | .f16 | .i16 => 16
  | .e5m2 | .e4m3 | .e8m0 | .mxf8e5 | .mxf8e4 | .mxi8 | .dx8 | .i8 | .n8 => 8
  | .e3m2 | .e2m3 | .mxf6e3 | .mxf6e2 | .dx6 => 6
  | .e2m1 | .mxf4 | .dx4 | .i4 | .n4 => 4
  | .dx3 => 3
  | .i2 => 2

/-- `m` ones. -/
abbrev ones (m : Nat) : Nat := 2 ^ m - 1

/-- Two's complement: the value of `w` bits. -/
def sextNat (x w : Nat) : Int := if x % 2 ^ w < 2 ^ (w - 1) then (x % 2 ^ w : Nat) else (x % 2 ^ w : Nat) - (2 ^ w : Nat)

/-- The `w`-bit pattern of an integer. -/
def patternOf (x : Int) (w : Nat) : Nat := (x % (2 ^ w : Nat)).toNat

/-- An integer as a value. -/
def Val.ofInt (x : Int) : Val := .fin (decide (x < 0)) x.natAbs 0

/-- R17: the value of a pattern in a floating format. -/
def floatVal (f : FloatFmt) (bits : Nat) : Val :=
  let x := bits / 2 ^ f.shift
  let m := x % 2 ^ f.mbits
  let e := x / 2 ^ f.mbits % 2 ^ f.ebits
  let neg := x / 2 ^ (f.mbits + f.ebits) % 2 == 1
  let finite := if e = 0 then Val.fin neg m (1 - f.bias - f.mbits)
    else Val.fin neg (2 ^ f.mbits + m) ((e : Int) - f.bias - f.mbits)
  if e = ones f.ebits then
    match f.top with
    | .ieee => if m = 0 then .inf neg else .nan (decide (m < 2 ^ (f.mbits - 1)))
    | .oneNaN => if m = ones f.mbits then .nan false else finite
    | .finite => finite
  else finite

/-- R17 to R20: the value of the low bits of `bits` in a scalar format. -/
def valOf (fmt : Fmt) (bits : Nat) : Val :=
  match kindOf fmt with
  | .flt f => floatVal f bits
  | .int f => Val.ofInt (if f.signed then sextNat bits f.bits else ((bits % 2 ^ f.bits : Nat) : Int))
  | .scale => if bits % 256 = 255 then .nan false else .fin false 1 ((bits % 256 : Nat) - 127)
  | .block => .nan false

/-- R32: the canonical NaN of a floating format. -/
def canonNaN (f : FloatFmt) : Nat :=
  match f.top with
  | .ieee => (ones f.ebits * 2 ^ f.mbits + 2 ^ (f.mbits - 1)) * 2 ^ f.shift
  | .oneNaN => 0x7F
  | .finite => 0

/-! ## Exact operations -/

namespace Val

/-- The value is a signalling NaN. -/
def signals : Val → Bool
  | .nan s => s
  | _ => false

def isNaN : Val → Bool
  | .nan _ => true
  | _ => false

def isInf : Val → Bool
  | .inf _ => true
  | _ => false

def isZero : Val → Bool
  | .fin _ 0 _ => true
  | _ => false

/-- The sign bit of a value that is no NaN. -/
def sign : Val → Bool
  | .nan _ => false
  | .inf n => n
  | .fin n _ _ => n

def neg : Val → Val
  | .nan s => .nan s
  | .inf n => .inf (!n)
  | .fin n m e => .fin (!n) m e

def abs : Val → Val
  | .nan s => .nan s
  | .inf _ => .inf false
  | .fin _ m e => .fin false m e

/-- floor(log₂ |x|) of a finite non-zero value. -/
def exponent : Val → Int
  | .fin _ m e => e + m.log2
  | _ => 0

end Val

/-- The signed integer of ±m × 2^e in units of 2^`unit`, for `unit` ≤ e. -/
def inUnits (neg : Bool) (m : Nat) (e unit : Int) : Int :=
  let x : Int := (m * 2 ^ (e - unit).toNat : Nat)
  if neg then -x else x

/-- An exact result and whether the operation is invalid (R34). -/
structure Exact where
  v : Val
  invalid : Bool
  deriving DecidableEq, Repr

/-- R30, R34: the exact sum. `down`: the mode is `.rm`, which decides the sign of an exact zero. -/
def addVal (a b : Val) (down : Bool) : Exact :=
  match a, b with
  | .nan _, _ => { v := .nan false, invalid := false }
  | _, .nan _ => { v := .nan false, invalid := false }
  | .inf n, .inf k => if n = k then { v := .inf n, invalid := false } else { v := .nan false, invalid := true }
  | .inf n, .fin _ _ _ => { v := .inf n, invalid := false }
  | .fin _ _ _, .inf n => { v := .inf n, invalid := false }
  | .fin n m e, .fin k j h =>
    let unit := min e h
    let x := inUnits n m e unit + inUnits k j h unit
    let v := if x = 0 then .fin (if n = k then n else down) 0 0 else .fin (decide (x < 0)) x.natAbs unit
    { v, invalid := false }

/-- R34: the exact product; 0 × ∞ is invalid. -/
def mulVal (a b : Val) : Exact :=
  match a, b with
  | .nan _, _ => { v := .nan false, invalid := false }
  | _, .nan _ => { v := .nan false, invalid := false }
  | .fin n m e, .fin k j h => { v := .fin (n != k) (m * j) (e + h), invalid := false }
  | x, y =>
    if x.isZero || y.isZero then { v := .nan false, invalid := true }
    else { v := .inf (x.sign != y.sign), invalid := false }

/-- R129: how two values compare; none when unordered. −0 = +0. -/
def cmpVal (a b : Val) : Option Ordering :=
  match a, b with
  | .nan _, _ => none
  | _, .nan _ => none
  | .inf n, .inf k => some (if n = k then .eq else if n then .lt else .gt)
  | .inf n, .fin _ _ _ => some (if n then .lt else .gt)
  | .fin _ _ _, .inf n => some (if n then .gt else .lt)
  | .fin n m e, .fin k j h => some (compare (inUnits n m e (min e h)) (inUnits k j h (min e h)))

/-! ## Rounding (R29 to R31) -/

/-- R31: one advance of a generator. -/
def rngStep (g : Word) : Word :=
  let g := if g = 0 then 0x9E3779B9#32 else g
  let g := g ^^^ (g <<< 13)
  let g := g ^^^ (g >>> 17)
  g ^^^ (g <<< 5)

/-- R29, R31: the generator after one element result: it advances under `.rs` only. -/
def rngNext (rnd : Rnd) (g : Word) : Word := if rnd = .rs then rngStep g else g

/-- R29 to R31: the magnitude m × 2^−`d` rounded to an integer, and whether that is inexact.
`draw`: the generator after its advance. -/
def roundShift (m d : Nat) (neg : Bool) (rnd : Rnd) (draw : Word) : Nat × Bool :=
  let q := m / 2 ^ d
  let rem := m % 2 ^ d
  if rem = 0 then (q, false)
  else
    let up := match rnd with
      | .rne => decide (2 * rem > 2 ^ d ∨ (2 * rem = 2 ^ d ∧ q % 2 = 1))
      | .rz => false
      | .rp => !neg
      | .rm => neg
      | .rs => decide (rem * 2 ^ 32 / 2 ^ d + draw.toNat ≥ 2 ^ 32)
    (if up then q + 1 else q, true)

/-- The magnitude m × 2^e rounded to a multiple of 2^q, as that multiple, and whether it is inexact. -/
def roundUnit (m : Nat) (e q : Int) (neg : Bool) (rnd : Rnd) (draw : Word) : Nat × Bool :=
  if q ≤ e then (m * 2 ^ (e - q).toNat, false) else roundShift m (q - e).toNat neg rnd draw

/-- The largest finite magnitude of a format, as (m, e) (R17). -/
def maxFinite (f : FloatFmt) : Nat × Int :=
  let top : Int := (ones f.ebits : Nat) - f.bias - f.mbits
  match f.top with
  | .ieee => (ones (f.mbits + 1), top - 1)
  | .oneNaN => (ones (f.mbits + 1) - 1, top)
  | .finite => (ones (f.mbits + 1), top)

/-- The pattern of ±iv × 2^q, q at least the subnormal unit and iv at most 2^(mbits + 1). -/
def packFloat (f : FloatFmt) (neg : Bool) (iv : Nat) (q : Int) : Nat :=
  let steps := (q - (1 - f.bias - f.mbits)).toNat
  (neg.toNat * 2 ^ (f.ebits + f.mbits) + steps * 2 ^ f.mbits + iv) * 2 ^ f.shift

/-- The infinity of an IEEE format, or e4m3's NaN of that sign. -/
def bigFloat (f : FloatFmt) (neg : Bool) : Nat :=
  let mag := match f.top with
    | .ieee => ones f.ebits * 2 ^ f.mbits
    | _ => 0x7F
  (neg.toNat * 2 ^ (f.ebits + f.mbits) + mag) * 2 ^ f.shift

/-- The largest finite magnitude with a sign. -/
def maxFloat (f : FloatFmt) (neg : Bool) : Nat := packFloat f neg (maxFinite f).1 (maxFinite f).2

/-- R30: the result whose rounded magnitude exceeds the largest finite value. Under `.rs` only a stochastic
result that exceeds it comes here. -/
def overflowFloat (f : FloatFmt) (neg : Bool) (rnd : Rnd) (sat : Bool) : Nat :=
  if f.top = .finite ∨ sat then maxFloat f neg
  else match rnd with
    | .rne | .rs => bigFloat f neg
    | .rz => maxFloat f neg
    | .rp => if neg then maxFloat f neg else bigFloat f neg
    | .rm => if neg then bigFloat f neg else maxFloat f neg

/-- A rounded result. -/
structure Rounded where
  bits : Nat
  flags : Flags
  deriving DecidableEq, Repr

/-- R30, R34: a finite value to a floating format. -/
def roundFinite (f : FloatFmt) (neg : Bool) (m : Nat) (e : Int) (rnd : Rnd) (sat : Bool) (draw : Word) :
    Rounded :=
  if m = 0 then { bits := packFloat f neg 0 (1 - f.bias - f.mbits), flags := 0 }
  else
    let top := e + m.log2
    let unit := max (top - f.mbits) (1 - f.bias - f.mbits)
    let (iv, inexact) := roundUnit m e unit neg rnd draw
    let (mx, qx) := maxFinite f
    let exceeds := decide (qx < unit ∧ iv ≠ 0) || decide (unit = qx ∧ mx < iv)
    if exceeds then { bits := overflowFloat f neg rnd sat, flags := flagOF ||| flagNX }
    else
      let tiny := match rnd with
        | .rs => decide (iv < 2 ^ f.mbits)
        | _ => decide (top < 1 - f.bias) &&
            !(decide (top = -f.bias) && decide ((roundUnit m e (top - f.mbits) neg rnd draw).1 = 2 ^ (f.mbits + 1)))
      { bits := packFloat f neg iv unit,
        flags := flagIf inexact flagNX ||| flagIf (tiny && inexact) flagUF }

/-- R30, R32, R35: any value to a floating format. -/
def roundFloat (f : FloatFmt) (v : Val) (rnd : Rnd) (sat : Bool) (draw : Word) : Rounded :=
  match v with
  | .nan s =>
    if f.top = .finite then { bits := 0, flags := flagNV }
    else { bits := canonNaN f, flags := flagIf s flagNV }
  | .inf n =>
    match f.top with
    | .ieee => { bits := bigFloat f n, flags := 0 }
    | .oneNaN => { bits := if sat then maxFloat f n else bigFloat f n, flags := flagOF ||| flagNX }
    | .finite => { bits := maxFloat f n, flags := flagOF ||| flagNX }
  | .fin n m e => roundFinite f n m e rnd sat draw

/-- R20: the range of an integer format. -/
def IntFmt.lo (f : IntFmt) : Int := if f.signed then -(2 ^ (f.bits - 1) : Nat) else 0
def IntFmt.hi (f : IntFmt) : Int := if f.signed then (2 ^ (f.bits - 1) : Nat) - 1 else (2 ^ f.bits : Nat) - 1

/-- R30, R35: a value to an integer format, as its pattern. DEDUCED (log 10): "outside the range" is judged on
the rounded integer. -/
def roundInt (f : IntFmt) (v : Val) (rnd : Rnd) (draw : Word) : Rounded :=
  match v with
  | .nan _ => { bits := 0, flags := flagNV }
  | .inf n => { bits := patternOf (if n then f.lo else f.hi) f.bits, flags := flagNV }
  | .fin n m e =>
    let (iv, inexact) := roundUnit m e 0 n rnd draw
    let x : Int := if n then -(iv : Int) else iv
    if x < f.lo then { bits := patternOf f.lo f.bits, flags := flagNV }
    else if f.hi < x then { bits := patternOf f.hi f.bits, flags := flagNV }
    else { bits := patternOf x f.bits, flags := flagIf inexact flagNX }

/-- R35: a conversion between integer formats wraps, or clamps with `.sat`. -/
def intToInt (f : IntFmt) (x : Int) (sat : Bool) : Nat :=
  patternOf (if sat then max f.lo (min f.hi x) else x) f.bits

/-- R35: a value to e8m0. DEDUCED (log 11): NX is set whenever the code's power of two is not the value (R34),
and a result outside 0 to 254 also sets it; with `.sat` a result above 254 sets NX and not OF. -/
def roundScale (v : Val) (rnd : Rnd) (sat : Bool) (draw : Word) : Rounded :=
  match v with
  | .fin false (m + 1) e =>
    let k := e + (m + 1).log2
    let exact := m + 1 == 2 ^ (m + 1).log2
    let frac := ((m + 1) - 2 ^ (m + 1).log2) * 2 ^ 32 / 2 ^ (m + 1).log2
    let up := match rnd with
      | .rp => !exact
      | .rs => decide (frac + draw.toNat ≥ 2 ^ 32)
      | _ => false
    let x := k + 127 + (if up then 1 else 0)
    if x < 0 then { bits := 0, flags := flagUF ||| flagNX }
    else if 254 < x then
      if sat then { bits := 0xFE, flags := flagNX } else { bits := 0xFF, flags := flagOF ||| flagNX }
    else { bits := x.toNat, flags := flagIf (!exact) flagNX }
  | _ => { bits := 0xFF, flags := flagNV }

/-- R30, R35: any value to any scalar format, rounded once. -/
def roundTo (fmt : Fmt) (v : Val) (rnd : Rnd) (sat : Bool) (draw : Word) : Rounded :=
  match kindOf fmt with
  | .flt f => roundFloat f v rnd sat draw
  | .int f => roundInt f v rnd draw
  | .scale => roundScale v rnd sat draw
  | .block => { bits := 0, flags := 0 }

/-- `roundTo` with ties to even and no generator, as the engines round. -/
def rneTo (fmt : Fmt) (v : Val) (sat : Bool) : Rounded := roundTo fmt v .rne sat 0

end Sys2Proof.Machine
end

