-- ==== Sys2Proof/Machine/Operands.lean ====
section
/-! DEFINITION. Operand forms: which register families each field accepts in each place a word may stand (R42,
R111, R116, R332), which registers a word reads and writes (R43, R59, R60), and the values operands have. -/

namespace Sys2Proof.Machine

/-! ## Families -/

/-- A scalar register: s, or h in a handler (R332). -/
def isS (w : Where) (r : Reg) : Bool :=
  match r with
  | .s _ => w != .hand
  | .h _ => w == .hand
  | _ => false

/-- A vector register: v in a threaded group, hv in a handler. -/
def isV (w : Where) (r : Reg) : Bool :=
  match r with
  | .v _ => w == .thr
  | .hv _ => w == .hand
  | _ => false

/-- R91: the code is even, as a pair needs. -/
def isEven (r : Reg) : Bool :=
  match r with
  | .v n => n.toNat % 2 == 0
  | .hv n => n.toNat % 2 == 0
  | .s n => n.toNat % 2 == 0
  | .h n => n.toNat % 2 == 0
  | _ => true

def isP (r : Reg) : Bool :=
  match r with
  | .p _ => true
  | _ => false

def isTl (r : Reg) : Bool :=
  match r with
  | .tl _ => true
  | _ => false

def isTile (r : Reg) : Bool :=
  match r with
  | .t _ => true
  | _ => false

def isIn (r : Reg) : Bool :=
  match r with
  | .inp _ => true
  | _ => false

def isOut (r : Reg) : Bool :=
  match r with
  | .outp _ => true
  | _ => false

def isAc (r : Reg) : Bool :=
  match r with
  | .ac _ => true
  | _ => false

/-- An even scalar: the low half of a 128-bit operand (R91). -/
def isSPair (w : Where) (r : Reg) : Bool := isS w r && isEven r

/-- R116, R235: the destination of a lane operation. -/
def laneDest (w : Where) (wide : Bool) (r : Reg) : Bool :=
  if w = .body then isOut r || isAc r else isV w r && (!wide || isEven r)

/-- R116, R235: a source of a lane operation; an unused field passes. -/
def laneSrc (w : Where) (wide : Bool) (r : Reg) : Bool :=
  r.absent || isS w r ||
    (if w = .body then isIn r || isAc r || (match r with | .s _ => true | _ => false)
    else isV w r && (!wide || isEven r))

/-- R116, R235: A and B of `sel` are of D's families; in a body those of its table. -/
def selSrc (w : Where) (wide : Bool) (r : Reg) : Bool := if w = .body then laneSrc w wide r else r.absent || laneDest w wide r

/-- Four consecutive vector registers, from a multiple of 4 (R101, R201). -/
def isVQuad (w : Where) (r : Reg) : Bool :=
  match r with
  | .v n => w == .thr && n.toNat % 4 == 0
  | .hv n => w == .hand && n.toNat % 4 == 0
  | _ => false

/-- Consecutive registers of an i128 access: four v registers, or an even s pair (R101). -/
def isQuad (w : Where) (r : Reg) : Bool := isVQuad w r || isSPair w r

/-- R102: `cas` needs the register, or pair, that follows DATA. -/
def casFits (w64 : Bool) (r : Reg) : Bool :=
  match r with
  | .v n => decide (n.toNat + (if w64 then 4 else 2) ≤ 256)
  | .hv n => decide (n.toNat + (if w64 then 4 else 2) ≤ 16)
  | .s n => decide (n.toNat + 2 ≤ 64)
  | .h n => decide (n.toNat + 2 ≤ 32)
  | _ => false

/-! ## What a word may name -/

/-- R116: the integer classes. -/
def legalInt (w : Where) : IntForm → Bool
  | .salu _ d a b c _ => isS w d && isS w a && (b.absent || isS w b) && (c.absent || isS w c)
  | .salui _ d a _ _ => isS w d && (a.absent || isS w a)
  | .valu ty d a b c _ => laneDest w ty.wide d && laneSrc w ty.wide a && laneSrc w ty.wide b && laneSrc w ty.wide c
  | .valui ty d a _ _ => laneDest w ty.wide d && laneSrc w ty.wide a

def legalBit (w : Where) (o : BitForm) : Bool :=
  laneDest w o.ty.wide o.d && laneSrc w o.ty.wide o.a && laneSrc w o.ty.wide o.b && laneSrc w o.ty.wide o.c

def legalFalu (w : Where) (o : FaluForm) : Bool :=
  laneDest w o.ty.wide o.d && laneSrc w o.ty.wide o.a && laneSrc w o.ty.wide o.b && laneSrc w o.ty.wide o.c

/-- R144, R146, R148: DATA, BASE and mode of a load or store. -/
def legalMem (w : Where) (o : MemForm) : Bool :=
  let data := match o.ty with
    | .i128 => isQuad w o.data
    | .i64 => isS w o.data || (isV w o.data && isEven o.data)
    | _ => isS w o.data || isV w o.data
  let base := match o.mode with
    | .scalar => isS w o.base
    | .lane => isV w o.base && isV w o.data && (o.space != .g || isEven o.base)
    | .absolute => true
  data && base

/-- R144, R151: the same for an atomic. -/
def legalAtom (w : Where) (cas : Bool) (o : AtomForm) : Bool :=
  let data := isS w o.data || (isV w o.data && (!o.w64 || isEven o.data))
  let base :=
    if o.lane then isV w o.base && isV w o.data && (o.loc || isEven o.base) else o.base.absent || isS w o.base
  data && base && (!cas || casFits o.w64 o.data)

/-- R125: the operand of a control register move. -/
inductive CregForm where
  | scalar | lane32 | lane64 | pair128
  deriving DecidableEq, Repr

/-- R103 and the headings of the maps: the assigned control registers and how an operand holds each. -/
def cregForm (n : Nat) : Option CregForm :=
  if n = 0x002 then some .lane32
  else if n = 0x003 then some .lane64
  else if n = 0x012 ∨ n = 0x013 then some .pair128
  else if [0x001, 0x004, 0x005, 0x006, 0x007, 0x008, 0x009, 0x010, 0x011, 0x100].contains n then some .scalar
  else if 0x200 ≤ n ∧ n ≤ 0x20F then some .scalar
  else if [0x210, 0x211, 0x212, 0x213, 0x214, 0x215, 0x216, 0x217, 0x218, 0x219, 0x21A, 0x21B, 0x21D].contains n then
    some .scalar
  else if n = 0x21C then some .pair128
  else if 0x220 ≤ n ∧ n ≤ 0x22F then some .scalar
  else if 0x230 ≤ n ∧ n ≤ 0x23D then some .scalar
  else if 0x240 ≤ n ∧ n ≤ 0x24F then some .pair128
  else if 0x250 ≤ n ∧ n ≤ 0x253 then some .pair128
  else none

/-- R125: the register operand fits the control register. -/
def legalCreg (w : Where) (num : Nat) (r : Reg) : Bool :=
  match cregForm num with
  | none => false
  | some .scalar => isS w r
  | some .pair128 => isSPair w r
  | some .lane32 => if w = .vec then isAc r else isV w r
  | some .lane64 => if w = .vec then isAc r else isV w r && isEven r

/-- R111, R211 and the entries: the word may stand where it is issued, and names there only what it may. DEDUCED (log 29): D of
`eqenq` in a vector block is an accumulator. -/
def legal (w : Where) : Instr → Bool
  | .nop _ => true
  | .addInteger _ o | .subInteger _ o | .mulInteger _ o | .mulhi _ o | .madInteger _ o | .andInteger _ o
  | .orInteger _ o | .xorInteger _ o | .shl _ o | .shr _ o | .sar _ o | .minInteger _ o | .maxInteger _ o
  | .absInteger _ o | .movInteger _ o | .negInteger _ o => legalInt w o
  | .popc _ o | .clz _ o | .brev _ o | .bfe _ o | .bfi _ o => legalBit w o
  | .cmp _ _ o => isP o.d && laneSrc w o.ty.wide o.a && laneSrc w o.ty.wide o.b
  | .sel _ o => laneDest w o.ty.wide o.d && selSrc w o.ty.wide o.a && selSrc w o.ty.wide o.b && isP o.c
  | .pand _ o | .por _ o | .pxor _ o => isP o.d && isP o.a && isP o.b
  | .pnot _ o => isP o.d && isP o.a
  | .addFloat _ o | .subFloat _ o | .mulFloat _ o | .fma _ o | .fnma _ o | .minFloat _ o | .maxFloat _ o
  | .absFloat _ o | .negFloat _ o => legalFalu w o
  | .rcp _ o | .rsqrt _ o | .sqrt _ o | .exp2 _ o | .log2 _ o | .sinpi _ o | .cospi _ o | .tanh _ o =>
    laneDest w false o.d && laneSrc w false o.a
  | .cvt _ o | .pack _ o | .unpack _ o =>
    laneDest w (o.dst == .f64) o.d && laneSrc w (o.src == .f64) o.a && laneSrc w false o.b
  -- DESIGN CHOICE (log 56): R116 gives A of these words v alone; in a body R235's table places in, ac and s there.
  | .dxenc _ o | .dxdec _ o | .mxenc _ o | .mxdec _ o =>
    laneDest w false o.d && (isV w o.a || (w == .body && !o.a.absent && laneSrc w false o.a))
  | .crd _ d num => legalCreg w num.toNat d
  | .cwr _ a num => legalCreg w num.toNat a
  | .li _ d _ => isS w d || isV w d
  | .lih _ d _ => isS w d || (isV w d && isEven d)
  | .liPair _ d _ => isV w d && isEven d
  | .ld _ o | .st _ o => legalMem w o
  | .atomCas _ o => legalAtom w true o
  | .atomAdd _ o | .atomMin _ o | .atomMax _ o | .atomAnd _ o | .atomOr _ o | .atomXor _ o | .atomXchg _ o
  | .atomLd _ o | .atomSt _ o => legalAtom w false o
  | .fence .. => true
  | .cstore _ w64 o | .xload _ w64 o => w == .thr && isV w o.data && (!w64 || isEven o.data) && isS w o.base
  | .acopy _ o | .acopyPull _ o => isS w o.d && isS w o.a && isTl o.b && (o.c.absent || isS w o.c)
  | .gath _ o | .scat _ o => isS w o.d && isS w o.a && isTl o.b
  | .tlwait _ d a _ => (d.absent || isS w d) && isTl a
  | .tlbind _ d a _ => isTl d && isS w a
  | .tlread _ d a _ => isS w d && isTl a
  | .tbarInit _ o | .tbarExpect _ o | .tbarWait _ o => isS w o.data && (o.base.absent || isS w o.base)
  | .tbarArrive _ o => (o.data.absent || isS w o.data) && (o.base.absent || isS w o.base)
  | .predhint _ | .waitpred _ | .br .. | .call .. => true
  | .brind _ a => isS w a || (isV w a && isEven a)
  | .callind _ d a => isS w d && (isS w a || (isV w a && isEven a))
  | .ret _ a => isS w a
  | .gjoin _ a _ => w == .thr && isS w a
  | .gleave _ => w == .thr
  | .elect _ d => w == .thr && isP d
  | .ballot _ d => w == .thr && isS w d
  | .shfl _ o =>
    w == .thr && isV w o.d && isV w o.a && (!o.w64 || (isEven o.d && isEven o.a)) && (isV w o.b || isS w o.b)
  | .shflX _ o =>
    w == .thr && isV w o.d && isV w o.a && (!o.w64 || (isEven o.d && isEven o.a)) && (isV w o.b || isS w o.b) &&
      isS w o.c
  | .grow .. | .shrink .. => w == .thr
  | .spawn _ o => w == .thr && isV w o.d && isV w o.a && isS w o.b
  | .klaunch _ o => w != .hand && isS w o.d && isS w o.a && isS w o.b
  -- DESIGN CHOICE (log 29): in a vector block D is an accumulator.
  | .eqenq _ o =>
    (w == .thr && isV w o.d && isVQuad w o.a && isV w o.b) || (w == .vec && isAc o.d && isIn o.a && isIn o.b)
  | .eqstat _ o => w != .hand && isS w o.d && isS w o.a
  | .hopReq .. => w != .hand
  | .mwait _ _ o _ _ => w != .hand && isS w o.data && isS w o.base
  | .trap .. => w != .hand
  | .tret _ => w == .hand
  | .cnclaim _ o => w != .hand && isS w o.d && isS w o.a
  | .cnfree _ o => w != .hand && isS w o.a
  | .xrd _ o =>
    w == .hand &&
      match o.d, o.a with
      | .h _, .s _ | .h _, .p _ | .h _, .tl _ | .hv _, .v _ => true
      | _, _ => false
  | .xwr _ o =>
    w == .hand &&
      match o.d, o.a with
      | .s _, .h _ | .tl _, .h _ | .v _, .hv _ => true
      | .p n, .h _ => n != 7
      | _, _ => false
  | .tcfg _ o => isTile o.d && isSPair w o.a
  | .mma _ _ _ o | .mmaPair _ _ _ o => isS w o.d && isTile o.a && isTile o.b && isS w o.c
  | .aalloc _ o | .aclaim _ o => isS w o.d && isS w o.a
  | .afree _ o | .azero _ o => isS w o.a
  | .ard _ w64 o => isS w o.a && (if w = .vec then isS w o.d else isV w o.d && (!w64 || isEven o.d))
  | .vstrip _ o => w == .vec && isS w o.a
  | .vsrc _ o => w == .vec && isIn o.d && isS w o.a
  | .vsnk _ o => w == .vec && isOut o.d && isS w o.a
  | .vaccReset _ o => w == .vec && isAc o.d && (o.a.absent || isS w o.a)
  | .vdrain .. => w == .vec
  | .fload _ o | .frun _ o | .fsave _ o => isS w o.d && isS w o.a && isTl o.b && (o.c.absent || isS w o.c)
  | .fdrain _ o => isS w o.d && isTl o.b && (o.c.absent || isS w o.c)
  | .fpush _ _ _ o => isS w o.d && isS w o.b && (if w = .vec then isAc o.a else isV w o.a)
  | .fpop _ _ o => isS w o.a && isS w o.c && (if w = .vec then isAc o.d else isV w o.d)
  | .shflXMatch .. | .rowGrant .. | .groupSwapIn .. | .allocationSetReturn .. | .mwaitRecheck ..
  | .matrixPassGrant .. | .matrixPassAgeing .. | .matrixPassRetire .. | .bandOpCompletion ..
  | .stageFiring .. | .rareEventGroup .. | .rowWakeDone .. | .rowInstallDone .. | .rowLower ..
  | .rowHoist .. | .configStoreReload .. | .portSpillRetry .. | .longLatencyResult .. | .groupUnpark ..
  | .activeSetEntry .. | .groupStarvation .. | .trapDelivery .. | .copyExecute .. | .iseExecute ..
  | .iseSpillRetry .. | .engineOpCompletion .. | .translationFaultRecord .. | .translationFaultTimeout ..
  | .xlresRetry .. | .xlresFail .. | .tlbInvalidate .. | .invalidationComplete .. | .hopCommit ..
  | .hopDisarm .. | .codeObjectLoad .. | .coldGranuleCopy .. | .icacheFill .. | .queueNotify ..
  | .queueSlotMap .. | .launchBegin .. | .blockPlacement .. | .blockEnd .. | .launchCompletion ..
  | .hangFreeze .. | .eqLoadQueue .. | .eqLoadGroup .. | .eqUnloadQueue .. | .eqUnloadGroup ..
  | .queueUnloadComplete .. | .equDispatchDecision | .combineMark .. | .preemption .. | .blockRestore ..
  | .partitionCreate .. | .partitionDestroy .. | .secondStageEdit .. | .partitionSwapOut ..
  | .partitionSwapIn .. | .getMeasurements .. | .epochClose .. | .ideStreamViolation ..
  | .hypervisorRegisterWrite .. | .halt .. | .save .. | .restore .. | .resume .. | .kill .. | .release ..
  | .detach .. | .counterIntervalRecord .. | .traceSample .. | .uncorrectableError .. | .hbmScrub ..
  | .operatingPointChange .. | .deviceReset .. | .enterTest | .leaveTest | .leaveRecovery | .checkpoint
  | .checkpointRestore | .linkPortDown .. | .linkPortTrained .. | .storeQueueDrain ..
  | .memoryPortElement .. | .tdispRequest .. | .hostBarRequest .. | .peerWindowAccess ..
  | .startRecordClear | .repairMapAdd .. => false

/-! ## What a word reads and writes -/

/-- A register operand: its first register, how many consecutive ones, and whether it is read and written. -/
structure Use where
  r : Reg
  n : Nat
  rd : Bool
  wr : Bool
  deriving DecidableEq, Repr

def src (r : Reg) (n : Nat) : Use := { r, n, rd := true, wr := false }
def dst (r : Reg) (n : Nat) : Use := { r, n, rd := false, wr := true }
def both (r : Reg) (n : Nat) : Use := { r, n, rd := true, wr := true }

/-- Registers of a lane value. -/
def laneRegs (wide : Bool) (r : Reg) : Nat :=
  match r with
  | .v _ => if wide then 2 else 1
  | .hv _ => if wide then 2 else 1
  | _ => 1

def usesInt : IntForm → List Use
  | .salu _ d a b c _ => [dst d 1, src a 1, src b 1, src c 1]
  | .salui _ d a _ _ => [dst d 1, src a 1]
  | .valu ty d a b c _ =>
    [dst d (laneRegs ty.wide d), src a (laneRegs ty.wide a), src b (laneRegs ty.wide b), src c (laneRegs ty.wide c)]
  | .valui ty d a _ _ => [dst d (laneRegs ty.wide d), src a (laneRegs ty.wide a)]

def usesBit (o : BitForm) : List Use :=
  [dst o.d (laneRegs o.ty.wide o.d), src o.a (laneRegs o.ty.wide o.a), src o.b (laneRegs o.ty.wide o.b),
    src o.c (laneRegs o.ty.wide o.c)]

def usesFalu (o : FaluForm) : List Use :=
  [dst o.d (laneRegs o.ty.wide o.d), src o.a (laneRegs o.ty.wide o.a), src o.b (laneRegs o.ty.wide o.b),
    src o.c (laneRegs o.ty.wide o.c)]

/-- Registers of a memory operand of `n` bytes. -/
def memRegs (n : Nat) (r : Reg) : Nat :=
  match r with
  | .v _ => max 1 (n / 4)
  | .hv _ => max 1 (n / 4)
  | _ => max 1 (n / 8)

/-- R101: the bytes of a memory type. -/
def memBytes : MemTy → Nat
  | .i8 | .n8 => 1
  | .i16 | .n16 => 2
  | .i32 => 4
  | .i64 => 8
  | .i128 => 16

/-- Registers of a base: a pair for a per-lane global address. -/
def baseRegs (wide : Bool) (r : Reg) : Nat :=
  match r with
  | .v _ => if wide then 2 else 1
  | .hv _ => if wide then 2 else 1
  | _ => 1

/-- R102: `cas` also reads what follows DATA. -/
def usesAtom (cas st : Bool) (o : AtomForm) : List Use :=
  let n := memRegs (if o.w64 then 8 else 4) o.data
  let more := match o.data with
    | .v k => [src (.v (k + BitVec.ofNat 8 n)) n]
    | .hv k => [src (.hv (k + BitVec.ofNat 4 n)) n]
    | .s k => [src (.s (k + 1)) 1]
    | .h k => [src (.h (k + 1)) 1]
    | _ => []
  { r := o.data, n, rd := true, wr := !st } :: src o.base (baseRegs (!o.loc) o.base) :: (if cas then more else [])

def usesCreg (num : Nat) : Nat :=
  match cregForm num with
  | some .pair128 => 2
  | some .lane64 => 2
  | _ => 1

/-- The predicate a word reads as its lane mask or condition. -/
def predUse (f : Fixed) : List Use := [src (.p f.pred) 1]

def usesOps4 (o : Ops4) : List Use := [dst o.d 1, src o.a 1, src o.b 1, src o.c 1]

/-- The register operands of a word. -/
def uses : Instr → List Use
  | .nop _ => []
  | .addInteger f o | .subInteger f o | .mulInteger f o | .mulhi f o | .madInteger f o | .andInteger f o
  | .orInteger f o | .xorInteger f o | .shl f o | .shr f o | .sar f o | .minInteger f o | .maxInteger f o
  | .absInteger f o | .movInteger f o | .negInteger f o => predUse f ++ usesInt o
  | .popc f o | .clz f o | .brev f o | .bfe f o | .bfi f o => predUse f ++ usesBit o
  | .cmp f _ o => predUse f ++ usesBit o
  | .sel f o => predUse f ++ usesBit o
  | .pand f o | .por f o | .pxor f o | .pnot f o => predUse f ++ usesOps4 o
  | .addFloat f o | .subFloat f o | .mulFloat f o | .fma f o | .fnma f o | .minFloat f o | .maxFloat f o
  | .absFloat f o | .negFloat f o => predUse f ++ usesFalu o
  | .rcp f o | .rsqrt f o | .sqrt f o | .exp2 f o | .log2 f o | .sinpi f o | .cospi f o | .tanh f o =>
    predUse f ++ [dst o.d 1, src o.a 1]
  | .cvt f o | .unpack f o =>
    predUse f ++ [dst o.d (laneRegs (o.dst == .f64) o.d), src o.a (laneRegs (o.src == .f64) o.a), src o.b 1]
  | .pack f o => predUse f ++ [both o.d 1, src o.a 1, src o.b 1]
  | .dxenc f o | .dxdec f o | .mxenc f o | .mxdec f o => predUse f ++ [dst o.d 1, src o.a 1]
  | .crd f d num => predUse f ++ [dst d (usesCreg num.toNat)]
  | .cwr f a num => predUse f ++ [src a (usesCreg num.toNat)]
  | .li f d _ => predUse f ++ [dst d 1]
  | .lih f d _ => predUse f ++ [both d (laneRegs true d)]
  | .liPair f d _ => predUse f ++ [dst d 2]
  | .ld f o =>
    predUse f ++ [dst o.data (memRegs (memBytes o.ty) o.data), src o.base (baseRegs (o.space == .g) o.base)]
  | .st f o =>
    predUse f ++ [src o.data (memRegs (memBytes o.ty) o.data), src o.base (baseRegs (o.space == .g) o.base)]
  | .atomCas f o => predUse f ++ usesAtom true false o
  | .atomSt f o => predUse f ++ usesAtom false true o
  | .atomAdd f o | .atomMin f o | .atomMax f o | .atomAnd f o | .atomOr f o | .atomXor f o | .atomXchg f o
  | .atomLd f o => predUse f ++ usesAtom false false o
  | .fence .. => []
  | .cstore f w64 o => predUse f ++ [src o.data (if w64 then 2 else 1), src o.base 1]
  | .xload f w64 o => predUse f ++ [dst o.data (if w64 then 2 else 1), src o.base 1]
  | .acopy _ o | .acopyPull _ o => [dst o.d 1, src o.a 1, src o.b 1, dst o.c 1]
  | .gath _ o | .scat _ o => [dst o.d 1, src o.a 1, src o.b 1]
  | .tlwait _ d a _ => [src d 1, src a 1]
  | .tlbind _ d a _ => [dst d 1, src a 1]
  | .tlread _ d a _ => [dst d 1, src a 1]
  | .tbarInit _ o | .tbarExpect _ o | .tbarWait _ o => [src o.data 1, src o.base 1]
  | .tbarArrive _ o => [dst o.data 1, src o.base 1]
  | .predhint _ | .waitpred _ => []
  | .br f _ => predUse f
  | .call f _ => predUse f ++ [dst (.s 63) 1, dst (.h 31) 1]
  | .brind _ a => [src a (laneRegs true a)]
  | .callind _ d a => [dst d 1, src a (laneRegs true a)]
  | .ret _ a => [src a 1]
  | .gjoin _ a _ => [src a 1]
  | .gleave f => predUse f
  | .elect f d => predUse f ++ [dst d 1]
  | .ballot f d => predUse f ++ [dst d 1]
  | .shfl f o =>
    predUse f ++ [dst o.d (if o.w64 then 2 else 1), src o.a (if o.w64 then 2 else 1), src o.b 1]
  | .shflX f o =>
    predUse f ++ [dst o.d (if o.w64 then 2 else 1), src o.a (if o.w64 then 2 else 1), src o.b 1, src o.c 1]
  | .grow .. | .shrink .. => []
  | .spawn f o => predUse f ++ [dst o.d 1, src o.a 1, src o.b 1]
  | .klaunch _ o => [dst o.d 1, src o.a 1, src o.b 1]
  | .eqenq f o => predUse f ++ [dst o.d 1, src o.a (laneRegs true o.a * 2), src o.b 1]
  | .eqstat _ o => [dst o.d 1, src o.a 1]
  | .hopReq .. => []
  | .mwait _ _ o _ _ => [src o.data 1, src o.base 1]
  | .trap .. => []
  | .tret _ => [src (.h 1) 1]
  | .cnclaim _ o => [dst o.d 1, src o.a 1]
  | .cnfree _ o => [src o.a 1]
  | .xrd _ o => [dst o.d 1, src o.a 1]
  | .xwr _ o => [dst o.d 1, src o.a 1]
  | .tcfg _ o => [dst o.d 1, src o.a 2]
  | .mma _ _ n o | .mmaPair _ _ n o => [dst o.d 1, src o.a 1, src o.b 1, src o.c 1, src (.tl n) 1]
  | .aalloc _ o | .aclaim _ o => [dst o.d 1, src o.a 1]
  | .afree _ o | .azero _ o => [src o.a 1]
  | .ard f w64 o => predUse f ++ [dst o.d (laneRegs w64 o.d), src o.a 1]
  | .vstrip _ o | .vsrc _ o | .vsnk _ o | .vaccReset _ o => [src o.a 1]
  | .vdrain .. => []
  | .fload _ o | .frun _ o | .fdrain _ o | .fsave _ o => usesOps4 o
  | .fpush f _ _ o => predUse f ++ [dst o.d 1, src o.a 1, src o.b 1]
  | .fpop f _ o => predUse f ++ [dst o.d 1, src o.a 1, dst o.c 1]
  | .shflXMatch .. | .rowGrant .. | .groupSwapIn .. | .allocationSetReturn .. | .mwaitRecheck ..
  | .matrixPassGrant .. | .matrixPassAgeing .. | .matrixPassRetire .. | .bandOpCompletion ..
  | .stageFiring .. | .rareEventGroup .. | .rowWakeDone .. | .rowInstallDone .. | .rowLower ..
  | .rowHoist .. | .configStoreReload .. | .portSpillRetry .. | .longLatencyResult .. | .groupUnpark ..
  | .activeSetEntry .. | .groupStarvation .. | .trapDelivery .. | .copyExecute .. | .iseExecute ..
  | .iseSpillRetry .. | .engineOpCompletion .. | .translationFaultRecord .. | .translationFaultTimeout ..
  | .xlresRetry .. | .xlresFail .. | .tlbInvalidate .. | .invalidationComplete .. | .hopCommit ..
  | .hopDisarm .. | .codeObjectLoad .. | .coldGranuleCopy .. | .icacheFill .. | .queueNotify ..
  | .queueSlotMap .. | .launchBegin .. | .blockPlacement .. | .blockEnd .. | .launchCompletion ..
  | .hangFreeze .. | .eqLoadQueue .. | .eqLoadGroup .. | .eqUnloadQueue .. | .eqUnloadGroup ..
  | .queueUnloadComplete .. | .equDispatchDecision | .combineMark .. | .preemption .. | .blockRestore ..
  | .partitionCreate .. | .partitionDestroy .. | .secondStageEdit .. | .partitionSwapOut ..
  | .partitionSwapIn .. | .getMeasurements .. | .epochClose .. | .ideStreamViolation ..
  | .hypervisorRegisterWrite .. | .halt .. | .save .. | .restore .. | .resume .. | .kill .. | .release ..
  | .detach .. | .counterIntervalRecord .. | .traceSample .. | .uncorrectableError .. | .hbmScrub ..
  | .operatingPointChange .. | .deviceReset .. | .enterTest | .leaveTest | .leaveRecovery | .checkpoint
  | .checkpointRestore | .linkPortDown .. | .linkPortTrained .. | .storeQueueDrain ..
  | .memoryPortElement .. | .tdispRequest .. | .hostBarRequest .. | .peerWindowAccess ..
  | .startRecordClear | .repairMapAdd .. => []

/-- R89: the fixed fields of a word. -/
def fixed (i : Instr) : Fixed := fixedOf i.encode

/-- R89: class and minor of a word. -/
def classMinor (i : Instr) : Nat × Nat := (classOf i.encode, minorOf i.encode)

/-! ## Values of operands -/

/-- R117, R118: the value of a lane operand in lane `l`: a pair or the whole scalar for a 64-bit type, else 32
bits. -/
def laneVal (s : State) (q : Issuer) (wide : Bool) (r : Reg) (l : Nat) : Dword :=
  let scalar (x : Dword) : Dword := if wide then x else (x.setWidth 32).setWidth 64
  let vector (n : Nat) : Dword :=
    let lo := (readV s q n l).setWidth 64
    if wide then lo ||| ((readV s q (n + 1) l).setWidth 64 <<< 32) else lo
  match r with
  | .s n => scalar (readS q n.toNat)
  | .h n => scalar (readS q n.toNat)
  | .v n => vector n.toNat
  | .hv n => vector n.toNat
  | .ac n => scalar (readAc q n.toNat l)
  | _ => 0

/-- A scalar operand; 0 for an unused field. -/
def scalarVal (q : Issuer) (r : Reg) : Dword :=
  match r with
  | .s n => readS q n.toNat
  | .h n => readS q n.toNat
  | _ => 0

/-- The scalar register that follows (R91, R102). -/
def scalarNext (q : Issuer) (r : Reg) : Dword :=
  match r with
  | .s n => readS q (n.toNat + 1)
  | .h n => readS q (n.toNat + 1)
  | _ => 0

/-- The number of a register within its family. -/
def regNum : Reg → Nat
  | .v n => n.toNat
  | .s n => n.toNat
  | .p n => n.toNat
  | .t n => n.toNat
  | .tl n => n.toNat
  | .inp n => n.toNat
  | .outp n => n.toNat
  | .ac n => n.toNat
  | .h n => n.toNat
  | .hv n => n.toNat
  | .none => 0

/-! ## Traps every word can raise (R113, items 1 to 6) -/

/-- R112: the word is masked: by its feature, or as a word of a vector version. -/
def maskedBy (s : State) (q : Issuer) (cls minor : Nat) : Bool :=
  (q.vec && masked s q.part 1) ||
    match featureOf cls minor with
    | none => false
    | some .me => masked s q.part 0
    | some .vec => masked s q.part 1
    | some .fab => masked s q.part 2
    | some .copy => masked s q.part 3
    | some .ise => masked s q.part 4
    | some .equ => masked s q.part 5
    | some .hop => masked s q.part 6
    | some .klaunch => masked s q.part 7
    | some .cnt => masked s q.part 8

/-- R42: the model a word is issued in: handler text is threaded (R390). -/
def Issuer.model (q : Issuer) : Model := if q.vec then .vec else .thr

/-- R43, R209: a v register at or above the group's view is named. -/
def outOfView (q : Issuer) (i : Instr) : Bool :=
  (uses i).any (fun u =>
    match u.r with
    | .v n => decide (q.g.view < n.toNat + u.n)
    | _ => false)

/-- The pending tokens of `toks` that a use touches. -/
def tokensIn (toks : List Token) (u : Use) : List Token :=
  toks.filter (fun t => decide (regNum u.r ≤ t.reg) && decide (t.reg < regNum u.r + u.n))

/-- R59: the pending tokens that a use touches: of the group, whose s registers a handler names only in `xrd` and `xwr`
(R209), or of the handler, in h. -/
def tokensOf (q : Issuer) (u : Use) : List Token :=
  match u.r with
  | .s _ => tokensIn q.g.ctx.toks u
  | .h _ => if q.hand then tokensIn q.ctx.toks u else []
  | _ => []

def touchesToken (q : Issuer) (u : Use) : Bool := tokensOf q u != []

/-- R59: a copy's token operand. -/
def tokenOf : Instr → Option Reg
  | .acopy _ o => if o.c.used then some o.c else none
  | .acopyPull _ o => if o.c.used then some o.c else none
  | _ => none

/-- The register operands of a word where it is issued: a `call` writes h31 in a handler and s63 elsewhere (R179). -/
def usesHere (q : Issuer) (i : Instr) : List Use :=
  (uses i).filter (fun u => match i, u.r with
    | .call .., .s _ => !q.hand
    | .call .., .h _ => q.hand
    | _, _ => true)

/-- R59: the word writes a pending token, or names a ninth. -/
def overwritesToken (q : Issuer) (i : Instr) : Bool :=
  (usesHere q i).any (fun u => u.wr && touchesToken q u) || ((tokenOf i).isSome && decide (8 ≤ q.ctx.toks.length))

/-- R59: the wait for the first pending token the word reads. -/
def awaitsToken (q : Issuer) (i : Instr) : Option Park :=
  ((uses i).find? (fun u => u.rd && touchesToken q u)).bind (fun u =>
    (tokensOf q u).head?.map (fun t => match u.r with
      | .s _ => if q.hand then .ownToken t.reg else .token t.reg
      | _ => .token t.reg))

/-- R59, R60: a scalar register is a pending token. -/
def isToken (q : Issuer) (d : Dest) : Bool := q.ctx.toks.any (fun t => d == .s t.reg)

/-- R59, R209: the place in program order of the last token write, or `xwr`, that a register received: it is visible at
once. -/
def settledAt (q : Issuer) (d : Dest) : Nat :=
  q.ctx.held.foldl (fun n h => if h.dest = d && h.vis = .at 0 then h.seq else n) 0

/-- R60: a producer of a destination has a result this word would not see. A token read never is of a previous value: it
waits, or reads what the engine wrote. -/
def unseen (q : Issuer) (d : Dest) : Bool :=
  !isToken q d &&
    (q.ctx.held.any (fun h => h.dest = d && !h.seen q.at_ && decide (settledAt q d < h.seq)) ||
      q.ctx.pend.any (fun p => p.dests.contains d && decide (settledAt q d < p.seq)))

/-- R60: the registers of a use, as destinations of producers. -/
def useDests (u : Use) : List Dest :=
  match u.r with
  | .tl n => [.tl n.toNat]
  | .t n => [.tileWas (2 * n.toNat)]
  | r => destsOf r u.n

/-- R60: with the detector on, the word would read a previous value. `xrd` reads the interrupted group as it stands, and
`tret` reads h1 at its marker (R208). -/
def exposed (q : Issuer) (i : Instr) : Bool :=
  let cross := match i with
    | .xrd .. | .tret .. => true
    | _ => false
  q.b.dbg && q.b.hzd &&
    ((!cross && (uses i).any (fun u => u.rd && (useDests u).any (unseen q))) ||
      match i with
      | .crd _ _ num =>
        unseen q (.cregWas num.toNat) || (num.toNat == 1 && (unseen q .flagsSet || unseen q .flagsClear))
      | .vstrip .. => unseen q (.cregWas 8)
      | _ => false)

/-- R113, R60: the trap a word raises whatever its operands hold. -/
def staticTrap (s : State) (q : Issuer) (i : Instr) : Option Nat :=
  let (cls, minor) := classMinor i
  if 48 ≤ q.ctx.run then some causeRun
  else if !assigned cls minor || !classModel cls minor q.model then some causeIllegal
  else if maskedBy s q cls minor then some causeMasked
  else if !i.wf || !legal q.where_ i then some causeIllegal
  else if outOfView q i then some causeRange
  else if overwritesToken q i then some causeToken
  else if exposed q i then some causeExposed
  else if (fixed i).stop && q.ctx.run != 0 then some causeSafePoint
  else none

end Sys2Proof.Machine
end

