-- ==== Sys2Proof/Machine/Place.lean ====
section
/-! DEFINITION. What of the part is enabled (R3, R14, R50), a kernel header's fields (R335), and the resources a
version needs to start (R251, R252, R258, R316, R382). -/

namespace Sys2Proof.Machine

/-! ## Enabled parts -/

/-- R14, R50: the cluster is enabled. -/
def clusterOn (s : State) (c : Nat) : Bool := decide (c < 96) && !s.hours.clustersOff.contains c

/-- R14, R50: the fabric row is enabled. -/
def rowOn (s : State) (r : Nat) : Bool := decide (r < 96) && !s.hours.rowsOff.contains r

/-- R50: the sector is enabled: it has an enabled cluster or row (log 14). -/
def sectorOn (s : State) (n : Nat) : Bool :=
  decide (n < 32) && ([0, 1, 2].any (fun i => clusterOn s (3 * n + i)) || [0, 1, 2].any (fun i => rowOn s (3 * n + i)))

/-- R380: the sectors of a partition that are enabled. -/
def partSectors (s : State) (part : Nat) : List Nat :=
  match look s.parts part with
  | some p => p.sectors.filter (sectorOn s)
  | none => []

/-- R14: the enabled clusters of a partition, ascending. -/
def partClusters (s : State) (part : Nat) : List Nat :=
  (partSectors s part).flatMap (fun n => ([0, 1, 2].map (fun i => 3 * n + i)).filter (clusterOn s))

/-- R14: the enabled cores of a partition, ascending. -/
def partCores (s : State) (part : Nat) : List Nat :=
  (partClusters s part).flatMap (fun c => [0, 1, 2, 3].map (fun i => 4 * c + i))

/-- R316: the enabled rows of a partition. -/
def partRows (s : State) (part : Nat) : List Nat :=
  (partSectors s part).flatMap (fun n => ([0, 1, 2].map (fun i => 3 * n + i)).filter (rowOn s))

/-- R400: the partition is swapped out; R380: or being destroyed. -/
def swappedPart (s : State) (part : Nat) : Bool :=
  match look s.parts part with
  | some p => p.swappedOut
  | none => false

/-- R400: the partition is swapped out, and what its sectors held is in the shadow store. -/
def stashedPart (s : State) (part : Nat) : Bool :=
  match look s.parts part with
  | some p => p.stash.isSome
  | none => false

/-! ## Kernel headers (R335) -/

/-- The versions in preference order: 0 thr, 1 vec, 2 spa. -/
def headerPref (h : Dword) : List Nat := [field h 63 62, field h 61 60, field h 59 58].filter (fun v => v < 3)
def headerHas (h : Dword) (ver : Nat) : Bool := decide (ver < 3) && bitAt h (55 + ver)
def headerN16 (h : Dword) : Bool := bitAt h 54
def headerIdem (h : Dword) : Bool := bitAt h 53
def headerRule (h : Dword) : Nat := field h 44 41
/-- R43: registers per thread at block start. -/
def headerRegs (h : Dword) : Nat := 8 * (field h 40 36 + 1)
/-- R145: bytes of the local window. -/
def headerLocal (h : Dword) : Nat := 64 * field h 35 23

/-! ## Resources (R258) -/

/-- The resident groups of a core. -/
def coreGroups (s : State) (core : Nat) : List (Nat × Group) :=
  s.groups.filter (fun e => e.2.core == core && !e.2.swapped)

/-- A set is in the save area: all its groups are (R396). DEDUCED (log 22): one whose groups R182 has swapped out, one by one,
is too: it gives its rows back, and returns as a set of R396 does. -/
def setSwapped (s : State) (set : Nat) : Bool :=
  let gs := s.groups.filter (fun e => e.2.set == set)
  !gs.isEmpty && gs.all (·.2.swapped)

/-- R43: the pool rows in use on a core. -/
def rowsUsed (s : State) (core : Nat) : Nat :=
  s.sets.foldl (fun n e => if e.2.core = core ∧ !setSwapped s e.1 then n + e.2.rows else n) 0

/-- R266: the armed hops of other blocks to the threaded version on a core: the threads and the header of each. A vector
block's stands on its own core, which takes no other block meanwhile. -/
def heldHops (s : State) (core : Nat) (but : Option Nat) : List (Nat × Dword) :=
  s.blocks.filterMap (fun e =>
    match e.2.hop with
    | some h =>
      if some e.1 ≠ but ∧ e.2.ver = 2 ∧ h.target = 0 ∧ h.place = core then
        (match look s.launches e.2.launch, look s.kernels e.2.kern with
          | some l, some k => some (l.tm1 + 1, k.header)
          | _, _ => none)
      else none
    | none => none)

/-- R251: the groups of 32 that `t` threads form, and those of them in a home slot. -/
def setCount (t : Nat) : Nat := (t + 31) / 32
def slotThreads (t slot : Nat) : Nat := (t + 31 - slot) / 32

/-- R266: what armed hops hold of a core: pool rows, group places, pool threads of a home slot, bytes of local memory. -/
def heldRows (s : State) (core : Nat) (but : Option Nat) : Nat := (heldHops s core but).foldl (fun n x => n + setCount x.1 * headerRegs x.2) 0
def heldPlaces (s : State) (core : Nat) (but : Option Nat) : Nat := (heldHops s core but).foldl (fun n x => n + setCount x.1) 0
def heldSlot (s : State) (core : Nat) (but : Option Nat) (slot : Nat) : Nat := (heldHops s core but).foldl (fun n x => n + slotThreads x.1 slot) 0
def heldLocal (s : State) (core : Nat) (but : Option Nat) : Nat := (heldHops s core but).foldl (fun n x => n + headerLocal x.2) 0

/-- R43: 2,048 rows to a core, less those held for hops. -/
def rowsFree (s : State) (core : Nat) : Nat := 2048 - (rowsUsed s core + heldRows s core none)

/-- R182, R266: `n` group places of a core are free, beside those held for hops. -/
def placesFree (s : State) (core n : Nat) : Bool := decide ((coreGroups s core).length + heldPlaces s core none + n ≤ 64)

/-- R198, R396: a request for rows, or a swapped-out set, waits on the core: rows go to it before they go to a younger
block. -/
def rowsAwaited (s : State) (core : Nat) : Bool :=
  s.groups.any (fun e => e.2.core == core && (setSwapped s e.2.set || (!e.2.swapped && match e.2.park with
    | some (.grow _) => true
    | some (.spawn ..) => true
    | _ => false)))

/-- R199: the pool indices a parked `spawn` has taken. -/
def spawnTaken (p : Option Park) : List Nat :=
  match p with
  | some (.spawn _ lanes _) => lanes.map (·.2.1)
  | _ => []

/-- R251: the pool indices in use on a core. -/
def poolUsed (s : State) (core : Nat) : List Nat :=
  s.sets.flatMap (fun e => if e.2.core = core then e.2.threads.map (fun t => t.2.pool) else []) ++
    s.groups.flatMap (fun e => if e.2.core = core then spawnTaken e.2.park else [])

/-- R251: the free pool indices of a home slot. -/
def poolFree (s : State) (core slot : Nat) : List Nat :=
  ((List.range 32).map (fun k => 32 * k + slot)).filter (fun i => !(poolUsed s core).contains i)

/-- R251, R266: the same, none while armed hops hold them all. -/
def poolSpare (s : State) (core slot : Nat) : List Nat :=
  if heldSlot s core none slot < (poolFree s core slot).length then poolFree s core slot else []

/-- R251: the free pool indices of a home slot in the order they are taken, which the manual leaves open (log 45). -/
def poolOrder (s : State) (core slot : Nat) : List Nat := freeOrder 32 (s.free + 32 * slot) (poolSpare s core slot)

/-- R252: a vector block is on the core. -/
def hostsVector (s : State) (core : Nat) : Bool :=
  s.blocks.any (fun e => e.2.core == core && e.2.ver == 1 && e.2.saved.isNone)

/-- A block with a place on the core, or a rare group of one (R307), other than `but`. -/
def hostsOther (s : State) (core but : Nat) : Bool :=
  s.blocks.any (fun e => e.1 != but && e.2.core == core && e.2.ver != 2 && e.2.saved.isNone) ||
    s.groups.any (fun e => e.2.block != but && e.2.core == core)

/-- R266: a hop of another block has reserved the core for a vector version. -/
def reservedCore (s : State) (core but : Nat) : Bool :=
  s.blocks.any (fun e => e.1 != but && match e.2.hop with
    | some h => h.target == 1 && h.place == core
    | none => false)

/-- R1, R145: the bytes of a core's local memory that the windows of its blocks take (log 50). -/
def localUsed (s : State) (core but : Nat) : Nat :=
  s.blocks.foldl (fun n e =>
    if e.1 ≠ but ∧ e.2.core = core ∧ e.2.ver ≠ 2 ∧ e.2.saved = none then
      n + (match look s.kernels e.2.kern with
        | some k => headerLocal k.header
        | none => 0)
    else n) 0

/-- R198, R252, R258: a core has room for sets of `rows` rows together, `places` groups, `slots` threads in each home slot
and a window of `bytes`, beside no vector block. `but`: a block whose own resources on the core count as free (a hop's
source). -/
def coreFits (s : State) (core rows places bytes : Nat) (slots : Nat → Nat) (but : Nat) : Bool :=
  let t := { s with
    groups := s.groups.filter (fun e => e.2.block != but)
    sets := s.sets.filter (fun e => e.2.block != but) }
  !(s.blocks.any (fun e => e.1 != but && e.2.core == core && e.2.ver == 1 && e.2.saved.isNone)) &&
    !(coreOf s core).halted && !reservedCore s core but &&
    decide ((coreGroups t core).length + heldPlaces s core (some but) + places ≤ 64) &&
    decide (rowsUsed t core + heldRows s core (some but) + rows ≤ 2048) && (rows == 0 || !rowsAwaited t core) &&
    decide (localUsed s core but + heldLocal s core (some but) + bytes ≤ kib 256) &&
    (List.range 32).all (fun k => decide (heldSlot s core (some but) k + slots k ≤ (poolFree t core k).length))

/-- R258: the core can take a threaded block of `t` threads of a kernel of header `h`. -/
def threadedFits (s : State) (core t : Nat) (h : Dword) (but : Nat) : Bool :=
  coreFits s core (setCount t * headerRegs h) (setCount t) (headerLocal h) (slotThreads t) but

/-- R258: the core can take a vector block. -/
def vectorFits (s : State) (core but : Nat) : Bool :=
  !hostsOther s core but && !(coreOf s core).halted && !reservedCore s core but && (heldHops s core (some but)).isEmpty

/-- R316: the rows of a band that starts at `first`. -/
def bandRows (first p : Nat) : List Nat := (List.range p).map (· + first)

/-- The row belongs to a band, or a hop has reserved it. -/
def rowTaken (s : State) (r : Nat) : Bool :=
  s.bands.any (fun e => decide (e.2.first ≤ r) && decide (r < e.2.first + e.2.p)) ||
    s.blocks.any (fun e => match e.2.hop with
      | some h => h.target == 2 && decide (h.place ≤ r) && decide (r < h.place + h.rows)
      | none => false)

/-- R258, R316: the first row of a free band of `p` rows in the partition. -/
def freeBand (s : State) (part p : Nat) : Option Nat :=
  if p = 0 ∨ p % 3 ≠ 0 then none
  else freePick s (((List.range 32).map (3 * ·)).filter (fun f =>
    (bandRows f p).all (fun r => (partRows s part).contains r && !rowTaken s r)))

/-- R310: the band rows a spatial image requires. -/
def imageRows (s : State) (part : Nat) (k : Kernel) : Nat :=
  if k.image = 0 then 0 else field (readDword s part k.image) 23 16

/-- R258, R382: where a version of a kernel could start now: a core, or the first row of a band (log 45). -/
def placeFor (s : State) (part : Nat) (k : Kernel) (ver t but : Nat) : Option Nat :=
  if !headerHas k.header ver then none
  else match ver with
    | 0 => freePick s ((partCores s part).filter (fun c => threadedFits s c t k.header but))
    | 1 => if masked s part 1 then none else freePick s ((partCores s part).filter (fun c => vectorFits s c but))
    | _ => if masked s part 2 then none else freeBand s part (imageRows s part k)

end Sys2Proof.Machine
end

