-- ==== Sys2Proof/Machine/SafePoint.lean ====
section
/-! DEFINITION. What happens where a group is about to issue a stop word: a halt of the debug agent (R405), the
arrival at an equivalence point (R266, R330) and Boom's decision (R264 to R266, R271). -/

namespace Sys2Proof.Machine

/-! ## Safe-point tables -/

/-- The loaded kernel of a block. -/
def kernelOf (s : State) (b : Block) : Option Kernel := look s.kernels b.kern

/-- R259: the entry of the stop word at an address. -/
def safePointAt (k : Kernel) (ver : Nat) (pc : Dword) : Option SafePoint :=
  k.safe.find? (fun e => e.map.isNone && e.ver == ver && e.addr == pc)

/-- R259: the word of an ordinal in a version. -/
def safePointOf (k : Kernel) (ver ord : Nat) : Option SafePoint :=
  k.safe.find? (fun e => e.map.isNone && e.ver == ver && e.ord == ord)

/-- R261: the state map of an ordinal. -/
def mapOf (k : Kernel) (ord v c : Nat) : Option SafePoint :=
  k.safe.find? (fun e => e.ord == ord && e.ver == v && e.map == some c)

/-- The group is one of the block's T threads' (R199, R267). -/
def ofTheT (s : State) (g : Group) : Bool :=
  g.vec.isSome ||
    match look s.sets g.set with
    | some a => a.threads.any (fun t => g.mask.getLsbD t.1 && t.2.index.isSome)
    | none => false

/-! ## Clocks (R5, R415) -/

/-- R415: the operating point of an island; point 0 when none has been set. -/
def pointOf (s : State) (island : Nat) : Nat := (look s.hours.points island).getD 0

/-- Elevenths of a cycle between two reference cycles: `log` has the island's rates, newest first, point 0's before them. -/
def ratedCycles : List (Nat × Nat) → Nat → Nat → Nat
  | [], a, b => (b - a) * 11
  | (since, rate) :: rest, a, b => (b - max a since) * rate + ratedCycles rest a (min b since)

/-- R415: an island's cycles since reference cycle `a`: 3.3 − 0.3 k GHz at point k, none while its clock stops. -/
def islandCycles (s : State) (island a : Nat) : Nat := ratedCycles ((look s.hours.rates island).getD []) a s.clock / 11

/-- R415: an island's point changes, in at most 2 µs, for which its clock stops; how long the manual leaves open (log 38). -/
def setPoint (point : Nat) (s : State) (i : Nat) : State :=
  if pointOf s i = point then s
  else
    let on := s.clock + Config.freeNat s.free % 6601
    { s with
      free := s.free + 1
      hours := { s.hours with
        points := if point = 0 then drop s.hours.points i else put s.hours.points i point
        rates := put s.hours.rates i ((on, 11 - point) :: (s.clock, 0) :: (look s.hours.rates i).getD []) } }

/-- R415: the fabric islands of a band. -/
def bandIslands (b : Band) : List Nat := ((bandRows b.first b.p).map (fun r => 96 + r / 12)).eraseDups

/-- R415: the islands that run at one point with some islands: a band's. -/
def joinBand (is : List Nat) (b : Band) : List Nat := if (bandIslands b).any is.contains then (is ++ bandIslands b).eraseDups else is

def joinBands (bs : List Band) (is : List Nat) : Nat → List Nat
  | 0 => is
  | f + 1 => joinBands bs (bs.foldl joinBand is) f

/-- R415: the islands of a new band come to run at one point, the slowest of theirs (log 38). -/
def evenBand (s : State) (first : Nat) : State :=
  match look s.bands first with
  | none => s
  | some b =>
    let is := joinBands (s.bands.map (·.2)) (bandIslands b) s.bands.length
    is.foldl (setPoint (is.foldl (fun p i => max p (pointOf s i)) 0)) s

/-- R264, R415: the element-cycles of a block since its span began, each in its own island's cycles: of the 16 PEs of each row
of its band, or of the two issue slots or vector pipes of its core. -/
def spanElements (s : State) (b : Block) : Nat :=
  if b.ver = 2 then
    match b.band.bind (look s.bands) with
    | some d => (bandRows d.first d.p).foldl (fun n r => n + 16 * islandCycles s (96 + r / 12) b.spanFrom) 0
    | none => 0
  else 2 * islandCycles s (b.core / 4) b.spanFrom

/-- R264, R331: closes the current span. -/
def closeSpan (s : State) (blk : Nat) : State :=
  match look s.blocks blk with
  | none => s
  | some _ =>
    modBlock s blk (fun b =>
      { b with spans := b.spans ++ [{ elems := spanElements s b, fired := b.fired }], spanFrom := s.clock, fired := 0 })

/-- R265: the floor of a version. -/
def floorOf (rule : Dword) (ver : Nat) : Nat :=
  match ver with
  | 0 => field rule 47 40
  | 1 => field rule 39 32
  | _ => field rule 31 24

/-- R266: the versions after V in the preference order, then those before it. -/
def othersFrom (pref : List Nat) (v : Nat) : List Nat :=
  let i := pref.findIdx (· == v)
  pref.drop (i + 1) ++ pref.take i

/-- R204: the version a request names. -/
def requested (pref : List Nat) (v n : Nat) : List Nat :=
  if n < 3 then [n] else match othersFrom pref v with
    | [] => [v]
    | x :: _ => [x]

/-- R266: the efficiency over the last N spans is below the floor. -/
def inefficient (rule : Dword) (b : Block) : Bool :=
  let n := field rule 63 56
  let last := b.spans.drop (b.spans.length - n)
  let e : Nat := last.foldl (fun a x => a + x.elems) 0
  let f : Nat := last.foldl (fun a x => a + x.fired) 0
  decide (n ≠ 0) && decide (n ≤ b.spans.length) && decide (e ≠ 0) && decide (f * 256 < e * floorOf rule b.ver)

/-- R230: the block's sets hold an AM claim. -/
def holdsClaim (s : State) (blk : Nat) : Bool :=
  s.clusters.any (fun c => c.2.banks.any (fun e => match e.2.claim with
    | some set => (s.sets.any (fun a => a.1 == set && a.2.block == blk)) ||
        s.groups.any (fun g => g.2.set == set && g.2.block == blk)
    | none => false))

/-- R258, R262: where the block's target version could stand: on its own core between threaded and vector. -/
def hopPlace (s : State) (blk : Nat) (b : Block) (k : Kernel) (t ver : Nat) : Option Nat :=
  match ver with
  | 2 => placeFor s b.part k 2 t blk
  | 1 =>
    if b.ver = 0 then
      if headerHas k.header 1 && !masked s b.part 1 && vectorFits s b.core blk then some b.core else none
    else placeFor s b.part k 1 t blk
  | _ =>
    if b.ver = 1 then
      if headerHas k.header 0 && threadedFits s b.core t k.header blk then
        some b.core else none
    else placeFor s b.part k 0 t blk

/-- R297: the band's run met an element that failed. -/
def drainFailed (s : State) (b : Block) : Bool := ((b.band.bind (look s.bands)).bind (fun d => d.run.bind (·.code))).isSome

/-- R266, R271, R297: Boom's decision at an arrival: a hop is armed, or none. A run that has failed would disarm it at once. -/
def decide_ (s : State) (blk ord : Nat) : State :=
  match look s.blocks blk with
  | none => s
  | some b =>
    match kernelOf s b with
    | none => s
    | some k =>
      let rule := partReg s b.part (0x200 + headerRule k.header)
      let pref := headerPref k.header
      let t := match look s.launches b.launch with
        | some l => l.tm1 + 1
        | none => 0
      let wanted := match b.hopReq with
        | some n => requested pref b.ver n
        | none => if inefficient rule b then othersFrom pref b.ver else []
      let s := modBlock s blk (fun b => { b with hopReq := none })
      if b.dbg || (b.ver == 2 && drainFailed s b) then s
      else
        match wanted.findSome? (fun c =>
          if c ≠ b.ver ∧ (mapOf k ord b.ver c).isSome ∧ !holdsClaim s blk then
            (hopPlace s blk b k t c).map (fun p => (c, p))
          else none) with
        | none => s
        | some (c, place) =>
          modBlock (drawn s 1) blk (fun b => { b with hop := some { ord, target := c, armedAt := s.clock, place, rows := if c = 2 then imageRows s b.part k else 0, met := false } })

/-- R266: the keys under which a group's threads count their issues of the word of an ordinal; a control thread's is
that of thread 0. -/
def countKeys (s : State) (g : Group) (ord : Nat) : List Nat :=
  if g.vec.isSome then [1024 * ord]
  else match look s.sets g.set with
    | none => []
    | some a =>
      a.threads.filterMap (fun e => if g.mask.getLsbD e.1 then e.2.index.map (fun i => 1024 * ord + i) else none)

/-- R266: the counts after the group has issued the word once more. -/
def bumpThreads (s : State) (b : Block) (g : Group) (ord : Nat) : Tab Nat :=
  (countKeys s g ord).foldl (fun t k => put t k ((look t k).getD 0 + 1)) b.threadArrivals

/-- R266: the highest count of the group's threads at a point. -/
def topCount (s : State) (t : Tab Nat) (g : Group) (ord : Nat) : Nat :=
  (countKeys s g ord).foldl (fun m k => max m ((look t k).getD 0)) 0

/-- R266, R330: the block arrives at equivalence point `ord` for the `n`th time: a span closes, and unless a hop is armed or
this is the point the block hopped to, it is decided on. -/
def arriveAt (s : State) (blk ord n : Nat) : State :=
  match look s.blocks blk with
  | none => s
  | some b =>
    let s := modBlock s blk (fun b => { b with arrivals := put b.arrivals ord n })
    if b.skipArrival = some ord then modBlock s blk (fun b => { b with skipArrival := none })
    else
      let s := closeSpan s blk
      if b.hop.isSome then s else decide_ s blk ord

/-- R266: the group is about to issue the word of equivalence point `ord`, which may be an arrival of its block. -/
def arrive (s : State) (gid : Nat) (ord : Nat) : State :=
  match look s.groups gid with
  | none => s
  | some g =>
    match look s.blocks g.block with
    | none => s
    | some b =>
      let n := (look b.arrivals ord).getD 0
      let next := topCount s (bumpThreads s b g ord) g ord
      if next ≤ n then s else arriveAt s g.block ord next

/-! ## Halts (R405) -/

/-- The status byte of a debug command block. -/
def commandStatus (s : State) (part addr status : Nat) : State :=
  let s := (writeVirtual s part (addr + 4) [BitVec.ofNat 8 status]).s
  { s with parts := upd s.parts part (fun p => { p with command := none }) }

/-- R405: the HALT is done and the block attached. -/
def haltNow (s : State) (blk : Nat) (b : Block) (h : HaltReq) : State :=
  let s := modBlock s blk (fun b => { b with halt := none, halted := true, dbg := true })
  let s := disarmHop s blk
  match h.command with
  | some a => commandStatus s b.part a 0x10
  | none => s

/-- R405: every group of the block that has not ended is parked at its safe point: the HALT is done and the block
attached. A spatial block's halt ends with its band's drain instead (R260). -/
def haltDone (s : State) (blk : Nat) : State :=
  match look s.blocks blk with
  | none => s
  | some b =>
    match b.halt with
    | none => s
    | some h =>
      if b.ver ≠ 2 && (blockGroups s blk).all (fun e => e.2.park == some .halted) then haltNow s blk b h
      else s

/-- What a stop word meets before it issues: the group halts or waits for a hop, or it goes on. -/
structure StopOut where
  s : State
  waits : Bool
  deriving DecidableEq, Repr

/-- R259, R266, R267, R405: the group is about to issue a stop word: it has reached that safe point (R270). -/
def atStopWord (s : State) (q : Issuer) : StopOut :=
  match kernelOf s q.b with
  | none => { s, waits := false }
  | some k =>
    match safePointAt k q.b.ver q.ctx.pc with
    | none => { s, waits := false }
    | some e =>
      let s := modGroup s q.gid (fun g => { g with lastSafe := e.ord })
      let halts := match q.b.halt with
        | some h => !q.g.pass && (h.ord.isNone || h.ord == some e.ord)
        | none => false
      if halts then { s := haltDone (parkGroup s q.gid .halted) q.g.block, waits := true }
      else
        let counts := e.ep && ofTheT s q.g
        let s := if counts then arrive s q.gid e.ord else s
        match (look s.blocks q.g.block).bind (·.hop) with
        | some h =>
          if counts && h.ord = e.ord then { s := parkGroup s q.gid (.hop e.ord), waits := true }
          else { s, waits := false }
        | none => { s, waits := false }

/-- The stop word has issued: its threads' counts rise (R266). `before`, `q`: what the word found. -/
def passStopWord (before s : State) (q : Issuer) : State :=
  match kernelOf s q.b with
  | none => s
  | some k =>
    match safePointAt k q.b.ver q.ctx.pc with
    | none => s
    | some e =>
      let s := traceEvent s q.part (some q.g.core) 0 1 q.b.index 0 e.ord
      if e.ep && ofTheT s q.g then modBlock s q.g.block (fun b => { b with threadArrivals := bumpThreads before b q.g e.ord })
      else s

end Sys2Proof.Machine
end

