-- ==== Sys2Proof/Machine/Image.lean ====
section
/-! DEFINITION. Save images (R401 to R403): writing a block's state as bytes, reading it back, and the checks a
restore makes. -/

namespace Sys2Proof.Machine

/-! ## Records -/

/-- R401: a record. -/
structure ImgRec where
  type : Nat
  id : Nat
  body : List Byte
  deriving DecidableEq, Repr

def dwordBytes (x : Dword) : List Byte := leBytes x.toNat 8
def wordBytes (x : Word) : List Byte := leBytes x.toNat 4

/-- R401: a record's bytes. -/
def ImgRec.bytes (r : ImgRec) : List Byte :=
  leBytes (r.type % 2 ^ 8 + r.id % 2 ^ 16 * 2 ^ 8 + r.body.length * 2 ^ 32) 8 ++ r.body

/-- R236: the 64 bytes of a stream specification. -/
def specBytes (sp : StreamSpec) : List Byte :=
  let sz := match sp.esz with
    | 1 => 0 | 2 => 1 | 4 => 2 | _ => 3
  let dim (d : Nat) : List Byte :=
    match sp.dims[d]? with
    | some x => leBytes ((x.cnt - 1) % 2 ^ 16 + (x.sstr % 2 ^ 32).toNat * 2 ^ 32) 8
    | none => zeroBytes 8
  leBytes sp.base 8 ++ leBytes (sz + sp.signed.toNat * 2 ^ 5 + sp.space * 2 ^ 6 + (sp.dims.length - 1) * 2 ^ 8) 8 ++
    (List.range 5).flatMap dim ++ zeroBytes 8

/-- R402: the thread halves of a group: block thread index, 0xFFFF for none, 0xFFFE for a spawned thread. -/
def threadHalf (a : Option AllocSet) (mask : Word) (slot : Nat) : Nat :=
  if mask.getLsbD slot then
    match a.bind (fun a => look a.threads slot) with
    | some t => t.index.getD 0xFFFE
    | none => 0xFFFF
  else 0xFFFF

/-- R402: a group record. In a handler the next word address is the handler's, and RUN the group's own (log 21). -/
def groupBody (s : State) (g : Group) (age set : Nat) : List Byte :=
  let a := look s.sets g.set
  let pc := (ctxOf s g).pc
  let head := g.mask.toNat + g.view % 2 ^ 9 * 2 ^ 32 + g.ctx.run % 2 ^ 6 * 2 ^ 41 + g.handler.toNat * 2 ^ 47 +
    age % 2 ^ 8 * 2 ^ 48 + set % 2 ^ 8 * 2 ^ 56
  leBytes head 8 ++ dwordBytes pc ++
    (List.range 32).flatMap (fun k => leBytes (if g.vec.isSome then 0xFFFF else threadHalf a g.mask k) 2) ++
    (List.range 64).flatMap (fun n => dwordBytes (getZ g.ctx.s n)) ++
    (List.range 7).flatMap (fun n => wordBytes (getZ g.ctx.p n)) ++
    (List.range 8).flatMap (fun n => dwordBytes (getZ g.ctx.tl n)) ++
    dwordBytes g.fstat ++ dwordBytes g.cxp ++ dwordBytes g.amerr ++ dwordBytes g.vstrip ++
    (List.range 32).flatMap (fun l => wordBytes (match a with
      | some a => getZ a.rng l
      | none => 0)) ++
    (List.range g.view).flatMap (fun r => (List.range 32).flatMap (fun l => wordBytes (match a with
      | some a => if g.mask.getLsbD l then getZ a.v (32 * r + l) else 0
      | none => 0)))

/-- The register code of a destination, and for those without one 0x1FF with a kind above (log 21). -/
def destCode : Dest → Nat
  | .v n => (Reg.v (BitVec.ofNat 8 n)).code.toNat
  | .s n => (Reg.s (BitVec.ofNat 6 n)).code.toNat
  | .p n => (Reg.p (BitVec.ofNat 3 n)).code.toNat
  | .tl n => (Reg.tl (BitVec.ofNat 3 n)).code.toNat
  | .ac n => (Reg.ac (BitVec.ofNat 3 n)).code.toNat
  | .flagsSet => 0x1FF + 0x10000
  | .flagsClear => 0x1FF + 0x20000
  | .tileWas _ | .cregWas _ | .gone => 0x1FF

/-- R402: a held value of a register that has no register code: an image has no record for it. -/
def Held.outside (h : Held) : Bool :=
  match h.dest with
  | .cregWas _ | .tileWas _ => true
  | _ => false

/-- R402: a held result. `age`: issue index of the group. A scalar's dword fills the first two words; an accumulator's
lanes stand as two records, low words first (log 21). -/
def heldBodies (issued : Nat) (h : Held) : List (List Byte) :=
  let dist := match h.vis with
    | .at i => min (i - issued) 0x7E
    | .marker => 0x7F
  let body (f : Nat → Word) : List Byte :=
    leBytes (destCode h.dest % 2 ^ 9 + dist * 2 ^ 9 + destCode h.dest / 2 ^ 16 % 2 ^ 16 * 2 ^ 16 + h.mask.toNat * 2 ^ 32) 8 ++
      (List.range 32).flatMap (fun l => wordBytes (f l))
  let low (l : Nat) : Word := (h.lane l).setWidth 32
  let high (l : Nat) : Word := ((h.lane l) >>> 32).setWidth 32
  match h.dest with
  | .v _ => [body low]
  | .ac _ => [body low, body high]
  | _ => [body (fun l => if l = 0 then low 0 else if l = 1 then high 0 else 0)]

/-- R402: an engine context in 24 bits (log 21). -/
def engCode (e : EngRef) : Nat := e.ctx % 2 ^ 8 + e.unit % 2 ^ 12 * 2 ^ 8 + e.kind % 2 ^ 4 * 2 ^ 20

/-- R402: a pending token; `hand` names an h register. -/
def tokenBody (hand : Bool) (t : Token) : List Byte :=
  let code := if hand then (Reg.h (BitVec.ofNat 5 t.reg)).code.toNat else (Reg.s (BitVec.ofNat 6 t.reg)).code.toNat
  leBytes (1 + code * 2 ^ 8 + engCode t.eng * 2 ^ 24) 8 ++ leBytes t.op 8

/-- R402: a pending trap with the h values it will deliver. -/
def trapBody (g : Group) (t : Trap) : List Byte :=
  leBytes (3 + 0x1FF * 2 ^ 8) 8 ++ leBytes t.cause 8 ++ dwordBytes (trapWord t) ++ dwordBytes t.word ++
    dwordBytes (trapOf g t).1 ++ dwordBytes t.addr ++ dwordBytes (trapOf g t).2

/-- R402: the shadow bank and the causes queued behind it. -/
def shadowBody (s : State) (core : Nat) : List Byte :=
  let sh := shadowOf s core
  let hv (n l : Nat) : Word := match look sh.hv (32 * n + l) with
    | some v => v
    | none => match sh.ctx.undef with
      | none => 0
      | some k => Config.freeWord (k + 128 + 32 * n + l)
  (List.range 32).flatMap (fun n => dwordBytes (baseS sh.ctx n)) ++
    (List.range 16).flatMap (fun n => (List.range 32).flatMap (fun l => wordBytes (hv n l))) ++
    (List.range 7).flatMap (fun n => wordBytes (baseP sh.ctx n)) ++
    (coreOf s core).order.flatMap (fun gid => match (look s.groups gid).bind (·.trap) with
      | some t => leBytes t.cause 8
      | none => [])

/-- R402: the vector control thread's accumulators and ports. -/
def vectorBody (v : VecRegs) : List Byte :=
  let port (t : Tab Port) (n : Nat) : List Byte :=
    match look t n with
    | some p => (match p.spec with
      | some sp => specBytes sp
      | none => zeroBytes 64) ++ leBytes p.pos 8
    | none => zeroBytes 72
  (List.range 256).flatMap (fun i => dwordBytes (getZ v.ac i)) ++
    (List.range 8).flatMap (port v.ins) ++ (List.range 4).flatMap (port v.outs)

/-! ## A whole image -/

/-- R254: the block's groups, oldest first, and those in the save area after them. -/
def groupsByAge (s : State) (blk : Nat) : List (Nat × Group) :=
  let all := blockGroups s blk
  match all with
  | [] => []
  | (_, g) :: _ =>
    let order := (coreOf s g.core).order
    order.filterMap (fun gid => (all.find? (fun e => e.1 == gid))) ++ all.filter (fun e => !order.contains e.1)

/-- The distinct sets of groups, in order of first appearance. -/
def setsOf (gs : List (Nat × Group)) : List Nat :=
  gs.foldl (fun acc e => if acc.contains e.2.set then acc else acc ++ [e.2.set]) []

/-- R402: the records of a block, by type in the order of the table. -/
def blockRecords (s : State) (b : Block) (blk : Nat) (gs : List (Nat × Group)) : List ImgRec :=
  let sets := setsOf gs
  let ranked := gs.zipIdx
  let local_ := match kernelOf s b with
    | some k => headerLocal k.header
    | none => 0
  ranked.map (fun x => { type := 0x10, id := x.2, body := groupBody s x.1.2 x.2 (sets.findIdx (· == x.1.2.set)) }) ++
    ranked.flatMap (fun x => (x.1.2.ctx.held.filter (fun h => !h.outside)).flatMap (fun h =>
      (heldBodies x.1.2.ctx.issued h).map (fun bs => { type := 0x11, id := x.2, body := bs }))) ++
    ranked.flatMap (fun x =>
      x.1.2.ctx.toks.map (fun t => { type := 0x12, id := x.2, body := tokenBody false t }) ++
        (if x.1.2.handler then (ctxOf s x.1.2).toks.map (fun t => { type := 0x12, id := x.2, body := tokenBody true t })
          else []) ++
        match x.1.2.trap with
        | some t => [{ type := 0x12, id := x.2, body := trapBody x.1.2 t }]
        | none => []) ++
    ranked.flatMap (fun x => if x.1.2.handler then [{ type := 0x13, id := x.2, body := shadowBody s x.1.2.core }] else []) ++
    ranked.flatMap (fun x => match x.1.2.vec with
      | some v => [{ type := 0x15, id := 0, body := vectorBody v }]
      | none => []) ++
    [{ type := 0x14, id := 0, body := readBytes s (localKey blk 0) local_ }, { type := 0xFF, id := 0, body := [] }]

/-- R401: magic of a save image. -/
def imageMagic : Nat := 0x4D494753

/-- R401: the image of a block. `sp`: the safe point it was taken at by the debug agent. -/
def blockImage (s : State) (blk : Nat) (b : Block) (sp : Option Nat) : List Byte :=
  let gs := groupsByAge s blk
  let recs := (blockRecords s b blk gs).flatMap ImgRec.bytes
  let kern := b.kern % 2 ^ 64
  let tail := leBytes (if b.clusterBound then 2 ^ 7 + b.core / 4 else 0) 8 ++ zeroBytes 24 ++ recs
  let size := 32 + tail.length
  leBytes (imageMagic + 2 ^ 32 + b.ver * 2 ^ 40 + sp.isSome.toNat * 2 ^ 42 + sp.getD 0xFFFF * 2 ^ 48) 8 ++
    leBytes (gs.length + b.index * 2 ^ 32) 8 ++ leBytes kern 8 ++
    leBytes (size + (crc32c tail).toNat * 2 ^ 32) 8 ++ tail

/-! ## Reading an image -/

/-- Dword `n` of a byte string. -/
def dwordIn (bs : List Byte) (off : Nat) : Dword := BitVec.ofNat 64 (leNat ((bs.drop off).take 8))
def wordIn (bs : List Byte) (off : Nat) : Word := BitVec.ofNat 32 (leNat ((bs.drop off).take 4))

/-- R401: the records of a byte string, up to and including the end record; none where one does not fit. -/
def parseRecords (bs : List Byte) : Nat → Option (List ImgRec)
  | 0 => none
  | f + 1 =>
    if bs.length < 8 then none
    else
      let h := dwordIn bs 0
      let len := field h 63 32
      let r : ImgRec := { type := field h 7 0, id := field h 23 8, body := (bs.drop 8).take len }
      if field h 31 24 ≠ 0 ∨ (bs.drop 8).length < len then none
      else if r.type = 0xFF then (if len = 0 then some [r] else none)
      else (parseRecords (bs.drop (8 + len)) f).map (fun rs => r :: rs)

/-- A group as its record describes it. -/
structure ImgGroup where
  id : Nat
  mask : Word
  view : Nat
  run : Nat
  hand : Bool
  age : Nat
  set : Nat
  pc : Dword
  halves : List Nat
  s : Tab Dword
  p : Tab Word
  tl : Tab Dword
  fstat : Dword
  cxp : Dword
  amerr : Dword
  vstrip : Dword
  rng : List Word
  rows : Tab Word
  deriving DecidableEq, Repr

/-- The non-zero entries of a file of `n` registers. -/
def fileOf (n : Nat) (f : Nat → BitVec w) : Tab (BitVec w) :=
  (List.range n).filterMap (fun i => if f i = 0 then none else some (i, f i))

/-- R402: the fixed part of a group record: 16 + 64 + 512 + 28 + 64 + 32 + 128 bytes. -/
def groupFixed : Nat := 844

/-- R402: reads a group record. -/
def parseGroup (r : ImgRec) : Option ImgGroup :=
  let b := r.body
  let h := dwordIn b 0
  let view := field h 40 32
  if b.length ≠ groupFixed + 128 * view then none
  else some
    { id := r.id, mask := BitVec.ofNat 32 (field h 31 0), view, run := field h 46 41, hand := bitAt h 47,
      age := field h 55 48, set := field h 63 56, pc := dwordIn b 8,
      halves := (List.range 32).map (fun k => leNat ((b.drop (16 + 2 * k)).take 2)),
      s := fileOf 64 (fun n => dwordIn b (80 + 8 * n)), p := fileOf 7 (fun n => wordIn b (592 + 4 * n)),
      tl := fileOf 8 (fun n => dwordIn b (620 + 8 * n)),
      fstat := dwordIn b 684, cxp := dwordIn b 692, amerr := dwordIn b 700, vstrip := dwordIn b 708,
      rng := (List.range 32).map (fun l => wordIn b (716 + 4 * l)),
      rows := fileOf (32 * view) (fun i => wordIn b (844 + 4 * i)) }

/-- The destination a held record's codes name. -/
def destOf (code kind : Nat) : Option Dest :=
  match kind with
  | 0 =>
    match Reg.ofCode (BitVec.ofNat 9 code) with
    | some (.v n) => some (.v n.toNat)
    | some (.s n) => some (.s n.toNat)
    | some (.p n) => some (.p n.toNat)
    | some (.tl n) => some (.tl n.toNat)
    | some (.ac n) => some (.ac n.toNat)
    | _ => none
  | 1 => some .flagsSet
  | 2 => some .flagsClear
  | _ => none

/-- R402: reads held records, in program order, an accumulator's pairs joined. -/
def parseHeld (issued : Nat) : List ImgRec → Option (List Held)
  | [] => some []
  | r :: rs =>
    let h := dwordIn r.body 0
    let vis := if field h 15 9 = 0x7F then Vis.marker else .at (issued + field h 15 9)
    let mask := BitVec.ofNat 32 (field h 63 32)
    let w (b : List Byte) (l : Nat) : Dword := (wordIn b (8 + 4 * l)).setWidth 64
    let lanes (f : Nat → Dword) : List Dword := (List.range 32).map f
    let made (d : Dest) (vals : List Dword) (n : Nat) : Held := { dest := d, mask, vals, vis, seq := n }
    if r.body.length ≠ 136 then none
    else match destOf (field h 8 0) (field h 31 16), rs with
      | none, _ => none
      | some (.ac n), hi :: rest =>
        (parseHeld issued rest).map (fun hs =>
          made (.ac n) (lanes (fun l => w r.body l ||| (w hi.body l <<< 32))) (issued - rs.length) :: hs)
      | some (.ac _), [] => none
      | some (.v n), rest => (parseHeld issued rest).map (fun hs => made (.v n) (lanes (w r.body)) (issued - rs.length) :: hs)
      | some d, rest =>
        (parseHeld issued rest).map (fun hs => made d [w r.body 0 ||| (w r.body 1 <<< 32)] (issued - rs.length) :: hs)

/-- R402: reads a pending token; its register must be s, or h in a handler. -/
def parseToken (r : ImgRec) : Option (Bool × Token) :=
  let h := dwordIn r.body 0
  if field h 7 0 ≠ 1 ∨ r.body.length ≠ 16 then none
  else
    let c := field h 47 24
    let eng : EngRef := { kind := c / 2 ^ 20, unit := c / 2 ^ 8 % 2 ^ 12, ctx := c % 2 ^ 8 }
    let op := (dwordIn r.body 8).toNat
    match Reg.ofCode (BitVec.ofNat 9 (field h 16 8)) with
    | some (.s n) => some (false, { reg := n.toNat, eng, op })
    | some (.h n) => some (true, { reg := n.toNat, eng, op })
    | _ => none

/-- R402: reads a pending trap. -/
def parseTrap (r : ImgRec) : Option Trap :=
  let h := dwordIn r.body 0
  if field h 7 0 ≠ 3 ∨ r.body.length ≠ 56 then none
  else some
    { cause := (dwordIn r.body 8).toNat, write := bitAt (dwordIn r.body 16) 16, word := dwordIn r.body 24,
      addr := dwordIn r.body 40, given := some (dwordIn r.body 32, dwordIn r.body 48) }

/-- R236: a stream specification as it stands in memory, unchecked. -/
def specOf (b : List Byte) : StreamSpec :=
  let c := dwordIn b 8
  { base := (dwordIn b 0).toNat, space := field c 7 6, signed := bitAt c 5, esz := 2 ^ field c 1 0,
    dims := (List.range (field c 10 8 + 1)).map (fun d =>
      let x := dwordIn b (16 + 8 * d)
      { cnt := field x 15 0 + 1, shift := 0, sstr := sextNat (field x 63 32) 32, dstr := 0 }) }

/-- R402: reads the vector record. -/
def parseVector (b : List Byte) : VecRegs :=
  let port (base n : Nat) : Nat × Port :=
    let p := b.drop (base + 72 * n)
    (n, { spec := if (p.take 64).all (· == 0) then none else some (specOf p), pos := (dwordIn p 64).toNat })
  { ac := fileOf 256 (fun i => dwordIn b (8 * i)), ins := (List.range 8).map (port 2048),
    outs := (List.range 4).map (port 2624) }

/-- An image read whole. -/
structure Image where
  sp : Bool
  ord : Nat
  ver : Nat
  blk : Nat
  kern : Nat
  bound : Option Nat
  groups : List ImgGroup
  recs : List ImgRec
  crcOk : Bool
  deriving DecidableEq, Repr

/-- R401: the types stand in the order of R402's table. -/
def typeRank (t : Nat) : Nat :=
  match t with
  | 0x10 => 0 | 0x11 => 1 | 0x12 => 2 | 0x13 => 3 | 0x15 => 4 | 0x14 => 5 | 0xFF => 6
  | _ => 7

/-- Each record's (type, id) is at or after the one before it. -/
def recordsOrdered : List ImgRec → Bool
  | a :: b :: rs =>
    (decide (typeRank a.type < typeRank b.type) || (a.type == b.type && decide (a.id ≤ b.id))) && recordsOrdered (b :: rs)
  | _ => true

/-- R401, R403 FORMAT: reads an image's bytes; none where its format is wrong. -/
def parseImage (bs : List Byte) : Option Image :=
  let h := dwordIn bs 0
  let f := dwordIn bs 0x20
  let size := field (dwordIn bs 0x18) 31 0
  if field h 31 0 ≠ imageMagic ∨ field h 39 32 ≠ 1 ∨ field h 47 43 ≠ 0 ∨ field h 41 40 > 1 ∨ field f 63 8 ≠ 0 ∨
      (bs.length < 64) ∨ !((bs.drop 0x28).take 24).all (· == 0) ∨ (!bitAt f 7 ∧ field f 6 0 ≠ 0) ∨ 95 < field f 6 0 then none
  else match parseRecords ((bs.take size).drop 64) 100000 with
    | none => none
    | some recs =>
      let gs := (recs.filter (fun r => r.type == 0x10)).map parseGroup
      if !recordsOrdered recs || recs.any (fun r => typeRank r.type == 7) || gs.any Option.isNone ||
          gs.length ≠ field (dwordIn bs 8) 31 0 then none
      else some
        { sp := bitAt h 42, ord := field h 63 48, ver := field h 41 40, blk := field (dwordIn bs 8) 63 32,
          kern := (dwordIn bs 0x10).toNat, bound := if bitAt f 7 then some (field f 6 0) else none,
          groups := gs.filterMap id, recs,
          crcOk := (crc32c ((bs.take size).drop 32)).toNat == field (dwordIn bs 0x18) 63 32 }

/-- The records of a type and id, and the body of the first. -/
def recOf (img : Image) (type id : Nat) : List ImgRec := img.recs.filter (fun r => r.type == type && r.id == id)

def recBody (img : Image) (type id : Nat) : List Byte := ((recOf img type id).head?.map (·.body)).getD []

/-- R402: the local window of an image. -/
def Image.window (img : Image) : List Byte := recBody img 0x14 0

/-- R402: the bytes of a shadow record before its queued causes, and of a vector record. -/
def shadowFixed : Nat := 2332
def vectorSize : Nat := 2912

/-- R402, R403: a record's LEN, and the group it names. -/
def ImgRec.sized (img : Image) (k : Kernel) (r : ImgRec) : Bool :=
  let n := r.body.length
  let named := img.groups.any (fun g => g.id == r.id)
  match r.type with
  | 0x11 => n == 136 && named
  | 0x12 => n == (if field (dwordIn r.body 0) 7 0 = 3 then 56 else 16) && named
  | 0x13 => decide (shadowFixed ≤ n) && (n - shadowFixed) % 8 == 0 && named
  | 0x14 => n == headerLocal k.header && r.id == 0
  | 0x15 => n == vectorSize && r.id == 0
  | _ => true

/-- R402, R403 FORMAT: every record has its LEN, and each stands as often as the block has what it describes. -/
def recordsSized (img : Image) (k : Kernel) : Bool :=
  img.recs.all (ImgRec.sized img k) && (recOf img 0x14 0).length == 1 && (recOf img 0x15 0).length == (if img.ver = 1 then 1 else 0) &&
    img.groups.all (fun g =>
      (recOf img 0x10 g.id).length == 1 && (recOf img 0x13 g.id).length == (if g.hand then 1 else 0) &&
        (parseHeld 0 (recOf img 0x11 g.id)).isSome)

/-- R336: the fields of a location descriptor. -/
def locKind (l : Dword) : Nat := field l 63 58
def locReg (l : Dword) : Nat := field l 57 49
def locLo (l : Dword) : Nat := field l 48 39
def locHi (l : Dword) : Nat := field l 38 29
def locOff (l : Dword) : Nat := field l 28 0

/-- R403 LIVEMAP: a threaded location names a thread the image has, and a v register its group sees. -/
def locPresent (gs : List ImgGroup) (l : Dword) : Bool :=
  let has (t reg : Nat) : Bool :=
    gs.any (fun g => ((List.range 32).any (fun k => g.halves.getD k 0xFFFF == t)) && decide (reg < g.view))
  let hasAny (t : Nat) : Bool := gs.any (fun g => (List.range 32).any (fun k => g.halves.getD k 0xFFFF == t))
  let span := (List.range (locHi l + 1 - locLo l)).map (locLo l + ·)
  match locKind l with
  | 0 | 1 | 4 => hasAny (locLo l)
  | 2 => span.all (fun t => has t (locReg l % 256))
  | 3 => span.all hasAny
  | _ => true

/-- Two elements of a list agree under `f`. -/
def repeats (f : α → List Nat) (xs : List α) : Bool :=
  let all := xs.flatMap f
  decide (all.length ≠ all.eraseDups.length)

/-- R403 SLOTS. -/
def slotsWrong (gs : List ImgGroup) : Bool :=
  let sets := (gs.map (·.set)).eraseDups
  sets.any (fun st => repeats (fun g => laneList g.mask) (gs.filter (fun g => g.set == st))) ||
    repeats (fun g => g.halves.filter (fun h => decide (h < 0xFFFE))) gs ||
    gs.any (fun g => (List.range 32).any (fun k =>
      let h := g.halves.getD k 0xFFFF
      (decide (h < 0xFFFE) && h % 32 != k) || (g.mask.getLsbD k != decide (h ≠ 0xFFFF))))

/-- R403: the status of an image before resources are considered; 0 when it may be restored. -/
def imageStatus (k : Option Kernel) (img : Option Image) : Nat :=
  match img, k with
  | some i, some k =>
    let point := k.safe.find? (fun e => e.map.isNone && e.ver == i.ver && e.ord == i.ord)
    let heldAny := i.recs.any (fun r => r.type == 0x11)
    if !headerHas k.header i.ver || !recordsSized i k then 1
    else if (i.sp && point.isNone) || (!i.sp && i.ord ≠ 0xFFFF) then 2
    else if i.sp && (heldAny || i.groups.any (fun g => g.run ≠ 0 || bitAt g.cxp 63 || bitAt g.vstrip 63) ||
        (i.ver == 0 && (match point with
          | some e => e.locs.any (fun l => !locPresent i.groups l)
          | none => false))) then 3
    else if i.ver == 0 && slotsWrong i.groups then 4
    else if !i.crcOk then 5
    else 0
  | _, _ => 1

end Sys2Proof.Machine
end

