-- ==== Sys2Proof/Machine/Blocks.lean ====
section
/-! DEFINITION. The end of groups, sets and blocks (R185, R197, R230, R406), splits (R181, R182) and the block start
state (R44, R46, R251, R344). -/

namespace Sys2Proof.Machine

/-! ## Local windows -/

/-- R145: the bytes of a block's local window. -/
def blockWindow (s : State) (b : Block) : Nat :=
  match kernelOf s b with
  | some k => headerLocal k.header
  | none => 0

/-- R145: the bytes of local memory the words of a block reach; R340: in a translated version, what the translator's words
use above the window, and a trap handler's words do not. -/
def blockLocal (s : State) (b : Block) : Nat :=
  blockWindow s b + match kernelOf s b with
    | some k => if b.ver = 1 ∧ (coreOf s b.core).serving = none then k.scratch else 0
    | none => 0

/-- R344: a local window holds nothing once its block has left the core. -/
def clearLocal (s : State) (blk : Nat) : State :=
  { s with mem := s.mem.filter (fun c => !(decide (localKey blk 0 ≤ c.1) && decide (c.1 < localKey (blk + 1) 0))) }

/-! ## Ends -/

/-- R230: a set's claims end with it, and its rows return to the pool (R185). -/
def dissolveSet (s : State) (set : Nat) : State :=
  { s with
    sets := drop s.sets set
    clusters := s.clusters.map (fun c =>
      (c.1, { c.2 with banks := c.2.banks.map (fun e =>
        (e.1, if e.2.claim = some set then { e.2 with claim := none } else e.2)) })) }

/-- The group leaves the core. -/
def removeGroup (s : State) (gid : Nat) : State :=
  match look s.groups gid with
  | none => s
  | some g =>
    let c := coreOf s g.core
    { setCore s g.core { c with order := c.order.filter (· != gid) } with groups := drop s.groups gid }

/-- R185: the group ends. -/
def endGroup (s : State) (gid : Nat) : State :=
  match look s.groups gid with
  | none => s
  | some g =>
    let t := ofTheT s g
    let s := removeGroup s gid
    let s := if s.groups.any (fun e => e.2.set == g.set) then
        { s with sets := upd s.sets g.set (fun a => { a with threads := a.threads.filter (fun t => !g.mask.getLsbD t.1) }) }
      else dissolveSet s g.set
    if t then modBlock s g.block (fun b => { b with threadEnded := true }) else s

/-- R63: the core's shadow bank is free again: the next pending trap is served. -/
def freeShadow (s : State) (core : Nat) : State :=
  let c := coreOf s core
  let s := setCore s core { c with serving := none, shadow := { ctx := Ctx.start 0, hv := [] } }
  match nextTrap s core with
  | some (gid, t) => deliverTrap s gid t
  | none => s

/-- What a block holds on its core is given back: groups, rows, window, queued stores, and claims but for those of the sets
`kept`. -/
def leaveCoreBut (s : State) (blk : Nat) (kept : List Nat) : State :=
  match look s.blocks blk with
  | none => s
  | some _ =>
    let gs := blockGroups s blk
    let served := ((gs.filter (fun e => e.2.handler)).map (fun e => e.2.core)).eraseDups
    let s := gs.foldl (fun s e => removeGroup s e.1) s
    let s := (s.sets.filter (fun e => e.2.block == blk)).foldl (fun s e =>
      if kept.contains e.1 then { s with sets := drop s.sets e.1 } else dissolveSet s e.1) s
    let s := clearLocal s blk
    let s : State := { s with cores := s.cores.map (fun c => (c.1, { c.2 with storeQ := c.2.storeQ.filter (fun e => e.block != blk) })) }
    served.foldl freeShadow s

/-- The same with every claim. -/
def leaveCore (s : State) (blk : Nat) : State := leaveCoreBut s blk []

/-- R159: some engine operation of the block has not completed. -/
def engineBusy (s : State) (blk : Nat) : Bool :=
  s.copies.any (fun e => e.2.ops.any (fun o => o.block == blk)) ||
    s.ises.any (fun e => e.2.ops.any (fun o => o.block == blk)) ||
    s.clusters.any (fun c => c.2.table.any (fun p => p.block == blk) || c.2.running.any (fun p => p.block == blk)) ||
    s.bands.any (fun d => d.2.ops.any (fun o => o.block == blk))

/-- The block's stores that are not yet performed. -/
def storesLeft (s : State) (blk : Nat) : Bool := s.cores.any (fun c => c.2.storeQ.any (fun e => e.block == blk))

/-- The block and all it holds are gone. R323: its band is free. -/
def eraseBlock (s : State) (blk : Nat) : State :=
  let away : List Nat := match (look s.blocks blk).bind (fun b => b.saved) with
    | some x => x.groups.map (fun g => g.set)
    | none => []
  let s : State := away.foldl dissolveSet (leaveCore s blk)
  { s with
    bands := s.bands.filter (fun d => d.2.block != blk)
    blocks := drop s.blocks blk }

/-- R406, R408, R413, R343: the block is killed. `reason`: 1 debug agent, 2 uncorrectable error. -/
def killBlock (s : State) (blk reason : Nat) : State :=
  match look s.blocks blk with
  | none => s
  | some b =>
    let idem := match kernelOf s b with
      | some k => headerIdem k.header
      | none => false
    let s := faultRecord s b.part 0x0A 0 (some blk) noAddr (BitVec.ofNat 64 reason)
    let s := eraseBlock (endIntervals s b.part (some b.place)) blk
    { s with
      launches := upd s.launches b.launch (fun l =>
        if reason = 2 && idem && !b.relaunched then { l with rerun := l.rerun ++ [b.index] }
        else { l with lost := l.lost + 1, hungLost := l.hungLost || b.hung }) }

/-! ## Swap slots (R182, R396, R397) -/

/-- R397: the save size of a kernel; a spatial version adds the image's SCRSZ and 1 MiB. `scr`: SCRSZ. -/
def saveSize (k : Kernel) (scr : Nat) : Nat := 0x860000 + (if headerHas k.header 2 then scr + mib 1 else 0)

/-- R397: a write to the save area that faults freezes the block. -/
def saveWrite (s : State) (blk : Nat) (b : Block) (off : Nat) (bs : List Byte) : State :=
  let o := writeVirtual s b.part (b.saveBase + off) bs
  match o.bad with
  | none => o.s
  | some (_, a) =>
    faultRecord (freezeBlock o.s blk .unhandled) b.part 0x09 0 (some blk) (BitVec.ofNat 64 a) (BitVec.ofNat 64 causeXlate)

/-- R182: the group goes to the save area: its record is written to a free swap slot (log 22). -/
def swapOut (s : State) (gid : Nat) : State :=
  match look s.groups gid with
  | none => s
  | some g =>
    match look s.blocks g.block with
    | none => s
    | some b =>
      let used := (blockGroups s g.block).filterMap (fun e => e.2.slot)
      let slot := freePick s ((List.range 64).filter (fun k => !used.contains k))
      let age := (coreOf s g.core).order.findIdx (· == gid)
      let s := match slot with
        | some k =>
          saveWrite (drawn s 1) g.block b (0x10000 + 0x10000 * k)
            ({ type := 0x10, id := age, body := groupBody s g age 0 : ImgRec }).bytes
        | none => s
      let s := countEvent s b.part (some g.core) 0x14
      modGroup s gid (fun g => { g with swapped := true, slot, active := false, starving := false, readyAt := none })

/-- R182: the core has more than 64 resident groups: the youngest that is not active is swapped out. DESIGN CHOICE (log 22): the places
that armed hops hold (R266) do not count here, so that a new group may take one; the excess is swapped out when the hop commits. -/
def overflow (s : State) (core : Nat) : Nat → State
  | 0 => s
  | f + 1 =>
    if (coreGroups s core).length ≤ 64 then s
    else match (coreOf s core).order.reverse.find? (fun gid => match look s.groups gid with
      | some g => !g.swapped && !g.active
      | none => false) with
      | some gid => overflow (swapOut s gid) core f
      | none => s

/-! ## Splits (R181) -/

/-- One of the groups a split makes: its members, its address, the link it receives. -/
structure Part where
  mask : Word
  pc : Dword
  link : Option (Nat × Dword)
  deriving DecidableEq, Repr

/-- R181: what a held result is for the members of a new group. -/
def Held.forMask (h : Held) (m : Word) : Held :=
  match h.dest with
  | .v _ => { h with mask := h.mask &&& m }
  | .p _ => { h with mask := h.mask &&& m }
  | _ => h

/-- R181: the context of a new group. -/
def Ctx.forMask (c : Ctx) (m : Word) (pc : Dword) : Ctx :=
  { c with pc, held := c.held.map (·.forMask m), p := (c.p.map (fun e => (e.1, e.2 &&& m))).filter (fun e => e.2 != 0) }

/-- R181: the children of a group, in order of age. The link is a scalar result of this word (L = 1). -/
def childOf (s : State) (g : Group) (first : Bool) (p : Part) : Group :=
  let c := g.ctx.forMask p.mask p.pc
  let c := match p.link with
    | some (r, v) => holdCtx (.s r) (BitVec.allOnes 32) [v] (.at (c.issued + 1)) c.issued c
    | none => c
  { g with mask := p.mask, ctx := c, active := g.active && first,
           readyAt := if g.active && first then none else some s.clock }

/-- R181, R182: the group splits into `ps`, oldest first. Its word has issued. Answers the new groups. -/
def splitGroup (s : State) (gid : Nat) (ps : List Part) : State × List Nat :=
  match look s.groups gid with
  | none => (s, [])
  | some g =>
    let ids := (List.range ps.length).map (s.fresh + ·)
    let kids := (ids.zip ps).zipIdx.map (fun x => (x.1.1, childOf s g (x.2 == 0) x.1.2))
    let c := coreOf s g.core
    let order := c.order.flatMap (fun o => if o = gid then ids else [o])
    let heirs (o : List Nat) : List Nat := if o.contains gid then o.filter (· != gid) ++ ids else o
    let own (e : StoreEnt) : StoreEnt := { e with owners := heirs e.owners }
    let s := setCore s g.core { c with order, storeQ := c.storeQ.map own }
    let s := reownBanks s (coreCluster g.core) heirs
    let s := { s with groups := kids.foldl (fun t k => put t k.1 k.2) (drop s.groups gid), fresh := s.fresh + ps.length }
    (overflow s g.core 1024, ids)

/-! ## Block start -/

/-- R46: the generator seed of thread `i` of block `b`. -/
def seedOf (seed : Dword) (b i : Nat) : Word := (seed.setWidth 32) ^^^ BitVec.ofNat 32 (0x9E3779B9 * (1024 * b + i + 1))

/-- R251: the pool indices of `t` threads, each a free one of its home slot. -/
def poolIndices (s : State) (core t : Nat) : List Nat :=
  let orders := (List.range 32).map (poolOrder s core)
  (List.range t).map (fun i => (orders.getD (i % 32) []).getD (i / 32) i)

/-- R251, R197: the allocation sets of a threaded block: threads 32g to 32g + 31. -/
def startSets (core blk t regs : Nat) (seed : Dword) (b : Nat) (pool : List Nat) (id0 : Nat) : Tab AllocSet :=
  (List.range ((t + 31) / 32)).map (fun g =>
    let slots := (List.range 32).filter (fun k => decide (32 * g + k < t))
    (id0 + g,
      { block := blk, core, rows := regs, v := [],
        rng := (slots.map (fun k => (k, seedOf seed b (32 * g + k)))).filter (fun e => e.2 != 0),
        threads := slots.map (fun k => (k, { pool := pool.getD (32 * g + k) 0, index := some (32 * g + k) })) }))

/-- A group at block start. -/
def startGroup (blk core set : Nat) (mask : Word) (view : Nat) (pc : Dword) (regs : Tab Dword) (clock : Nat) : Group :=
  { block := blk, core, set, mask, view, ctx := { Ctx.start pc with s := regs.filter (fun e => e.2 != 0) },
    fstat := 0, cxp := 0, amerr := 0, vstrip := 0, vec := none, active := false, readyAt := some clock,
    starving := false, park := none, trap := none, handler := false, lastSafe := 0xFFFF, returned := false,
    pass := false, strip := true, swapped := false, slot := none, rare := none }

/-- R251, R344: the members of each group: a set's threads, or under N16 its two halves, the lower older. -/
def startMasks (t : Nat) (n16 : Bool) : List (Nat × Word) :=
  (List.range ((t + 31) / 32)).flatMap (fun g =>
    let whole := ofLanes (fun k => decide (32 * g + k < t))
    let halves := if n16 then [whole &&& 0xFFFF#32, whole &&& 0xFFFF0000#32] else [whole]
    (halves.filter (· != 0)).map (fun m => (g, m)))

/-- R251, R263, R344: builds a threaded block's groups at `pc`, youngest on its core, of which the core may hold too many
(R182, R252). -/
def buildThreaded (s : State) (blk core t regs : Nat) (n16 : Bool) (seed : Dword) (b : Nat) (pc : Dword)
    (scalars : Tab Dword) : State :=
  let pool := poolIndices s core t
  let sets := startSets core blk t regs seed b pool s.fresh
  let masks := startMasks t n16
  let id1 := s.fresh + sets.length
  let gs := masks.zipIdx.map (fun x =>
    (id1 + x.2, startGroup blk core (s.fresh + x.1.1) x.1.2 regs pc scalars s.clock))
  let c := coreOf s core
  let s := setCore s core { c with order := c.order ++ gs.map (·.1) }
  overflow
    { s with
      sets := sets.foldl (fun t e => put t e.1 e.2) s.sets
      groups := gs.foldl (fun t e => put t e.1 e.2) s.groups
      fresh := id1 + gs.length
      free := s.free + 1024 } core 1024

/-- R256, R263, R344: builds a vector block's control thread at `pc`. Its lane generators stand in a set of no rows. -/
def buildVector (s : State) (blk core : Nat) (seed : Dword) (b : Nat) (pc : Dword) (scalars : Tab Dword) : State :=
  let set : AllocSet :=
    { block := blk, core, rows := 0, v := [],
      rng := ((List.range 32).map (fun l => (l, seedOf seed b l))).filter (fun e => e.2 != 0), threads := [] }
  let g := { startGroup blk core s.fresh (BitVec.allOnes 32) 0 pc scalars s.clock with
    vec := some { ac := [], ins := [], outs := [] } }
  let c := coreOf s core
  let s' := setCore s core { c with order := c.order ++ [s.fresh + 1] }
  { s' with
    sets := put s.sets s.fresh set
    groups := put s.groups (s.fresh + 1) g
    fresh := s.fresh + 2 }

end Sys2Proof.Machine
end

