-- ==== Sys2Proof/Machine/Formats.lean ====
section
/-! DEFINITION. The block formats: MX and dx values (R24, R26), the element rules of `pack` (R139), and the
two encoders over 32 values (R25, R27). -/

namespace Sys2Proof.Machine

/-- R24: the element format of an MX format. mxi8 is i8 × 2⁻⁶. -/
def mxElement : Fmt → Fmt
  | .mxf8e5 => .e5m2
  | .mxf8e4 => .e4m3
  | .mxf6e3 => .e3m2
  | .mxf6e2 => .e2m3
  | .mxf4 => .e2m1
  | _ => .i8

/-- R24: the largest element exponent. -/
def mxEmax : Fmt → Int
  | .mxf8e5 => 15
  | .mxf8e4 => 8
  | .mxf6e3 => 4
  | .mxf6e2 => 2
  | .mxf4 => 2
  | _ => 0

/-- The value times 2^`k`. -/
def scaleVal (v : Val) (k : Int) : Val :=
  match v with
  | .fin n m e => .fin n m (e + k)
  | x => x

/-- R24: the element part P of an MX element. -/
def mxPart (fmt : Fmt) (elem : Nat) : Val :=
  scaleVal (valOf (mxElement fmt) elem) (if fmt = .mxi8 then -6 else 0)

/-- R24: the value of an element under scale `x`. -/
def mxVal (fmt : Fmt) (x elem : Nat) : Val :=
  if x % 256 = 255 then .nan false else scaleVal (mxPart fmt elem) ((x % 256 : Nat) - 127)

/-- R26: the mantissa bits of a dx element. -/
def dxMant (fmt : Fmt) : Nat := fmtWidth fmt - 2

/-- R26: the value of an element under a header. -/
def dxVal (fmt : Fmt) (header elem : Nat) : Val :=
  let k := dxMant fmt
  let e := if elem / 2 ^ (k + 1) % 2 = 1 then header % 256 else header / 256 % 256
  if header % 65536 = 65535 then .nan false
  else .fin (elem / 2 ^ k % 2 == 1) (elem % 2 ^ k) ((e : Int) - 127 - k)

/-- The value of an element of any packable format with its scale or header `h`. -/
def elemVal (fmt : Fmt) (h elem : Nat) : Val :=
  if fmt.mx then mxVal fmt h elem else if fmt.dx then dxVal fmt h elem else valOf fmt elem

/-- R25, R139: one MX element of a value that is no NaN, under scale `x` other than 0xFF. DESIGN CHOICE (log 55): the largest
mxi8 with a negative sign is 0x80, −2. -/
def mxElem (fmt : Fmt) (x : Nat) (v : Val) (rnd : Rnd) (draw : Word) : Rounded :=
  let q := scaleVal v (127 - (x : Int) + (if fmt = .mxi8 then 6 else 0))
  match v with
  | .inf n =>
    if fmt = .mxf8e5 then roundTo .e5m2 (.inf n) rnd false draw
    else if fmt = .mxi8 then { bits := if n then 0x80 else 0x7F, flags := flagOF ||| flagNX }
    else roundTo (mxElement fmt) (.fin n 1 1024) .rz true draw
  | _ =>
    if fmt = .mxi8 then
      let r := roundTo .i8 q rnd false draw
      if r.flags = flagNV then { bits := r.bits, flags := flagOF ||| flagNX } else r
    else roundTo (mxElement fmt) q rnd true draw

/-- R139: the MX element rule of `pack`. -/
def mxOne (fmt : Fmt) (x : Nat) (v : Val) (rnd : Rnd) (draw : Word) : Rounded :=
  if x % 256 = 255 ∨ v.isNaN then { bits := 0, flags := flagNV } else mxElem fmt (x % 256) v rnd draw

/-- The nearest integer to m × 2^k, ties to even (R27). -/
def rneInt (m : Nat) (k : Int) : Nat := (roundUnit m k 0 false .rne 0).1

/-- R26: element bits of a selector, a sign and a mantissa. -/
def dxBits (fmt : Fmt) (sel neg : Bool) (m : Nat) : Nat :=
  sel.toNat * 2 ^ (dxMant fmt + 1) + neg.toNat * 2 ^ dxMant fmt + m

/-- R27: the loop body for one finite value under the exponents `ea` and `eb`. -/
def dxPick (fmt : Fmt) (ea eb : Nat) (neg : Bool) (m : Nat) (e : Int) : Nat :=
  let k := dxMant fmt
  let qb := rneInt m (e - ((eb : Int) - 127 - k))
  if qb ≤ ones k then dxBits fmt true neg qb
  else dxBits fmt false neg (min (ones k) (rneInt m (e - ((ea : Int) - 127 - k))))

/-- R27: NX when the decoded element differs from its input, UF when a non-zero finite input becomes zero. -/
def dxFlags (fmt : Fmt) (header elem : Nat) (v : Val) : Flags :=
  let d := dxVal fmt header elem
  flagIf (cmpVal d v != some .eq) flagNX ||| flagIf (d.isZero && !v.isZero && !v.isNaN && !v.isInf) flagUF

/-- R139: the dx element rule of `pack`. DESIGN CHOICE (log 55): a finite value that is clamped to the largest element sets NX
alone. -/
def dxOne (fmt : Fmt) (header : Nat) (v : Val) : Rounded :=
  if header % 65536 = 65535 then { bits := 0, flags := flagNV }
  else match v with
    | .nan _ => { bits := 0, flags := flagNV }
    | .inf n => { bits := dxBits fmt false n (ones (dxMant fmt)), flags := flagOF ||| flagNX }
    | .fin n m e =>
      let b := dxPick fmt (header / 256 % 256) (header % 256) n m e
      { bits := b, flags := dxFlags fmt header b v }

/-- An encoded block: its scale or header, its 32 elements, its flags. -/
structure Encoded where
  header : Nat
  elems : List Nat
  flags : Flags
  deriving DecidableEq, Repr

/-- R27: the smallest E from `e` upward whose quotient fits, over `fuel` candidates. -/
def dxSearch (fmt : Fmt) (m : Nat) (x : Int) (e fuel : Nat) : Nat :=
  match fuel with
  | 0 => e
  | n + 1 =>
    if rneInt m (x - ((e : Int) - 127 - dxMant fmt)) ≤ ones (dxMant fmt) then e
    else dxSearch fmt m x (e + 1) n

/-- The largest finite f32 (R27). -/
def f32Max (neg : Bool) : Val := .fin neg (ones 24) 104

/-- The magnitude of a value as the larger of two, both finite. -/
def maxMag (a b : Val) : Val := if cmpVal a.abs b.abs = some .lt then b.abs else a.abs

/-- R27: the block of NaNs. Elements that differ from an input that is no NaN set NX. DESIGN CHOICE (log 55): none sets UF there. -/
def dxNaNBlock (vs : List Val) (fl : Flags) : Encoded :=
  { header := 0xFFFF, elems := vs.map (fun _ => 0), flags := fl ||| flagIf (!vs.all Val.isNaN) flagNX }

/-- R27: the dx encoder over the block's 32 values. -/
def dxEncode (fmt : Fmt) (sat : Bool) (vs : List Val) : Encoded :=
  let k := dxMant fmt
  let anyNaN := vs.any Val.isNaN
  let anyInf := vs.any Val.isInf
  let fl := flagIf anyNaN flagNV ||| flagIf anyInf flagOF
  if anyNaN || (anyInf && !sat) then dxNaNBlock vs fl
  else
    let xs := vs.map (fun v => if v.isInf then f32Max v.sign else v)
    match xs.foldl maxMag (.fin false 0 0) with
    | .fin _ m e =>
      let ea := if m = 0 then k else dxSearch fmt m e (max k ((e + m.log2 + 124).toNat)) 512
      if 254 < ea ∧ !sat then dxNaNBlock vs (fl ||| flagOF)
      else
        let a := min ea 254
        let header := 256 * a + (a - k)
        let elems := xs.map (fun v =>
          match v with
          | .fin n j h => dxPick fmt a (a - k) n j h
          | _ => 0)
        { header, elems,
          flags := fl ||| flagIf (decide (254 < ea)) flagOF |||
            flagsJoin ((elems.zip vs).map (fun x => dxFlags fmt header x.1 x.2)) }
    | _ => dxNaNBlock vs fl

/-- R25: the shared scale of finite values. -/
def mxScale (fmt : Fmt) (vs : List Val) : Nat :=
  match (vs.filter (fun v => !v.isInf && !v.isNaN)).foldl maxMag (.fin false 0 0) with
  | .fin _ 0 _ => 127
  | v => min 254 (v.exponent - mxEmax fmt + 127).toNat

/-- R25: the MX encoder. `vs` pairs each value with the generator of its lane after this instruction's
advance. -/
def mxEncode (fmt : Fmt) (rnd : Rnd) (vs : List (Val × Word)) : Encoded :=
  if vs.any (·.1.isNaN) then
    { header := 0xFF, elems := vs.map (fun _ => 0),
      flags := flagNV ||| flagIf (!vs.all (·.1.isNaN)) flagNX }
  else
    let x := mxScale fmt (vs.map Prod.fst)
    let rs := vs.map (fun v => mxElem fmt x v.1 rnd v.2)
    { header := x, elems := rs.map (·.bits), flags := flagsJoin (rs.map (·.flags)) }

end Sys2Proof.Machine
end

