-- ==== Sys2Proof/Machine/Issue.lean ====
section
/-! DEFINITION. The frame of every instruction word: who issues it, the traps any word can raise in the order of
R113, the stop word's own events, the wait for a token, and then what the word itself does. -/

namespace Sys2Proof.Machine

/-- R158, R239: the first word after `tret` clears a pending restart it does not consume. -/
def clearRestart (s : State) (q : Issuer) (i : Instr) : State :=
  if q.g.returned && !q.hand then
    let cls := (classMinor i).1
    let strip := cls == 0x33 && (classMinor i).2 == 0
    modGroup s q.gid (fun g =>
      { g with
        returned := false
        cxp := if cls = 0x14 then g.cxp else g.cxp &&& 0x7FFFFFFFFFFFFFFF#64
        vstrip := if strip then g.vstrip else g.vstrip &&& 0x7FFFFFFFFFFFFFFF#64 })
  else s

/-- The word has issued: its group, or its handler, counts it, or the group has become others or ended. -/
def issued (s : State) (q : Issuer) : Bool :=
  match look s.groups q.gid with
  | some g => decide (q.ctx.issued < (if q.hand then (shadowOf s q.g.core).ctx.issued else g.ctx.issued))
  | none => true

/-- R398: the word is of classes 0x30 to 0x32. -/
def clusterWord (i : Instr) : Bool := let c := (classMinor i).1; decide (0x30 ≤ c) && decide (c ≤ 0x32)

/-- What follows when the word may issue: the stop word's events, the wait for a pending token it reads (R59),
then `act`. -/
def issueWord (i : Instr) (s : State) (q : Issuer) (act : State → Issuer → State) : State :=
  let stop := (fixed i).stop && !q.hand
  let o := if stop then atStopWord s q else { s, waits := false }
  if o.waits then o.s
  else match awaitsToken q i with
    | some p => stall o.s q p
    | none =>
      let s := clearRestart o.s q i
      match issuer s with
      | some q =>
        let t := act s q
        let t := if issued t q && clusterWord i then modBlock t q.g.block (fun b => { b with clusterBound := true }) else t
        if stop && issued t q then passStopWord s t q else t
      | none => s

/-- THE MEANING OF AN INSTRUCTION WORD `i` whose own effect is `act`. -/
def word (i : Instr) (s : State) (act : State → Issuer → State) : Host.Outcome State Fault Refusal :=
  match issuer s with
  | none => .fault .noIssuer
  | some q =>
    match staticTrap s q i with
    | some cause => .next (trapBefore s q cause 0 false)
    | none => .next (issueWord i s q act)

end Sys2Proof.Machine
end

