-- ==== Sys2Proof/Machine/Trans.lean ====
section
/-! DEFINITION. The transcendental functions of R40. Every irrational result is computed as an integer series
with 256 fraction bits and handed to the one rounding with a sticky bit below it, so the rounding is that of
the exact value wherever 256 bits decide it (log 12: DEDUCED). Exact results and special cases are separate. -/

namespace Sys2Proof.Machine

/-- Fraction bits of the series. -/
abbrev fracBits : Nat := 256
/-- 1 with `fracBits` fraction bits. -/
abbrev one : Nat := 2 ^ 256

/-- The integer square root of `n` below 2^`k`, bit by bit from the top, given the root `r` so far. -/
def isqrtFrom (n r : Nat) : Nat → Nat
  | 0 => r
  | k + 1 => if (r + 2 ^ k) * (r + 2 ^ k) ≤ n then isqrtFrom n (r + 2 ^ k) k else isqrtFrom n r k

/-- floor(√n). -/
def isqrt (n : Nat) : Nat := isqrtFrom n 0 (n.log2 / 2 + 1)

/-- A magnitude strictly between m × 2^e and (m + 1) × 2^e, or exactly m × 2^e, with its sticky bit. -/
def sticky (neg : Bool) (m : Nat) (e : Int) (inexact : Bool) : Val := .fin neg (2 * m + inexact.toNat) (e - 1)

/-- Σ over k of z^k / ((2k + 1)), z with `fracBits` fraction bits: `fuel` terms from term k, power `p`. -/
def atanhSum (z p k : Nat) : Nat → Nat
  | 0 => 0
  | f + 1 => p / (2 * k + 1) + atanhSum z (p * z / one) (k + 1) f

/-- 2 × atanh(z), z below 1/2 with `fracBits` fraction bits. -/
def twoAtanh (z : Nat) : Nat := 2 * z * atanhSum (z * z / one) one 0 140 / one

/-- ln 2 = 2 × atanh(1/3). -/
def ln2 : Nat := twoAtanh (one / 3)

/-- Σ of y^k / (k + 1)!: `fuel` terms from term k, `p` the running term. -/
def expSum (y p k : Nat) : Nat → Nat
  | 0 => 0
  | f + 1 => p + expSum y (p * y / one / (k + 2)) (k + 1) f

/-- (e^y − 1) / y for y up to 48. -/
def expm1Over (y : Nat) : Nat := expSum y one 0 320

/-- Σ of (−1)^k y2^k / (2k + 1)!: `fuel` terms, the sign alternating. -/
def sinSum (y2 p k : Nat) : Nat → Int
  | 0 => 0
  | f + 1 => (p : Int) - sinSum y2 (p * y2 / one / ((2 * k + 2) * (2 * k + 3))) (k + 1) f

/-- atan(1/n) by its alternating series: `fuel` terms, `p` = n^−(2k+1). -/
def atanInv (n p k : Nat) : Nat → Int
  | 0 => 0
  | f + 1 => (p / (2 * k + 1) : Nat) - atanInv n (p / (n * n)) (k + 1) f

/-- π = 16 atan(1/5) − 4 atan(1/239). -/
def piFix : Nat := (16 * atanInv 5 (one / 5) 0 120 - 4 * atanInv 239 (one / 239) 0 40).toNat

/-- The transcendental operations, in the order of R135. -/
inductive TrnOp where
  | rcp | rsqrt | sqrt | exp2 | log2 | sinpi | cospi | tanh
  deriving DecidableEq, Repr

/-- The exact function value, with DZ or NV. -/
structure TrnVal where
  v : Val
  flags : Flags
  deriving DecidableEq, Repr

def trnNaN : TrnVal := { v := .nan false, flags := flagNV }
def trnOk (v : Val) : TrnVal := { v, flags := 0 }

/-- A finite magnitude m × 2^e, e at least −256, with `fracBits` fraction bits. -/
def toFix (m : Nat) (e : Int) : Nat := if 0 ≤ e + 256 then m * 2 ^ (e + 256).toNat else m / 2 ^ (-(e + 256)).toNat

/-- 1 / (m × 2^e). -/
def rcpVal (neg : Bool) (m : Nat) (e : Int) : Val :=
  sticky neg (one / m) (-256 - e) (decide (one % m ≠ 0))

/-- √(m × 2^e). -/
def sqrtVal (m : Nat) (e : Int) : Val :=
  let odd := e % 2 = 1
  let n := m * 2 ^ (if odd then 257 else 256)
  let r := isqrt n
  sticky false r ((e - (if odd then 1 else 0)) / 2 - 128) (decide (r * r ≠ n))

/-- 1 / √(m × 2^e). -/
def rsqrtVal (m : Nat) (e : Int) : Val :=
  let odd := e % 2 = 1
  let j := if odd then 2 * m else m
  let n := 2 ^ 512 / j
  let r := isqrt n
  sticky false r (-((e - (if odd then 1 else 0)) / 2) - 256) (decide (r * r ≠ n ∨ 2 ^ 512 % j ≠ 0))

/-- sin(π u) for 0 < u < 1/2, u = m × 2^e: u × π × Σ. -/
def sinPiVal (neg : Bool) (m : Nat) (e : Int) : Val :=
  let y := toFix m e * piFix / one
  let p := piFix * (sinSum (y * y / one) one 0 60).toNat / one
  sticky neg (m * p) (e - 256) true

/-- sin(π r) or, with `cos`, cos(π r) of a finite value. -/
def sinCosPi (cos : Bool) (neg : Bool) (m : Nat) (e : Int) : Val :=
  if 1 ≤ e then
    -- an even integer
    if cos then .fin false 1 0 else .fin neg 0 0
  else
    -- |x| = m / 2^k, in units of 2^−k; one turn is 2
    let k := (-e).toNat
    let unit := 2 ^ k
    let r := m % (2 * unit)
    if cos then
      let r := min r (2 * unit - r)
      -- distance from 1/2 in units of 2^−(k+1)
      let d := if 2 * r ≤ unit then unit - 2 * r else 2 * r - unit
      let n := decide (unit < 2 * r)
      if d = 0 then .fin false 0 0
      else if d = unit then .fin n 1 0
      else sinPiVal n d (e - 1)
    else
      let n := neg != decide (unit ≤ r)
      let u := min (r % unit) (unit - r % unit)
      if u = 0 then .fin neg 0 0
      else if 2 * u = unit then .fin n 1 0
      else sinPiVal n u e

/-- 2^x of a finite value. -/
def exp2Val (neg : Bool) (m : Nat) (e : Int) : Val :=
  if m = 0 then .fin false 1 0
  else if 8 ≤ e + m.log2 then
    -- |x| ≥ 256: beyond every f32, or a tiny value
    if neg then .fin false 3 (-400) else .fin false 3 400
  else
    let x : Int := if neg then -(toFix m e : Int) else toFix m e
    let n := x / one
    let f := (x % one).toNat
    if f = 0 then .fin false 1 n
    else
      let y := f * ln2 / one
      sticky false (one + y * expm1Over y / one) (n - 256) true

/-- log₂ of a positive value. -/
def log2Val (m : Nat) (e : Int) : Val :=
  let k := e + m.log2
  let t := m * 2 ^ (256 - m.log2)
  if t = one then .fin (decide (k < 0)) k.natAbs 0
  else
    let ln := twoAtanh ((t - one) * one / (t + one))
    let x := k * one + ((ln * one / ln2 : Nat) : Int)
    sticky (decide (x < 0)) x.natAbs (-256) true

/-- tanh of a finite non-zero value. -/
def tanhVal (neg : Bool) (m : Nat) (e : Int) : Val :=
  if 5 ≤ e + m.log2 then .fin neg (ones 130) (-130)
  else
    let y := 2 * toFix m e
    let p := expm1Over y
    sticky neg (2 * m * p * one / (y * p / one + 2 * one)) (e - 256) true

/-- R40: the exact value of a function at an input. A NaN input answers itself: rounding sets NV only for a
signalling one. -/
def trnVal (op : TrnOp) (x : Val) : TrnVal :=
  match x with
  | .nan s => trnOk (.nan s)
  | .inf n =>
    match op with
    | .rcp => trnOk (.fin n 0 0)
    | .rsqrt => if n then trnNaN else trnOk (.fin false 0 0)
    | .sqrt => if n then trnNaN else trnOk x
    | .exp2 => trnOk (if n then .fin false 0 0 else x)
    | .log2 => if n then trnNaN else trnOk x
    | .sinpi | .cospi => trnNaN
    | .tanh => trnOk (.fin n 1 0)
  | .fin n 0 e =>
    match op with
    | .rcp | .rsqrt => { v := .inf n, flags := flagDZ }
    | .sqrt | .tanh | .sinpi => trnOk (.fin n 0 e)
    | .exp2 | .cospi => trnOk (.fin false 1 0)
    | .log2 => { v := .inf true, flags := flagDZ }
  | .fin n m e =>
    match op with
    | .rcp => trnOk (rcpVal n m e)
    | .rsqrt => if n then trnNaN else trnOk (rsqrtVal m e)
    | .sqrt => if n then trnNaN else trnOk (sqrtVal m e)
    | .exp2 => trnOk (exp2Val n m e)
    | .log2 => if n then trnNaN else trnOk (log2Val m e)
    | .sinpi => trnOk (sinCosPi false n m e)
    | .cospi => trnOk (sinCosPi true n m e)
    | .tanh => trnOk (tanhVal n m e)

end Sys2Proof.Machine
end

