-- ==== Sys2Proof/Machine/Lanes.lean ====
section
/-! DEFINITION. What one lane computes (R117 to R143), once for threaded words, strip bodies and fabric stages, and
the word that applies it to every active lane of a group. -/

namespace Sys2Proof.Machine

/-! ## Elements -/

/-- R118: the element width of a type. -/
def elemBits : Ty → Nat
  | .i32 | .n32 | .f32 | .e8m10 => 32
  | .i64 | .n64 | .f64 => 64
  | .i16x2 | .n16x2 | .bf16x2 | .f16x2 => 16
  | .i8x4 | .n8x4 => 8

/-- R118: the elements of a lane. -/
def elemCount : Ty → Nat
  | .i16x2 | .n16x2 | .bf16x2 | .f16x2 => 2
  | .i8x4 | .n8x4 => 4
  | _ => 1

/-- R133: the format of the elements of a floating type. -/
def tyFmt : Ty → Fmt
  | .e8m10 => .e8m10
  | .bf16x2 => .bf16
  | .f16x2 => .f16
  | .f64 => .f64
  | _ => .f32

/-- Element `j` of a lane of `w`-bit elements, as a pattern. -/
def elemOf (x : Dword) (w j : Nat) : Nat := x.toNat / 2 ^ (w * j) % 2 ^ w

/-- R120: an element as an exact integer. -/
def elemInt (ty : Ty) (pat : Nat) : Int := if ty.signed then sextNat pat (elemBits ty) else (pat : Nat)

/-- A lane put together from its elements. -/
def joinElems (w : Nat) : List Nat → Dword
  | [] => 0
  | e :: es => BitVec.ofNat 64 (e % 2 ^ w) ||| (joinElems w es <<< w)

/-- R120: the exact result of integer operation `op`; `w` the width. -/
def intExact (op : Nat) (w : Nat) (a b c : Int) : Int :=
  let p (x : Int) : Nat := patternOf x w
  match op with
  | 0 => a + b
  | 1 => a - b
  | 2 => a * b
  | 3 => a * b / (2 ^ w : Nat)
  | 4 => a * b + c
  | 5 => (p a &&& p b : Nat)
  | 6 => (p a ||| p b : Nat)
  | 7 => (p a ^^^ p b : Nat)
  | 8 => if w ≤ p b then 0 else (p a * 2 ^ p b : Nat)
  | 9 => if w ≤ p b then 0 else (p a / 2 ^ p b : Nat)
  | 10 => sextNat (p a) w / (2 ^ min (p b) (w - 1) : Nat)
  | 11 => min a b
  | 12 => max a b
  | 13 => a.natAbs
  | 14 => a
  | _ => -a

/-- R121: an exact integer as the pattern of a result. -/
def intResult (signed : Bool) (w : Nat) (sat : Bool) (x : Int) : Nat := intToInt { bits := w, signed } x sat

/-- R123: the value of an immediate. -/
def immValue (ty : Ty) (imm : BitVec 25) : Int := if ty.signed then imm.toInt else (imm.toNat : Int)

/-- R121, R123: one lane of an integer operation. `imm` takes b's place, and a's in `mov`. -/
def intLane (op : Nat) (ty : Ty) (sat : Bool) (imm : Option (BitVec 25)) (a b c : Dword) : Dword :=
  let w := elemBits ty
  let opnd (x : Dword) (j : Nat) : Int := elemInt ty (elemOf x w j)
  joinElems w ((List.range (elemCount ty)).map (fun j =>
    let bj := match imm with
      | some i => immValue ty i
      | none => opnd b j
    let aj := if op = 14 ∧ imm.isSome then bj else opnd a j
    intResult ty.signed w sat (intExact op w aj bj (opnd c j))))

/-- R128: one element of a bit operation. -/
def bitElem (op : Nat) (signed : Bool) (w a c pos len : Nat) : Nat :=
  let bit (x k : Nat) : Nat := x / 2 ^ k % 2
  match op with
  | 0 => ((List.range w).map (bit a)).sum
  | 1 => if a = 0 then w else w - 1 - a.log2
  | 2 => ((List.range w).map (fun k => bit a k * 2 ^ (w - 1 - k))).sum
  | 3 =>
    let f := ((List.range len).map (fun k =>
      (if pos + k < w then bit a (pos + k) else if signed then bit a (w - 1) else 0) * 2 ^ k)).sum
    if len = 0 then 0
    else if w ≤ len then f % 2 ^ w
    else if signed then patternOf (sextNat f len) w else f % 2 ^ w
  | _ =>
    ((List.range w).map (fun k =>
      (if pos ≤ k ∧ k < pos + len then bit a (k - pos) else bit c k) * 2 ^ k)).sum

/-- R128: one lane of a bit operation. -/
def bitLane (op : Nat) (ty : Ty) (a b c : Dword) : Dword :=
  let w := elemBits ty
  joinElems w ((List.range (elemCount ty)).map (fun j =>
    bitElem op ty.signed w (elemOf a w j) (elemOf c w j) (field b 7 0) (field b 15 8)))

/-! ## Lane results -/

/-- What a lane delivers: its value, its flags, its generator afterwards. -/
structure LaneOut where
  v : Dword
  flags : Flags
  g : Word
  deriving DecidableEq, Repr

/-- R134: an exact result rounded once; `nv`: an operand signals. -/
def floatArith (fmt : Fmt) (rnd : Rnd) (sat : Bool) (nv : Bool) (draw : Word) (x : Exact) : Rounded :=
  let r := roundTo fmt x.v rnd sat draw
  { r with flags := r.flags ||| flagIf nv flagNV ||| flagIf x.invalid flagNV }

/-- R134: a value delivered as it is, a NaN as the canonical one. -/
def floatKeep (fmt : Fmt) (nv : Bool) (x : Val) : Rounded := { bits := (rneTo fmt x false).bits, flags := flagIf nv flagNV }

/-- R134: the exact a × b + c; 0 × ∞ is invalid whatever c holds. -/
def floatFused (p : Exact) (c : Val) (down : Bool) : Exact := if p.invalid then p else addVal p.v c down

/-- R134: the smaller (`min`) or larger of two operands, −0 less than +0; the other operand of a NaN. -/
def floatPick (min : Bool) (a b : Val) : Val :=
  let less := match cmpVal a b with
    | some .lt => true
    | some .eq => a.sign && !b.sign
    | _ => false
  if a.isNaN then b else if b.isNaN then a else if less == min then a else b

/-- R134: one element of floating operation `op`. `draw`: the generator after this element's advance. -/
def floatElem (op : Nat) (fmt : Fmt) (rnd : Rnd) (sat : Bool) (a b c : Val) (draw : Word) : Rounded :=
  let down := rnd == .rm
  match op with
  | 0 => floatArith fmt rnd sat (a.signals || b.signals) draw (addVal a b down)
  | 1 => floatArith fmt rnd sat (a.signals || b.signals) draw (addVal a b.neg down)
  | 2 => floatArith fmt rnd sat (a.signals || b.signals) draw (mulVal a b)
  | 3 => floatArith fmt rnd sat (a.signals || b.signals || c.signals) draw (floatFused (mulVal a b) c down)
  | 4 => floatArith fmt rnd sat (a.signals || b.signals || c.signals) draw (floatFused (mulVal a.neg b) c down)
  | 7 => floatKeep fmt a.signals a.abs
  | 8 => floatKeep fmt a.signals a.neg
  | 5 => floatKeep fmt (a.signals || b.signals) (floatPick true a b)
  | _ => floatKeep fmt (a.signals || b.signals) (floatPick false a b)

/-- R31, R118: the elements of a lane one after the other, the generator advancing under `.rs`. -/
def eachElem (rnd : Rnd) (w : Nat) (f : Nat → Word → Rounded) (n : Nat) (g : Word) : LaneOut :=
  let step (acc : List Nat × Flags × Word) (j : Nat) : List Nat × Flags × Word :=
    let g := rngNext rnd acc.2.2
    let r := f j g
    (acc.1 ++ [r.bits], acc.2.1 ||| r.flags, g)
  let r := (List.range n).foldl step ([], 0, g)
  { v := joinElems w r.1, flags := r.2.1, g := r.2.2 }

/-- R133, R134: one lane of a floating operation. -/
def floatLane (op : Nat) (ty : Ty) (rnd : Rnd) (sat : Bool) (a b c : Dword) (g : Word) : LaneOut :=
  let fmt := tyFmt ty
  let w := elemBits ty
  let el (x : Dword) (j : Nat) : Val := valOf fmt (elemOf x w j)
  eachElem rnd w (fun j draw => floatElem op fmt rnd sat (el a j) (el b j) (el c j) draw) (elemCount ty) g

/-- R40, R135: one lane of a transcendental function. -/
def trnLane (op : TrnOp) (ty : Ty) (rnd : Rnd) (a : Dword) (g : Word) : LaneOut :=
  let fmt := tyFmt ty
  let w := elemBits ty
  eachElem rnd w (fun j draw =>
    let x := trnVal op (valOf fmt (elemOf a w j))
    let r := roundTo fmt x.v rnd false draw
    { r with flags := r.flags ||| x.flags }) (elemCount ty) g

/-- R129: a condition on how two operands compare; none is unordered. -/
def condHolds (cond : Cond) (o : Option Ordering) : Bool :=
  match cond with
  | .eq => o == some .eq
  | .ne => o != some .eq
  | .lt => o == some .lt
  | .le => o == some .lt || o == some .eq
  | .gt => o == some .gt
  | .ge => o == some .gt || o == some .eq
  | .un => o.isNone
  | .or => o.isSome

/-- R129: the condition of a lane, 0 or 1, with NV for a signalling NaN. -/
def cmpLane (cond : Cond) (ty : Ty) (a b : Dword) (g : Word) : LaneOut :=
  let w := elemBits ty
  let els := List.range (elemCount ty)
  if ty.integer then
    let ok := els.all (fun j => condHolds cond (some (compare (elemInt ty (elemOf a w j)) (elemInt ty (elemOf b w j)))))
    { v := if ok then 1 else 0, flags := 0, g }
  else
    let el (x : Dword) (j : Nat) : Val := valOf (tyFmt ty) (elemOf x w j)
    let ok := els.all (fun j => condHolds cond (cmpVal (el a j) (el b j)))
    { v := if ok then 1 else 0,
      flags := flagIf (els.any (fun j => (el a j).signals || (el b j).signals)) flagNV, g }

/-! ## Conversions (R136 to R139, R143) -/

/-- The integer a format's pattern denotes, for an integer format. -/
def fmtInt (fmt : Fmt) (bits : Nat) : Option Int :=
  match kindOf fmt with
  | .int f => some (if f.signed then sextNat bits f.bits else ((bits % 2 ^ f.bits : Nat) : Int))
  | _ => none

/-- R35: a scalar pattern converted to a scalar format; integers among themselves wrap or clamp. -/
def convert (dst src : Fmt) (rnd : Rnd) (sat : Bool) (bits : Nat) (draw : Word) : Rounded :=
  match fmtInt src bits, kindOf dst with
  | some x, .int f => { bits := intToInt f x sat, flags := 0 }
  | _, _ => if dst = .e8m0 ∧ src = .e8m0 then { bits := bits % 256, flags := 0 } else roundTo dst (valOf src bits) rnd sat draw

/-- R138: a result as the destination register holds it. -/
def widen (dst : Fmt) (bits : Nat) : Dword :=
  match kindOf dst with
  | .int f => if f.signed then (BitVec.ofInt 32 (sextNat bits f.bits)).setWidth 64 else BitVec.ofNat 64 bits
  | _ => BitVec.ofNat 64 bits

/-- R137: the bits an element's slot has. -/
def slotBits (fmt : Fmt) : Nat := 32 / fmt.perWord

/-- R137: element `j` of a register. -/
def packedElem (fmt : Fmt) (x : Dword) (j : Nat) : Nat := elemOf x (slotBits fmt) j % 2 ^ fmtWidth fmt

/-- R139: the element bits `pack` writes. -/
def packElem (dst src : Fmt) (rnd : Rnd) (sat : Bool) (bits h : Nat) (draw : Word) : Rounded :=
  if dst.mx then mxOne dst h (valOf src bits) rnd draw
  else if dst.dx then dxOne dst h (valOf src bits)
  else convert dst src rnd sat bits draw

/-- R138, R139: one lane of a conversion; `kind` 0 `cvt`, 1 `pack`, 2 `unpack`. -/
def cvtLane (kind : Nat) (dst src : Fmt) (rnd : Rnd) (sat : Bool) (j : Nat) (a b old : Dword) (g : Word) : LaneOut :=
  let g := rngNext rnd g
  match kind with
  | 0 =>
    let r := convert dst src rnd sat (a.toNat % 2 ^ fmtWidth src) g
    { v := widen dst r.bits, flags := r.flags, g }
  | 1 =>
    let r := packElem dst src rnd sat (a.toNat % 2 ^ 32) (b.toNat % 2 ^ 16) g
    let n := slotBits dst
    let v := joinElems n ((List.range dst.perWord).map (fun i => if i = j then r.bits else elemOf old n i))
    { v, flags := r.flags, g }
  | _ =>
    let e := packedElem src a j
    let r := if src.plain then convert dst src rnd sat e g else roundTo dst (elemVal src (b.toNat % 2 ^ 16) e) rnd sat g
    { v := BitVec.ofNat 64 r.bits, flags := r.flags, g }

/-- R141, R143: one lane of a block decode. -/
def decLane (fmt : Fmt) (rnd : Rnd) (sat : Bool) (a : Dword) (g : Word) : LaneOut :=
  let g := rngNext rnd g
  let e := a.toNat % 2 ^ fmtWidth fmt
  let h := if fmt.dx then field a 31 16 else field a 23 16
  let r := roundTo .f32 (elemVal fmt h e) rnd sat g
  { v := BitVec.ofNat 64 r.bits, flags := r.flags, g }

/-! ## Lane operations -/

/-- An operation one lane does by itself. -/
inductive LaneOp where
  | int (op : Nat) (ty : Ty) (sat : Bool) (imm : Option (BitVec 25))
  | bit (op : Nat) (ty : Ty)
  | cmp (cond : Cond) (ty : Ty)
  | sel (ty : Ty)
  /-- R132: 0 `pand`, 1 `por`, 2 `pxor`, 3 `pnot`, on bit 0 of the operands. -/
  | pred (op : Nat)
  | flt (op : Nat) (ty : Ty) (rnd : Rnd) (sat : Bool)
  | trn (op : TrnOp) (ty : Ty) (rnd : Rnd)
  | cvt (kind : Nat) (dst src : Fmt) (rnd : Rnd) (sat : Bool) (j : Nat)
  | dec (fmt : Fmt) (rnd : Rnd) (sat : Bool)
  deriving DecidableEq, Repr

/-- A lane's operands: A, B, C, the old value of D, the generator. -/
structure LaneIn where
  a : Dword
  b : Dword
  c : Dword
  old : Dword
  g : Word
  deriving DecidableEq, Repr

/-- R131: predicate logic on bit 0. -/
def predBit (op : Nat) (a b : Bool) : Bool :=
  match op with
  | 0 => a && b
  | 1 => a || b
  | 2 => a != b
  | _ => !a

/-- What a lane computes. -/
def LaneOp.eval (o : LaneOp) (x : LaneIn) : LaneOut :=
  match o with
  | .int op ty sat imm => { v := intLane op ty sat imm x.a x.b x.c, flags := 0, g := x.g }
  | .bit op ty => { v := bitLane op ty x.a x.b x.c, flags := 0, g := x.g }
  | .cmp cond ty => cmpLane cond ty x.a x.b x.g
  | .sel _ => { v := if x.c = 0 then x.b else x.a, flags := 0, g := x.g }
  | .pred op => { v := if predBit op (bitAt x.a 0) (bitAt x.b 0) then 1 else 0, flags := 0, g := x.g }
  | .flt op ty rnd sat => floatLane op ty rnd sat x.a x.b x.c x.g
  | .trn op ty rnd => trnLane op ty rnd x.a x.g
  | .cvt kind dst src rnd sat j => cvtLane kind dst src rnd sat j x.a x.b x.old x.g
  | .dec fmt rnd sat => decLane fmt rnd sat x.a x.g

/-- The operands, or the result, are 64 bits per lane. -/
def LaneOp.wideIn : LaneOp → Bool
  | .int _ ty _ _ | .bit _ ty | .cmp _ ty | .sel ty | .flt _ ty _ _ => ty.wide
  | .cvt _ _ src _ _ _ => src == .f64
  | _ => false

def LaneOp.wideOut : LaneOp → Bool
  | .int _ ty _ _ | .bit _ ty | .sel ty | .flt _ ty _ _ => ty.wide
  | .cvt _ dst _ _ _ _ => dst == .f64
  | _ => false

/-- R54: the distance at which the result is visible. -/
def LaneOp.lat : LaneOp → Nat
  | .int op .. => if op == 2 || op == 3 || op == 4 then 3 else 2
  | .bit op _ => if op ≤ 2 then 3 else 2
  | .cmp _ ty => if ty.integer then 2 else if ty = .f64 then 8 else 4
  | .sel _ => 2
  | .pred _ => 2
  | .flt _ ty _ _ => if ty = .f64 then 8 else 4
  | .trn .. => 12
  | .cvt .. => 4
  | .dec .. => 4

/-- R126: the operation can set flags. -/
def LaneOp.flagging : LaneOp → Bool
  | .cmp _ ty => !ty.integer
  | .flt .. | .trn .. => true
  | .cvt _ dst src _ _ _ => (fmtInt dst 0).isNone || (fmtInt src 0).isNone
  | .dec fmt _ _ => fmt.mx
  | _ => false

/-- R31: the operation advances the generator. -/
def LaneOp.draws : LaneOp → Bool
  | .flt _ _ rnd _ | .trn _ _ rnd | .cvt _ _ _ rnd _ _ | .dec _ rnd _ => rnd == .rs
  | _ => false

/-- R385: the flops an active lane counts: 2 per element of `fma` or `fnma`, 1 of any other FALU or TRN word. -/
def LaneOp.flops : LaneOp → Nat
  | .flt op ty _ _ => elemCount ty * (if op == 3 || op == 4 then 2 else 1)
  | .trn _ ty _ => elemCount ty
  | _ => 0

/-! ## Words -/

/-- R391: the lanes whose generators the issuer has: the group's members. -/
def rngLanes (q : Issuer) : Word := if q.g.vec.isSome then BitVec.allOnes 32 else q.g.mask

/-- R127: the generator of a lane, as every earlier instruction left it; 0 for a handler's lane without a member. -/
def rngOf (s : State) (q : Issuer) (l : Nat) : Word :=
  match look s.sets q.g.set with
  | some a => if (rngLanes q).getLsbD l then getZ a.rng l else 0
  | none => 0

/-- R127: sets the generators of the lanes in `m`. -/
def setRng (s : State) (q : Issuer) (m : Word) (f : Nat → Word) : State :=
  { s with
    sets := upd s.sets q.g.set (fun a =>
      { a with rng := (laneList (m &&& rngLanes q)).foldl (fun t l => putZ t l (f l)) a.rng }) }

/-- The lanes of a word that are enabled, each with what it computed; the others with zero. -/
def laneOuts (m : Word) (f : Nat → LaneOut) : List LaneOut :=
  (List.range 32).map (fun l => if m.getLsbD l then f l else { v := 0, flags := 0, g := 0 })

/-- Holds what the lanes of a word deliver: the vector result, its flags, the generators. -/
def holdLanes (s : State) (q : Issuer) (f : Fixed) (d : Reg) (wide : Bool) (lat : Nat) (flagging draws : Bool)
    (outs : List LaneOut) : State :=
  let m := active q f
  let s := holdV s q d wide m (outs.map (·.v)) lat
  let s := if flagging then holdFlags s q (flagsJoin (outs.map (·.flags))) lat else s
  if draws then setRng s q m (fun l => ((outs.map (·.g)).getD l 0)) else s

/-- R117, R119, R121: a lane word. A disabled lane keeps D, adds no flag and does not advance its generator. -/
def laneAct (o : LaneOp) (f : Fixed) (d a b c : Reg) (s : State) (q : Issuer) : State :=
  let outs := laneOuts (active q f) (fun l =>
    o.eval
      { a := laneVal s q o.wideIn a l, b := laneVal s q o.wideIn b l, c := laneVal s q o.wideIn c l,
        old := laneVal s q o.wideOut d l, g := rngOf s q l })
  let s := holdLanes s q f d o.wideOut o.lat o.flagging o.draws outs
  let s := if o.flops = 0 then s else addMeter s q.part 8 (o.flops * (laneList (active q f)).length)
  finish s q f

end Sys2Proof.Machine
end

