-- ==== Sys2Proof/Machine/Access.lean ====
section
/-! DEFINITION. Accesses of a group to memory (R144 to R150, R282 to R289): the addresses of a word, the traps of
R145, the store queue, and the performance of loads and atomics in program order. -/

namespace Sys2Proof.Machine

/-! ## Addresses (R144, R94) -/

/-- One access of a word: its lane, 32 for the group as a whole, and its address. -/
structure LaneAddr where
  lane : Nat
  addr : Nat
  deriving DecidableEq, Repr

/-- R146, R391: the lanes a memory word acts in: its active lanes that have a member (R144). -/
def memLanes (q : Issuer) (f : Fixed) : List Nat := laneList (active q f &&& rngLanes q)

/-- R94: the offset, unsigned in an absolute form. -/
def offsetOf (base : Reg) (off : BitVec 21) : Int := if base.absent then (off.toNat : Int) else off.toInt

/-- R94, R144: a base and an offset, as a 64-bit address. -/
def addrOf (base : Dword) (off : Int) : Nat := (((base.toNat : Int) + off) % 2 ^ 64).toNat

/-- R144: the accesses of a word. `lane`: per-lane base; `step`: bytes from one lane to the next. `wide`: a per-lane
base is a pair. -/
def laneAddrs (s : State) (q : Issuer) (f : Fixed) (data base : Reg) (lane wide : Bool) (off : BitVec 21) (step : Nat) :
    List LaneAddr :=
  let o := offsetOf base off
  if data.scalar || data.absent then [{ lane := 32, addr := addrOf (scalarVal q base) o }]
  else (memLanes q f).map (fun l =>
    { lane := l,
      addr := if lane then addrOf (laneVal s q wide base l) o
        else addrOf (scalarVal q base) (o + (step * l : Nat)) })

/-! ## Traps of R145 -/

/-- A trap a word meets before or after issue: its cause, the address for h3, whether it is a write. -/
structure MemTrap where
  cause : Nat
  addr : Nat
  write : Bool
  deriving DecidableEq, Repr

/-- The constant window of a block's launch: its base and its bytes. -/
def constWindow (s : State) (b : Block) : Nat × Nat :=
  match look s.launches b.launch with
  | some l => (l.const.toNat, l.csize)
  | none => (0, 0)

/-- R113, R145: the first trap that is precise before issue, with the lowest lane's address, for a window of `size`
bytes. -/
def badAddrIn (size : Nat) (s : State) (b : Block) (sp : Space) (n : Nat) (write : Bool) (as : List LaneAddr) : Option MemTrap :=
  let first (cause : Nat) (bad : Nat → Bool) : Option MemTrap :=
    (as.find? (fun a => bad a.addr)).map (fun a => { cause, addr := a.addr, write })
  (first causeAlign (fun a => a % n != 0)).or
    (match sp with
      | .l => first causeLocal (fun a => decide (size < a + n))
      | .k => first causeConst (fun a => decide ((constWindow s b).2 < a + n))
      | .g => first causeAddress (fun a => !canonical a))

/-- R113, R145: the same for a word of the block. -/
def badAddr (s : State) (b : Block) (sp : Space) (n : Nat) (write : Bool) (as : List LaneAddr) : Option MemTrap :=
  badAddrIn (blockLocal s b) s b sp n write as

/-- R175: the quad at a local address is typed. -/
def typedHit (b : Block) (addr n : Nat) : Bool :=
  b.strict && b.typed.any (fun t => decide (t < addr + n) && decide (addr < t + 16))

/-- R175: a core store to a typed quad. -/
def typedTrap (b : Block) (sp : Space) (n : Nat) (as : List LaneAddr) : Option MemTrap :=
  if sp = .l then
    (as.find? (fun a => typedHit b a.addr n)).map (fun a => { cause := causeBarrierStore, addr := a.addr, write := true })
  else none

/-- The state after translating the accesses of a word, their keys, or the first that is refused. -/
structure Keys where
  s : State
  keys : List (Nat × Nat)
  bad : Option MemTrap
  deriving DecidableEq, Repr

/-- R342, R371: the key of one access. -/
def accessKey (s : State) (blk : Nat) (b : Block) (sp : Space) (need : Need) (addr : Nat) : XOut :=
  match sp with
  | .l => { s, res := .ok (localKey blk addr) }
  | .k => xlate s b.part (((constWindow s b).1 + addr) % 2 ^ 64) needR
  | .g => xlate s b.part addr need

/-- R145: translates the accesses in ascending lane order. `ok`: R154, what a host address must satisfy. -/
def accessKeys (s : State) (blk : Nat) (b : Block) (sp : Space) (need : Need) (hostOk : Bool) : List LaneAddr → Keys
  | [] => { s, keys := [], bad := none }
  | a :: as =>
    let o := accessKey s blk b sp need a.addr
    match o.res with
    | .bad c => { s := o.s, keys := [], bad := some { cause := causeOf c, addr := a.addr, write := need.w } }
    | .ok k =>
      if isHost k && !hostOk then
        { s := o.s, keys := [], bad := some { cause := causeAtomic, addr := a.addr, write := need.w } }
      else
        let r := accessKeys o.s blk b sp need hostOk as
        { r with keys := (a.lane, k) :: r.keys }

/-- R342: the accesses of a load that cross a page of the constant window, which no rule aligns: where each goes on. -/
def farAccs (s : State) (b : Block) (sp : Space) (n : Nat) (as : List LaneAddr) : List LaneAddr :=
  as.filterMap (fun a =>
    let at_ := ((constWindow s b).1 + a.addr) % 4096
    if sp = .k ∧ 4096 < at_ + n then some { a with addr := a.addr + (4096 - at_) } else none)

/-- R145, R342: translates the accesses of a load, page by page, in ascending lane order: the keys, and by lane the key at which
an access goes on that crosses a page. -/
def loadKeys (s : State) (blk : Nat) (b : Block) (sp : Space) (n : Nat) (as : List LaneAddr) : Keys × List (Nat × Nat) :=
  let far := farAccs s b sp n as
  if far = [] then (accessKeys s blk b sp needR true as, [])
  else
    let k := accessKeys s blk b sp needR true (as.flatMap (fun a => a :: far.filter (fun x => x.lane == a.lane)))
    let own (t : MemTrap) : MemTrap :=
      { t with addr := ((as.find? (fun a => decide (a.addr ≤ t.addr) && decide (t.addr < a.addr + n))).map (·.addr)).getD t.addr }
    let of (l : Nat) : List (Nat × Nat) := k.keys.filter (fun x => x.1 == l)
    ({ k with keys := as.flatMap (fun a => (of a.lane).take 1), bad := k.bad.map own },
      as.flatMap (fun a => (of a.lane).drop 1))

/-! ## The store queue (R149, R150) -/

/-- The bytes of an entry over bytes read at a key. -/
def overlayOne (k : Nat) (bs : List Byte) (e : StoreEnt) : List Byte :=
  bs.zipIdx.map (fun x =>
    let a := k + x.2
    if e.key ≤ a ∧ a < e.key + e.bytes.length then e.bytes.getD (a - e.key) x.1 else x.1)

/-- R149, R150: bytes as a load of the group stamped `stamp` reads them: its own older queued stores, else memory. -/
def forwarded (s : State) (core gid stamp k n : Nat) : List Byte :=
  (coreOf s core).storeQ.foldl (fun bs e => if e.owners.contains gid && decide (e.seq < stamp) then overlayOne k bs e else bs)
    (readBytes s k n)

/-- R411: a poisoned burst is read. -/
def poisonedAt (s : State) (k n : Nat) : Bool := s.hours.poison.any (fun p => decide (p < k + n) && decide (k < p + 32))

/-- Entry `i` of a queue is performed. R377: one to a host that has been cut off since is lost (log 32). -/
def performStore (s : State) (core i : Nat) : State :=
  let c := coreOf s core
  match c.storeQ[i]? with
  | none => s
  | some e =>
    let s := setCore s core { c with storeQ := c.storeQ.eraseIdx i }
    match look s.blocks e.block with
    | some b => if hostCut s b.part e.key then s else meterHost (writeBytes s e.key e.bytes) b.part e.key e.bytes.length
    | none => writeBytes s e.key e.bytes

/-- An entry stores to some of `n` bytes at key `k`. -/
def StoreEnt.meets (e : StoreEnt) (k n : Nat) : Bool := decide (e.key < k + n) && decide (k < e.key + e.bytes.length)

/-- R150, R241, R283: the older entry `x` is performed before the younger `e`: they share a group, and `x` is no sink
write that a plain store to other bytes may pass. -/
def StoreEnt.before (x e : StoreEnt) : Bool :=
  x.owners.any (fun o => e.owners.contains o) && (!x.sink || e.sink || x.meets e.key e.bytes.length)

/-- R241, R283: among a group's queued stores, oldest first, stands a sink write to bytes of a younger plain store, or to
bytes of `rs`. -/
def sinkDue (rs : List (Nat × Nat)) : List StoreEnt → Bool
  | [] => false
  | e :: es =>
    e.sink && (rs.any (fun r => e.meets r.1 r.2) || es.any (fun x => !x.sink && e.meets x.key x.bytes.length)) || sinkDue rs es

/-- Performs the group's queued stores older than `stamp`, in order. R241: sink writes stay, but for those that must go
before a plain store, or before an access to `rs`. -/
def drainOwn (s : State) (core gid stamp : Nat) (rs : List (Nat × Nat)) : Nat → State
  | 0 => s
  | f + 1 =>
    let mine (e : StoreEnt) : Bool := e.owners.contains gid && decide (e.seq < stamp)
    let due := sinkDue rs ((coreOf s core).storeQ.filter mine)
    match (coreOf s core).storeQ.findIdx? (fun e => mine e && (due || !e.sink)) with
    | none => s
    | some i => drainOwn (performStore s core i) core gid stamp rs f

/-- The stores of a core, as fuel for draining. -/
def queueLen (s : State) (core : Nat) : Nat := (coreOf s core).storeQ.length

/-- R150: queues stores of the issuer, one entry each. -/
def pushStores (s : State) (q : Issuer) (sink : Bool) (es : List (Nat × List Byte)) : State :=
  let c := coreOf s q.g.core
  let new := es.zipIdx.map (fun x =>
    ({ block := q.g.block, owners := [q.gid], key := x.1.1, bytes := x.1.2, sink, seq := s.fresh + x.2, stale := false } : StoreEnt))
  { setCore s q.g.core { c with storeQ := c.storeQ ++ new } with fresh := s.fresh + es.length }

/-! ## Performing loads and atomics -/

/-- R149: a loaded value, extended. -/
def extendTo64 (signed : Bool) (n x : Nat) : Dword :=
  if signed && decide (n < 8) then (BitVec.ofInt 64 (sextNat x (8 * n))) else BitVec.ofNat 64 x

/-- R152: what an atomic leaves; none where it writes nothing. -/
def atomNew (op : AtomOp) (uns : Bool) (n old x next : Nat) : Option Nat :=
  let m := 2 ^ (8 * n)
  let less (a b : Nat) : Bool := if uns then decide (a < b) else decide (sextNat a (8 * n) < sextNat b (8 * n))
  match op with
  | .add => some ((old + x) % m)
  | .min => some (if less x old then x else old)
  | .max => some (if less old x then x else old)
  | .and => some (old &&& x)
  | .or => some (old ||| x)
  | .xor => some (old ^^^ x)
  | .xchg => some x
  | .st => some x
  | .cas => if old = x then some next else none
  | .ld => none

/-- R377, R421: what a lane's access of `n` bytes reads that has issued and cannot be made any more: a free value, drawn from
`free` on (log 32). -/
def lostValue (free n l : Nat) : Nat :=
  ((Config.freeDword (free + 2 * l)).toNat + 2 ^ 64 * (Config.freeDword (free + 2 * l + 1)).toNat) % 2 ^ (8 * n)

/-- R342: an access of a load in the pieces its pages hold: (key, bytes). -/
def accParts (n : Nat) (far : List (Nat × Nat)) (a : Nat × Nat) : List (Nat × Nat) :=
  match far.find? (fun x => x.1 == a.1) with
  | some x => [(a.2, 4096 - a.2 % 4096), (x.2, n - (4096 - a.2 % 4096))]
  | none => [(a.2, n)]

/-- R149: a load's accesses to `accs`, in order; the values by lane. R413: one that meets poison kills the block. R377: one of
a host that has been cut off since reads nothing of it (log 32). -/
def loadLanes (s : State) (core gid blk part stamp n : Nat) (far accs : List (Nat × Nat)) : State × List (Nat × Nat) :=
  let lost (a : Nat × Nat) : Bool := (accParts n far a).any (fun p => hostCut s part p.1)
  let cut := accs.any lost
  let vals := accs.map (fun a => (a.1,
    if lost a then lostValue s.free n a.1
    else leNat ((accParts n far a).flatMap (fun p => forwarded s core gid stamp p.1 p.2))))
  let parts := accs.flatMap (accParts n far)
  let s := parts.foldl (fun s p => if hostCut s part p.1 then s else meterHost s part p.1 p.2) s
  let s := if cut then drawn s 66 else s
  (if parts.any (fun p => poisonedAt s p.1 p.2) then killBlock s blk 2 else s, vals)

/-- R152: performs the lanes of an atomic in order; the old values by lane. R377: one of a host that has been cut off since does
nothing there (log 32). -/
def atomLanes (op : AtomOp) (uns : Bool) (n part : Nat) (s : State) : List AtomLane → State × List (Nat × Nat)
  | [] => (s, [])
  | a :: as =>
    let cut := hostCut s part a.key
    let old := if cut then lostValue s.free n a.lane else loadLE s a.key n
    let m := 2 ^ (8 * n)
    let s := if cut then drawn s 66 else match atomNew op uns n old (a.x.toNat % m) (a.next.toNat % m) with
      | some v => storeLE s a.key n v
      | none => s
    let (s, olds) := atomLanes op uns n part (if cut then s else meterHost s part a.key n) as
    (s, (a.lane, old) :: olds)

/-- The values of the destination registers from values by lane: `n` bytes each, scalars whole, lanes in words. One that `xwr`
has written since (R209) keeps its place, since another group may still wait for it (R181). -/
def spreadVals (dests : List Dest) (n : Nat) (ext : Nat → Nat) (vals : List (Nat × Nat)) : List (List Dword) :=
  let at_ (l : Nat) : Nat := ((vals.find? (fun v => v.1 == l)).map (·.2)).getD 0
  dests.zipIdx.map (fun d =>
    let byLane : Bool := match d.1 with
      | .v _ => true
      | .gone => !vals.any (fun v => v.1 == 32)
      | _ => false
    if byLane then (List.range 32).map (fun l => BitVec.ofNat 64 (ext (at_ l) / 2 ^ (32 * d.2) % 2 ^ 32))
    else if n = 16 then [BitVec.ofNat 64 (at_ 32 / 2 ^ (64 * d.2))] else [BitVec.ofNat 64 (ext (at_ 32))])

/-- The lanes with an access; all for a scalar. -/
def accMask (ls : List Nat) : Word := if ls.contains 32 then BitVec.allOnes 32 else ofLanes (fun l => ls.contains l)

/-- What a pending result delivers: its lanes and a list of values for each destination. -/
structure Arrived where
  s : State
  mask : Word
  vals : List (List Dword)
  deriving DecidableEq, Repr

/-- R152: an atomic's accesses to `accs`, in order, after the group's own older stores (log 13); the old values by lane.
R413: one that meets poison kills the block. -/
def atomAccs (op : AtomOp) (uns : Bool) (s : State) (core gid blk part stamp n : Nat) (accs : List AtomLane) :
    State × List (Nat × Nat) :=
  let s := drainOwn s core gid stamp (accs.map (fun a => (a.key, n))) (queueLen s core)
  let bad := accs.any (fun a => poisonedAt s a.key n)
  let x := atomLanes op uns n part s accs
  (if bad then killBlock x.1 blk 2 else x.1, x.2)

/-- R149, R151: what a load or atomic delivers, by the values of its lanes. DESIGN CHOICE (log 46): a
32-bit old value of an atomic is sign-extended in a scalar DATA. -/
def memArrived (s : State) (dests : List Dest) (n : Nat) (signed : Bool) (vals : List (Nat × Nat)) : Arrived :=
  { s, mask := accMask (vals.map (·.1)),
    vals := spreadVals dests n (if n = 16 then id else fun x => (extendTo64 signed n x).toNat) vals }

/-- R147: performs the first access of a load or atomic that has others to make after it: what is then still under way. -/
def performLane (s : State) (core gid blk part : Nat) (p : Pending) : Option (State × Work) :=
  match p.work with
  | .load n signed (a :: b :: as) got far =>
    let x := loadLanes s core gid blk part p.id n far [a]
    some (x.1, .load n signed (b :: as) (got ++ x.2) far)
  | .atom op n uns (a :: b :: as) got =>
    let x := atomAccs op uns s core gid blk part p.id n [a]
    some (x.1, .atom op n uns (b :: as) (got ++ x.2))
  | _ => none

/-- R55, R149, R152: performs what is left of a pending result of a group; none where it waits for another party. -/
def performWork (s : State) (core gid blk part : Nat) (p : Pending) : Option Arrived :=
  match p.work with
  | .load n signed accs got far =>
    let x := loadLanes s core gid blk part p.id n far accs
    some (memArrived x.1 p.dests n signed (got ++ x.2))
  | .atom op n uns accs got =>
    let x := atomAccs op uns s core gid blk part p.id n accs
    some (memArrived x.1 p.dests n true (got ++ x.2))
  | .value mask vals => some { s, mask, vals }
  | .am op x =>
    let cl := coreCluster core
    match look s.groups gid, look s.blocks blk with
    | some g, some b =>
      if amBlocked s cl gid p.id then none
      else
        let (s, vals, err) := applyAm s cl b.launch g.set op x
        let n := match op with
          | .read true false _ => 8
          | .read false false _ => 4
          | _ => 8
        some
          { s := setAmerr s (holdersOf s p.id) err, mask := accMask (vals.map (·.1)),
            vals := spreadVals p.dests n id (vals.map (fun v => (v.1, v.2.toNat))) }
    | _, _ => none
  | .offer _ => none
  | .claim => none

/-- The results of a performed pending entry, held until the next marker (R55): `p` is the context's own entry, and a
destination that `xwr` has written since takes nothing (R209). -/
def arrivedHeld (p : Pending) (a : Arrived) (m : Word) : List Held :=
  ((p.dests.zip a.vals).filter (fun d => d.1 != .gone)).map (fun d =>
    let mask := match d.1 with
      | .v _ | .ac _ => a.mask &&& m
      | _ => BitVec.allOnes 32
    { dest := d.1, mask, vals := d.2, vis := .marker, seq := p.seq })

/-- A context in which the pending entry has arrived. -/
def Ctx.arrive (c : Ctx) (p : Pending) (a : Arrived) (m : Word) : Ctx :=
  match c.pend.find? (fun x => x.id == p.id) with
  | some own =>
    { c with pend := c.pend.filter (fun x => x.id != p.id), held := (arrivedHeld own a m).foldl (fun hs h => insertHeld h hs) c.held }
  | none => c

/-- R329: what waited behind an AM request may be applied. -/
def afterAm (s : State) (core : Nat) (p : Pending) : State :=
  match p.work with
  | .am .. => settleBanks s (coreCluster core) (bankOpCount s (coreCluster core))
  | _ => s

/-- R181: delivers an arrival to every group, and every handler, that waits for it. -/
def deliver (p : Pending) (a : Arrived) : State :=
  let s := a.s
  { s with
    groups := s.groups.map (fun e =>
      (e.1, { e.2 with ctx := e.2.ctx.arrive p a (if e.2.vec.isSome then BitVec.allOnes 32 else e.2.mask) }))
    cores := s.cores.map (fun c => (c.1, { c.2 with shadow := { c.2.shadow with ctx := c.2.shadow.ctx.arrive p a (BitVec.allOnes 32) } })) }

/-- R147, R181: what a pending result still has to do, wherever it is awaited. -/
def setWork (s : State) (id : Nat) (w : Work) : State :=
  let on (c : Ctx) : Ctx := { c with pend := c.pend.map (fun p => if p.id = id then { p with work := w } else p) }
  { s with
    groups := s.groups.map (fun e => (e.1, { e.2 with ctx := on e.2.ctx }))
    cores := s.cores.map (fun c => (c.1, { c.2 with shadow := { c.2.shadow with ctx := on c.2.shadow.ctx } })) }

/-- The pending results of a group and of its handler, in program order. -/
def pendingOf (s : State) (g : Group) : List Pending := (if g.handler then g.ctx.pend else []) ++ (ctxOf s g).pend

/-- The result is a load's or an atomic's. -/
def Pending.memory (p : Pending) : Bool :=
  match p.work with
  | .load .. | .atom .. => true
  | _ => false

/-- Performs the first pending result of the context a group issues from, among those `which` names, that needs no other
party. -/
def performNext (s : State) (gid : Nat) (which : Pending → Bool) : Option State :=
  match look s.groups gid with
  | none => none
  | some g =>
    match look s.blocks g.block with
    | none => none
    | some b =>
      ((pendingOf s g).filter which).findSome? (fun p =>
        (performWork s g.core gid g.block b.part p).map (fun a => afterAm (deliver p a) g.core p))

/-- Performs every such result, in program order. -/
def performAll (s : State) (gid : Nat) (which : Pending → Bool) : Nat → State
  | 0 => s
  | f + 1 =>
    match performNext s gid which with
    | some s => performAll s gid which f
    | none => s

/-- The results of a group that are pending, as fuel for performing them. -/
def pendCount (s : State) (gid : Nat) : Nat :=
  match look s.groups gid with
  | none => 0
  | some g => (ctxOf s g).pend.length + g.ctx.pend.length

/-- R153, R282: the group's earlier loads and atomics are performed. -/
def performMem (s : State) (gid : Nat) : State := performAll s gid Pending.memory (pendCount s gid)

/-- R329: its AM requests too, in their order. -/
def performOwn (s : State) (gid : Nat) : State := performAll s gid (fun _ => true) (pendCount s gid)

/-- Every earlier access of the group is performed, and of a strip's sink writes (R241) those that `drainOwn` finds due. -/
def performOlder (s : State) (gid : Nat) (rs : List (Nat × Nat)) : State :=
  match look s.groups gid with
  | none => s
  | some g =>
    let s := performMem s gid
    drainOwn s g.core gid s.fresh rs (queueLen s g.core)

/-- R153, R161, R178, R212, R241: a release: every earlier access of the group but a strip's sink writes is performed. The
model performs them at the word that releases, one of the orders the manual allows (log 13). -/
def releaseNow (s : State) (gid : Nat) : State := performOlder s gid []

/-- R268, R298: every earlier access of the group is performed, its sink writes too: an access to all of memory meets each. -/
def performEvery (s : State) (gid : Nat) : State := performOlder s gid [(0, 2 ^ 64)]

end Sys2Proof.Machine
end

