-- ==== Sys2Proof/Machine/Memory.lean ====
section
/-! DEFINITION. Loads and stores (R148 to R150), atomics (R151 to R154), fences (R155), compress-store and
expand-load (R156 to R158), and the two steps that perform what they leave under way. -/

namespace Sys2Proof.Machine

/-- A trap of R145, precise before issue. -/
def memTrap (s : State) (q : Issuer) (t : MemTrap) : State :=
  trapBefore s q t.cause (BitVec.ofNat 64 t.addr) t.write

/-- `k` consecutive vector registers of a lane, as one number. -/
def laneNat (s : State) (q : Issuer) (r : Reg) (k l : Nat) : Nat :=
  ((List.range k).map (fun i => (readV s q (regNum r + i) l).toNat * 2 ^ (32 * i))).sum

/-- R149: what a store of `n` bytes takes from DATA. -/
def storedNat (s : State) (q : Issuer) (r : Reg) (n l : Nat) : Nat :=
  (if r.scalar then (scalarVal q r).toNat + (if n = 16 then (scalarNext q r).toNat * 2 ^ 64 else 0)
    else laneNat s q r (max 1 (n / 4)) l) % 2 ^ (8 * n)

/-- R101: the type sign-extends. -/
def memSigned : MemTy → Bool
  | .n8 | .n16 => false
  | _ => true

/-- The accesses of a load or store. -/
def memAccs (o : MemForm) (f : Fixed) (s : State) (q : Issuer) : List LaneAddr :=
  laneAddrs s q f o.data o.base (o.mode == .lane) (o.space == .g) o.off (memBytes o.ty)

/-- R149: a load whose accesses translate to `keys`, and to `far` where they cross a page. -/
def loadPending (s : State) (q : Issuer) (data : Reg) (n : Nat) (signed : Bool) (keys far : List (Nat × Nat)) : State :=
  if keys = [] then s else addPending s q (destsOf data (memRegs n data)) (.load n signed keys [] far)

/-- R148, R149: a load. -/
def ldAct (f : Fixed) (o : MemForm) (s : State) (q : Issuer) : State :=
  let n := memBytes o.ty
  let as := memAccs o f s q
  match badAddr s q.b o.space n false as with
  | some t => memTrap s q t
  | none =>
    let k := loadKeys s q.g.block q.b o.space n as
    match k.1.bad with
    | some t => memTrap k.1.s q t
    | none => finish (loadPending k.1.s q o.data n (memSigned o.ty) k.1.keys k.2) q f

/-- R148 to R150, R175: a store. -/
def stAct (f : Fixed) (o : MemForm) (s : State) (q : Issuer) : State :=
  let n := memBytes o.ty
  let as := memAccs o f s q
  match (badAddr s q.b o.space n true as).or (typedTrap q.b o.space n as) with
  | some t => memTrap s q t
  | none =>
    let k := accessKeys s q.g.block q.b o.space needW true as
    match k.bad with
    | some t => memTrap k.s q t
    | none =>
      finish (pushStores k.s q false (k.keys.map (fun e => (e.2, leBytes (storedNat s q o.data n e.1) n)))) q f

/-- R148, `ld`. -/
def execLd (f : Fixed) (o : MemForm) (s : State) : Host.Outcome State Fault Refusal := word (.ld f o) s (ldAct f o)

/-- R148, `st`. -/
def execSt (f : Fixed) (o : MemForm) (s : State) : Host.Outcome State Fault Refusal := word (.st f o) s (stAct f o)

/-! ## Atomics -/

/-- R102: the register, or pair, after DATA. -/
def afterData (w64 : Bool) : Reg → Reg
  | .v n => .v (n + (if w64 then 2 else 1))
  | .hv n => .hv (n + (if w64 then 2 else 1))
  | .s n => .s (n + 1)
  | .h n => .h (n + 1)
  | r => r

/-- R154: what host memory supports. -/
def hostAtomic : AtomOp → Bool
  | .add | .xchg | .cas | .ld | .st => true
  | _ => false

/-- R374. -/
def atomNeed : AtomOp → Need
  | .ld => needR
  | _ => needRW

/-- R152: the value DATA supplies. -/
def atomData (s : State) (q : Issuer) (w64 : Bool) (r : Reg) (l : Nat) : Dword :=
  if r.scalar then scalarVal q r else laneVal s q w64 r l

/-- R151 to R154, R175: an atomic. -/
def atomAct (op : AtomOp) (f : Fixed) (o : AtomForm) (s : State) (q : Issuer) : State :=
  let n := if o.w64 then 8 else 4
  let sp : Space := if o.loc then .l else .g
  let as := laneAddrs s q f o.data o.base o.lane (!o.loc) o.off 0
  match (badAddr s q.b sp n (atomNeed op).w as).or (if op = .ld then none else typedTrap q.b sp n as) with
  | some t => memTrap s q t
  | none =>
    let k := accessKeys s q.g.block q.b sp (atomNeed op) (hostAtomic op) as
    match k.bad with
    | some t => memTrap k.s q t
    | none =>
      let lanes := k.keys.map (fun e =>
        { lane := e.1, key := e.2, x := atomData s q o.w64 o.data e.1,
          next := atomData s q o.w64 (afterData o.w64 o.data) e.1 : AtomLane })
      let dests := if op = .st then [] else destsOf o.data (memRegs n o.data)
      finish (if lanes = [] then k.s else addPending k.s q dests (.atom op n o.uns lanes [])) q f

/-- R151, `atom.add`. -/
def execAtomAdd (f : Fixed) (o : AtomForm) (s : State) : Host.Outcome State Fault Refusal :=
  word (.atomAdd f o) s (atomAct .add f o)

/-- R151, `atom.min`. -/
def execAtomMin (f : Fixed) (o : AtomForm) (s : State) : Host.Outcome State Fault Refusal :=
  word (.atomMin f o) s (atomAct .min f o)

/-- R151, `atom.max`. -/
def execAtomMax (f : Fixed) (o : AtomForm) (s : State) : Host.Outcome State Fault Refusal :=
  word (.atomMax f o) s (atomAct .max f o)

/-- R151, `atom.and`. -/
def execAtomAnd (f : Fixed) (o : AtomForm) (s : State) : Host.Outcome State Fault Refusal :=
  word (.atomAnd f o) s (atomAct .and f o)

/-- R151, `atom.or`. -/
def execAtomOr (f : Fixed) (o : AtomForm) (s : State) : Host.Outcome State Fault Refusal :=
  word (.atomOr f o) s (atomAct .or f o)

/-- R151, `atom.xor`. -/
def execAtomXor (f : Fixed) (o : AtomForm) (s : State) : Host.Outcome State Fault Refusal :=
  word (.atomXor f o) s (atomAct .xor f o)

/-- R151, `atom.xchg`. -/
def execAtomXchg (f : Fixed) (o : AtomForm) (s : State) : Host.Outcome State Fault Refusal :=
  word (.atomXchg f o) s (atomAct .xchg f o)

/-- R151, `atom.cas`. -/
def execAtomCas (f : Fixed) (o : AtomForm) (s : State) : Host.Outcome State Fault Refusal :=
  word (.atomCas f o) s (atomAct .cas f o)

/-- R151, `atom.ld`. -/
def execAtomLd (f : Fixed) (o : AtomForm) (s : State) : Host.Outcome State Fault Refusal :=
  word (.atomLd f o) s (atomAct .ld f o)

/-- R151, `atom.st`. -/
def execAtomSt (f : Fixed) (o : AtomForm) (s : State) : Host.Outcome State Fault Refusal :=
  word (.atomSt f o) s (atomAct .st f o)

/-! ## Fences -/

/-- R155: the model performs every earlier access of the group at the fence, whatever its scope and ordering: one of the
orders the manual allows. -/
def execFence (f : Fixed) (scope : Scope) (ord : Order) (s : State) : Host.Outcome State Fault Refusal :=
  word (.fence f scope ord) s (fun s q => finish (releaseNow s q.gid) q f)

/-! ## Compress-store and expand-load -/

/-- R157: what the elements of a word come to: the keys of those performed, by lane, and the first fault. -/
structure Dense where
  s : State
  keys : List (Nat × Nat)
  bad : Option (Nat × MemTrap)
  deriving DecidableEq, Repr

/-- R157: the lanes left, `k` their first element, `skip` the elements done already. -/
def denseKeys (s : State) (q : Issuer) (n skip base : Nat) (write : Bool) (k : Nat) : List Nat → Dense
  | [] => { s, keys := [], bad := none }
  | l :: ls =>
    if k < skip then denseKeys s q n skip base write (k + 1) ls
    else
      let a := (base + k * n) % 2 ^ 64
      let as : List LaneAddr := [{ lane := l, addr := a }]
      match badAddr s q.b .g n write as with
      | some t => { s, keys := [], bad := some (k, t) }
      | none =>
        let r := accessKeys s q.g.block q.b .g (if write then needW else needR) true as
        match r.bad with
        | some t => { s := r.s, keys := [], bad := some (k, t) }
        | none =>
          let d := denseKeys r.s q n skip base write (k + 1) ls
          { d with keys := r.keys ++ d.keys }

/-- R158: the elements a pending restart skips. -/
def cxpDone (cxp : Dword) : Nat := if bitAt cxp 63 then field cxp 5 0 else 0

/-- R156 to R158: a word of class 0x14. `act`: what the performed elements do. -/
def denseAct (f : Fixed) (w64 write : Bool) (o : AddrForm) (act : State → List (Nat × Nat) → State) (s : State) (q : Issuer) :
    State :=
  let n := if w64 then 8 else 4
  let d := denseKeys s q n (cxpDone q.g.cxp) (addrOf (scalarVal q o.base) (offsetOf o.base o.off)) write 0
    (laneList (active q f))
  let s := act d.s d.keys
  match d.bad with
  | some (k, t) =>
    memTrap (modGroup s q.gid (fun g => { g with cxp := BitVec.ofNat 64 (2 ^ 63 + k) })) q t
  | none => finish (modGroup s q.gid (fun g => { g with cxp := 0 })) q f

/-- R156, `cstore`. -/
def execCstore (f : Fixed) (w64 : Bool) (o : AddrForm) (s : State) : Host.Outcome State Fault Refusal :=
  word (.cstore f w64 o) s (fun s q =>
    let n := if w64 then 8 else 4
    denseAct f w64 true o
      (fun s keys => pushStores s q false (keys.map (fun e => (e.2, leBytes (storedNat s q o.data n e.1) n)))) s q)

/-- R156, `xload`. -/
def execXload (f : Fixed) (w64 : Bool) (o : AddrForm) (s : State) : Host.Outcome State Fault Refusal :=
  word (.xload f w64 o) s (fun s q =>
    denseAct f w64 false o (fun s keys => loadPending s q o.data (if w64 then 8 else 4) false keys []) s q)

/-! ## What performs them -/

/-- R55, R147: the next result of a group that needs no other party arrives, or makes the first of the accesses it has
left. -/
def resultNext (s : State) (gid : Nat) : Option State :=
  match look s.groups gid with
  | none => none
  | some g =>
    match look s.blocks g.block with
    | none => none
    | some b =>
      (pendingOf s g).findSome? (fun p =>
        match performLane s g.core gid g.block b.part p with
        | some x => some (setWork x.1 p.id x.2)
        | none => (performWork s g.core gid g.block b.part p).map (fun a => afterAm (deliver p a) g.core p))

/-- R55, R147: the next result of group `g` arrives, or makes its next access. -/
def execLongLatencyResult (g : Nat) (s : State) : Host.Outcome State Fault Refusal := .next ((resultNext s g).getD s)

/-- A pending result that reads memory, issued before `seq`. -/
def readsBefore (seq : Nat) (p : Pending) : Bool := decide (p.id < seq) && p.memory

/-- R150, R241, R288: an entry may leave the queue: none that goes before it stands in it, and no earlier load or atomic of
its groups is still to read. -/
def mayDrain (s : State) (core i : Nat) : Bool :=
  match (coreOf s core).storeQ[i]? with
  | none => false
  | some e =>
    ((coreOf s core).storeQ.take i).all (fun x => !x.before e) &&
      e.owners.all (fun o => match look s.groups o with
        | some g =>
          !g.ctx.pend.any (readsBefore e.seq) &&
            !(g.handler && (shadowOf s g.core).ctx.pend.any (readsBefore e.seq))
        | none => true)

/-- R150: entry `index` of a core's store queue is performed. -/
def execStoreQueueDrain (core index : Nat) (s : State) : Host.Outcome State Fault Refusal :=
  .next (if mayDrain s core index then performStore s core index else s)

end Sys2Proof.Machine
end

