-- ==== Sys2Proof/Machine/Queues.lean ====
section
/-! DEFINITION. Launch queues as the hub holds them (R345 to R349): descriptors, notifies, the slots. -/

namespace Sys2Proof.Machine

/-- R345: a queue's descriptor; HEAD and TAIL as the hub has them while the queue is mapped (R348). -/
structure QueueDesc where
  addr : Nat
  ring : Nat
  lsz : Nat
  en : Bool
  qpri : Nat
  head : Nat
  tail : Nat
  deriving DecidableEq, Repr

def queueKey (part q : Nat) : Nat := 4096 * part + q

/-- R347: the partition's queues. -/
def queueCount (s : State) (part : Nat) : Nat := field (partReg s part 0x211) 11 0 + 1

/-- R345: where queue `q`'s descriptor lies. -/
def queueAddr (s : State) (part q : Nat) : Nat := field (partReg s part 0x211) 63 12 * 4096 + 64 * q

/-- A queue the hub has not met. -/
def HubQueue.init : HubQueue := { head := 0, tail := 0, mapped := false, runnableSince := none, marks := [] }

def hubQueue (s : State) (part q : Nat) : HubQueue := (look s.queues (queueKey part q)).getD HubQueue.init

def setHubQueue (s : State) (part q : Nat) (h : HubQueue) : State := { s with queues := put s.queues (queueKey part q) h }

/-- R345: reads a descriptor. -/
def readQueue (s : State) (part q : Nat) : State × QueueDesc :=
  let a := queueAddr s part q
  let o := readVirtual s part a 64
  let w (off : Nat) : Dword := dwordIn o.bytes off
  let h := hubQueue s part q
  (o.s,
    { addr := a, ring := (w 0).toNat, lsz := field (w 8) 11 8, en := bitAt (w 8) 7, qpri := field (w 8) 2 0,
      head := if h.mapped then h.head else (w 0x10).toNat,
      tail := if h.mapped then h.tail else (w 0x18).toNat })

/-- R345: where record `i` of a queue lies. -/
def QueueDesc.record (d : QueueDesc) (i : Nat) : Nat := d.ring + 128 * (i % 2 ^ d.lsz)

/-- R345: the ring is full. -/
def QueueDesc.full (d : QueueDesc) : Bool := d.tail - d.head == 2 ^ d.lsz

/-- R348: the queue is runnable by its notifies. -/
def QueueDesc.pending (d : QueueDesc) : Bool := d.en && decide (d.head < d.tail)

/-- The launches of the queue that have not yet placed every block (R413: or have one to place again). -/
def placingLaunches (s : State) (part q : Nat) : List Launch :=
  (s.launches.filter (fun e => e.2.part == part && e.2.queue == q && e.2.firing.isNone && !e.2.refused &&
    (decide (e.2.placed < e.2.gx * e.2.gy * e.2.gz) || !e.2.rerun.isEmpty))).map (·.2)

/-- A launch of the queue has not yet placed every block. -/
def placing (s : State) (part q : Nat) : Bool := !(placingLaunches s part q).isEmpty

/-- R5: the hub's cycle. -/
def hubCycle (s : State) : Nat := s.clock / 2

/-- R346, R350: the latched tail rises to `n`. -/
def latchTail (s : State) (part q n : Nat) (d : QueueDesc) : State :=
  if n ≤ d.tail then s
  else
    let h := hubQueue s part q
    let since : Nat := if d.pending || placing s part q then h.runnableSince.getD (hubCycle s) else hubCycle s
    let h := { h with marks := h.marks ++ [(n, s.fresh)], runnableSince := some since }
    let s := { s with fresh := s.fresh + 1 }
    if h.mapped then setHubQueue s part q { h with tail := n }
    else (writeVirtual (setHubQueue s part q h) part (d.addr + 0x18) (leBytes n 8)).s

/-- R346: EN is cleared in the descriptor. -/
def clearEnable (s : State) (part : Nat) (d : QueueDesc) : State :=
  let w := readDword s part (d.addr + 8)
  (writeVirtual s part (d.addr + 8) (leBytes (w &&& 0xFFFFFFFFFFFFFF7F#64).toNat 8)).s

/-- R346: a write of `n` to a queue's notify word. -/
def notifyQueue (s : State) (part q n : Nat) : State :=
  if queueCount s part ≤ q then s
  else
    let (s, d) := readQueue s part q
    if !d.en then s
    else if d.head + 2 ^ d.lsz < n then
      faultRecord (clearEnable s part d) part 0x06 0 none noAddr (BitVec.ofNat 64 q)
    else latchTail s part q n d

/-- R346: a notify from the host. R384: its 8 bytes cross the host link. -/
def execQueueNotify (part queue value : Nat) (s : State) : Host.Outcome State Fault Refusal :=
  .next (if (look s.parts part).isSome then notifyQueue (addMeter s part 12 8) part queue (value % 2 ^ 64) else s)

/-! ## Slots (R348, R349) -/

/-- R348: the slots a partition holds. -/
def slotsHeld (s : State) (part : Nat) : List Nat :=
  s.queues.filterMap (fun e => if e.1 / 4096 = part ∧ e.2.mapped then some (e.1 % 4096) else none)

/-- R343, R347: the priority of the record a queue takes next. -/
def nextPri (s : State) (part : Nat) (d : QueueDesc) : Nat :=
  min (min (field (readDword s part (d.record d.head + 0x10)) 50 48) d.qpri) (field (partReg s part 0x210) 34 32)

/-- R348: unmapping saves HEAD and the latched tail. -/
def unmapQueue (s : State) (part q : Nat) : State :=
  let h := hubQueue s part q
  let a := queueAddr s part q
  let s := setHubQueue s part q { h with mapped := false }
  (writeVirtual s part (a + 0x10) (leBytes h.head 8 ++ leBytes h.tail 8)).s

/-- R348: mapping reloads them. -/
def mapQueue (s : State) (part q : Nat) : State :=
  let (s, d) := readQueue s part q
  setHubQueue s part q { hubQueue s part q with mapped := true, head := d.head, tail := d.tail }

/-- R348: the queue is runnable: by its notifies, or as a launch of it still places. -/
def runnable (s : State) (part q : Nat) : Bool := (readQueue s part q).2.pending || placing s part q

/-- R348: the priority with which a queue waits: of the launch that places, else of the next record. -/
def queuePri (s : State) (part q : Nat) : Nat :=
  match placingLaunches s part q with
  | l :: _ => l.pri
  | [] => nextPri s part (readQueue s part q).2

/-- R348: the mapped queue whose slot a waiting queue of priority `pri` takes: one with no runnable work, else the one
whose next record has the lowest priority below `pri`, once its launches have placed every block. -/
def slotVictim (s : State) (part pri : Nat) : Option Nat :=
  let held := slotsHeld s part
  let idle := freePick s (held.filter (fun q => !runnable s part q))
  let next (q : Nat) : Nat := nextPri s part (readQueue s part q).2
  let lowest := leastBy next (held.filter (fun q => (readQueue s part q).2.pending && decide (next q < pri)))
  idle.or (lowest.bind (fun q => if placing s part q then none else some q))

/-- R348: the waiting queues of the partition that are runnable, with their priorities. -/
def waitingQueues (s : State) (part : Nat) : List (Nat × Nat) :=
  s.queues.filterMap (fun e =>
    let q := e.1 % 4096
    if e.1 / 4096 = part ∧ !e.2.mapped ∧ runnable s part q then some (q, queuePri s part q) else none)

/-- R348: the hub notes since when a queue has been runnable, which a cleared EN ends (R345). -/
def noteRunnable (s : State) (part q : Nat) : State :=
  let h := hubQueue s part q
  let since := if runnable s part q then some (h.runnableSince.getD (hubCycle s)) else none
  if h.runnableSince = since then s else setHubQueue s part q { h with runnableSince := since }

/-- R348: no waiting queue goes before this one: a higher priority, or the same and an earlier wait. -/
def firstWaiting (s : State) (part q pri : Nat) : Bool :=
  (waitingQueues s part).all (fun w =>
    w.1 == q || decide (w.2 < pri) ||
      (w.2 == pri && decide ((hubQueue s part q).runnableSince.getD 0 ≤ (hubQueue s part w.1).runnableSince.getD 0)))

/-- R348, R400: the slots of the launch scheduler in use. -/
def slotsTaken (s : State) : Nat := (s.queues.filter (fun e => e.2.mapped && !stashedPart s (e.1 / 4096))).length

/-- R348: a runnable queue is mapped to a slot: a free one within the quota, or another queue's. -/
def mapSlot (s : State) (part q : Nat) : State :=
  if queueCount s part ≤ q ∨ swappedPart s part then s
  else
    let s := noteRunnable (readQueue s part q).1 part q
    if (hubQueue s part q).mapped ∨ !runnable s part q then s
    else
      let pri := queuePri s part q
      if !firstWaiting s part q pri then s
      else if (slotsHeld s part).length < field (partReg s part 0x210) 63 56 ∧ slotsTaken s < 64 then mapQueue s part q
      else match slotVictim s part pri with
        | some v => mapQueue (unmapQueue (drawn s 1) part v) part q
        | none => s

/-- R348, a queue is mapped. -/
def execQueueSlotMap (part queue : Nat) (s : State) : Host.Outcome State Fault Refusal := .next (mapSlot s part queue)

end Sys2Proof.Machine
end

