-- ==== Sys2Proof/Machine/Barrier.lean ====
section
/-! DEFINITION. Transaction barriers (R172 to R175), and early start and dependent reads (R176, R177, R351). -/

namespace Sys2Proof.Machine

/-! ## Barrier words -/

/-- R172: a barrier word. -/
structure BarrierWord where
  gen : Word
  parr : Word
  psec : Word
  exp : Word
  deriving DecidableEq, Repr

def readBarrier (s : State) (key : Nat) : BarrierWord :=
  let w (i : Nat) : Word := BitVec.ofNat 32 (loadLE s (key + 4 * i) 4)
  { gen := w 0, parr := w 1, psec := w 2, exp := w 3 }

def writeBarrier (s : State) (key : Nat) (b : BarrierWord) : State :=
  writeBytes s key (wordBytes b.gen ++ wordBytes b.parr ++ wordBytes b.psec ++ wordBytes b.exp)

/-- R172: the check after a change: a phase completes at most. -/
def BarrierWord.check (b : BarrierWord) : BarrierWord :=
  if b.exp ≠ 0 ∧ b.parr = 0 ∧ b.psec = 0 then { b with gen := b.gen + 1, parr := b.exp, psec := 0 } else b

/-- R173: phase `g` has completed. -/
def phaseDone (gen g : Word) : Bool := decide ((gen - g - 1).toNat < 2 ^ 31)

/-- R399: an event that a saved block awaits is kept with it. -/
def keepEvent (e : SaveEvent) (b : Block) : Block :=
  { b with saved := b.saved.map (fun x => { x with events := x.events ++ [e] }) }

/-- R164, R174: an engine's decrement of a block's barrier; nothing once the block has left. -/
def engineDecrement (s : State) (blk addr : Nat) : State :=
  if (look s.blocks blk).isSome then
    let key := localKey blk addr
    let b := readBarrier s key
    modBlock (writeBarrier s key ({ b with psec := b.psec - 1 } : BarrierWord).check) blk (keepEvent (.decrement addr))
  else s

/-! ## The words -/

/-- R173: the address of a barrier word. -/
def barrierAddr (q : Issuer) (o : AddrForm) : Nat := addrOf (scalarVal q o.base) (offsetOf o.base o.off)

/-- R145, R175: the trap a barrier word meets; `typed`: it must be typed in strict mode. DESIGN CHOICE (log 19): the traps of R145 come
before those of the type bit. -/
def barrierTrap (s : State) (q : Issuer) (a : Nat) (typed write : Bool) : Option MemTrap :=
  (badAddr s q.b .l 16 write [{ lane := 32, addr := a }]).or
    (if typed && q.b.strict && !q.b.typed.contains a then some { cause := causeBarrierType, addr := a, write := false } else none)

/-- R175: a result under way is an atomic that has still to write to some of the 16 bytes at a key. -/
def Pending.storesAt (key : Nat) (p : Pending) : Bool :=
  match p.work with
  | .atom op n _ accs _ => op != .ld && accs.any (fun a => decide (a.key < key + 16) && decide (key < a.key + n))
  | _ => false

/-- R175: a store of the core that has issued, queued or an atomic's, has still to be performed on the quad. -/
def quadQueued (s : State) (core key : Nat) : Bool :=
  (coreOf s core).storeQ.any (fun e => decide (e.key < key + 16) && decide (key < e.key + e.bytes.length)) ||
    (shadowOf s core).ctx.pend.any (Pending.storesAt key) ||
    s.groups.any (fun e => e.2.core == core && e.2.ctx.pend.any (Pending.storesAt key))

/-- R175: the type bit of a quad. -/
def setTyped (s : State) (blk a : Nat) (on : Bool) : State :=
  modBlock s blk (fun b =>
    if b.strict then
      { b with typed := (if on then [a] else []) ++ b.typed.filter (fun t => t != a) }
    else b)

/-- R173, R175, `tbar.init`. -/
def tbarInitAct (f : Fixed) (o : AddrForm) (s : State) (q : Issuer) : State :=
  let a := barrierAddr q o
  let n : Word := (scalarVal q o.data).setWidth 32
  match barrierTrap s q a false true with
  | some t => memTrap s q t
  | none =>
    let s := releaseNow s q.gid
    let key := localKey q.g.block a
    if q.b.strict && n != 0 && quadQueued s q.g.core key then stall s q (.typed key)
    else
      let s := writeBarrier s key { gen := 0, parr := n, psec := 0, exp := n }
      finish (setTyped s q.g.block a (n != 0)) q f

/-- R173, `tbar.init`. -/
def execTbarInit (f : Fixed) (o : AddrForm) (s : State) : Host.Outcome State Fault Refusal :=
  word (.tbarInit f o) s (tbarInitAct f o)

/-- R173, `tbar.arrive`. -/
def execTbarArrive (f : Fixed) (o : AddrForm) (s : State) : Host.Outcome State Fault Refusal :=
  word (.tbarArrive f o) s (fun s q =>
    let a := barrierAddr q o
    match barrierTrap s q a true true with
    | some t => memTrap s q t
    | none =>
      let s := releaseNow s q.gid
      let key := localKey q.g.block a
      let b := readBarrier s key
      let s := writeBarrier s key ({ b with parr := b.parr - 1 } : BarrierWord).check
      finish (pendS s q o.data (b.gen.setWidth 64)) q f)

/-- R173, `tbar.expect`. -/
def execTbarExpect (f : Fixed) (o : AddrForm) (s : State) : Host.Outcome State Fault Refusal :=
  word (.tbarExpect f o) s (fun s q =>
    let a := barrierAddr q o
    match barrierTrap s q a true true with
    | some t => memTrap s q t
    | none =>
      let s := releaseNow s q.gid
      let key := localKey q.g.block a
      let b := readBarrier s key
      finish (writeBarrier s key ({ b with psec := b.psec + (scalarVal q o.data).setWidth 32 } : BarrierWord).check) q f)

/-- R173, `tbar.wait`: a switch marker that also waits for the phase: both must hold when the group goes on. -/
def execTbarWait (f : Fixed) (o : AddrForm) (s : State) : Host.Outcome State Fault Refusal :=
  word (.tbarWait f o) s (fun s q =>
    let a := barrierAddr q o
    match barrierTrap s q a true false with
    | some t => memTrap s q t
    | none =>
      let s := releaseNow s q.gid
      let key := localKey q.g.block a
      let phase : Word := (scalarVal q o.data).setWidth 32
      let s := countIssue s q (q.ctx.pc + 8)
      if q.ctx.pend = [] ∧ phaseDone (readBarrier s key).gen phase then atMarker s q.gid
      else parkGroup s q.gid (.tbar key phase))

/-! ## Predecessors -/

/-- R351: the launch of a record, while it has not ended. -/
def launchOf (s : State) (part q seq : Nat) : Option Launch :=
  (s.launches.find? (fun e => e.2.part == part && e.2.queue == q && e.2.seq == seq && e.2.firing.isNone)).map (·.2)

/-- R351: a predecessor has ended: its record was overwritten in its ring, or was taken and its launch is gone. -/
def predEnded (s : State) (part : Nat) (p : Nat × Nat) : Bool :=
  let d := (readQueue s part p.1).2
  decide (p.2 + 2 ^ d.lsz < d.tail) || ((launchOf s part p.1 p.2).isNone && decide (p.2 < d.head))

/-- R176: every predecessor of the block's launch has ended. -/
def predsEnded (s : State) (b : Block) : Bool :=
  match look s.launches b.launch with
  | some l => l.preds.all (predEnded s b.part)
  | none => true

/-- R176, `predhint`. -/
def execPredhint (f : Fixed) (s : State) : Host.Outcome State Fault Refusal :=
  word (.predhint f) s (fun s q => finish (modBlock s q.g.block (fun b => { b with hinted := true })) q f)

/-- R176, `waitpred`: a switch marker that also waits for the predecessors. -/
def execWaitpred (f : Fixed) (s : State) : Host.Outcome State Fault Refusal :=
  word (.waitpred f) s (fun s q =>
    let s := countIssue s q (q.ctx.pc + 8)
    if predsEnded s q.b then atMarker s q.gid else parkGroup s q.gid .waitpred)

end Sys2Proof.Machine
end

