-- ==== Sys2Proof/Machine/Engines.lean ====
section
/-! DEFINITION. Engine contexts (R159 to R161): bindings and what they name (R52, R171, R223, R242, R367), faults that
wait for service (R379), records at addresses software gives (R422), and the steps of a completion (R160). -/

namespace Sys2Proof.Machine

/-! ## Bindings -/

/-- R52: the context a binding names. -/
def bindRef (b : Dword) : EngRef := { kind := field b 62 59, unit := field b 47 32, ctx := field b 7 0 }

/-- R52: a binding without its reserved fields. -/
def bindMask (b : Dword) : Dword := b &&& 0xF800FFFF000000FF#64

/-- R356: the local expert queues and combine groups of a partition: the first physical one, and how many. -/
def queueRange (s : State) (part : Nat) : Nat × Nat := (field (partReg s part 0x213) 63 54, field (partReg s part 0x213) 53 43)
def groupRange (s : State) (part : Nat) : Nat × Nat := (field (partReg s part 0x213) 42 37, field (partReg s part 0x213) 36 30)

/-- R171, R223, R242, R367: the context exists and the partition owns it. The manual does not say who owns the contexts
of an ISE: four of each base die's sixteen go with each of four sectors (log 23). -/
def engOwned (s : State) (part : Nat) (e : EngRef) : Bool :=
  match e.kind with
  | 0 => (partSectors s part).contains e.unit && decide (e.ctx < 4)
  | 1 => decide (e.unit < 8) && decide (e.ctx < 16) && (partSectors s part).contains (4 * e.unit + e.ctx / 4)
  | 2 => (partClusters s part).contains e.unit && decide (e.ctx < 4)
  | 3 => (match look s.bands e.unit with
    | some d => d.part == part
    | none => false) && e.ctx == 0
  | 4 => decide (e.unit < (groupRange s part).2) && e.ctx == 0
  | _ => false

/-! ## Contexts -/

/-- The context of a copy engine, an ISE or an ME. -/
def engCtx (s : State) (e : EngRef) : EngCtx :=
  match e.kind with
  | 0 => (look s.copies (4 * e.unit + e.ctx)).getD EngCtx.init
  | 1 => (look s.ises (16 * e.unit + e.ctx)).getD EngCtx.init
  | _ => ((look s.clusters e.unit).bind (fun c => look c.ctxs e.ctx)).getD EngCtx.init

def setEngCtx (s : State) (e : EngRef) (c : EngCtx) : State :=
  match e.kind with
  | 0 => { s with copies := put s.copies (4 * e.unit + e.ctx) c }
  | 1 => { s with ises := put s.ises (16 * e.unit + e.ctx) c }
  | _ =>
    let cl := clusterOf s e.unit
    setCluster s e.unit { cl with ctxs := put cl.ctxs e.ctx c }

/-- R367: the combine group a binding names. -/
def bindGroup (s : State) (part : Nat) (e : EngRef) : Option EqGroup :=
  (look s.equ.groups ((groupRange s part).1 + e.unit)).filter (fun g => g.part == part)

/-- R159, R367: the operations issued to a context. -/
def engIssued (s : State) (part : Nat) (e : EngRef) : Nat :=
  match e.kind with
  | 3 => match look s.bands e.unit with
    | some d => d.issued
    | none => 0
  | 4 => match bindGroup s part e with
    | some g => g.tokens.length
    | none => 0
  | _ => (engCtx s e).issued

/-- R159, R367: a context's timeline counter. -/
def engCount (s : State) (part : Nat) (e : EngRef) : Nat :=
  match e.kind with
  | 3 => match look s.bands e.unit with
    | some d => d.count
    | none => 0
  | 4 => match bindGroup s part e with
    | some g => g.released
    | none => 0
  | _ => (engCtx s e).count

/-- R159: operations a context holds from issue to completion. -/
def engRoom : Nat → Nat
  | 0 => 64
  | 1 => 16
  | _ => 8

/-- R159: the queue of a context is full. -/
def engFull (s : State) (e : EngRef) : Bool :=
  if e.kind = 3 then
    match look s.bands e.unit with
    | some d => decide (engRoom 3 ≤ d.ops.length)
    | none => true
  else decide (engRoom e.kind ≤ (engCtx s e).ops.length)

/-- R159: operation `n` of a counter is complete: the counter, and the completed numbers above it. -/
def advance (count : Nat) (done : List Nat) : Nat → Nat × List Nat
  | 0 => (count, done)
  | f + 1 => if done.contains (count + 1) then advance (count + 1) (done.filter (· != count + 1)) f else (count, done)

/-- R160 step 5: an operation leaves its context and the counter advances. -/
def EngCtx.complete (c : EngCtx) (n : Nat) : EngCtx :=
  let done := n :: c.done
  let (count, done) := advance c.count done done.length
  { c with ops := c.ops.filter (fun o => o.no != n), count, done }

/-! ## Tokens (R59, R160 step 4) -/

/-- The token's register takes its value, seen by the very next read, behind every result issued before; the token is
pending no more. -/
def Ctx.tokenDone (c : Ctx) (e : EngRef) (op : Nat) (v : Dword) : Ctx :=
  match c.toks.find? (fun t => t.eng == e && t.op == op) with
  | some t =>
    { c with toks := c.toks.filter (fun x => x != t),
             held := insertHeld { dest := .s t.reg, mask := BitVec.allOnes 32, vals := [v], vis := .at 0, seq := c.issued } c.held }
  | none => c

/-- R59, R290, R399: writes a token into every group that holds it, handlers and its saved block included. -/
def writeToken (s : State) (blk : Nat) (e : EngRef) (op : Nat) (v : Dword) : State :=
  { s with
    groups := s.groups.map (fun g => (g.1, { g.2 with ctx := g.2.ctx.tokenDone e op v }))
    cores := s.cores.map (fun c => (c.1, { c.2 with shadow := { c.2.shadow with ctx := c.2.shadow.ctx.tokenDone e op v } }))
    blocks := upd s.blocks blk (fun b =>
      { b with saved := b.saved.map (fun x => { x with events := x.events ++ [.token { reg := 0, eng := e, op } v] }) }) }

/-! ## Faults waiting for service (R379) -/

/-- R379: a free tag; which one the manual leaves open (log 45). -/
def freeTag (s : State) : Option Nat :=
  let n := Config.freeNat s.free % 65536
  let unused (t : Nat) : Bool := (look s.faults t).isNone
  (firstFrom unused n (65536 - n)).or (firstFrom unused 0 n)

/-- R379: a fault waits under a new tag; none while every tag is taken. -/
def newFault (s : State) (f : XFault) : Option (State × Nat) :=
  (freeTag s).map (fun t =>
    ({ s with faults := put s.faults t { f with since := hubCycle s, recorded := false }, free := s.free + 1 }, t))

/-- R379, R394: the record of a waiting fault is written once the ring takes it (R395). -/
def recordFault (s : State) (tag : Nat) : State :=
  match look s.faults tag with
  | none => s
  | some f =>
    if f.recorded || stashedPart s f.part || !ringReady s f.part then s
    else
      let info := f.eng.kind % 256 + f.eng.unit % 2 ^ 16 * 2 ^ 8 + f.eng.ctx % 2 ^ 8 * 2 ^ 24 + f.write.toNat * 2 ^ 32
      let s := { s with faults := put s.faults tag { f with recorded := true } }
      faultRecord s f.part 0x01 tag (some f.block) f.addr (BitVec.ofNat 64 info)

/-- R379, R394, R395, the record of a translation fault. -/
def execTranslationFaultRecord (tag : Nat) (s : State) : Host.Outcome State Fault Refusal := .next (recordFault s tag)

/-- R379: the ordinal that stands for an operation's own record. -/
def recordElem : Nat := 2 ^ 64

/-! ## Accesses of engines -/

/-- R160, R379, R423: what becomes of an engine's access: done, to be retried after fault service, or failed with a
CODE. -/
inductive Met where
  | done
  | wait (addr : Nat) (write : Bool)
  | fail (code : Nat)
  deriving DecidableEq, Repr

/-- R160, R423: a refused translation as an element meets it. -/
def metBy (c : XCause) (addr : Nat) (write : Bool) : Met :=
  match c with
  | .translation => .wait addr write
  | .permission => .fail 2
  | .nonCanonical => .fail 1
  | .link => .fail 5

/-- The result of an engine's read or write. -/
structure Moved where
  s : State
  bytes : List Byte
  met : Met
  deriving DecidableEq, Repr

/-- R352: bytes of an operation of a block moved. -/
def touchHang (s : State) (blk : Nat) : State := modBlock s blk (fun b => { b with hangCount := 0 })

/-- R352: an access of an operation of block `blk` that went through has moved its bytes. -/
def Moved.touch (m : Moved) (blk : Nat) : Moved := if m.met = .done then { m with s := touchHang m.s blk } else m

/-- R384: reads one piece of a range; the manual counts HBM bursts as it leaves open (log 5), host bytes as payload. -/
def readPiece (part : Nat) (m : Moved) (p : Nat × Nat) : Moved :=
  if m.met ≠ .done then m
  else
    let o := xlate m.s part p.1 needR
    match o.res with
    | .bad c => { s := o.s, bytes := [], met := metBy c p.1 false }
    | .ok k =>
      if poisonedAt o.s k p.2 then { s := o.s, bytes := [], met := .fail 4 }
      else { s := meterHost o.s part k p.2, bytes := m.bytes ++ readBytes o.s k p.2, met := .done }

/-- An engine's read of `n` bytes of global memory. -/
def engineRead (s : State) (part addr n : Nat) : Moved :=
  (pieces (addr % 2 ^ 64) n 3).foldl (readPiece part) { s, bytes := [], met := .done }

/-- A write of pieces of global memory, all or none. `bad`: a place where the write meets an uncorrectable error. -/
def putPieces (s : State) (part : Nat) (ps : List (Nat × Nat)) (bs : List Byte) (bad : State → Nat × Nat → Bool) : Moved :=
  match placePieces s part ps with
  | (s, some (c, a), _) => { s, bytes := [], met := metBy c a true }
  | (s, none, ks) =>
    if ks.any (bad s) then { s, bytes := [], met := .fail 4 }
    else { s := ks.foldl (fun s k => meterHost s part k.1 k.2) (writePieces s ks bs), bytes := [], met := .done }

/-- An engine's write of global memory. -/
def engineWrite (s : State) (part addr : Nat) (bs : List Byte) : Moved :=
  putPieces s part (pieces (addr % 2 ^ 64) bs.length 3) bs (fun _ _ => false)

/-- R411: a write of `k.2` bytes at `k.1` changes part of a poisoned burst and leaves the rest of it as it is. -/
def splitsPoison (s : State) (k : Nat × Nat) : Bool :=
  s.hours.poison.any (fun p =>
    decide (p < k.1 + k.2) && decide (k.1 < p + 32) && !(decide (k.1 ≤ p) && decide (p + 32 ≤ k.1 + k.2)))

/-- R422: a record is written, or meets what keeps it from being written: it meets an uncorrectable error in a poisoned
burst of which it is a part (log 49). -/
def recordWrite (s : State) (part addr : Nat) (bs : List Byte) : Moved :=
  putPieces s part (pieces (addr % 2 ^ 64) bs.length (bs.length / 4096 + 3)) bs splitsPoison

/-- R213: the OB aperture of local space. -/
def obAperture (a : Nat) : Bool := decide (0x100000 ≤ a) && decide (a < 0x200000)

/-- R414: the 32-bit OB words of an access that read uncorrectable. -/
def obBad (s : State) (cluster off n : Nat) : Bool :=
  (clusterOf s cluster).bad.any (fun w => decide (w < 262144) && decide (4 * w < off + n) && decide (off < 4 * w + 4))

/-- R414: what a copy's write of `n` bytes at `off` of an OB leaves: the words that still read uncorrectable, and the bytes
of them the copy has written. A word it has written whole reads correctly again. -/
def obCover (bad covered : List Nat) (off n : Nat) : List Nat × List Nat :=
  let mine := (List.range n).map (off + ·) ++ covered
  let whole (w : Nat) : Bool := decide (w < 262144) && (List.range 4).all (fun i => mine.contains (4 * w + i))
  let left := bad.filter (fun w => !whole w)
  (left, mine.filter (fun a => left.contains (a / 4)))

/-- R213: an engine's read of local space. -/
def localRead (s : State) (blk core a n : Nat) : Moved :=
  if obAperture a then
    let off := a - 0x100000
    if obBad s (core / 4) off n then { s, bytes := [], met := .fail 4 }
    else { s, bytes := readBytes s (obKey (core / 4) off) n, met := .done }
  else { s, bytes := readBytes s (localKey blk a) n, met := .done }

/-- R166, R175: an engine's write to local space, without the bytes of typed quads; whether any was refused. Nothing once
the block has left. R399: what comes for a saved block is applied at its restore too. -/
def localWrite (s : State) (blk core a : Nat) (bs : List Byte) : State × Bool :=
  if obAperture a then (writeBytes s (obKey (core / 4) (a - 0x100000)) bs, false)
  else match look s.blocks blk with
    | none => (s, false)
    | some b =>
      let typed (x : Nat) : Bool := typedHit b x 1
      let put1 (s : State) (x : Byte × Nat) : State :=
        if typed (a + x.2) then s
        else modBlock (writeBytes s (localKey blk (a + x.2)) [x.1]) blk (keepEvent (.write (a + x.2) [x.1]))
      (bs.zipIdx.foldl put1 s, typedHit b a bs.length)

/-! ## Completion (R160) -/

/-- R159: the head of a context's operations. -/
def engHead (s : State) (e : EngRef) : Option EngOp := (engCtx s e).ops.head?

/-- Changes an operation of a context. -/
def modOp (s : State) (e : EngRef) (no : Nat) (f : EngOp → EngOp) : State :=
  let c := engCtx s e
  setEngCtx s e { c with ops := c.ops.map (fun o => if o.no = no then f o else o) }

/-- R163, R168: the status record an operation writes: whether its address is local, and the address. -/
def EngOp.status (o : EngOp) : Option (Bool × Nat) :=
  match o.work with
  | .copy _ d => d.status
  | .gath d => d.status
  | .scat d => d.status

/-- R160: the bytes of a status record. -/
def EngOp.record (o : EngOp) : List Byte :=
  leBytes (o.ended.getD 0) 4 ++ leBytes (o.fails % 2 ^ 32) 4 ++
    leBytes (match o.first with
      | some n => n % 2 ^ 64
      | none => 2 ^ 64 - 1) 8

/-- R394, TYPE 0x0B: a record that was not written. -/
def recordLost (s : State) (part kind cause no : Nat) (blk : Option Nat) (addr : Nat) : State :=
  faultRecord s part 0x0B 0 blk (BitVec.ofNat 64 addr) (BitVec.ofNat 64 (kind + cause * 2 ^ 8 + no % 2 ^ 48 * 2 ^ 16))

/-- R422: the kind of an operation's record. -/
def EngOp.recordKind (o : EngOp) : Nat :=
  match o.work with
  | .copy .. => 1
  | _ => 2

/-- R164: the decrements an operation owes its barrier. -/
def EngOp.decrements (o : EngOp) : Option (Nat × Nat) :=
  match o.work with
  | .copy _ d => d.barrier.map (fun a => (a, (d.esz * d.dims.foldl (fun n x => n * x.cnt) 1 + 63) / 64))
  | _ => none

/-- Repeats a decrement. -/
def decrementTimes (s : State) (blk addr : Nat) : Nat → State
  | 0 => s
  | n + 1 => decrementTimes (engineDecrement s blk addr) blk addr n

/-- R160 steps 3 to 5, and the fault record of a failed operation. -/
def finishOp (s : State) (e : EngRef) (o : EngOp) : State :=
  let code := o.ended.getD 0
  let s := match o.decrements with
    | some (a, n) => decrementTimes s o.block a (n - o.decs)
    | none => s
  let s := if o.token then writeToken s o.block e o.no (BitVec.ofNat 64 code) else s
  let s := setEngCtx s e ((engCtx s e).complete o.no)
  if code = 0 then s
  else faultRecord s o.part 0x02 0 (some o.block) noAddr (BitVec.ofNat 64 (code + o.no % 2 ^ 48 * 2 ^ 16))

/-- R160: completes an operation whose elements are settled: its record, then the rest. R422: a record waits, or is
lost. DESIGN CHOICE (log 54): a local record on a typed quad (R175) leaves the quad's bytes, and nothing reports it. -/
def completeOp (s : State) (e : EngRef) (o : EngOp) : State :=
  match o.status with
  | some st =>
    if o.reported then finishOp s e o
    else if o.wait.isSome then s
    else if st.1 then finishOp (touchHang (localWrite s o.block o.core st.2 o.record).1 o.block) e o
    else
      let w := (recordWrite s o.part st.2 o.record).touch o.block
      match w.met with
      | .done => finishOp w.s e o
      | .fail c => finishOp (recordLost w.s o.part o.recordKind c o.no (some o.block) st.2) e o
      | .wait a wr =>
        match newFault w.s { part := o.part, eng := e, op := o.no, elem := recordElem, addr := BitVec.ofNat 64 a,
                             write := wr, since := 0, recorded := false, block := o.block } with
        | some (s, t) => modOp s e o.no (fun o => { o with wait := some t })
        | none => w.s
  | none => finishOp s e o

/-- R160: the first operation of a context whose elements are settled completes. DESIGN CHOICE (log 48): operations
complete in the order of their numbers, where R178 allows another. -/
def execEngineOpCompletion (kind unit ctx : Nat) (s : State) : Host.Outcome State Fault Refusal :=
  let e : EngRef := { kind, unit, ctx }
  .next
    (if kind < 2 then
      match (engCtx s e).ops.find? (fun o => o.ended.isSome) with
      | some o => completeOp s e o
      | none => s
    else s)

/-! ## Timeline words (R171) -/

/-- R171, `tlwait`: n. -/
def tlwaitCount (q : Issuer) (d : Reg) (imm : BitVec 25) : Nat := (scalarVal q d + imm.setWidth 64).toNat

/-- R171, `tlwait`. -/
def execTlwait (f : Fixed) (d a : Reg) (imm : BitVec 25) (s : State) : Host.Outcome State Fault Refusal :=
  word (.tlwait f d a imm) s (fun s q =>
    let b := readTl q (regNum a)
    let e := bindRef b
    let n := tlwaitCount q d imm
    if bitAt b 63 && !engOwned s q.part e then trapBefore s q causeBinding 0 false
    else if !bitAt b 63 then trapBefore s q causeOrphan 0 false
    else if n ≤ engCount s q.part e then finish s q f
    else if engIssued s q.part e < n then trapBefore s q causeOrphan 0 false
    else stall s q (.tlwait e n))

/-- R171, `tlbind`. -/
def execTlbind (f : Fixed) (d a : Reg) (imm : BitVec 25) (s : State) : Host.Outcome State Fault Refusal :=
  word (.tlbind f d a imm) s (fun s q =>
    let b := bindMask (scalarVal q a)
    if 4 < field b 62 59 ∨ (bitAt b 63 ∧ !engOwned s q.part (bindRef b)) then trapBefore s q causeBinding 0 false
    else finish (hold s q (.tl (regNum d)) (BitVec.allOnes 32) [b] 2) q f)

/-- R171, `tlread`. -/
def execTlread (f : Fixed) (d a : Reg) (imm : BitVec 25) (s : State) : Host.Outcome State Fault Refusal :=
  word (.tlread f d a imm) s (fun s q =>
    let b := readTl q (regNum a)
    if !bitAt b 63 || !engOwned s q.part (bindRef b) then trapBefore s q causeBinding 0 false
    else finish (pendS s q d (BitVec.ofNat 64 (engCount s q.part (bindRef b)))) q f)

end Sys2Proof.Machine
end

