-- ==== Sys2Proof/Machine/Copy.lean ====
section
/-! DEFINITION. Copies (R162 to R166, R423): descriptors, the words, and the engine's elements. -/

namespace Sys2Proof.Machine

/-! ## Descriptors -/

/-- A signed 32-bit field of a dword. -/
def strideIn (x : Dword) (hi lo : Nat) : Int := sextNat (field x hi lo) 32

/-- R163: dimension `d` of a descriptor; none where it breaks the map. -/
def parseDim (b : List Byte) (per : Nat) (esz : Nat) (d : Nat) : Option Dim :=
  let x := dwordIn b (0x20 + 16 * d)
  let y := dwordIn b (0x28 + 16 * d)
  let m : Dim := { cnt := field x 15 0 + 1, shift := if per / 2 ^ d % 2 = 1 then field x 31 16 else 0,
                   sstr := strideIn y 31 0, dstr := strideIn y 63 32 }
  if field x 63 32 ≠ 0 ∨ m.cnt ≤ m.shift ∨ m.sstr % (esz : Int) ≠ 0 ∨ m.dstr % (esz : Int) ≠ 0 then none else some m

/-- All of a list, or none. -/
def allSome : List (Option α) → Option (List α)
  | [] => some []
  | none :: _ => none
  | some x :: xs => (allSome xs).map (fun ys => x :: ys)

/-- R163, R168: a status control dword: none where it breaks the map. -/
def parseStatus (x : Dword) : Option (Option (Bool × Nat)) :=
  if field x 3 2 ≠ 0 then none
  else some (if bitAt x 0 then some (bitAt x 1, field x 63 4 * 16) else none)

/-- R163: reads a copy descriptor; none where it breaks the map. -/
def parseCopy (b : List Byte) : Option CopyDesc :=
  let c := dwordIn b 0x10
  let src := (dwordIn b 0).toNat
  let dst := (dwordIn b 8).toNat
  let esz := 2 ^ field c 2 0
  if field c 63 50 ≠ 0 ∨ field c 35 14 ≠ 0 ∨ 4 < field c 5 3 ∨ 4 < field c 2 0 ∨ dwordIn b 0x70 ≠ 0 ∨
      dwordIn b 0x78 ≠ 0 ∨ src % esz ≠ 0 ∨ dst % esz ≠ 0 then none
  else
    match parseStatus (dwordIn b 0x18), allSome ((List.range (field c 5 3 + 1)).map (parseDim b (field c 12 8) esz)) with
    | some status, some dims =>
      some
        { src, dst, srcLocal := bitAt c 6, dstLocal := bitAt c 7,
          barrier := if bitAt c 13 then some (field c 49 36 * 16) else none, periodic := field c 12 8, esz, dims, status }
    | _, _ => none

/-- R164: the elements of a copy. -/
def dimsCount (ds : List Dim) : Nat := ds.foldl (fun n d => n * d.cnt) 1

/-- R164: the offset of element `e` on one side, dimension 0 innermost. `f`: what a dimension adds at an index. -/
def dimsOffset (f : Dim → Nat → Int) : List Dim → Nat → Int
  | [], _ => 0
  | d :: ds, e => f d (e % d.cnt) + dimsOffset f ds (e / d.cnt)

/-- R164: periodic dimensions shift the source. -/
def srcStep (d : Dim) (j : Nat) : Int := ((j + d.shift) % d.cnt : Nat) * d.sstr
def dstStep (d : Dim) (j : Nat) : Int := (j : Nat) * d.dstr

/-- A base and an offset, as a 64-bit address. -/
def addrPlus (base : Nat) (off : Int) : Nat := (((base : Int) + off) % 2 ^ 64).toNat

/-- R164: the source and destination addresses of element `e`. -/
def CopyDesc.srcAt (d : CopyDesc) (e : Nat) : Nat := addrPlus d.src (dimsOffset srcStep d.dims e)
def CopyDesc.dstAt (d : CopyDesc) (e : Nat) : Nat := addrPlus d.dst (dimsOffset dstStep d.dims e)

/-- R162, R213: a local range lies in the window or in the OB aperture. -/
def localFits (size a n : Nat) : Bool := decide (a + n ≤ size) || (obAperture a && decide (a + n ≤ 0x200000))

/-- R162: the lowest and highest offsets of a side. -/
def dimsExtent (str : Dim → Int) (ds : List Dim) : Int × Int :=
  ds.foldl (fun x d => let y := str d * ((d.cnt : Int) - 1)
                       (x.1 + min 0 y, x.2 + max 0 y)) (0, 0)

/-- R162: every element of a local side, at `at_ e`, lies in the window or the aperture. -/
def sideFits (size base esz : Nat) (x : Int × Int) (n : Nat) (at_ : Nat → Nat) : Bool :=
  let lo := (base : Int) + x.1
  let hi := (base : Int) + x.2 + esz
  (decide (0 ≤ lo) && decide (hi ≤ size)) || (decide (0x100000 ≤ lo) && decide (hi ≤ 0x200000)) ||
    (List.range n).all (fun e => localFits size (at_ e) esz)

/-- R162: the descriptor's local side, status record and barrier are those of the issuing core, inside its window. DESIGN
CHOICE (log 54): a local status record or a barrier binds the sector as a local side does, and one outside the window is a
descriptor trap as an element's address is (of gathers and scatters too). -/
def copyFits (size sector unit : Nat) (d : CopyDesc) : Bool :=
  let n := dimsCount d.dims
  let localStatus := match d.status with
    | some (true, a) => some a
    | _ => none
  (!d.srcLocal || sideFits size d.src d.esz (dimsExtent (·.sstr) d.dims) n d.srcAt) &&
    (!d.dstLocal || sideFits size d.dst d.esz (dimsExtent (·.dstr) d.dims) n d.dstAt) &&
    (match localStatus with
      | some a => decide (a + 16 ≤ size)
      | none => true) &&
    (match d.barrier with
      | some a => decide (a + 16 ≤ size)
      | none => true) &&
    (!(d.srcLocal || d.dstLocal || localStatus.isSome || d.barrier.isSome) || sector == unit)

/-! ## The words -/

/-- R149, R162: bytes of the issuing block's local window as the group sees them. -/
def ownLocal (s : State) (q : Issuer) (a n : Nat) : List Byte :=
  forwarded s q.g.core q.gid s.fresh (localKey q.g.block a) n

/-- R14: the sector of a core. -/
def coreSector (core : Nat) : Nat := core / 12

/-- R159: an operation enters its context; its number. -/
def enterOp (s : State) (q : Issuer) (e : EngRef) (work : EngWork) (token : Bool) : State × Nat :=
  let c := engCtx s e
  let n := c.issued + 1
  let o : EngOp :=
    { no := n, part := q.part, block := q.g.block, core := q.g.core, work, token, next := 0, wait := none, spill := [], zero := [],
      decs := 0, code := 0, fails := 0, first := none, ended := none, reported := false, covered := [] }
  (setEngCtx s e { c with issued := n, ops := c.ops ++ [o] }, n)

/-- R59: the token operand is pending. -/
def addToken (s : State) (q : Issuer) (r : Reg) (e : EngRef) (n : Nat) : State :=
  if r.used then modCtx s q (fun c => { c with toks := c.toks ++ [{ reg := regNum r, eng := e, op := n }] }) else s

/-- R59, R159, R161, R162: issues an engine operation whose checks have passed: the group waits for room, else the
command is ordered after its earlier accesses. -/
def issueOp (f : Fixed) (o : Ops4) (e : EngRef) (work : EngWork) (s : State) (q : Issuer) : State :=
  if engFull s e then stall s q (.full e)
  else
    let (s, n) := enterOp s q e work o.c.used
    let s := addToken (pendS s q o.d (BitVec.ofNat 64 n)) q o.c e n
    finish s q f

/-- R162: the binding of a command of kind `kind`, if it may be used. -/
def commandBinding (s : State) (q : Issuer) (r : Reg) (kind : Nat) : Option EngRef :=
  let b := readTl q (regNum r)
  let e := bindRef b
  if bitAt b 63 ∧ e.kind = kind ∧ engOwned s q.part e then some e else none

/-- R162: `acopy` and `acopy.pull`. -/
def copyAct (pull : Bool) (f : Fixed) (o : Ops4) (s : State) (q : Issuer) : State :=
  match commandBinding s q o.b 0 with
  | none => trapBefore s q causeBinding 0 false
  | some e =>
    let a := (scalarVal q o.a).toNat
    let size := blockLocal s q.b
    if a % 128 ≠ 0 ∨ size < a + 128 then trapBefore s q causeDescriptor 0 false
    else
      let s := releaseNow s q.gid
      match parseCopy (ownLocal s q a 128) with
      | none => trapBefore s q causeDescriptor 0 false
      | some d =>
        if copyFits size (coreSector q.g.core) e.unit d then issueOp f o e (.copy pull d) s q
        else trapBefore s q causeDescriptor 0 false

/-- R162, `acopy`. -/
def execAcopy (f : Fixed) (o : Ops4) (s : State) : Host.Outcome State Fault Refusal := word (.acopy f o) s (copyAct false f o)

/-- R162, `acopy.pull`. -/
def execAcopyPull (f : Fixed) (o : Ops4) (s : State) : Host.Outcome State Fault Refusal :=
  word (.acopyPull f o) s (copyAct true f o)

/-! ## The engine (R164 to R166) -/

/-- R165: the address of element `e` that the direction binds, with the access made there; none in local memory. -/
def sideAt (pull : Bool) (d : CopyDesc) (e : Nat) : Option (Nat × Need) :=
  if pull then (if d.dstLocal then none else some (d.dstAt e, needW))
  else if d.srcLocal then none else some (d.srcAt e, needR)

/-- R165: element `e` breaks the direction: its bound address translates to something else than this device's HBM. -/
def wrongSide (s : State) (part : Nat) (pull : Bool) (d : CopyDesc) (e : Nat) : Bool :=
  match sideAt pull d e with
  | some (a, n) => (match (xlate s part a n).res with
    | .ok k => !isHbm k
    | .bad _ => false)
  | none => false

/-- R165: what a copy breaks: before its first write any element of it, later the next one, whose page may have moved. -/
def wrongDirection (s : State) (part : Nat) (pull : Bool) (d : CopyDesc) (next : Nat) : Bool :=
  if next = 0 then (List.range (dimsCount d.dims)).any (wrongSide s part pull d) else wrongSide s part pull d next

/-- R165, R166: before its first write a copy waits for the first element whose bound address does not translate yet, as
it is not known to keep its direction. -/
def unknownSide (s : State) (part : Nat) (pull : Bool) (d : CopyDesc) : Option (Nat × Nat × Bool) :=
  (List.range (dimsCount d.dims)).findSome? (fun e =>
    match sideAt pull d e with
    | some (a, n) => if (xlate s part a n).res = .bad .translation then some (e, a, n.w) else none
    | none => none)

/-- R166: element `e` failed with `code`: the copy stops there. DESIGN CHOICE (log 48): `code` takes the place of an
earlier CODE 3, while FIRST keeps the lower ordinal. -/
def copyStop (s : State) (r : EngRef) (o : EngOp) (e code : Nat) : State :=
  modOp s r o.no (fun o => { o with code, fails := 1, first := some (min (o.first.getD e) e), ended := some code })

/-- R166, R379: element `e`, which did not go through, waits for fault service or stops the copy. -/
def copyMet (s : State) (r : EngRef) (o : EngOp) (e : Nat) (m : Met) : State :=
  match m with
  | .done => s
  | .fail c => copyStop s r o e c
  | .wait a w =>
    match newFault s { part := o.part, eng := r, op := o.no, elem := e, addr := BitVec.ofNat 64 a, write := w,
                       since := 0, recorded := false, block := o.block } with
    | some (s, t) => modOp s r o.no (fun o => { o with wait := some t })
    | none => s

/-- R414: OB words that a copy has written whole read correctly again. -/
def coverOb (s : State) (r : EngRef) (o : EngOp) (a n : Nat) : State :=
  let c := clusterOf s (o.core / 4)
  if !obAperture a || c.bad.isEmpty then s
  else
    let x := obCover c.bad o.covered (a - 0x100000) n
    modOp (setCluster s (o.core / 4) { c with bad := x.1 }) r o.no (fun o => { o with covered := x.2 })

/-- R164, R166: element `o.next` of a copy. -/
def copyElement (s : State) (r : EngRef) (o : EngOp) (d : CopyDesc) : State :=
  let e := o.next
  let rd := (if d.srcLocal then localRead s o.block o.core (d.srcAt e) d.esz
    else engineRead s o.part (d.srcAt e) d.esz).touch o.block
  if rd.met ≠ .done then copyMet rd.s r o e rd.met
  else
    let refused (s : State) (bad : Bool) : State :=
      let chunk := (e + 1) * d.esz % 64 = 0 ∧ (e + 1) < dimsCount d.dims
      let s := match d.barrier with
        | some a => if chunk then engineDecrement s o.block a else s
        | none => s
      modOp s r o.no (fun o =>
        let o := if bad && o.code == 0 then { o with code := 3, fails := 1, first := some e } else o
        { o with next := e + 1, decs := if chunk ∧ d.barrier.isSome then o.decs + 1 else o.decs })
    if d.dstLocal then
      let (s, bad) := localWrite rd.s o.block o.core (d.dstAt e) rd.bytes
      refused (coverOb s r o (d.dstAt e) d.esz) bad
    else
      let w := engineWrite rd.s o.part (d.dstAt e) rd.bytes
      if w.met = .done then refused w.s false else copyMet w.s r o e w.met

/-- R159, R164, R165: the first unsettled operation of a copy context takes its next step. DESIGN CHOICE (log 48): the
elements are carried out in ascending ordinal, one operation after the other. -/
def copyStep (s : State) (r : EngRef) : State :=
  match (engCtx s r).ops.find? (fun o => o.ended.isNone) with
  | none => s
  | some o =>
    match o.work with
    | .copy pull d =>
      if o.wait.isSome then s
      else if dimsCount d.dims ≤ o.next then modOp s r o.no (fun o => { o with ended := some o.code })
      else if wrongDirection s o.part pull d o.next then copyStop s r o 0 6
      else match if o.next = 0 then unknownSide s o.part pull d else none with
        | some (e, a, w) => copyMet s r o e (.wait a w)
        | none => copyElement s r o d
    | _ => s

/-- R164, the copy engine. -/
def execCopyExecute (sector ctx : Nat) (s : State) : Host.Outcome State Fault Refusal :=
  .next (copyStep s { kind := 0, unit := sector, ctx })

end Sys2Proof.Machine
end

