-- ==== Sys2Proof/Machine/Accum.lean ====
section
/-! DEFINITION. Accumulator memory words (R227 to R231, R329). What they do to the banks stands in `Banks`. -/

namespace Sys2Proof.Machine

/-- R329: an AM request with a result is under way. -/
def amAct (f : Fixed) (d : Reg) (n : Nat) (op : AmOp) (x : Dword) (s : State) (q : Issuer) : State :=
  finish (addPending s q (destsOf d n) (.am op x)) q f

/-- R228, `aalloc`. -/
def execAalloc (f : Fixed) (o : Ops4) (s : State) : Host.Outcome State Fault Refusal :=
  word (.aalloc f o) s (fun s q => amAct f o.d 1 .alloc (scalarVal q o.a) s q)

/-- R230, `aclaim`. -/
def execAclaim (f : Fixed) (o : Ops4) (s : State) : Host.Outcome State Fault Refusal :=
  word (.aclaim f o) s (fun s q => amAct f o.d 1 .claim (scalarVal q o.a) s q)

/-- R231, `ard`. -/
def execArd (f : Fixed) (w64 : Bool) (o : Ops4) (s : State) : Host.Outcome State Fault Refusal :=
  word (.ard f w64 o) s (fun s q =>
    amAct f o.d (laneRegs w64 o.d) (.read w64 o.d.scalar (active q f)) (scalarVal q o.a) s q)

/-- R229, R329: an `afree` or `azero` joins the waiting requests, and is applied as soon as it may be. -/
def bankAct (zero : Bool) (f : Fixed) (x : Dword) (s : State) (q : Issuer) : State :=
  let cl := coreCluster q.g.core
  let c := clusterOf s cl
  let o : BankOp :=
    { zero, range := x, owners := [q.gid], launch := q.b.launch, set := q.g.set, seq := s.fresh,
      passes := passesTo c (rangeOf x).banks }
  let s := setCluster { s with fresh := s.fresh + 1 } cl { c with bankOps := c.bankOps ++ [o] }
  finish (settleBanks s cl (bankOpCount s cl)) q f

/-- R229, `afree`. -/
def execAfree (f : Fixed) (o : Ops4) (s : State) : Host.Outcome State Fault Refusal :=
  word (.afree f o) s (fun s q => bankAct false f (scalarVal q o.a) s q)

/-- R229, `azero`. -/
def execAzero (f : Fixed) (o : Ops4) (s : State) : Host.Outcome State Fault Refusal :=
  word (.azero f o) s (fun s q => bankAct true f (scalarVal q o.a) s q)

end Sys2Proof.Machine
end

