-- ==== Sys2Proof/Machine/Convert.lean ====
section
/-! DEFINITION. Conversions (R136 to R139) and the block encoders and decoders (R140 to R143). -/

namespace Sys2Proof.Machine

/-- R136 to R139, `cvt`. -/
def execCvt (f : Fixed) (o : CvtForm) (s : State) : Host.Outcome State Fault Refusal :=
  word (.cvt f o) s (laneAct (.cvt 0 o.dst o.src o.rnd o.sat o.j.toNat) f o.d o.a o.b .none)

/-- R136 to R139, `pack`. -/
def execPack (f : Fixed) (o : CvtForm) (s : State) : Host.Outcome State Fault Refusal :=
  word (.pack f o) s (laneAct (.cvt 1 o.dst o.src o.rnd o.sat o.j.toNat) f o.d o.a o.b .none)

/-- R136 to R139, `unpack`. -/
def execUnpack (f : Fixed) (o : CvtForm) (s : State) : Host.Outcome State Fault Refusal :=
  word (.unpack f o) s (laneAct (.cvt 2 o.dst o.src o.rnd o.sat o.j.toNat) f o.d o.a o.b .none)

/-- R141: an element and its header or scale in one lane. -/
def blockLane (fmt : Fmt) (header elem : Nat) : Dword :=
  BitVec.ofNat 64 (elem + header * 2 ^ 16 % 2 ^ 32) &&& (if fmt.dx then 0xFFFF00FF#64 else 0x00FF00FF#64)

/-- R142: a block encoded across 32 lanes: what each lane delivers. `vals`: the f32 value of every lane that takes part. -/
def encodeLanes (dx : Bool) (fmt : Fmt) (rnd : Rnd) (sat : Bool) (m : Word) (vals gens : List Dword) : Encoded × List LaneOut :=
  let one (l : Nat) : Val := if m.getLsbD l then valOf .f32 ((vals.getD l 0).toNat % 2 ^ 32) else .fin false 0 0
  let gen (l : Nat) : Word := rngNext rnd ((gens.getD l 0).setWidth 32)
  let e := if dx then dxEncode fmt sat ((List.range 32).map one)
    else mxEncode fmt rnd ((List.range 32).map (fun l => (one l, gen l)))
  (e, (List.range 32).map (fun l =>
    if m.getLsbD l then { v := blockLane fmt e.header (e.elems.getD l 0), flags := 0, g := gen l }
    else { v := 0, flags := 0, g := 0 }))

/-- R140, R142: `dxenc` and `mxenc`. -/
def encAct (dx : Bool) (f : Fixed) (o : BlkForm) (s : State) (q : Issuer) : State :=
  let m := active q f
  let (e, outs) := encodeLanes dx o.fmt o.rnd o.sat m ((List.range 32).map (laneVal s q false o.a))
    ((List.range 32).map (fun l => (rngOf s q l).setWidth 64))
  let s := holdLanes s q f o.d false 6 false (o.rnd == .rs) outs
  finish (holdFlags s q e.flags 6) q f

/-- R140, R142, `dxenc`. -/
def execDxenc (f : Fixed) (o : BlkForm) (s : State) : Host.Outcome State Fault Refusal :=
  word (.dxenc f o) s (encAct true f o)

/-- R140, R143, `dxdec`. -/
def execDxdec (f : Fixed) (o : BlkForm) (s : State) : Host.Outcome State Fault Refusal :=
  word (.dxdec f o) s (laneAct (.dec o.fmt o.rnd o.sat) f o.d o.a .none .none)

/-- R140, R142, `mxenc`. -/
def execMxenc (f : Fixed) (o : BlkForm) (s : State) : Host.Outcome State Fault Refusal :=
  word (.mxenc f o) s (encAct false f o)

/-- R140, R143, `mxdec`. -/
def execMxdec (f : Fixed) (o : BlkForm) (s : State) : Host.Outcome State Fault Refusal :=
  word (.mxdec f o) s (laneAct (.dec o.fmt o.rnd o.sat) f o.d o.a .none .none)

end Sys2Proof.Machine
end

