-- ==== Sys2Proof/Machine/Fetch.lean ====
section
/-! DEFINITION. Fetching instruction words (R339, R341, R374): hot text where it stands, cold text through the cold
cache of its kernel. -/

namespace Sys2Proof.Machine

/-- R339: the bytes of a granule of cold text are copied across the host link into the cold cache; none if the copy
fails. -/
def copyGranule (s : State) (handle : Nat) (g : Nat) : Option State :=
  match look s.kernels handle with
  | none => none
  | some k =>
    let size := k.coldText.foldl (fun n t => max n (t.2.base + t.2.size)) k.coldHost - k.coldHost
    let n := min 4096 (size - 4096 * g)
    if k.granules.contains g ∨ n = 0 then some s
    else
      let r := readVirtual s k.part (k.coldHost + 4096 * g) n
      match r.bad with
      | some _ => none
      | none =>
        let w := writeVirtual r.s k.part (k.cache + 4096 * g) r.bytes
        match w.bad with
        | some _ => none
        | none => some { w.s with kernels := upd w.s.kernels handle (fun k => { k with granules := g :: k.granules }) }

/-- The cold text of a kernel holds the address. -/
def Kernel.coldHolds (k : Kernel) (a : Nat) : Bool :=
  k.coldText.any (fun t => decide (t.2.base ≤ a) && decide (a + 8 ≤ t.2.base + t.2.size))

/-- What a fetch answers: the word, if it came; whether it came poisoned. -/
structure Fetched where
  s : State
  word : Option Dword
  poisoned : Bool
  deriving DecidableEq, Repr

/-- R374: reads the word at an address through translation. -/
def fetchAt (s : State) (part a : Nat) : Fetched :=
  let o := xlate s part a needX
  match o.res with
  | .ok k => { s := meterHost o.s part k 8, word := some (dwordAt o.s k), poisoned := poisonedAt o.s k 8 }
  | .bad _ => { s := o.s, word := none, poisoned := false }

/-- R339: fetches the word at an address. -/
def fetchWord (s : State) (part a : Nat) : Fetched :=
  match s.kernels.find? (fun k => k.2.part == part && k.2.coldHolds a) with
  | some (h, k) =>
    match copyGranule s h ((a - k.coldHost) / 4096) with
    | some s => fetchAt s part (k.cache + (a - k.coldHost))
    | none => { s, word := none, poisoned := false }
  | none => fetchAt s part a

/-- R339, a granule of cold text is copied. -/
def execColdGranuleCopy (handle granule : Nat) (s : State) : Host.Outcome State Fault Refusal :=
  .next ((copyGranule s handle granule).getD s)

/-- R341: one fill of an instruction cache line serves every core that waits for it. Cached text is read as it stands in
memory, which software must not change (R338), so a fill leaves nothing behind. -/
def execIcacheFill (_cluster _line : Nat) (s : State) : Host.Outcome State Fault Refusal := .next s

end Sys2Proof.Machine
end

