-- ==== Sys2Proof/Machine/Body.lean ====
section
/-! DEFINITION. Strip bodies (R235): the words of a body, the checks made before its `vstrip` issues, and what the body
does to a group of 32 elements. -/

namespace Sys2Proof.Machine

/-! ## Body words -/

/-- A body word: a lane operation with its operands, or a block encoder. -/
inductive BodyOp where
  | lane (o : LaneOp) (d a b c : Reg)
  | enc (dx : Bool) (o : BlkForm)
  deriving DecidableEq, Repr

structure BodyWord where
  f : Fixed
  op : BodyOp
  deriving DecidableEq, Repr

/-- The lane operation of an integer word. -/
def intBody (op : Nat) : IntForm → Option BodyOp
  | .valu ty d a b c sat => some (.lane (.int op ty sat none) d a b c)
  | .valui ty d a imm sat => some (.lane (.int op ty sat (some imm)) d a .none .none)
  | _ => none

def bitBody (op : Nat) (o : BitForm) : Option BodyOp := some (.lane (.bit op o.ty) o.d o.a o.b o.c)
def predBody (op : Nat) (o : Ops4) : Option BodyOp := some (.lane (.pred op) o.d o.a o.b .none)
def fltBody (op : Nat) (o : FaluForm) : Option BodyOp := some (.lane (.flt op o.ty o.rnd o.sat) o.d o.a o.b o.c)
def trnBody (op : TrnOp) (o : TrnForm) : Option BodyOp := some (.lane (.trn op o.ty o.rnd) o.d o.a .none .none)
def cvtBody (kind : Nat) (o : CvtForm) : Option BodyOp :=
  some (.lane (.cvt kind o.dst o.src o.rnd o.sat o.j.toNat) o.d o.a o.b .none)
def decBody (o : BlkForm) : Option BodyOp := some (.lane (.dec o.fmt o.rnd o.sat) o.d o.a .none .none)

/-- R235: what a word of classes 0x03 to 0x0A does in a body. -/
def bodyOf : Instr → Option BodyOp
  | .addInteger _ o => intBody 0 o
  | .subInteger _ o => intBody 1 o
  | .mulInteger _ o => intBody 2 o
  | .mulhi _ o => intBody 3 o
  | .madInteger _ o => intBody 4 o
  | .andInteger _ o => intBody 5 o
  | .orInteger _ o => intBody 6 o
  | .xorInteger _ o => intBody 7 o
  | .shl _ o => intBody 8 o
  | .shr _ o => intBody 9 o
  | .sar _ o => intBody 10 o
  | .minInteger _ o => intBody 11 o
  | .maxInteger _ o => intBody 12 o
  | .absInteger _ o => intBody 13 o
  | .movInteger _ o => intBody 14 o
  | .negInteger _ o => intBody 15 o
  | .popc _ o => bitBody 0 o
  | .clz _ o => bitBody 1 o
  | .brev _ o => bitBody 2 o
  | .bfe _ o => bitBody 3 o
  | .bfi _ o => bitBody 4 o
  | .cmp _ cond o => some (.lane (.cmp cond o.ty) o.d o.a o.b .none)
  | .sel _ o => some (.lane (.sel o.ty) o.d o.a o.b o.c)
  | .pand _ o => predBody 0 o
  | .por _ o => predBody 1 o
  | .pxor _ o => predBody 2 o
  | .pnot _ o => predBody 3 o
  | .addFloat _ o => fltBody 0 o
  | .subFloat _ o => fltBody 1 o
  | .mulFloat _ o => fltBody 2 o
  | .fma _ o => fltBody 3 o
  | .fnma _ o => fltBody 4 o
  | .minFloat _ o => fltBody 5 o
  | .maxFloat _ o => fltBody 6 o
  | .absFloat _ o => fltBody 7 o
  | .negFloat _ o => fltBody 8 o
  | .rcp _ o => trnBody .rcp o
  | .rsqrt _ o => trnBody .rsqrt o
  | .sqrt _ o => trnBody .sqrt o
  | .exp2 _ o => trnBody .exp2 o
  | .log2 _ o => trnBody .log2 o
  | .sinpi _ o => trnBody .sinpi o
  | .cospi _ o => trnBody .cospi o
  | .tanh _ o => trnBody .tanh o
  | .cvt _ o => cvtBody 0 o
  | .pack _ o => cvtBody 1 o
  | .unpack _ o => cvtBody 2 o
  | .dxenc _ o => some (.enc true o)
  | .mxenc _ o => some (.enc false o)
  | .dxdec _ o => decBody o
  | .mxdec _ o => decBody o
  | _ => none

def BodyOp.d : BodyOp → Reg
  | .lane _ d _ _ _ => d
  | .enc _ o => o.d

/-- The operands a body word names. -/
def BodyOp.regs : BodyOp → List Reg
  | .lane _ d a b c => [d, a, b, c]
  | .enc _ o => [o.d, o.a]

/-- The numbers of the in ports, or out ports, a body names, ascending. -/
def bodyIns (ws : List BodyWord) : List Nat :=
  (List.range 8).filter (fun n => ws.any (fun w => w.op.regs.contains (.inp (BitVec.ofNat 3 n))))
def bodyOuts (ws : List BodyWord) : List Nat :=
  (List.range 4).filter (fun n => ws.any (fun w => w.op.regs.contains (.outp (BitVec.ofNat 2 n))))

/-! ## The check (R235, R58, R111) -/

/-- What the check of a body answers: the trap it meets, with the address for h3, or its words. -/
structure BodyCheck where
  s : State
  trap : Option (Nat × Dword)
  words : List BodyWord
  poisoned : Bool
  deriving DecidableEq, Repr

/-- R235: the trap one word meets after the words `before`. -/
def bodyWordTrap (before : List BodyWord) (w : Dword) : Option Nat :=
  let cls := classOf w
  let i := decode w
  if cls < 3 ∨ 10 < cls ∨ (fixedOf w).stop then some causeBody
  else match i with
    | none => some causeIllegal
    | some i =>
      if !i.wf then some causeIllegal
      else match bodyOf i with
        | none => some causeBody
        | some op =>
          let out := match op.d with
            | .outp n => (bodyOuts before).contains n.toNat || (cls == 6 && (fixed i).pred != 7)
            | _ => false
          if !legal .body i || out then some causeBody else none

/-- R235: reads and checks the words of a body from address `a`; `room`: words left before the run limit. -/
def checkBody (s : State) (part a : Nat) (before : List BodyWord) : Nat → BodyCheck
  | 0 => { s, trap := some (causeRun, 0), words := [], poisoned := false }
  | room + 1 =>
    let x := fetchWord s part a
    match x.word with
    | none => { s := x.s, trap := some (causeFetch, BitVec.ofNat 64 a), words := [], poisoned := false }
    | some w =>
      match bodyWordTrap before w, (decode w).bind bodyOf with
      | some c, _ => { s := x.s, trap := some (c, 0), words := [], poisoned := x.poisoned }
      | none, none => { s := x.s, trap := some (causeBody, 0), words := [], poisoned := x.poisoned }
      | none, some op =>
        let ws := before ++ [{ f := fixedOf w, op }]
        if (fixedOf w).sw then { s := x.s, trap := none, words := ws, poisoned := x.poisoned }
        else
          let r := checkBody x.s part (a + 8) ws room
          { r with poisoned := r.poisoned || x.poisoned }

/-- R139: the operation merges into what its destination holds: `pack`. -/
def BodyOp.keeps : BodyOp → Bool
  | .lane (.cvt 1 ..) .. => true
  | _ => false

/-- The registers a body word reads. -/
def BodyWord.reads (w : BodyWord) : List Reg := (if w.op.keeps then w.op.regs else w.op.regs.drop 1) ++ [Reg.p w.f.pred]

/-- R60: with the detector on, body word `j` (from 1) would read a previous value. -/
def bodyExposed (q : Issuer) (ws : List BodyWord) : Bool :=
  q.b.dbg && q.b.hzd &&
    ws.zipIdx.any (fun w =>
      let q := { q with at_ := q.at_ + w.2 + 1 }
      w.1.reads.any (fun r => (destsOf r 1).any (unseen q)))

/-- R59: the first pending token a body reads. -/
def bodyToken (q : Issuer) (ws : List BodyWord) : Option Nat :=
  ws.findSome? (fun w => w.reads.findSome? (fun r => if (destsOf r 1).any (isToken q) then some (regNum r) else none))

/-- R57: the control thread behind the marker of a marked `vstrip`, every result in: each is visible to every body word. -/
def Issuer.markedView (q : Issuer) : Issuer :=
  { q with ctx := { q.ctx with held := q.ctx.held.map (fun h => { h with vis := .at 0 }) } }

/-! ## The body over elements -/

/-- What a strip has done so far: the lanes of accumulators and predicates the body has written (keyed 32 × register +
lane), the generators it advanced, its flags, the elements it emitted (keyed 4 × element + port), the flops it counts. -/
structure StripSt where
  ac : Tab Dword
  p : Tab Word
  gens : Tab Word
  flags : Flags
  emits : Tab Dword
  flops : Nat
  deriving DecidableEq, Repr

/-- The elements the source ports hold: for each element, keyed by port. -/
abbrev Elements := List (Tab Dword)

/-- R53, R56, R235: the issuer as body word `j` (from 0) sees it. DESIGN CHOICE (log 56): R235 says that R54 does not govern
the body and counts its words toward R53; a register result of the control thread's own earlier words is visible to body
word `j` where R54's distance to it says so, and what the body itself wrote at once. -/
def bodyIssuer (q : Issuer) (j : Nat) : Issuer := { q with at_ := q.at_ + j + 1 }

/-- R235: predicate `n` in lane `l`, as body word `j` sees it. -/
def bodyPred (q : Issuer) (st : StripSt) (j n l : Nat) : Bool :=
  if n = 7 then true
  else match look st.p (32 * n + l) with
    | some b => b != 0
    | none => (readP (bodyIssuer q j) n).getLsbD l

/-- R235: an operand of body word `j` for element `e` in lane `l`. -/
def bodyVal (q : Issuer) (st : StripSt) (els : Elements) (j e l : Nat) (wide : Bool) (r : Reg) : Dword :=
  let narrow (x : Dword) : Dword := if wide then x else (x.setWidth 32).setWidth 64
  match r with
  | .inp n => narrow (getZ (els.getD e []) n.toNat)
  | .ac n => narrow (match look st.ac (32 * n.toNat + l) with
    | some v => v
    | none => readAc (bodyIssuer q j) n.toNat l)
  | .s n => narrow (readS (bodyIssuer q j) n.toNat)
  | .p n => if bodyPred q st j n.toNat l then 1 else 0
  | _ => 0

/-- R31: a lane's generator in the strip. -/
def bodyGen (s : State) (q : Issuer) (st : StripSt) (l : Nat) : Word := (look st.gens l).getD (rngOf s q l)

/-- R235: a result for element `e` in lane `l`. -/
def bodyPut (st : StripSt) (d : Reg) (wide : Bool) (e l : Nat) (v : Dword) : StripSt :=
  match d with
  | .outp n => { st with emits := put st.emits (4 * e + n.toNat) v }
  | .ac n => { st with ac := put st.ac (32 * n.toNat + l) (if wide then v else (v.setWidth 32).setWidth 64) }
  | .p n => if n = 7 then st else { st with p := put st.p (32 * n.toNat + l) (if bitAt v 0 then 1 else 0) }
  | _ => st

/-- R235: the lane is enabled for body word `j`. -/
def bodyOn (q : Issuer) (st : StripSt) (w : BodyWord) (j l : Nat) : Bool := bodyPred q st j w.f.pred.toNat l != w.f.sense

/-- R235: one lane operation for element `e`. The old content of an out port's element is nowhere stated: `pack` into one
finds a free value there, which is a function of its operands (R41, log 5). -/
def bodyLane (s : State) (q : Issuer) (els : Elements) (w : BodyWord) (o : LaneOp) (d a b c : Reg) (j l : Nat) (st : StripSt)
    (e : Nat) : StripSt :=
  if !bodyOn q st w j l then st
  else
    let av := bodyVal q st els j e l o.wideIn a
    let bv := bodyVal q st els j e l o.wideIn b
    let g := bodyGen s q st l
    let old := match d, o with
      | .outp _, .cvt 1 dst src rnd sat jj => Config.packOut dst src rnd sat jj av bv g
      | .outp _, _ => 0
      | r, _ => bodyVal q st els j e l o.wideOut r
    let r := o.eval { a := av, b := bv, c := bodyVal q st els j e l o.wideIn c, old, g }
    let st := { st with
      flags := st.flags ||| r.flags, gens := if o.draws then put st.gens l r.g else st.gens, flops := st.flops + o.flops }
    bodyPut st d o.wideOut e l r.v

/-- R142, R235: a block encoder over the elements of one group of 32. `lanes`: (element, lane). `cut`: a fault took part
of the group away (R239): the manual gives the block no header or scale then, and what the lanes receive and the flags are
free, a function of the word's operands (R41, log 47); each lane's generator advances as ever (R31). -/
def bodyEnc (s : State) (q : Issuer) (els : Elements) (w : BodyWord) (dx : Bool) (o : BlkForm) (j : Nat) (cut : Bool) (st : StripSt)
    (lanes : List (Nat × Nat)) : StripSt :=
  let on := lanes.filter (fun x => bodyOn q st w j x.2)
  let m := ofLanes (fun l => on.any (fun x => x.2 == l))
  let val (l : Nat) : Dword := match on.find? (fun x => x.2 == l) with
    | some x => bodyVal q st els j x.1 l false o.a
    | none => 0
  let vals := (List.range 32).map val
  let gens := (List.range 32).map (fun l => (bodyGen s q st l).setWidth 64)
  let (enc, outs) := encodeLanes dx o.fmt o.rnd o.sat m vals gens
  let open_ := Config.cutLane dx o.fmt o.rnd o.sat (ofLanes (fun l => lanes.any (fun x => x.2 == l))) m vals gens
  let st := { st with flags := st.flags ||| (if cut then (open_ 32).setWidth 6 else enc.flags) }
  on.foldl (fun st x =>
    let r := outs.getD x.2 { v := 0, flags := 0, g := 0 }
    let v := if cut then ((open_ x.2).setWidth 32).setWidth 64 else r.v
    bodyPut { st with gens := if o.rnd = .rs then put st.gens x.2 r.g else st.gens } o.d false x.1 x.2 v) st

/-- R235: the body over one group of 32 elements, word by word. -/
def bodyGroup (s : State) (q : Issuer) (els : Elements) (ws : List BodyWord) (cut : Bool) (lanes : List (Nat × Nat)) (st : StripSt) :
    StripSt :=
  ws.zipIdx.foldl (fun st w =>
    match w.1.op with
    | .lane o d a b c => lanes.foldl (fun st x => bodyLane s q els w.1 o d a b c w.2 x.2 st x.1) st
    | .enc dx o => bodyEnc s q els w.1 dx o w.2 cut st lanes) st

/-- R238: elements 0 to n − 1 of a strip that begins at position `k0`, in the groups of 32 their positions form. -/
def bodyGroups (k0 n : Nat) : List (List (Nat × Nat)) :=
  let first := k0 / 32
  ((List.range ((k0 + n + 31) / 32 - first)).map (fun g =>
    ((List.range 32).map (fun l => (32 * (first + g) + l, l))).filter (fun x => decide (k0 ≤ x.1) && decide (x.1 < k0 + n))
      |>.map (fun x => (x.1 - k0, x.2)))).filter (fun xs => !xs.isEmpty)

/-- R239: a group of 32 is cut: it begins behind elements done before an earlier fault, or the strip stops in it at one. -/
def groupCut (stopped : Bool) (lanes : List (Nat × Nat)) : Bool :=
  (lanes.headD (0, 0)).2 != 0 || (stopped && (lanes.getLastD (0, 31)).2 != 31)

/-- R235, R238, R239: the body over elements 0 to n − 1. `stopped`: at element n the strip meets a fault. -/
def runBody (s : State) (q : Issuer) (els : Elements) (ws : List BodyWord) (k0 n : Nat) (stopped : Bool) : StripSt :=
  (bodyGroups k0 n).foldl (fun st lanes => bodyGroup s q els ws (groupCut stopped lanes) lanes st)
    { ac := [], p := [], gens := [], flags := 0, emits := [], flops := 0 }

end Sys2Proof.Machine
end

