-- ==== Sys2Proof/Machine/Branch.lean ====
section
/-! DEFINITION. Branches and calls (R179 to R182), indirect jumps and the end of a group (R183 to R185). -/

namespace Sys2Proof.Machine

/-! ## Targets -/

/-- R179, R390: the kernel and version whose texts an issuer may jump in: its block's, or in a handler those of the
kernel that holds the handler's word. -/
def textHolds (s : State) (q : Issuer) (a : Nat) : Bool :=
  if q.hand then
    s.kernels.any (fun k => k.2.part == q.part && inText k.2 0 q.ctx.pc.toNat && inText k.2 0 a)
  else match kernelOf s q.b with
    | some k => inText k q.b.ver a
    | none => false

/-- R179, R184: a target that no word of the version stands at. -/
def badTarget (s : State) (q : Issuer) (t : Dword) : Bool := t.toNat % 8 != 0 || !textHolds s q t.toNat

/-- R179: the register a `call` links. -/
def callLink (q : Issuer) : Reg := if q.hand then .h 31 else .s 63

/-- R181: the split word has issued; its group becomes the groups of `ps`, which go on, marked or not. -/
def splitAt (s : State) (q : Issuer) (ps : List Part) (mark : Bool) : State :=
  let s := countIssue s q q.ctx.pc
  let (s, ids) := splitGroup s q.gid ps
  if mark then ids.foldl atMarker s else s

/-! ## Direct branches -/

/-- R180: the members that take the branch: all or none for a control thread and in a handler. -/
def takers (q : Issuer) (f : Fixed) : Word :=
  if q.hand || q.vec then
    if (readP q f.pred.toNat).getLsbD 0 == !f.sense then BitVec.allOnes 32 else 0
  else active q f

/-- R179, R180: a branch; `link`: it is a call. DESIGN CHOICE (log 57): a branch that no member takes does not check its target. -/
def branchAct (f : Fixed) (off : BitVec 32) (link : Bool) (s : State) (q : Issuer) : State :=
  let target := q.ctx.pc + 8 * off.signExtend 64
  let t := takers q f
  let stay := q.lanes &&& ~~~t
  if t = 0 then finish s q f
  else if badTarget s q target then trapBefore s q causeBranch target false
  else if stay = 0 then
    finishAt (if link then holdS s q (callLink q) (q.ctx.pc + 8) 1 else s) q target f.sw
  else
    splitAt s q
      [{ mask := stay, pc := q.ctx.pc + 8, link := none },
        { mask := t, pc := target, link := if link then some (63, q.ctx.pc + 8) else none }] f.sw

/-- R179, `br`. -/
def execBr (f : Fixed) (off : BitVec 32) (s : State) : Host.Outcome State Fault Refusal :=
  word (.br f off) s (branchAct f off false)

/-- R179, `call`. -/
def execCall (f : Fixed) (off : BitVec 32) (s : State) : Host.Outcome State Fault Refusal :=
  word (.call f off) s (branchAct f off true)

/-! ## Indirect jumps -/

/-- R184: the target of each member, by lane; one for a scalar, and home slot 0's in a handler. -/
def jumpTargets (s : State) (q : Issuer) (a : Reg) : List (Nat × Dword) :=
  if a.scalar then [(0, scalarVal q a)]
  else if q.hand then [(0, laneVal s q true a 0)]
  else (laneList q.g.mask).map (fun l => (l, laneVal s q true a l))

/-- The least of some addresses. -/
def leastAddr (ts : List Dword) : Option Dword := leastBy BitVec.toNat ts

/-- Distinct addresses, ascending. -/
def ascending (ts : List Dword) : List Dword :=
  (ts.foldl (fun (t : Tab Unit) x => put t x.toNat ()) []).map (fun e => BitVec.ofNat 64 e.1)

/-- R183, R184: an indirect jump; `d` receives the link. DESIGN CHOICE (log 57): of misaligned targets and targets outside every text
together, the lowest is reported. -/
def jumpAct (f : Fixed) (d : Option Reg) (a : Reg) (s : State) (q : Issuer) : State :=
  let ts := jumpTargets s q a
  let link := q.ctx.pc + 8
  match leastAddr ((ts.map (·.2)).filter (badTarget s q)) with
  | some bad => trapBefore s q causeBranch bad false
  | none =>
    match ascending (ts.map (·.2)) with
    | [] => finish s q f
    | [t] =>
      finishAt (match d with
        | some r => holdS s q r link 1
        | none => s) q t f.sw
    | more =>
      splitAt s q (more.map (fun t =>
        { mask := ofLanes (fun l => ts.any (fun e => e.1 == l && e.2 == t)), pc := t,
          link := d.map (fun r => (regNum r, link)) })) f.sw

/-- R183, `brind`. -/
def execBrind (f : Fixed) (a : Reg) (s : State) : Host.Outcome State Fault Refusal :=
  word (.brind f a) s (jumpAct f none a)

/-- R183, `callind`. -/
def execCallind (f : Fixed) (d a : Reg) (s : State) : Host.Outcome State Fault Refusal :=
  word (.callind f d a) s (jumpAct f (some d) a)

/-! ## The end of a group -/

/-- R185: a control thread's streams have drained. -/
def sinksDrained (s : State) (q : Issuer) : Bool :=
  !(coreOf s q.g.core).storeQ.any (fun e => e.sink && e.owners.contains q.gid)

/-- R185: `ret` of zero: the group ends once every result of its run is in, as at a marker; a control thread once its
sink writes are performed. In a handler it is illegal. -/
def endAct (s : State) (q : Issuer) : State :=
  if q.hand then trapBefore s q causeIllegal 0 false
  else if q.ctx.pend ≠ [] then stall s q .results
  else if q.g.vec.isSome && !sinksDrained s q then stall s q .results
  else endGroup (passMarker (countIssue s q q.ctx.pc) q.gid) q.gid

/-- R183, `ret`. -/
def execRet (f : Fixed) (a : Reg) (s : State) : Host.Outcome State Fault Refusal :=
  word (.ret f a) s (fun s q => if scalarVal q a = 0 then endAct s q else jumpAct f none a s q)

end Sys2Proof.Machine
end

