-- ==== Sys2Proof/Machine/Vector.lean ====
section
/-! DEFINITION. The vector control thread (R234 to R241): streams and their ports, strips, accumulators. -/

namespace Sys2Proof.Machine

/-! ## Streams (R236, R237) -/

/-- R236: a stream specification read from 64 bytes; none where it breaks the map. -/
def parseSpec (sink : Bool) (b : List Byte) : Option StreamSpec :=
  let c := dwordIn b 8
  let sp := specOf b
  let dim (d : Nat) : Dword := dwordIn b (16 + 8 * d)
  if field c 63 11 ≠ 0 ∨ 4 < field c 10 8 ∨ field c 4 2 ≠ 0 ∨ sp.space = 3 ∨ (sink ∧ sp.space = 2) ∨ sp.base % sp.esz ≠ 0 ∨
      (sp.space = 2 ∧ 0x80000 ≤ sp.base) ∨
      (List.range sp.dims.length).any (fun d => field (dim d) 31 16 != 0 || sextNat (field (dim d) 63 32) 32 % (sp.esz : Int) != 0)
  then none else some sp

/-- R236: the length of a stream. -/
def StreamSpec.length (sp : StreamSpec) : Nat := dimsCount sp.dims

/-- R236: the address of element `e`. -/
def StreamSpec.at_ (sp : StreamSpec) (e : Nat) : Nat := addrPlus sp.base (dimsOffset (fun d j => (j : Nat) * d.sstr) sp.dims e)

/-- R237: elements a port has left; a port with no stream is at its end. -/
def Port.left (p : Port) : Nat :=
  match p.spec with
  | some sp => sp.length - p.pos
  | none => 0

def Port.empty : Port := { spec := none, pos := 0 }

/-- A port of the control thread. -/
def portOf (s : State) (gid : Nat) (sink : Bool) (n : Nat) : Port :=
  match (look s.groups gid).bind (·.vec) with
  | some v => (look (if sink then v.outs else v.ins) n).getD Port.empty
  | none => Port.empty

def setPort (s : State) (gid : Nat) (sink : Bool) (n : Nat) (p : Port) : State :=
  modGroup s gid (fun g => { g with vec := g.vec.map (fun v =>
    if sink then { v with outs := put v.outs n p } else { v with ins := put v.ins n p }) })

/-- R329: some of the source ports read an AM stream. -/
def readsAm (s : State) (gid : Nat) (ports : List Nat) : Bool :=
  ports.any (fun n => match (portOf s gid false n).spec with
    | some sp => sp.space == 2
    | none => false)

/-- R237: `vsrc` and `vsnk`. R241, R250: the reads of a source come after every earlier access of the control thread, as R161
has it; a `vsnk` performs its earlier loads and atomics alone (log 13). -/
def portAct (sink : Bool) (f : Fixed) (o : Ops4) (s : State) (q : Issuer) : State :=
  let a := (scalarVal q o.a).toNat
  if a % 64 ≠ 0 ∨ blockLocal s q.b < a + 64 then trapBefore s q causeDescriptor 0 false
  else
    let s := if sink then performMem s q.gid else releaseNow s q.gid
    match parseSpec sink (ownLocal s q a 64) with
    | none => trapBefore s q causeDescriptor 0 false
    | some sp => finish (setPort s q.gid sink (regNum o.d) { spec := some sp, pos := 0 }) q f

/-- R237, `vsrc`. -/
def execVsrc (f : Fixed) (o : Ops4) (s : State) : Host.Outcome State Fault Refusal := word (.vsrc f o) s (portAct false f o)

/-- R237, `vsnk`. -/
def execVsnk (f : Fixed) (o : Ops4) (s : State) : Host.Outcome State Fault Refusal := word (.vsnk f o) s (portAct true f o)

/-- R240, `vacc.reset`. -/
def execVaccReset (f : Fixed) (o : Ops4) (s : State) : Host.Outcome State Fault Refusal :=
  word (.vaccReset f o) s (fun s q =>
    finish (hold s q (.ac (regNum o.d)) (BitVec.allOnes 32) (List.replicate 32 (scalarVal q o.a)) 1) q f)

/-- R240, `vdrain`: a switch marker that also waits for the sink writes. -/
def execVdrain (f : Fixed) (o : Ops4) (s : State) : Host.Outcome State Fault Refusal :=
  word (.vdrain f o) s (fun s q =>
    let s := countIssue s q (q.ctx.pc + 8)
    if sinksDrained s q then atMarker s q.gid else parkGroup s q.gid .drain)

/-! ## Elements (R235, R236, R239) -/

/-- One element read: its value, the bits of `c.amerr` it sets, whether it came poisoned, or the trap it meets. -/
structure Got where
  s : State
  v : Dword
  err : Dword
  poisoned : Bool
  bad : Option MemTrap
  deriving DecidableEq, Repr

/-- R231, R236: bytes of AM. -/
def amBytes (s : State) (cl launch set a n : Nat) : State × Nat × Dword :=
  let w := a / 4
  let k := (a + n - 1) / 4 + 1 - w
  let (s, v, err) := amWordsAt s cl launch set w k
  (s, v.toNat / 2 ^ (8 * (a % 4)) % 2 ^ (8 * n), err)

/-- R235: the element as an operand: extended by its specification. -/
def StreamSpec.extend (sp : StreamSpec) (x : Nat) : Dword := extendTo64 sp.signed sp.esz x

/-- R239: element `e` of a source stream. -/
def sourceElement (s : State) (q : Issuer) (sp : StreamSpec) (e : Nat) : Got :=
  let a := sp.at_ e
  let n := sp.esz
  let fail (s : State) (t : MemTrap) : Got := { s, v := 0, err := 0, poisoned := false, bad := some t }
  if sp.space = 2 then
    let (s, x, err) := amBytes s (coreCluster q.g.core) q.b.launch q.g.set a n
    { s, v := sp.extend x, err, poisoned := false, bad := none }
  else
    let space : Space := if sp.space = 1 then .l else .g
    match badAddrIn (blockWindow s q.b) s q.b space n false [{ lane := 32, addr := a }] with
    | some t => fail s t
    | none =>
      let k := accessKeys s q.g.block q.b space needR true [{ lane := 32, addr := a }]
      match k.bad, k.keys with
      | some t, _ => fail k.s t
      | none, (_, key) :: _ =>
        let s := meterHost k.s q.part key n
        { s, v := sp.extend (leNat (forwarded s q.g.core q.gid s.fresh key n)), err := 0, poisoned := poisonedAt s key n,
          bad := none }
      | none, [] => fail k.s { cause := causeXlate, addr := a, write := false }

/-- The elements of a strip as its sources hold them, up to the first that faults. -/
structure Reads where
  s : State
  els : Elements
  err : Dword
  poisoned : Bool
  bad : Option MemTrap
  deriving DecidableEq, Repr

/-- Element `e` of every named source, in port order. -/
def readElement (q : Issuer) (ports : List (Nat × Port)) (r : Reads) (e : Nat) : Reads :=
  if r.bad.isSome then r
  else
    let one (acc : Reads × Tab Dword) (p : Nat × Port) : Reads × Tab Dword :=
      match acc.1.bad, p.2.spec with
      | none, some sp =>
        let g := sourceElement acc.1.s q sp (p.2.pos + e)
        ({ acc.1 with s := g.s, err := acc.1.err ||| g.err, poisoned := acc.1.poisoned || g.poisoned, bad := g.bad },
          putZ acc.2 p.1 g.v)
      | _, _ => acc
    let (x, el) := ports.foldl one (r, [])
    if x.bad.isSome then x else { x with els := x.els ++ [el] }

/-- Reads elements until there are `n` or one faults. -/
def readElements (q : Issuer) (ports : List (Nat × Port)) (r : Reads) (n : Nat) : Reads :=
  (List.range n).foldl (readElement q ports) r

/-- The writes of a strip's sinks: where each goes, and its bytes, up to the first that faults. -/
structure Writes where
  s : State
  stores : List (Nat × List Byte)
  bad : Option (Nat × MemTrap)
  deriving DecidableEq, Repr

/-- R239, R175: one emitted element finds its place. -/
def placeEmit (q : Issuer) (ports : List (Nat × Port)) (w : Writes) (x : Nat × Dword) : Writes :=
  if w.bad.isSome then w
  else
    let e := x.1 / 4
    match (ports.find? (fun p => p.1 == x.1 % 4)).bind (fun p => p.2.spec.map (fun sp => (p.2.pos, sp))) with
    | none => w
    | some (pos, sp) =>
      let as : List LaneAddr := [{ lane := 32, addr := sp.at_ (pos + e) }]
      let space : Space := if sp.space = 1 then .l else .g
      match (badAddrIn (blockWindow w.s q.b) w.s q.b space sp.esz true as).or (typedTrap q.b space sp.esz as) with
      | some t => { w with bad := some (e, t) }
      | none =>
        let k := accessKeys w.s q.g.block q.b space needW true as
        match k.bad with
        | some t => { w with s := k.s, bad := some (e, t) }
        | none => { w with s := k.s, stores := w.stores ++ k.keys.map (fun y => (y.2, leBytes x.2.toNat sp.esz)) }

/-! ## The strip (R238, R239) -/

/-- R239: elements an interrupted strip has done. -/
def stripDone (v : Dword) : Nat := if bitAt v 63 then field v 31 0 else 0

/-- R238: the elements a strip runs from `k0` on, and whether it stops at E. -/
def stripCount (e k0 : Nat) (lefts : List Nat) : Nat × Bool :=
  let ends := if e = 0 then lefts else (e - k0) :: lefts
  let n := match ends with
    | [] => 0
    | x :: xs => xs.foldl min x
  (n, (e != 0 && n == e - k0) || ends.isEmpty)

/-- Holds what a body leaves in registers and generators. It is visible to whatever the thread issues next (R239). -/
def holdStrip (s : State) (q : Issuer) (st : StripSt) : State :=
  let lanes {α : Type} (t : Tab α) (n : Nat) : Word := ofLanes (fun l => (look t (32 * n + l)).isSome)
  let s := (List.range 8).foldl (fun s n =>
    if lanes st.ac n = 0 then s
    else hold s q (.ac n) (lanes st.ac n) ((List.range 32).map (fun l => getZ st.ac (32 * n + l))) 0) s
  let s := (List.range 7).foldl (fun s n =>
    if lanes st.p n = 0 then s
    else hold s q (.p n) (lanes st.p n) [(ofLanes (fun l => getZ st.p (32 * n + l) != 0)).setWidth 64] 0) s
  let s := if st.flags = 0 then s else hold s q .flagsSet (BitVec.allOnes 32) [st.flags.setWidth 64] 0
  let s := setRng s q (ofLanes (fun l => (look st.gens l).isSome)) (getZ st.gens)
  addMeter s q.part 8 st.flops

/-- R238: the strip stopped on a marker or a full sink: ports that still hold elements or room lose them. -/
def discardRest (s : State) (q : Issuer) (ins outs : List Nat) : State :=
  let more (sink : Bool) (ns : List Nat) : List Nat := ns.filter (fun n => (portOf s q.gid sink n).left != 0)
  let i := more false ins
  let o := more true outs
  let s := i.foldl (fun s n => setPort s q.gid false n Port.empty) s
  let s := o.foldl (fun s n => setPort s q.gid true n Port.empty) s
  if i = [] ∧ o = [] then s else hold s q .flagsSet (BitVec.allOnes 32) [flagLMIS.setWidth 64] 0

/-- A strip over some elements: what its sources gave, what its body did, where its sinks' elements go. -/
structure StripRun where
  reads : Reads
  st : StripSt
  w : Writes
  deriving DecidableEq, Repr

/-- R238, R239: a strip from element `k0` on over up to `n` elements. `stopped`: it stops at a fault then. -/
def stripOver (s : State) (q : Issuer) (ws : List BodyWord) (src snk : List (Nat × Port)) (k0 n : Nat) (stopped : Bool) : StripRun :=
  let r := readElements q src { s, els := [], err := 0, poisoned := false, bad := none } n
  let n := if r.bad.isSome then r.els.length else n
  let st := runBody r.s q r.els ws k0 n (stopped || r.bad.isSome)
  { reads := r, st, w := st.emits.foldl (placeEmit q snk) { s := r.s, stores := [], bad := none } }

/-- R239: the first element that faults, and its trap. -/
def StripRun.fault (x : StripRun) : Option (Nat × MemTrap) := x.w.bad.or (x.reads.bad.map (fun t => (x.reads.els.length, t)))

/-- R238, R239: a strip whose body is `ws`, which sees the registers as `sees` does. Where element n faults it is run over the
n elements before it: that element and later ones have no effect. -/
def runStrip (s : State) (q sees : Issuer) (total : Nat) (ws : List BodyWord) : State :=
  let ins := bodyIns ws
  let outs := bodyOuts ws
  let src := ins.map (fun n => (n, portOf s q.gid false n))
  let snk := outs.map (fun n => (n, portOf s q.gid true n))
  let k0 := stripDone (hidden q (.cregWas 8) q.g.vstrip)
  let (cnt, atE) := stripCount total k0 ((src ++ snk).map (fun p => p.2.left))
  let tried := stripOver s sees ws src snk k0 cnt false
  let (n, run) := match tried.fault with
    | none => (cnt, tried)
    | some (n, _) => (n, stripOver s sees ws src snk k0 n true)
  let s := holdStrip (pushStores run.w.s q true run.w.stores) q run.st
  let s := setAmerr s [q.gid] run.reads.err
  let s := src.foldl (fun s p => setPort s q.gid false p.1 { p.2 with pos := p.2.pos + n }) s
  let s := snk.foldl (fun s p => setPort s q.gid true p.1 { p.2 with pos := p.2.pos + n }) s
  let pipe := ws.length * (bodyGroups k0 n).length
  let s := modBlock s q.g.block (fun b => { b with fired := b.fired + pipe })
  let done : State :=
    match tried.fault with
    | some (_, t) =>
      let at_ := BitVec.ofNat 64 (2 ^ 63 + (k0 + n) % 2 ^ 32)
      memTrap (modGroup s q.gid (fun g => { g with vstrip := at_ }.unhide (.cregWas 8))) q t
    | none =>
      let s := if atE then s else discardRest s q ins outs
      let s := modGroup s q.gid (fun g => { g with vstrip := 0 })
      let s := countIssue s q (q.ctx.pc + 8 * BitVec.ofNat 64 (ws.length + 1))
      let s := modCtx s q (fun c => { c with run := c.run + ws.length, issued := c.issued + ws.length })
      modGroup (atMarker s q.gid) q.gid (fun g => { g with strip := true })
  if run.reads.poisoned then killBlock done q.g.block 2 else done

/-- R58, R235: the words a body may have: behind a marked `vstrip` a run begins with it (R57). -/
def bodyRoom (q : Issuer) (mark : Bool) : Nat := if mark then 48 else 47 - q.ctx.run

/-- R235, R238: `vstrip`. R57: a marked one waits until every result is in before its body, which sees them all. -/
def vstripAct (f : Fixed) (o : Ops4) (s : State) (q : Issuer) : State :=
  let c := checkBody s q.part ((q.ctx.pc.toNat + 8) % 2 ^ 64) [] (bodyRoom q f.sw)
  if c.poisoned then killBlock c.s q.g.block 2
  else match c.trap with
    | some (cause, addr) => trapBefore c.s q cause addr false
    | none =>
      if !f.sw && bodyExposed q c.words then trapBefore c.s q causeExposed 0 false
      else match bodyToken q c.words with
        | some n => stall c.s q (.token n)
        | none =>
          let am := readsAm c.s q.gid (bodyIns c.words)
          let s := if am || f.sw then performOwn c.s q.gid else performMem c.s q.gid
          if am && amBlocked s (coreCluster q.g.core) q.gid s.fresh then stall s q .am
          else match issuer s with
            | some q =>
            if f.sw && q.ctx.pend != [] then stall s q .results
            else runStrip s q (if f.sw then q.markedView else q) (field (scalarVal q o.a) 31 0) c.words
            | none => s

/-- R234, `vstrip`. -/
def execVstrip (f : Fixed) (o : Ops4) (s : State) : Host.Outcome State Fault Refusal := word (.vstrip f o) s (vstripAct f o)

end Sys2Proof.Machine
end

