-- ==== Sys2Proof/Machine/FabImage.lean ====
section
/-! DEFINITION. Configuration images (R105 to R110, R306, R308 to R315, R325): stage programs, the tables, compression,
and the checks `fload` makes of them. -/

namespace Sys2Proof.Machine

/-! ## Stage words -/

/-- R107: what a consumer code names. -/
inductive Con where
  | slot (k i : Nat)
  | out (p : Nat)
  | none
  | bad
  deriving DecidableEq, Repr

def conOf (c : Nat) : Con :=
  if c < 384 then .slot (c / 128) (c % 128)
  else if c < 392 then .out (c - 384)
  else if c = 511 then .none
  else .bad

/-- R106: the fields of a stage word. -/
def stageWord (x : Dword) : StageWord :=
  { stop := bitAt x 62, cls := field x 61 56, minor := field x 55 48, conA := field x 47 39, conB := field x 38 30,
    ib := bitAt x 29, imm := field x 28 16, port := field x 11 9, sat := bitAt x 8, rnd := field x 7 5, pes := field x 4 2,
    k := BitVec.ofNat 32 (field x 47 16) }

/-- R108. -/
def StageWord.isGet (w : StageWord) : Bool := w.cls == 0x38 && w.minor == 0
def StageWord.isImm (w : StageWord) : Bool := w.cls == 0x38 && w.minor == 1
def StageWord.isMerge (w : StageWord) : Bool := w.cls == 0x38 && w.minor == 2
def StageWord.isRare (w : StageWord) : Bool := w.cls == 0x38 && w.minor == 3

/-- The operation of classes 0x03 to 0x07, and its type's code. -/
def StageWord.op (w : StageWord) : Nat := w.minor / 16
def StageWord.ty (w : StageWord) : Nat := w.minor % 16

/-- R107: the consumers of a word. -/
def StageWord.cons (w : StageWord) : List Con := if w.isImm then [] else [conOf w.conA, conOf w.conB]

/-- R109, R120, R128 to R133, R305, R306: the slots an operation reads. -/
def opSlots (w : StageWord) : List Nat :=
  match w.cls with
  | 3 => if w.op = 4 then [0, 1, 2] else if 13 ≤ w.op then [0] else [0, 1]
  | 5 => if w.op < 3 then [0] else if w.op = 3 then [0, 1] else [0, 1, 2]
  | 6 => if w.op = 1 then [0, 1, 2] else if w.op = 5 then [0] else [0, 1]
  | 7 => if w.op = 3 ∨ w.op = 4 then [0, 1, 2] else if 7 ≤ w.op then [0] else [0, 1]
  | _ => if w.minor < 2 then [] else [0, 1]

/-- R106: slot b receives no token when the word has an immediate. -/
def StageWord.slots (w : StageWord) : List Nat := (opSlots w).filter (fun k => !(w.ib && k == 1))

/-- R100, R132: a stage may hold the word. -/
def stageClass (w : StageWord) : Bool :=
  assigned w.cls w.minor && classModel w.cls w.minor .spa && !((w.cls == 6 || w.cls == 7) && w.ty == 12)

/-- R120, R133: `.sat` and rounding modes where the operation has them. -/
def stageModes (w : StageWord) : Bool :=
  let sat := (w.cls == 3 && [0, 1, 2, 4, 13, 15].contains w.op) || (w.cls == 7 && decide (w.op < 5))
  (!w.sat || sat) && (w.rnd == 0 || (w.cls == 7 && decide (w.op < 5) && decide (w.rnd < 5)))

/-- R106, R109: PES. -/
def stagePes (w : StageWord) : Bool :=
  if w.cls = 7 ∧ w.op < 5 then w.pes == 1 || w.pes == 4 else decide (w.pes < 6)

/-- R108, R305, R306: the rules of the stage-only words. `kinds`: the KINDs of the port table. -/
def stageOnly (kinds : List Nat) (w : StageWord) : Bool :=
  if w.isGet then !w.ib && w.imm == 0 && !w.sat && w.rnd == 0 && w.pes == 0
  else if w.isMerge then !w.ib && decide (w.imm < 2) && !w.sat && w.rnd == 0
  else if w.isRare then !w.ib && decide (w.imm < 4096) && kinds[w.imm]? == some 2 && !w.sat && w.rnd == 0
  else true

/-- One feed of a slot: the producer's index, the consumer's index, the slot. -/
structure Feed where
  src : Nat
  dst : Nat
  k : Nat
  deriving DecidableEq, Repr

def feedsOf (ws : List StageWord) : List Feed :=
  ws.zipIdx.flatMap (fun w => w.1.cons.filterMap (fun c =>
    match c with
    | .slot k i => some { src := w.2, dst := i, k }
    | _ => none))

/-- R110: word `j`, whose dword is `x`, offends. DESIGN CHOICE (log 52): a word whose CONA and CONB name one slot feeds it
twice. -/
def wordOffends (kinds : List Nat) (p : StageProg) (feeds : List Feed) (x : Dword) (w : StageWord) (j : Nat) : Bool :=
  let next := p.words[j + 1]?
  let before := if j = 0 then none else p.words[j - 1]?
  bitAt x 63 || field x 15 12 != 14 || field x 1 0 != 0 || !stageClass w ||
    (if w.isImm then
      field x 11 0 != 0 || (match next with
        | some n => n.isImm || !n.ib || n.imm != 0
        | none => true)
    else
      !stageModes w || !stagePes w || !stageOnly kinds w || w.cons.contains .bad ||
        (w.ib && (match before with
          | some b => b.isImm && w.imm != 0
          | none => false))) ||
    (feeds.filter (fun f => f.src == j)).any (fun f =>
      match p.words[f.dst]? with
      | none => true
      | some d => d.isImm || !d.slots.contains f.k || (decide (f.dst ≤ j) && !p.keep)) ||
    (!w.isImm && w.slots.any (fun k => (feeds.filter (fun f => f.dst == j && f.k == k)).length != 1)) ||
    (w.stop != (j == 0 && p.spord != 0xFFFF))

/-- R105: the tokens per firing of a port. -/
def nibble (x : Nat) (p : Nat) : Nat := x / 16 ^ p % 16

/-- R105: a stage program of expanded dwords. -/
def stageProg (ds : List Dword) : StageProg :=
  let lo := ds.getD 0 0
  let hi := ds.getD 1 0
  { keep := bitAt hi 48, spord := field hi 47 32, incnt := (List.range 8).map (nibble (field hi 31 0)),
    outcnt := (List.range 8).map (nibble (field lo 63 32)), comm := field lo 31 24, nullok := field lo 23 16,
    rdout := field lo 15 8, words := (ds.drop 2).map stageWord, bytes := 8 * ds.length }

/-- R105, R108, R110: the header offends, on its own or against the words. -/
def headerOffends (ds : List Dword) (p : StageProg) : Bool :=
  let lo := ds.getD 0 0
  let hi := ds.getD 1 0
  field hi 63 56 != 1 || field lo 7 0 != 0 || (p.incnt ++ p.outcnt).any (fun n => decide (8 < n)) ||
    (List.range 8).any (fun k =>
      (p.words.filter (fun w => w.isGet && w.port == k)).length != p.inputs k ||
        ((p.words.flatMap StageWord.cons).filter (fun c => c == .out k)).length != p.outputs k)

/-- R110: the index of the first offending word of a stage, 0xFF for the header. DESIGN CHOICE (log 52): a slot that is fed
twice or not at all offends at the word that has it, and a port's count of words at the header. -/
def stageOffence (kinds : List Nat) (ds : List Dword) (p : StageProg) : Option Nat :=
  if headerOffends ds p then some 0xFF
  else
    let feeds := feedsOf p.words
    (((ds.drop 2).zip p.words).zipIdx.find? (fun x => wordOffends kinds p feeds x.1.1 x.1.2 x.2)).map (·.2)

/-! ## Compression (R314) -/

/-- R314: expands one stream; `prev`: the dword before, `room`: dwords still allowed. None where it breaks the code. -/
def expand (dict : List Dword) : Nat → List Byte → Option Dword → Option (List Dword)
  | 0, _, _ => none
  | _ + 1, [], _ => none
  | f + 1, c :: bs, prev =>
    let c := c.toNat
    if c < 0xF0 then
      match dict[c]? with
      | some d => (expand dict f bs (some d)).map (fun ds => d :: ds)
      | none => none
    else if c = 0xF0 then
      match bs with
      | n :: bs => (expand dict f bs (some 0)).map (fun ds => List.replicate (n.toNat + 1) 0 ++ ds)
      | [] => none
    else if c = 0xF1 then
      if bs.length < 8 then none
      else
        let d := dwordIn bs 0
        (expand dict f (bs.drop 8) (some d)).map (fun ds => d :: ds)
    else if c = 0xF2 then
      match bs, prev with
      | n :: bs, some d => (expand dict f bs (some d)).map (fun ds => List.replicate (n.toNat + 1) d ++ ds)
      | _, _ => none
    else if c = 0xF3 then some []
    else none

/-- R314: a stage's dwords: 16 + 8 × (NW + 1) bytes, or none. -/
def stageDwords (dict : List Dword) (bs : List Byte) : Option (List Dword) :=
  match expand dict 132 bs none with
  | some ds => if 3 ≤ ds.length ∧ ds.length = field (ds.getD 1 0) 55 49 + 3 then some ds else none
  | none => none

/-! ## Tables -/

/-- R310: the header of an image. -/
structure ImgHead where
  nstg : Nat
  v : Nat
  p : Nat
  kind : Nat
  rdch : Nat
  ndict : Nat
  nport : Nat
  nch : Nat
  stgOff : Nat
  dictOff : Nat
  portOff : Nat
  chOff : Nat
  scrsz : Nat
  imgsz : Nat
  sig : Word
  clean : Bool
  deriving DecidableEq, Repr

def imgHead (b : List Byte) : ImgHead :=
  let d0 := dwordIn b 0
  let d1 := dwordIn b 8
  let d2 := dwordIn b 0x10
  let d3 := dwordIn b 0x18
  let d5 := dwordIn b 0x28
  { nstg := field d0 63 48, v := field d0 47 32, p := field d0 23 16, kind := field d0 7 0, rdch := field d1 39 32,
    ndict := field d1 31 24, nport := field d1 23 16, nch := field d1 15 0, stgOff := field d2 63 32,
    dictOff := field d2 31 0, portOff := field d3 63 32, chOff := field d3 31 0, scrsz := (dwordIn b 0x20).toNat,
    imgsz := field d5 63 32, sig := BitVec.ofNat 32 (field d5 31 0),
    clean := field d0 31 24 == 0 && field d0 15 8 == 1 && field d1 63 40 == 0 &&
      ((b.drop 0x30).take 0xD0).all (· == 0) }

/-- R310: the fields lie in their ranges, and every table in the image, from an 8-byte boundary on. -/
def ImgHead.sound (h : ImgHead) : Bool :=
  let table (off n : Nat) : Bool := n == 0 || (off % 8 == 0 && decide (256 ≤ off) && decide (off + n ≤ h.imgsz))
  h.clean && h.kind == 1 && decide (1 ≤ h.nstg) && decide (h.nstg ≤ 4096) && decide (1 ≤ h.v) && decide (h.v ≤ 4096) &&
    decide (h.ndict ≤ 240) && decide (h.nport ≤ 64) && decide (256 ≤ h.imgsz) && table h.stgOff (16 * h.nstg) &&
    table h.chOff (16 * h.nch) && table h.portOff (64 * h.nport) && table h.dictOff (8 * h.ndict)

/-- R312: a channel. -/
def chanCfg (b : List Byte) : ChanCfg :=
  let lo := dwordIn b 0
  let hi := dwordIn b 8
  { pstg := field hi 59 48, pport := field hi 47 45, cstg := field hi 44 33, cport := field hi 32 30,
    depth := field hi 29 19, usesu := bitAt hi 18, suk := field hi 17 14, crow := field hi 13 2, cen := bitAt hi 1,
    csat := bitAt hi 0, crnd := field lo 63 62, sfmt := field lo 61 57, dfmt := field lo 56 52 }

def chanClean (b : List Byte) : Bool := field (dwordIn b 8) 63 60 == 0 && field (dwordIn b 0) 51 0 == 0

/-- R313: a port table entry. -/
def portCfg (b : List Byte) : PortCfg :=
  let d := dwordIn b 0
  let e := dwordIn b 8
  { kind := field d 63 62, stg := field d 59 48, port := field d 47 45,
    cmpl := if bitAt d 44 then some (field d 43 32, field d 31 29) else none, param := field d 28 24,
    spec := specOf b, rentry := field e 31 0, rregs := field e 39 32 }

/-- R313: the entry's reserved fields are zero and its values in range. `thr`: the size of the threaded hot text. -/
def portClean (thr : Option Nat) (b : List Byte) (c : PortCfg) : Bool :=
  let d := dwordIn b 0
  let tail (n : Nat) : Bool := (b.drop n).all (· == 0)
  field d 61 60 == 0 && field d 23 0 == 0 && (decide (c.kind < 2) || (c.cmpl.isNone && field d 43 24 == 0)) &&
    (match c.kind with
      | 0 | 1 => decide (c.param ≤ 30) && c.spec.space == 0 &&
          (parseSpec (c.kind == 1) (leBytes 0 8 ++ b.drop 8)).isSome
      | 2 => tail 0xD && c.rentry % 8 == 0 && c.rregs % 8 == 0 && decide (8 ≤ c.rregs) &&
          (match thr with
            | some n => decide (c.rentry < n)
            | none => true)
      | _ => tail 8)

/-! ## Checks (R309, R315, R325) -/

/-- Why an image is refused: CODE and INFO, none where the manual states no INFO. -/
structure Refused where
  code : Nat
  info : Option Dword
  deriving DecidableEq, Repr

/-- R244: INFO of a rejected stage. -/
def stageInfo (stage word : Nat) : Dword := BitVec.ofNat 64 (word + stage * 2 ^ 8)

def refuse7 : Refused := { code := 7, info := none }
def refuse9 : Refused := { code := 9, info := some noAddr }
def refuse8 (stage : Nat) : Refused := { code := 8, info := some (BitVec.ofNat 64 stage) }

/-- R312, R313: how often a stage's input or output port is joined. -/
def joinsIn (cs : List ChanCfg) (ps : List PortCfg) (s p : Nat) : Nat :=
  (cs.filter (fun c => c.cstg == s && c.cport == p)).length +
    (ps.filter (fun e => e.kind % 2 == 0 && e.stg == s && e.port == p)).length +
    (ps.filter (fun e => e.cmpl == some (s, p))).length

def joinsOut (cs : List ChanCfg) (ps : List PortCfg) (s p : Nat) : Nat :=
  (cs.filter (fun c => c.pstg == s && c.pport == p)).length +
    (ps.filter (fun e => e.kind % 2 == 1 && e.stg == s && e.port == p)).length

/-- R312, R315: every port a stage declares is joined once, and no other is. -/
def portsJoined (cs : List ChanCfg) (ps : List PortCfg) (stages : List StageCfg) : Bool :=
  stages.zipIdx.all (fun s => (List.range 8).all (fun k =>
    joinsIn cs ps s.2 k == (if s.1.prog.inputs k = 0 then 0 else 1) &&
      joinsOut cs ps s.2 k == (if s.1.prog.outputs k = 0 then 0 else 1)))

/-- R315: exactly one chain, within RDCH. -/
def rdoutSound (rdch : Nat) (p : StageProg) : Bool :=
  (List.range 8).any (fun k => p.rdout == 2 ^ k && (BitVec.ofNat 8 rdch).getLsbD k)

/-- R325: a channel's span. -/
def chanSpan (stages : List StageCfg) (c : ChanCfg) : Nat :=
  let a := rowOf stages c.pstg
  let b := rowOf stages c.cstg
  max a b - min a b

/-- R322: the bytes of a stage's state: its generators and its KEEP latches. -/
def StageProg.latches (p : StageProg) : List (Nat × Nat) :=
  if p.keep then ((feedsOf p.words).filter (fun f => decide (f.dst ≤ f.src))).map (fun f => (f.dst, f.k)) else []

def StageProg.stateBytes (p : StageProg) : Nat := 64 + 64 * p.latches.length

/-- R322: the minimum of SCRSZ. -/
def scrollNeed (stages : List StageCfg) (cs : List ChanCfg) : Nat :=
  4096 + stages.foldl (fun n s => n + s.prog.stateBytes) 0 + 64 * cs.foldl (fun n c => n + ringOf stages c) 0

/-- R308: a format a converter accepts. -/
def nodeFormat (n : Nat) : Bool := (decide (1 ≤ n) && decide (n ≤ 0x0A)) || (decide (0x15 ≤ n) && decide (n ≤ 0x1B))

/-- R308: the node of a channel: its row, and whether it is the eastbound one: the producer lies west of the link. -/
def nodeOf (stages : List StageCfg) (c : ChanCfg) : Nat × Bool :=
  (c.crow, match stages[c.pstg]? with
    | some s => decide (s.pek < 8)
    | none => false)

/-- R308, R309, R325: a channel breaks a condition on converters. -/
def pathBroken (scrolls : Bool) (p : Nat) (stages : List StageCfg) (cs : List ChanCfg) (c : ChanCfg) : Bool :=
  let a := rowOf stages c.pstg
  let b := rowOf stages c.cstg
  if c.cen then
    c.crow % 3 != 1 || !nodeFormat c.sfmt || !nodeFormat c.dfmt ||
      (scrolls && decide (p - 1 < max (max a b) c.crow - min (min a b) c.crow)) ||
      decide (4 < (cs.filter (fun d => d.cen && nodeOf stages d == nodeOf stages c)).length)
  else c.sfmt != c.dfmt

/-- R315: two of a list agree. -/
def clash (xs : List Nat) : Bool := decide (xs.length ≠ xs.eraseDups.length)

/-- R315: the image does not fit a band of `p` rows. -/
def misfits (p : Nat) (h : ImgHead) (stages : List StageCfg) (cs : List ChanCfg) : Bool :=
  let scrolls := decide (h.p < h.v)
  h.p != p || stages.any (fun s => (s.fpb != 0) != scrolls) || (scrolls && h.v % 3 != 0) ||
    (scrolls && cs.any (fun c => decide (h.p - 1 < chanSpan stages c))) ||
    (if scrolls then decide (h.scrsz < scrollNeed stages cs) else h.scrsz != 0) ||
    cs.any (fun c => if c.usesu then !(decide (9 ≤ c.depth) && decide (c.depth ≤ 1032)) else c.depth != 8) ||
    clash ((cs.filter (·.usesu)).map (fun c => 16 * rowOf stages c.cstg + c.suk))

/-- R315: a table entry names a stage or port that does not exist, or breaks the tables' own rules. -/
def tablesBroken (h : ImgHead) (stages : List StageCfg) (cs : List ChanCfg) (ps : List PortCfg) : Bool :=
  let stage (n : Nat) : Bool := decide (n < stages.length)
  stages.any (fun s => decide (h.v ≤ s.vrow)) || clash (stages.map (fun s => 16 * s.vrow + s.pek)) ||
    cs.any (fun c => !stage c.pstg || !stage c.cstg) ||
    ps.any (fun e => !stage e.stg || (match e.cmpl with
      | some (s, _) => !stage s
      | none => false)) ||
    !portsJoined cs ps stages || stages.any (fun s => !rdoutSound h.rdch s.prog) ||
    cs.any (fun c => match stages[c.pstg]?, stages[c.cstg]? with
      | some a, some b => a.prog.outputs c.pport != b.prog.inputs c.cport
      | _, _ => true)

/-- A slice of the image. -/
def slice (b : List Byte) (off n : Nat) : List Byte := (b.drop off).take n

/-- The stages as they expand, or the first that does not (R314) or offends (R110). -/
def imageStages (h : ImgHead) (b : List Byte) (dict : List Dword) (kinds : List Nat) : Nat → Except Refused (List StageCfg)
  | 0 => .ok []
  | n + 1 =>
    let i := h.nstg - (n + 1)
    let e := slice b (h.stgOff + 16 * i) 16
    let lo := dwordIn e 0
    let hi := dwordIn e 8
    match stageDwords dict (b.drop (field hi 63 32)) with
    | none => .error { code := 7, info := some (stageInfo i 0xFF) }
    | some ds =>
      let prog := stageProg ds
      match stageOffence kinds ds prog with
      | some j => .error { code := 7, info := some (stageInfo i j) }
      | none =>
        if field lo 63 32 ≠ 0 ∨ field lo 15 0 ≠ 0 then .error refuse7
        else match imageStages h b dict kinds n with
          | .error r => .error r
          | .ok ss => .ok ({ vrow := field lo 31 20, pek := field lo 19 16, fpb := field hi 31 0, prog } :: ss)

/-- R245, R315: checks a configuration image of `b`'s bytes at `image` for a band of `p` rows. `thr`: the size of the
kernel's threaded hot text, none without a threaded version. -/
def checkImage (image p : Nat) (thr : Option Nat) (b : List Byte) : Except Refused Config :=
  let h := imgHead b
  if !h.sound || b.length ≠ h.imgsz || crc32c (b.drop 0x100) ≠ h.sig then .error refuse7
  else
    let dict := (List.range h.ndict).map (fun i => dwordIn b (h.dictOff + 8 * i))
    let rawPorts := (List.range h.nport).map (fun i => slice b (h.portOff + 64 * i) 64)
    let ps := rawPorts.map portCfg
    let rawChans := (List.range h.nch).map (fun i => slice b (h.chOff + 16 * i) 16)
    let cs := rawChans.map chanCfg
    match imageStages h b dict (ps.map (·.kind)) h.nstg with
    | .error r => .error r
    | .ok stages =>
      let rare := stages.any (fun s => s.prog.words.any StageWord.isRare)
      if !rawChans.all chanClean || !(rawPorts.zip ps).all (fun e => portClean thr e.1 e.2) || (rare && thr.isNone) ||
          tablesBroken h stages cs ps then .error refuse7
      else if misfits p h stages cs then .error refuse9
      else match cs.find? (pathBroken (decide (h.p < h.v)) h.p stages cs) with
        | some c => .error (refuse8 c.pstg)
        | none =>
          .ok { image, sig := h.sig, v := h.v, p := h.p, scrsz := h.scrsz, rdch := h.rdch, stages, chans := cs, ports := ps }

end Sys2Proof.Machine
end

