-- ==== Sys2Proof/Machine/Groups.lean ====
section
/-! DEFINITION. Group membership (R186 to R192): `gjoin`, `gleave`, `elect`, `ballot`. -/

namespace Sys2Proof.Machine

/-! ## gjoin -/

/-- R187: the groups of a block parked at a tag, with the mask and the word each names. -/
def joinWaiters (s : State) (blk tag : Nat) : List (Nat × Group × Word × Dword) :=
  (blockGroups s blk).filterMap (fun e =>
    match e.2.park with
    | some (.join t m w) => if t = tag then some (e.1, e.2, m, w) else none
    | _ => none)

/-- R188, R344: the arriving group conflicts. -/
def joinConflict (q : Issuer) (m : Word) (ws : List (Nat × Group × Word × Dword)) : Bool :=
  q.g.mask &&& ~~~m != 0 || (q.b.n16 && m &&& 0xFFFF#32 != 0 && m >>> 16 != 0) ||
    ws.any (fun w =>
      w.2.1.mask &&& q.g.mask != 0 || w.2.2.1 != m || w.2.2.2 != q.ctx.pc || w.2.1.set != q.g.set)

/-- R189: the rows of a set once members with a smaller view gain registers up to `view`: those read zero. -/
def gainRows (t : Tab Word) (view : Nat) (g : Group) : Tab Word :=
  t.filter (fun e => !(decide (g.view ≤ e.1 / 32) && decide (e.1 / 32 < view) && g.mask.getLsbD (e.1 % 32)))

/-- The group with the lowest home slot. -/
def lowestGroup : List (Nat × Group) → Option (Nat × Group) :=
  leastBy (fun e => (laneList e.2.mask).headD 32)

/-- R189: the merged group of `ws`, whose lowest group is `low`. -/
def joined (low : Group) (ws : List (Nat × Group)) (m : Word) (view : Nat) (pc : Dword) : Group :=
  { low with
    mask := m, view,
    ctx :=
      { low.ctx with
        pc, run := 0, held := [], pend := [], toks := [],
        p := ws.foldl (fun t e => (List.range 7).foldl (fun t n => putZ t n (getZ t n ||| (getZ e.2.ctx.p n &&& e.2.mask))) t) [] },
    fstat := ws.foldl (fun x e => x ||| e.2.fstat) 0,
    amerr := ws.foldl (fun x e => x ||| e.2.amerr) 0,
    vstrip := 0, park := none, trap := none, active := false, swapped := false, slot := none }

/-- R187, R189: the groups of `ws` end; the merged one goes on after the word, with the oldest age among them. -/
def mergeGroups (s : State) (core set : Nat) (ws : List (Nat × Group)) (m : Word) (pc : Dword) : State :=
  match lowestGroup ws with
  | none => s
  | some (_, low) =>
    let ids := ws.map (·.1)
    let view := ws.foldl (fun v e => max v e.2.view) 0
    let j := s.fresh
    let c := coreOf s core
    let first := c.order.find? (fun o => ids.contains o)
    let order := c.order.filterMap (fun o => if some o = first then some j else if ids.contains o then none else some o)
    let heirs (o : List Nat) : List Nat :=
      if o.any (fun o => ids.contains o) then o.filter (fun o => !ids.contains o) ++ [j] else o
    let own (e : StoreEnt) : StoreEnt := { e with owners := heirs e.owners }
    let s := setCore s core { c with order, storeQ := c.storeQ.map own }
    let s := reownBanks s (coreCluster core) heirs
    let g := { joined low ws m view pc with readyAt := some s.clock }
    { s with
      groups := put (ids.foldl drop s.groups) j g
      sets := upd s.sets set (fun a => { a with v := ws.foldl (fun t e => gainRows t view e.2) a.v })
      fresh := s.fresh + 1 }

/-- R187: the group parks at the tag, or the last one to arrive merges them all. -/
def joinAct (a : Reg) (tag : BitVec 25) (s : State) (q : Issuer) : State :=
  let m := (scalarVal q a).setWidth 32
  let ws := joinWaiters s q.g.block tag.toNat
  let pc := q.ctx.pc
  if joinConflict q m ws then trapBefore s q causeJoin 0 false
  else if q.g.mask = m then finishAt s q (pc + 8) true
  else match q.ctx.toks with
    | t :: _ => stall s q (.token t.reg)
    | [] =>
      if q.ctx.pend ≠ [] then stall s q .results
      else
        let s := passMarker (countIssue s q (pc + 8)) q.gid
        if ws.foldl (fun u w => u ||| w.2.1.mask) q.g.mask = m then
          match look s.groups q.gid with
          | some g => mergeGroups s q.g.core q.g.set ((q.gid, g) :: ws.map (fun w => (w.1, w.2.1))) m (pc + 8)
          | none => s
        else parkGroup s q.gid (.join tag.toNat m pc)

/-- R187, `gjoin`. -/
def execGjoin (f : Fixed) (a : Reg) (tag : BitVec 25) (s : State) : Host.Outcome State Fault Refusal :=
  word (.gjoin f a tag) s (joinAct a tag)

/-! ## gleave, elect, ballot -/

/-- R190: the groups `gleave` makes: those that stay, then one for each member that leaves. -/
def leaveParts (mask out : Word) (pc : Dword) : List Part :=
  let stay := mask &&& ~~~out
  (if stay = 0 then [] else [{ mask := stay, pc, link := none }]) ++
    (laneList out).map (fun l => { mask := 1#32 <<< l, pc, link := none })

/-- R190, `gleave`. -/
def execGleave (f : Fixed) (s : State) : Host.Outcome State Fault Refusal :=
  word (.gleave f) s (fun s q =>
    let out := active q f
    if out = 0 then finishAt s q (q.ctx.pc + 8) true
    else splitAt s q (leaveParts q.g.mask out (q.ctx.pc + 8)) true)

/-- R191: the lowest active member. -/
def lowestLane (m : Word) : Word := m &&& (0 - m)

/-- R191, `elect`. -/
def execElect (f : Fixed) (d : Reg) (s : State) : Host.Outcome State Fault Refusal :=
  word (.elect f d) s (fun s q => finish (holdP s q d (BitVec.allOnes 32) (lowestLane (active q f)) 4) q f)

/-- R192, `ballot`. -/
def execBallot (f : Fixed) (d : Reg) (s : State) : Host.Outcome State Fault Refusal :=
  word (.ballot f d) s (fun s q => finish (holdS s q d ((active q f).setWidth 64) 4) q f)

end Sys2Proof.Machine
end

