-- ==== Sys2Proof/Machine/Regs.lean ====
section
/-! DEFINITION. Register growth (R196 to R198), the rows of spawned groups (R199), and the way out of a deadlock in
growth (R396, R182). -/

namespace Sys2Proof.Machine

/-! ## Sets and views -/

/-- R197: rows(S). -/
def setRows (s : State) (set : Nat) : Nat :=
  match look s.sets set with
  | some a => a.rows
  | none => 0

/-- R197: the largest view in a set. -/
def setView (s : State) (set : Nat) : Nat :=
  s.groups.foldl (fun v e => if e.2.set = set then max v e.2.view else v) 0

/-- R197: `grow n` takes effect: rows, zeroes, view. -/
def growNow (s : State) (gid n : Nat) : State :=
  match look s.groups gid with
  | none => s
  | some g =>
    let s := { s with sets := upd s.sets g.set (fun a => { a with rows := max a.rows n, v := gainRows a.v n g }) }
    modGroup s gid (fun g => { g with view := n })

/-- R197: `shrink n` takes effect. -/
def shrinkNow (s : State) (gid n : Nat) : State :=
  match look s.groups gid with
  | none => s
  | some g =>
    let keep (h : Held) : Bool := match h.dest with
      | .v m => decide (m < n)
      | _ => true
    let s := modGroup s gid (fun g => { g with view := n, ctx := { g.ctx with held := g.ctx.held.filter keep } })
    let rows := setView s g.set
    { s with sets := upd s.sets g.set (fun a => { a with rows, v := a.v.filter (fun e => decide (e.1 / 32 < rows)) }) }

/-! ## Spawned groups -/

/-- R199: the new group of a spawn, youngest on its core. -/
def spawnNow (s : State) (gid : Nat) (start : Dword) (lanes : List (Nat × Nat × Word)) : State :=
  match look s.groups gid with
  | none => s
  | some g =>
    match look s.blocks g.block with
    | none => s
    | some b =>
      let q : Issuer :=
        { gid, g, b, ctx := g.ctx, hv := [], hand := false, at_ := g.ctx.issued, lanes := g.mask }
      let seed := match look s.launches b.launch with
        | some l => l.seed
        | none => 0
      let set : AllocSet :=
        { block := g.block, core := g.core, rows := g.view,
          v := lanes.foldl (fun t x => putZ t x.1 x.2.2) [],
          rng := lanes.foldl (fun t x => putZ t x.1 (seedOf seed b.index x.2.1)) [],
          threads := lanes.map (fun x => (x.1, { pool := x.2.1, index := none })) }
      let mask := ofLanes (fun l => lanes.any (fun x => x.1 == l))
      let child := startGroup g.block g.core s.fresh mask g.view start (fileOf 63 (readS q)) s.clock
      let child := { child with ctx := { child.ctx with tl := fileOf 8 (readTl q) } }
      let c := coreOf s g.core
      let s' := setCore s g.core { c with order := c.order ++ [s.fresh + 1] }
      overflow
        { s' with
          sets := put s'.sets s.fresh set
          groups := put s'.groups (s.fresh + 1) child
          fresh := s.fresh + 2 } g.core 1024

/-! ## Requests for rows -/

/-- R198: the rows a parked request waits for. -/
def rowsWanted (s : State) (g : Group) : Option Nat :=
  match g.park with
  | some (.grow n) => some (n - setRows s g.set)
  | some (.spawn ..) => some g.view
  | _ => none

/-- R396: what waits for rows on a core. -/
inductive Waiter where
  | request (gid rows : Nat)
  | returning (set rows places : Nat)
  deriving DecidableEq, Repr

/-- R198, R396: the waiters of a core, the one whose oldest group is oldest first. -/
def waiters (s : State) (core : Nat) : List Waiter :=
  ((coreOf s core).order.foldl (fun (acc : List Waiter × List Nat) gid =>
    match look s.groups gid with
    | none => acc
    | some g =>
      if setSwapped s g.set then
        if acc.2.contains g.set then acc
        else
          (acc.1 ++ [.returning g.set (setRows s g.set) (s.groups.filter (fun e => e.2.set == g.set)).length],
            g.set :: acc.2)
      else match (if g.swapped then none else rowsWanted s g) with
        | some n => (acc.1 ++ [.request gid n], acc.2)
        | none => acc) ([], [])).1

/-- R198: a request of `n` rows by a running group is granted at once: nobody waits and the rows are free. -/
def grantsNow (s : State) (core n : Nat) : Bool := n == 0 || ((waiters s core).isEmpty && decide (n ≤ rowsFree s core))

/-- The request of a parked group is granted: its rows are taken and it goes on. -/
def grantRows (s : State) (gid : Nat) : State :=
  match look s.groups gid with
  | none => s
  | some g =>
    match g.park with
    | some (.grow n) => atMarker (unparkGroup (growNow s gid n) gid) gid
    | some (.spawn start lanes mark) =>
      let s := unparkGroup (spawnNow s gid start lanes) gid
      if mark then atMarker s gid else s
    | _ => s

/-! ## Deadlock (R396) -/

/-- R57, R396: what a group waits for once a swap has marked it while results are still to come. A parked `spawn` goes on as a marked
one does; a word that has not issued waits for the results first. Every other park ends in a marker. -/
def markedPark (p : Option Park) : Option Park :=
  match p with
  | some (.spawn start lanes _) => some (.spawn start lanes true)
  | none | some (.token _) | some (.ownToken _) | some (.full _) | some .results | some .offer | some (.typed _) | some .am => some .marker
  | p => p

/-- R396: a swap or a return is a switch marker of the group. -/
def swapMark (s : State) (gid : Nat) : State :=
  match look s.groups gid with
  | none => s
  | some g =>
    if (ctxOf s g).pend = [] then passMarker s gid
    else modGroup s gid (fun g => if g.trap.isSome then g else
      { g with park := markedPark g.park, readyAt := none, active := false })

/-- R396: every resident group of the core waits for rows. -/
def growDeadlock (s : State) (core : Nat) : Bool :=
  let gs := coreGroups s core
  !gs.isEmpty && gs.all (fun e => (rowsWanted s e.2).isSome)

/-- R396: the youngest resident allocation set of the core other than `set`. -/
def youngestSet (s : State) (core set : Nat) : Option Nat :=
  (coreOf s core).order.reverse.findSome? (fun gid =>
    match look s.groups gid with
    | some g => if g.set ≠ set ∧ !g.swapped then some g.set else none
    | none => none)

/-- R396, steps 1 and 2: a set goes to the save area with all its resident groups. -/
def swapSet (s : State) (set : Nat) : State :=
  let gs := s.groups.filter (fun e => e.2.set == set && !e.2.swapped)
  gs.foldl (fun s e => swapOut (swapMark s e.1) e.1) s

/-- R396: a core deadlocked in growth: its oldest group's request is granted if it can be, else a set is swapped out. -/
def breakDeadlock (s : State) (core : Nat) : State :=
  let ids := (coreGroups s core).map (·.1)
  match if growDeadlock s core then (coreOf s core).order.find? ids.contains else none with
  | some gid =>
    (match look s.groups gid with
      | some g =>
        if decide ((rowsWanted s g).getD 0 ≤ rowsFree s core) then grantRows s gid
        else match youngestSet s core g.set with
          | some set => swapSet s set
          | none => s
      | none => s)
  | none => s

/-- R396: the oldest waiter, a swapped-out set, may return: its rows and its group places are free. -/
def mayReturn (s : State) (core rows places : Nat) : Bool :=
  decide (rows ≤ rowsFree s core) && placesFree s core places

/-- R198, R396: the rows of a core go to the oldest waiter if they suffice for it; a deadlock is broken instead. -/
def rowGrantNow (s : State) (core : Nat) : State :=
  match waiters s core with
  | .request gid n :: _ => if n ≤ rowsFree s core then grantRows s gid else breakDeadlock s core
  | .returning _ rows places :: _ => if mayReturn s core rows places then s else breakDeadlock s core
  | [] => s

/-- R198, R396, the grant of rows. -/
def execRowGrant (core : Nat) (s : State) : Host.Outcome State Fault Refusal := .next (rowGrantNow s core)

/-! ## Returns -/

/-- A swapped-out group is resident again, at its park or ready. -/
def bringBack (s : State) (gid : Nat) : State :=
  modGroup s gid (fun g =>
    { g with swapped := false, slot := none, readyAt := if g.park.isNone then some s.clock else none })

/-- R182: the oldest swapped-out group whose set still has its rows returns once a place is free. -/
def execGroupSwapIn (core : Nat) (s : State) : Host.Outcome State Fault Refusal :=
  .next
    (if placesFree s core 1 then
      match (coreOf s core).order.find? (fun gid => match look s.groups gid with
        | some g => g.swapped && !setSwapped s g.set
        | none => false) with
      | some gid => bringBack s gid
      | none => s
    else s)

/-- R396: the oldest waiter, a swapped-out set, returns once its rows and its group places are free. -/
def execAllocationSetReturn (core : Nat) (s : State) : Host.Outcome State Fault Refusal :=
  .next
    (match waiters s core with
    | .returning set rows places :: _ =>
      if mayReturn s core rows places then
        (s.groups.filter (fun e => e.2.set == set)).foldl (fun s e => swapMark (bringBack s e.1) e.1) s
      else s
    | _ => s)

/-! ## The words -/

/-- R197, `grow`. -/
def execGrow (f : Fixed) (n : BitVec 25) (s : State) : Host.Outcome State Fault Refusal :=
  word (.grow f n) s (fun s q =>
    let k := n.toNat
    let pc := q.ctx.pc + 8
    if k ≤ q.g.view then finishAt s q pc true
    else
      let s := countIssue s q pc
      if grantsNow s q.g.core (k - setRows s q.g.set) then atMarker (growNow s q.gid k) q.gid
      else parkGroup s q.gid (.grow k))

/-- R197, `shrink`. -/
def execShrink (f : Fixed) (n : BitVec 25) (s : State) : Host.Outcome State Fault Refusal :=
  word (.shrink f n) s (fun s q =>
    let k := n.toNat
    finishAt (if q.g.view ≤ k then s else shrinkNow s q.gid k) q (q.ctx.pc + 8) true)

end Sys2Proof.Machine
end

