-- ==== Sys2Proof/Machine/Fabric.lean ====
section
/-! DEFINITION. A running band (R257, R300 to R308, R320, R321): channels, what a firing does, and which stages may
fire. -/

namespace Sys2Proof.Machine

/-! ## Rare ports -/

/-- The ports whose reservations the stage's `srare` words take (R306), one entry a word. -/
def StageProg.rarePorts (p : StageProg) : List Nat := (p.words.filter StageWord.isRare).map (·.imm)

/-- R307: the port is the re-injection port of some stage. -/
def Config.reinjects (c : Config) (i : Nat) : Bool := c.stages.any (fun s => s.prog.rarePorts.contains i)

/-! ## Bands -/

def setBand (s : State) (first : Nat) (b : Band) : State := { s with bands := put s.bands first b }

/-- R308: a token through its channel's converter. -/
def convertTok (x : ChanCfg) (t : Tok) : Tok :=
  match Fmt.ofCode (BitVec.ofNat 5 x.dfmt), Fmt.ofCode (BitVec.ofNat 5 x.sfmt), Rnd.ofCode (BitVec.ofNat 3 x.crnd) with
  | some d, some f, some rnd =>
    if t.null then t
    else { t with lanes := t.lanes.map (fun w => (cvtLane 0 d f rnd x.csat 0 (w.setWidth 64) 0 0 0).v.setWidth 32) }
  | _, _, _ => t

/-- R321: a token arrives at a channel: in its buffers, or landed. -/
def Band.arrive (b : Band) (c : Config) (id : Nat) (t : Tok) : Band :=
  let t := match c.chans[id]? with
    | some x => if x.cen then convertTok x t else t
    | none => t
  let ch := b.chan id
  if b.accepts c id ∧ ch.landed = [] then b.setChan id { ch with q := ch.q ++ [t] }
  else b.setChan id { ch with landed := ch.landed ++ [t] }

/-- R300, R321: free slots of a channel; none where the producer never waits. R306: reservations take slots. -/
def Band.space (b : Band) (c : Config) (id : Nat) : Option Nat :=
  let ch := b.chan id
  let taken : Nat := if c.chans.length ≤ id ∧ id < c.chans.length + c.ports.length then (b.port (id - c.chans.length)).slots.length else 0
  let used := ch.q.length + ch.landed.length + taken
  if !b.accepts c id then none
  else if ch.landed = [] then some (c.depth id - used)
  else some (c.depth id + c.ring id - used)

/-- There are `n` free slots. -/
def hasSpace (x : Option Nat) (n : Nat) : Bool := match x with
  | none => true
  | some k => decide (n ≤ k)

/-! ## A firing (R302, R304 to R306) -/

/-- A firing under way: the slots of this firing, the latches for the next, tokens emitted in order, flags, generators,
and the reservations of its `srare` words, with b and a where the firing is rare. -/
structure Fire where
  slots : Tab Tok
  next : Tab Tok
  taken : Tab (List Tok)
  outs : List (Nat × Tok)
  flags : Flags
  rng : List Word
  flops : Nat
  rares : List (Nat × Option (Tok × Tok))
  deriving DecidableEq, Repr

def nullTok : Tok := { null := true, lanes := [] }
def zeroTok : Tok := { null := false, lanes := List.replicate 16 0 }

/-- Lane `l` of a token as an operand; a null token has none to give, so the lane is free (log 5). -/
def Tok.lane (t : Tok) (l : Nat) : Word := if t.null then Config.nullLane l else t.lanes.getD l 0

/-- R302, R107: a value delivered to a consumer, in this firing or for the next. -/
def Fire.give (x : Fire) (j : Nat) (c : Con) (t : Tok) : Fire :=
  match c with
  | .slot k i => if j < i then { x with slots := put x.slots (4 * i + k) t } else { x with next := put x.next (4 * i + k) t }
  | .out p => { x with outs := x.outs ++ [(p, t)] }
  | _ => x

/-- R109: the lane operation of a word. The manual gives a stage's `cmp` no place for its condition: it is a free
choice (log 5). -/
def stageOp (w : StageWord) : Option LaneOp :=
  match Ty.ofCode (BitVec.ofNat 4 w.ty) with
  | none => none
  | some ty =>
    match w.cls with
    | 3 => some (.int w.op ty w.sat none)
    | 5 => some (.bit w.op ty)
    | 6 =>
      if w.op = 0 then
        (Cond.ofCode (BitVec.ofNat 4 (Config.stageCond w.ty % (if ty.integer then 6 else 8)))).map (fun c => .cmp c ty)
      else if w.op = 1 then some (.sel ty)
      else some (.pred (w.op - 2))
    | _ => (Rnd.ofCode (BitVec.ofNat 3 w.rnd)).map (fun rnd => .flt w.op ty rnd w.sat)

/-- A 32-bit value of slot `k` as an operand: of a 64-bit type the slot holds the low half, and the high half is free
(log 5). -/
def widenSlot (wide : Bool) (k : Nat) (x : Word) : Dword :=
  if wide then x.setWidth 64 ||| ((Config.stageHigh k x).setWidth 64 <<< 32) else x.setWidth 64

/-- R106, R108: operand b of a word with IB = 1, in a lane. -/
def immOperand (w : StageWord) (before : Option StageWord) (wide : Bool) : Dword :=
  match before with
  | some b => if b.isImm then widenSlot wide 1 b.k else immSext
  | none => immSext
where
  immSext : Dword := let x : Dword := BitVec.ofInt 64 (sextNat w.imm 13); if wide then x else (x.setWidth 32).setWidth 64

/-- R109: a word of classes 0x03 to 0x07, on every lane. -/
def Fire.compute (x : Fire) (ws : List StageWord) (j : Nat) (w : StageWord) : Fire :=
  match stageOp w with
  | none => x
  | some op =>
    let tok (k : Nat) : Tok := (look x.slots (4 * j + k)).getD zeroTok
    let before := if j = 0 then none else ws[j - 1]?
    let wideC := op.wideIn && !(w.cls == 6 && w.op == 1)
    let val (k l : Nat) (wide : Bool) : Dword :=
      if k = 1 ∧ w.ib then immOperand w before wide else widenSlot wide k ((tok k).lane l)
    let outs : List LaneOut := (List.range 16).map (fun l =>
      op.eval { a := val 0 l op.wideIn, b := val 1 l op.wideIn, c := val 2 l wideC, old := 0, g := x.rng.getD l 0 })
    let t : Tok := { null := false, lanes := outs.map (fun o => o.v.setWidth 32) }
    let fl : Flags := flagsJoin (outs.map LaneOut.flags)
    let gs : List Word := outs.map LaneOut.g
    let y := { x with
      flags := x.flags ||| fl, rng := if op.draws then gs else x.rng,
      flops := x.flops + 16 * op.flops }
    (y.give j (conOf w.conA) t).give j (conOf w.conB) t

/-- A lane of the token is not zero. -/
def Tok.anySet (t : Tok) : Bool := !t.null && t.lanes.any (· != 0)

/-- R305, R306, R108: a stage-only word. -/
def Fire.special (x : Fire) (j : Nat) (w : StageWord) : Fire :=
  let tok (k : Nat) : Tok := (look x.slots (4 * j + k)).getD zeroTok
  let both (x : Fire) (ta tb : Tok) : Fire := (x.give j (conOf w.conA) ta).give j (conOf w.conB) tb
  let a := tok 0
  let b := tok 1
  match w.minor with
  | 0 =>
    let ts := (look x.taken w.port).getD []
    let t := ts.headD zeroTok
    both { x with taken := put x.taken w.port (ts.drop 1) } t t
  | 1 => x
  | 2 =>
    if w.imm % 2 = 0 then
      let t := if a.null then b else a
      both x t t
    else if a.null then both x nullTok nullTok
    else if a.anySet then both x b nullTok
    else both x nullTok b
  | _ =>
    if a.anySet then
      both { x with rares := x.rares ++ [(w.imm, some (b, a))] } nullTok nullTok
    else both { x with rares := x.rares ++ [(w.imm, none)] } b b

/-- R302: the words of a firing, in ascending index. -/
def runStage (p : StageProg) (st : StageSt) (taken : Tab (List Tok)) : Fire :=
  p.words.zipIdx.foldl (fun x w => if w.1.cls = 0x38 then x.special w.2 w.1 else x.compute p.words w.2 w.1)
    { slots := st.keep, next := st.keep, taken, outs := [], flags := 0, rng := st.rng, flops := 0, rares := [] }

/-! ## End of stream (R295, R320) -/

/-- Nothing more will arrive at a channel. -/
def Band.feedEnded (b : Band) (c : Config) (id : Nat) : Bool :=
  if id < c.chans.length then match c.chans[id]? with
    | some x => b.drained c x.pstg
    | none => true
  else if id < c.chans.length + c.ports.length then
    let i := id - c.chans.length
    match c.ports[i]? with
    | some e =>
      if e.kind = 0 then (b.port i).ended
      else if e.kind = 2 then
        c.reinjects i && (b.port i).slots.isEmpty &&
          c.stages.zipIdx.all (fun s => !s.1.prog.rarePorts.contains i || b.drained c s.2)
      else b.drained c e.stg
    | none => true
  else
    let i := id - c.chans.length - c.ports.length
    match c.ports[i]? with
    | some e =>
      let p := b.port i
      (if e.kind = 0 then p.ended
        else b.drained c e.stg && (b.chan (c.portPath i)).q.isEmpty && p.spill.isEmpty) && p.cmpl == p.pos
    | none => true

/-- The marker passes an input port whose channel is empty and whose feed has ended. -/
def Band.passEos (b : Band) (c : Config) (i : Nat) : Band :=
  match c.stage i with
  | none => b
  | some k =>
    k.prog.ins.foldl (fun b p =>
      match c.inPath i p with
      | none => b
      | some id =>
        let st := b.stage i
        if !st.eos.contains p && (b.chan id).q.isEmpty && (b.chan id).landed.isEmpty && b.feedEnded c id then
          b.setStage i { st with eos := st.eos ++ [p] }
        else b) b

/-- R34: tokens stand at one input of the stage when another has passed its marker: its streams differ in length. -/
def Band.streamsDiffer (b : Band) (c : Config) (i : Nat) (k : StageCfg) : Bool :=
  let eos := (b.stage i).eos
  k.prog.ins.any eos.contains && k.prog.ins.any (fun p => !eos.contains p && match c.inPath i p with
    | some id => !(b.chan id).q.isEmpty || !(b.chan id).landed.isEmpty
    | none => false)

/-- R34: LMIS of a stage, once for its streams. -/
def Band.markDiffer (b : Band) (c : Config) (i : Nat) : Band :=
  match c.stage i with
  | some k =>
    let st := b.stage i
    if !st.differ && b.streamsDiffer c i k then b.setStage i { st with differ := true, flags := st.flags ||| flagLMIS } else b
  | none => b

/-- Passes every marker that can pass. -/
def Band.settleEos (b : Band) (c : Config) : Nat → Band
  | 0 => b
  | f + 1 => Band.settleEos ((List.range c.stages.length).foldl (fun b i => (b.passEos c i).markDiffer c i) b) c f

/-- R320, R323: rows whose stages are all complete become DONE. -/
def Band.settleRows (b : Band) (c : Config) (clock : Nat) : Band :=
  if !c.scrolls then b
  else
    { b with rows := b.rows.map (fun r =>
        if r.2.st = .live ∧ c.stages.zipIdx.all (fun s => s.1.vrow != r.2.hoist % c.v || b.complete c s.2) then
          (r.1, { r.2 with st := .done, since := clock })
        else r) }

/-- What follows from any event of a run. -/
def Band.settle (b : Band) (c : Config) (clock : Nat) : Band :=
  (b.settleEos c c.stages.length).settleRows c clock

/-- R306: filled reservations at the front become tokens of the port's channel, in reservation order. -/
def Band.flushSlots (b : Band) (c : Config) (i : Nat) : Nat → Band
  | 0 => b
  | f + 1 =>
    let p := b.port i
    match p.slots with
    | some t :: rest => Band.flushSlots ((b.setPort i { p with slots := rest }).arrive c (c.portPath i) t) c i f
    | _ => b

/-! ## Firing (R257) -/

/-- R257, R300, R304, R306, R320: the stage fires now. -/
def Band.canFire (b : Band) (c : Config) (i : Nat) : Bool :=
  match c.stage i with
  | none => false
  | some k =>
    b.run.isSome && b.resident c k.vrow && !b.complete c i &&
      k.prog.ins.all (fun p => match c.inPath i p with
        | some id => decide (k.prog.inputs p ≤ (b.chan id).q.length)
        | none => false) &&
      k.prog.outs.all (fun p => match c.outPath i p with
        | some id => hasSpace (b.space c id) (k.prog.outputs p)
        | none => false) &&
      k.prog.rarePorts.all (fun n =>
        hasSpace (b.space c (c.portPath n)) (k.prog.rarePorts.filter (· == n)).length)

/-- R304: the tokens a firing takes from its ports, and the band without them. -/
def Band.takeInputs (b : Band) (c : Config) (i : Nat) (k : StageCfg) : Band × Tab (List Tok) :=
  k.prog.ins.foldl (fun acc p =>
    match c.inPath i p with
    | none => acc
    | some id =>
      let ch := acc.1.chan id
      let n := k.prog.inputs p
      ((acc.1.setChan id { ch with q := ch.q.drop n }).stream c id, put acc.2 p (ch.q.take n))) (b, [])

/-- R304: the firing is null. -/
def nullFiring (p : StageProg) (taken : Tab (List Tok)) : Bool :=
  taken.any (fun e => (BitVec.ofNat 8 p.nullok).getLsbD e.1 && e.2.any (·.null))

/-- R306: the reservations of a firing. -/
def Band.reserve (b : Band) (c : Config) (i ordinal seq : Nat) (rs : List (Nat × Option (Tok × Tok))) : Band :=
  rs.zipIdx.foldl (fun b r =>
    let n := r.1.1
    let p := b.port n
    match r.1.2 with
    | none => (b.setPort n { p with slots := p.slots ++ [some nullTok] }).flushSlots c n (p.slots.length + 1)
    | some (x, a) =>
      b.setPort n { p with
        slots := p.slots ++ [none],
        rare := p.rare ++ [{ b := x, a, stage := i, word := r.2, ordinal, seq := seq + r.2, group := none }] }) b

/-- R257, R302, R304: stage `i` fires. -/
def fireStage (s : State) (first : Nat) (b : Band) (c : Config) (i : Nat) (k : StageCfg) : State :=
  let st := b.stage i
  let (b, taken) := b.takeInputs c i k
  let counted : StageSt := { st with fired := st.fired + 1, batchFired := st.batchFired + 1 }
  let out (b : Band) (p : Nat) (t : Tok) : Band := match c.outPath i p with
    | some id => b.arrive c id t
    | none => b
  let s := modBlock s b.block (fun x => { x with hangCount := 0, fired := x.fired + 1 })
  if nullFiring k.prog taken then
    let b := b.setStage i counted
    let b := k.prog.outs.foldl (fun b p => (List.range (k.prog.outputs p)).foldl (fun b _ => out b p nullTok) b) b
    setBand s first (b.settle c s.clock)
  else
    let taken := taken.map (fun e => (e.1, e.2.map (fun t => if t.null then zeroTok else t)))
    let x := runStage k.prog st taken
    let b := b.setStage i { counted with keep := x.next, rng := x.rng, flags := st.flags ||| x.flags }
    let b := x.outs.foldl (fun b o => out b o.1 o.2) b
    let b := b.reserve c i st.fired s.fresh x.rares
    let s := { s with fresh := s.fresh + x.rares.length }
    addMeter (setBand s first (b.settle c s.clock)) b.part 9 x.flops

/-- A freeze of the block by the hang monitor stops its band (R352), as a save does; one of R392 lets the operations that have
issued complete. -/
def bandFrozen (s : State) (b : Band) : Bool := match look s.blocks b.block with
  | some k => k.frozen == some .hang || k.saved.isSome
  | none => true

/-- R352, R392: the band's block is frozen, so that its groups issue nothing more. -/
def blockFrozen (s : State) (b : Band) : Bool := match look s.blocks b.block with
  | some k => k.frozen.isSome
  | none => true

/-- R260: the band's sources stop, and no turnover is started, so that it drains. -/
def holdBand (s : State) (first : Nat) : State := { s with bands := upd s.bands first (fun b => { b with frozenRows := true }) }

/-- R260, R266, R270, R405: the firing boundary of a stage that carries safe point `ord`: the block arrives there, and a halt
that lands there disarms a hop. -/
def stagePoint (s : State) (first blk ord : Nat) : State :=
  match look s.blocks blk with
  | none => s
  | some b =>
    match (kernelOf s b).bind (fun k => safePointOf k 2 ord) with
    | none => s
    | some e =>
      let s := traceEvent s b.part (some (bandPlace first)) 0 1 b.index 0 ord
      let halts : Bool := match b.halt with
        | some h => !h.reached && (h.ord.isNone || h.ord == some ord)
        | none => false
      let s := if e.ep then arriveAt s blk ord ((look b.arrivals ord).getD 0 + 1) else s
      if halts then
        holdBand (disarmHop (modBlock s blk (fun b => { b with halt := b.halt.map (fun h => { h with reached := true }) })) blk) first
      else if e.ep && ((look s.blocks blk).bind (·.hop)).isSome then holdBand s first
      else s

/-- R257, a stage fires. -/
def execStageFiring (first stage : Nat) (s : State) : Host.Outcome State Fault Refusal :=
  .next
    (match look s.bands first with
    | none => s
    | some b =>
      match b.cfg with
      | none => s
      | some c =>
        match c.stage stage with
        | none => s
        | some k =>
          if b.canFire c stage ∧ !bandFrozen s b then stagePoint (fireStage s first b c stage k) first b.block k.prog.spord
          else s)

end Sys2Proof.Machine
end

