-- ==== Sys2Proof/Machine/BandSave.lean ====
section
/-! DEFINITION. Installing a configuration on a band, and save images of a band (R302, R319, R327, R328). -/

namespace Sys2Proof.Machine

/-! ## Installing (R302, R319) -/

/-- The S of R46: the low word of the launch's seed. -/
def blockSeed (s : State) (blk : Nat) : Dword × Nat :=
  match look s.blocks blk with
  | some b => (match look s.launches b.launch with
    | some l => l.seed
    | none => 0, b.index)
  | none => (0, 0)

/-- R302: the generators of a stage. -/
def stageRng (seed : Dword) (blkIndex i : Nat) : List Word :=
  (List.range 16).map (fun k => seedOf seed blkIndex (16 * (i % 64) + k))

/-- R319: rows 0 to min(V, P) − 1 wake or install; a row already awake installs. -/
def startRows (c : Config) (old : Tab Row) (hoist : Nat → Nat) : Tab Row :=
  (List.range c.p).map (fun q =>
    let awake : Bool := match look old q with
      | some r => r.st != .gated
      | none => false
    (q, { st := if c.v ≤ q then .gated else if awake then .install else .waking, hoist := hoist q, since := 0 }))

/-- R245: the band with a configuration as `fload` of a configuration image installs it. -/
def freshBand (b : Band) (c : Config) (seed : Dword) (blkIndex : Nat) : Band :=
  let place (x : StageCfg × Nat) : Nat × StageSt :=
    (x.2, { StageSt.init (stageRng seed blkIndex x.2) with batches := if x.1.vrow < c.p then 1 else 0 })
  { b with
    cfg := some c, run := none, anew := false, stages := c.stages.zipIdx.map place, chans := [],
    ports := (List.range c.ports.length).map (fun i => (i, PortSt.init)), rows := startRows c b.rows id, frozenRows := false }

/-! ## Writing a save image (R327) -/

def tokBytes (t : Tok) : List Byte := (List.range 16).flatMap (fun l => wordBytes (t.lanes.getD l 0))

/-- R327: the stages in readout chain order. -/
def readoutOrder (c : Config) : List Nat :=
  (List.range 8).flatMap (fun k => (List.range c.stages.length).filter (fun i => match c.stage i with
    | some s => s.prog.rdout == 2 ^ k
    | none => false))

/-- R320: the firings of its batch that a stage has made, as its counts give them if no end-of-stream cut a batch short. -/
def batchShare (k : StageCfg) (fired batches : Nat) : Nat := min k.fpb (fired - k.fpb * (batches - 1))

/-- R327: a stage record. Where a batch was cut short, bit 31 of the flags word says that the upper half of the batch count
holds the firings made in this batch (log 21). -/
def stageBody (c : Config) (b : Band) (i : Nat) : List Byte :=
  match c.stage i with
  | none => []
  | some k =>
    let st := b.stage i
    let cut : Bool := k.fpb != 0 && st.batchFired != batchShare k st.fired st.batches
    let batches := if cut then st.batches % 2 ^ 32 + 2 ^ 32 * st.batchFired else st.batches
    leBytes st.fired 8 ++ leBytes batches 8 ++ leBytes (st.flags.toNat + (if cut then 2 ^ 31 else 0)) 4 ++
      (List.range 16).flatMap (fun l => wordBytes (st.rng.getD l 0)) ++
      k.prog.latches.flatMap (fun x => tokBytes ((look st.keep (4 * x.1 + x.2)).getD zeroTok))

/-- R327: a channel record. -/
def chanBody (ts : List Tok) : List Byte :=
  let n := ts.length
  let bits (i : Nat) : Byte := BitVec.ofNat 8 ((List.range 8).foldl (fun x k =>
    if (ts.getD (8 * i + k) zeroTok).null then x + 2 ^ k else x) 0)
  let map := (List.range ((n + 7) / 8)).map bits
  leBytes n 4 ++ map ++ zeroBytes ((8 - map.length % 8) % 8) ++ ts.flatMap tokBytes

/-- A store port at position `pos` has let token `t` of its stream of `n` elements go. -/
def tokGone (n pos t : Nat) : Bool := decide (16 * (t + 1) ≤ pos) || pos == n

/-- The tokens of a store port's spilled elements, which its channel record has before those still to be taken (log 21). -/
def spilledToks (e : PortCfg) (p : PortSt) : List Tok :=
  let ts := ((p.part.map (fun x => x.1 / 16)).filter (tokGone e.spec.length p.pos)).eraseDups
  ts.map (fun t => { null := false, lanes := (List.range 16).map (fun l => getZ p.part (16 * t + l)) })

/-- R295: the input a load port feeds is declared commutative. -/
def commutes (c : Config) (e : PortCfg) : Bool := match c.stage e.stg with
  | some k => (BitVec.ofNat 8 k.prog.comm).getLsbD e.port
  | none => false

/-- The elements of a token of a stream of `n` elements. -/
def tokElems (n t : Nat) : List Nat := (List.range (min 16 (n - 16 * t))).map (16 * t + ·)

/-- The tokens a load port has begun and not delivered. -/
def PortSt.begun (p : PortSt) : List Nat :=
  let elems : List Nat := p.part.map Prod.fst ++ p.spill.map Prod.fst
  (elems.map (· / 16)).eraseDups

/-- R295, R298: the tokens that an element still to come keeps from delivery, of a load port at position `pos` of a stream of
`n` elements with the spilled elements `es`: those that lack one, and on an input that is not commutative all that follow. -/
def waitingToks (comm : Bool) (n pos : Nat) (es : List Nat) : List Nat :=
  let last := if pos % 16 = 0 ∨ pos = n then [] else [pos / 16]
  let lacks := (es.map (· / 16) ++ last).eraseDups.mergeSort (· ≤ ·)
  if comm then lacks
  else match lacks with
    | [] => []
    | t :: _ => (List.range ((pos + 15) / 16 - t)).map (t + ·)

/-- The tokens a load port holds, which its channel record has behind those in the channel: whole ones first (log 21). -/
def portToks (c : Config) (e : PortCfg) (p : PortSt) : List Tok :=
  let waits := waitingToks (commutes c e) e.spec.length p.pos (p.spill.map (·.1))
  (p.begun.filter (fun t => !waits.contains t) ++ waits).map (fun t =>
    { null := false, lanes := (List.range 16).map (fun l => getZ p.part (16 * t + l)) })

/-- R327: the tokens of a channel, in delivery order. -/
def savedToks (c : Config) (b : Band) (id : Nat) : List Tok :=
  let ch := b.chan id
  let i := id - c.chans.length
  match if c.chans.length ≤ id ∧ id < c.chans.length + c.ports.length then c.ports[i]? else none with
  | some e =>
    if e.kind = 0 then ch.q ++ ch.landed ++ portToks c e (b.port i)
    else if e.kind = 1 then spilledToks e (b.port i) ++ ch.q ++ ch.landed
    else ch.q ++ ch.landed
  | none => ch.q ++ ch.landed

/-- R327: the ordinals a port record lists: the spilled elements; then the failed ones, with bit 63 set, whose completion
tokens stay withheld (R292, R298, log 21). -/
def savedSpill (p : PortSt) : List Nat :=
  (p.spill.map (·.1)).mergeSort (· ≤ ·) ++ (p.lost.mergeSort (· ≤ ·)).map (2 ^ 63 + ·)

/-- R327: a port record. A port without a completion output withholds none. -/
def portBody (e : PortCfg) (p : PortSt) : List Byte :=
  leBytes p.pos 8 ++ leBytes (if e.cmpl.isSome then p.pos - p.cmpl else 0) 4 ++ (savedSpill p).flatMap (fun n => leBytes n 8)

/-- R327: a rare record: b, a, stage id and firing ordinal of each reservation not yet filled. The null tokens of the
reservations behind it are counted in the upper half of its stage id, and its word in bits [31:16] (log 21). -/
def rareBody (p : PortSt) : List Byte :=
  let nulls : List Nat := p.slots.foldl (fun ns t => if t.isNone then ns ++ [0] else setAt ns (ns.length - 1) (ns.getD (ns.length - 1) 0 + 1)) []
  (p.rare.zip nulls).flatMap (fun x =>
    let r := x.1
    tokBytes r.b ++ tokBytes r.a ++ leBytes (r.stage % 2 ^ 16 + r.word * 2 ^ 16 + x.2 * 2 ^ 32) 8 ++ leBytes r.ordinal 8)

/-- The port entries with a record of TYPE 0x03, and those with one of TYPE 0x05. -/
def Config.memPorts (c : Config) : List Nat :=
  (List.range c.ports.length).filter (fun i => match c.ports[i]? with
    | some e => decide (e.kind < 2)
    | none => false)
def Config.rarePortList (c : Config) : List Nat := (List.range c.ports.length).filter c.reinjects

def portAt (c : Config) (i : Nat) : PortCfg :=
  (c.ports[i]?).getD
    { kind := 3, stg := 0, port := 0, cmpl := none, param := 0,
      spec := { base := 0, space := 0, signed := false, esz := 1, dims := [] }, rentry := 0, rregs := 0 }

/-- R327: the records of a save image, in order. -/
def bandRecords (c : Config) (b : Band) : List ImgRec :=
  let hoists := (List.range c.p).flatMap (fun q => leBytes (match look b.rows q with
    | some r => r.hoist
    | none => q) 8)
  let landed := (List.range c.chans.length).flatMap (fun id => leBytes (b.chan id).landed.length 4)
  [{ type := 0x04, id := 0, body := hoists ++ landed }] ++
    (readoutOrder c).map (fun i => { type := 0x01, id := i, body := stageBody c b i }) ++
    c.paths.map (fun id => { type := 0x02, id, body := chanBody (savedToks c b id) }) ++
    c.memPorts.map (fun i => { type := 0x03, id := i, body := portBody (portAt c i) (b.port i) }) ++
    c.rarePortList.map (fun i => { type := 0x05, id := i, body := rareBody (b.port i) }) ++
    [{ type := 0xFF, id := 0, body := [] }]

/-- R327: a save image. -/
def bandImage (c : Config) (b : Band) : List Byte :=
  let recs := (bandRecords c b).flatMap ImgRec.bytes
  leBytes (2 + 2 ^ 8 + c.p * 2 ^ 16 + c.v * 2 ^ 32 + c.stages.length * 2 ^ 48) 8 ++
    leBytes (c.chans.length + c.ports.length * 2 ^ 16 + c.rdch * 2 ^ 32) 8 ++ leBytes c.image 8 ++
    leBytes c.sig.toNat 8 ++ leBytes c.scrsz 8 ++ leBytes (256 + recs.length) 4 ++ leBytes (crc32c recs).toNat 4 ++
    zeroBytes 208 ++ recs

/-! ## Reading one (R328) -/

def tokOf (b : List Byte) (null : Bool) : Tok :=
  if null then nullTok else { null := false, lanes := (List.range 16).map (fun l => wordIn b (4 * l)) }

/-- A stage record; none where it is malformed. -/
def parseStage (k : StageCfg) (body : List Byte) : Option StageSt :=
  let ls := k.prog.latches
  let flags := wordIn body 16
  let cut := flags.getLsbD 31
  let fired := (dwordIn body 0).toNat
  let batches := if cut then field (dwordIn body 8) 31 0 else (dwordIn body 8).toNat
  let batchFired := if cut then field (dwordIn body 8) 63 32 else batchShare k fired batches
  if body.length ≠ 84 + 64 * ls.length ∨ 64 ≤ flags.toNat % 2 ^ 31 ∨ k.fpb < batchFired then none
  else some
    { keep := ls.zipIdx.foldl (fun t x => put t (4 * x.1.1 + x.1.2) (tokOf (body.drop (84 + 64 * x.2)) false)) [],
      rng := (List.range 16).map (fun l => wordIn body (20 + 4 * l)), flags := BitVec.ofNat 6 flags.toNat, fired, batchFired, batches,
      eos := [], differ := false }

/-- A channel record. -/
def parseChan (body : List Byte) : Option (List Tok) :=
  let n := (wordIn body 0).toNat
  let map := (n + 7) / 8
  let pad := (map + 7) / 8 * 8
  if body.length ≠ 4 + pad + 64 * n then none
  else some ((List.range n).map (fun i => tokOf (body.drop (4 + pad + 64 * i)) ((body.getD (4 + i / 8) 0).getLsbD (i % 8))))

/-- A port record as it reads: position, withheld completions, spilled and failed ordinals. -/
structure PortRec where
  pos : Nat
  held : Nat
  spill : List Nat
  lost : List Nat
  deriving DecidableEq, Repr

def climbs : List Nat → Bool
  | a :: b :: l => decide (a < b) && climbs (b :: l)
  | _ => true

/-- A port record; none where it is malformed: its ordinals ascend, the spilled before the failed ones. -/
def parsePort (body : List Byte) : Option PortRec :=
  if body.length < 12 ∨ (body.length - 12) % 8 ≠ 0 then none
  else
    let pos := (dwordIn body 0).toNat
    let held := (wordIn body 8).toNat
    let es := (List.range ((body.length - 12) / 8)).map (fun i => (dwordIn body (12 + 8 * i)).toNat)
    if pos < held ∨ !climbs es ∨ es.any (fun e => decide (pos ≤ e % 2 ^ 63)) then none
    else some { pos, held, spill := es.filter (· < 2 ^ 63), lost := (es.filter (2 ^ 63 ≤ ·)).map (· % 2 ^ 63) }

/-- A rare record: the reservations, and the events of those not filled. -/
def parseRare (seq : Nat) (body : List Byte) : Option (List (Option Tok) × List Rare) :=
  if body.length % 144 ≠ 0 then none
  else
    let one (i : Nat) : List (Option Tok) × Rare :=
      let x := body.drop (144 * i)
      (none :: List.replicate (wordIn x 132).toNat (some nullTok),
        { b := tokOf x false, a := tokOf (x.drop 64) false, stage := field (dwordIn x 128) 15 0, word := field (dwordIn x 128) 31 16,
          ordinal := (dwordIn x 136).toNat, seq := seq + i, group := none })
    let xs := (List.range (body.length / 144)).map one
    some (xs.flatMap (·.1), xs.map (·.2))

/-- R327: the (type, id) of each record, in order. -/
def Config.recordKeys (c : Config) : List (Nat × Nat) :=
  [(0x04, 0)] ++ (readoutOrder c).map (fun i => (0x01, i)) ++ c.paths.map (fun i => (0x02, i)) ++
    c.memPorts.map (fun i => (0x03, i)) ++ c.rarePortList.map (fun i => (0x05, i)) ++ [(0xFF, 0)]


/-- The restored tokens of a channel: the window record says how many of a table channel's have landed; of another's as
many as fit stand in its buffers, if its consumer takes tokens. -/
def Band.restoreChan (b : Band) (c : Config) (id : Nat) (landed : Nat → Nat) (ts : List Tok) : Band :=
  let n := if id < c.chans.length then ts.length - landed id else if b.accepts c id then c.depth id else 0
  b.setChan id { q := ts.take n, landed := ts.drop n }

/-- The tokens of a load port's record that go back to where they wait. -/
def PortRec.waits (c : Config) (e : PortCfg) (x : PortRec) : List Nat :=
  if e.kind = 0 then waitingToks (commutes c e) e.spec.length x.pos x.spill else []

/-- The tokens of spilled elements that a port's channel record has beside those with a slot of the channel: a store port's that
have left the channel, and on a commutative input those that lack an element (R294, log 21). -/
def PortRec.beside (c : Config) (e : PortCfg) (x : PortRec) : List Nat :=
  let ts := (x.spill.map (· / 16)).eraseDups
  if e.kind = 0 then (if commutes c e then ts else []) else ts.filter (tokGone e.spec.length x.pos)

/-- R328: a channel's count exceeds neither its depth nor its landing ring. -/
def chanFits (c : Config) (ports : List (Nat × PortRec)) (id n : Nat) : Bool :=
  let beside := ports.flatMap (fun x => if c.portPath x.1 = id then x.2.beside c (portAt c x.1) else [])
  decide (n ≤ c.depth id + c.ring id + beside.length)

/-- The restored state of a port. The tokens a load port holds go back to it from the end of its channel's record, without
their spilled elements; a store port's spilled elements take their values from the tokens at its front. -/
def restorePort (b : Band) (c : Config) (i : Nat) (x : PortRec) : Band :=
  let e := portAt c i
  let es := x.spill
  let id := c.portPath i
  let ch := b.chan id
  let all := ch.q ++ ch.landed
  let p := { PortSt.init with
    pos := x.pos, cmpl := x.pos - x.held, ended := e.kind == 0 && x.pos == e.spec.length && es.isEmpty, spill := es.map (fun n => (n, none)), lost := x.lost }
  if e.kind = 0 then
    let waits := x.waits c e
    let k := all.length - waits.length
    let read (t : Nat) : List Nat := (tokElems e.spec.length t).filter (fun n => decide (n < x.pos) && !es.contains n)
    (b.restoreChan c id (fun _ => 0) (all.take k)).setPort i
      { p with part := (waits.zip (all.drop k)).foldl (fun t w => (read w.1).foldl (fun t n => put t n (w.2.lanes.getD (n % 16) 0)) t) [] }
  else
    let gone := tokGone e.spec.length x.pos
    let early := x.beside c e
    let val (n : Nat) : Word :=
      let k := if gone (n / 16) then early.findIdx (· == n / 16) else early.length
      (all.getD k zeroTok).lanes.getD (n % 16) 0
    (b.setChan id { q := all.drop early.length, landed := [] }).setPort i
      { p with part := es.foldl (fun t n => put t n (val n)) [] }

/-- R328: the band a save image restores; none where a record is malformed, out of order or missing. `b0`: the band with
the configuration freshly installed. -/
def restoreBand (c : Config) (b0 : Band) (seq : Nat) (recs : List ImgRec) : Option Band :=
  if recs.map (fun r => (r.type, r.id)) ≠ c.recordKeys then none
  else
    let bodies (t : Nat) : List (Nat × List Byte) := (recs.filter (fun r => r.type == t)).map (fun r => (r.id, r.body))
    let window := ((bodies 0x04).headD (0, [])).2
    let hoist (q : Nat) : Nat := (dwordIn window (8 * q)).toNat
    let landed (id : Nat) : Nat := (wordIn window (8 * c.p + 4 * id)).toNat
    let stages : List (Option (Nat × StageSt)) := (bodies 0x01).map (fun x => ((c.stage x.1).bind (fun k => parseStage k x.2)).map (fun st => (x.1, st)))
    let chans : List (Option (Nat × List Tok)) := (bodies 0x02).map (fun x => (parseChan x.2).map (fun ts => (x.1, ts)))
    let ports : List (Option (Nat × PortRec)) := (bodies 0x03).map (fun x => (parsePort x.2).map (fun p => (x.1, p)))
    let rares : List (Option (Nat × List (Option Tok) × List Rare)) := (bodies 0x05).map (fun x => (parseRare seq x.2).map (fun r => (x.1, r)))
    if window.length ≠ 8 * c.p + 4 * c.chans.length ∨ (List.range c.p).any (fun q => hoist q % c.p != q) then none
    else match allSome stages, allSome chans, allSome ports, allSome rares with
      | some stages, some chans, some ports, some rares =>
        let short (x : Nat × PortRec) : Bool := chans.any (fun y => y.1 == c.portPath x.1 && decide (y.2.length < (x.2.waits c (portAt c x.1)).length))
        if ports.any short || chans.any (fun x => !chanFits c ports x.1 x.2.length || (decide (x.1 < c.chans.length) &&
            (decide (x.2.length < landed x.1) || decide (c.depth x.1 + landed x.1 < x.2.length)))) then none
        else
          let b : Band := { b0 with
            stages := stages.foldl (fun t x => put t x.1 x.2) b0.stages,
            rows := startRows c (b0.rows.map (fun r => (r.1, { r.2 with st := .gated }))) hoist }
          let awake : Band := { b with rows := b.rows.map (fun r => (r.1, { r.2 with st := .live })) }
          let full := chans.foldl (fun b x => b.restoreChan c x.1 landed x.2) awake
          let full := ports.foldl (fun b x => restorePort b c x.1 x.2) full
          let full := rares.foldl (fun b x => b.setPort x.1 { b.port x.1 with slots := x.2.1, rare := x.2.2 }) full
          some { full with rows := b.rows }
      | _, _, _, _ => none

end Sys2Proof.Machine
end

