-- ==== Sys2Proof/Machine/Band.lean ====
section
/-! DEFINITION. A band's operations (R242 to R249, R422), its memory ports (R291 to R297, R318), its rows (R323), rare groups
(R306, R307), the reload of a configuration store (R412), and the fabric's instruction words. -/

namespace Sys2Proof.Machine

/-! ## Whole-range accesses of a band -/

/-- R243: a band's read of global memory. -/
def bandRead (s : State) (part addr n : Nat) : Moved :=
  (pieces (addr % 2 ^ 64) n (n / 4096 + 2)).foldl (readPiece part) { s, bytes := [], met := .done }

/-- R243: a band's write of global memory, all or none. -/
def bandWrite (s : State) (part addr : Nat) (bs : List Byte) : Moved :=
  putPieces s part (pieces (addr % 2 ^ 64) bs.length (bs.length / 4096 + 2)) bs (fun _ _ => false)

/-- R160: the CODE of an image, parameter block or save area that could not be read or written (log 26). -/
def metCode : Met → Option Nat
  | .done => none
  | .wait .. => some 1
  | .fail c => some c

/-! ## Memory ports (R291 to R296, R318) -/

/-- R318: the stream of a port in a run. -/
def runSpec (r : Run) (e : PortCfg) : StreamSpec := { e.spec with base := (r.params.getD e.param 0).toNat }

/-- R295: the token a load port may deliver: the next in stream order, or on a commutative input any that is whole. -/
def readyTok (c : Config) (e : PortCfg) (p : PortSt) : Option Nat :=
  let n := e.spec.length
  let whole (t : Nat) : Bool := (tokElems n t).all (fun x => (look p.part x).isSome)
  let ts := p.begun
  if commutes c e then ts.find? whole
  else (leastBy id ts).bind (fun t => if whole t then some t else none)

/-- R294, R295: the token a load port delivers now. On a commutative input a token that has a spilled element keeps no slot of
the channel, and one that is whole waits for room. -/
def Band.nextTok (b : Band) (c : Config) (i : Nat) (e : PortCfg) : Option Nat :=
  if commutes c e && !hasSpace (b.space c (c.portPath i)) 1 then none else readyTok c e (b.port i)

/-- R295, R313: a load port delivers what it can. -/
def Band.deliverLoads (b : Band) (c : Config) (i : Nat) (e : PortCfg) : Nat → Band
  | 0 => b
  | f + 1 =>
    let p := b.port i
    match b.nextTok c i e with
    | none => b
    | some t =>
      let tok : Tok := { null := false, lanes := (List.range 16).map (fun l => getZ p.part (16 * t + l)) }
      Band.deliverLoads ((b.setPort i { p with part := p.part.filter (fun x => x.1 / 16 != t) }).arrive c (c.portPath i) tok) c i e f

/-- R295: the marker follows every element. -/
def Band.endLoad (b : Band) (i : Nat) (e : PortCfg) : Band :=
  let p := b.port i
  if e.kind = 0 ∧ p.pos = e.spec.length ∧ p.part = [] ∧ p.spill = [] then b.setPort i { p with ended := true } else b

/-- R292, R313: completion tokens are emitted in stream order, as far as elements are performed and there is room. -/
def Band.emitDone (b : Band) (c : Config) (i : Nat) (e : PortCfg) : Nat → Band
  | 0 => b
  | f + 1 =>
    let p := b.port i
    if e.cmpl.isNone ∨ p.pos ≤ p.cmpl ∨ p.spill.any (fun x => x.1 == p.cmpl) ∨ p.lost.contains p.cmpl ∨
        !hasSpace (b.space c (c.cmplPath i)) 1 then b
    else
      let tok : Tok := { null := false, lanes := List.replicate 16 (BitVec.ofNat 32 p.cmpl) }
      Band.emitDone ((b.setPort i { p with cmpl := p.cmpl + 1 }).arrive c (c.cmplPath i) tok) c i e f

/-- What follows once a port has moved. -/
def Band.portSettle (b : Band) (c : Config) (i : Nat) (e : PortCfg) (clock : Nat) : Band :=
  let b := if e.kind = 0 then (b.deliverLoads c i e 16).endLoad i e else b
  (b.emitDone c i e 64).settle c clock

/-- R379: the number under which element `n` of port `i` stands in a fault. -/
def portElem (i n : Nat) : Nat := (i + 1) * 2 ^ 65 + n

/-- R379, R294: a fault of a port's element. -/
def portFault (s : State) (b : Band) (i n : Nat) (a : Nat) (w : Bool) : Option (State × Nat) :=
  newFault s { part := b.part, eng := { kind := 3, unit := b.first, ctx := 0 }, op := b.count + 1, elem := portElem i n,
               addr := BitVec.ofNat 64 a, write := w, since := 0, recorded := false, block := b.block }

/-- R291: an element is read or written; the value read. An element of 8 bytes has no place in a 32-bit lane: the lane, or
the bytes above it, are free (log 5). -/
structure PortMove where
  s : State
  v : Word
  met : Met
  deriving DecidableEq, Repr

def movePort (s : State) (part : Nat) (r : Run) (e : PortCfg) (n : Nat) (v : Word) : PortMove :=
  let sp := runSpec r e
  let a := sp.at_ n
  if !canonical a then { s, v := 0, met := .fail 1 }
  else if e.kind = 0 then
    let m := engineRead s part a sp.esz
    let v := if sp.esz = 8 then Config.longElement (BitVec.ofNat 64 (leNat m.bytes)) else (sp.extend (leNat m.bytes)).setWidth 32
    { s := m.s, v, met := m.met }
  else
    let x := if sp.esz = 8 then (widenSlot true 0 v).toNat else v.toNat
    let m := engineWrite s part a (leBytes x sp.esz)
    { s := m.s, v, met := m.met }

/-- R296, R297: an element fails with `code`: the band stops as an `fdrain` stops it, and an armed hop is disarmed. The lane
a failed load leaves is free (log 5). -/
def failElem (s : State) (first : Nat) (b : Band) (c : Config) (i : Nat) (e : PortCfg) (n code : Nat) : State :=
  let p := b.port i
  let part := if e.kind = 0 then put p.part n (Config.freeWord s.free) else drop p.part n
  let b := b.setPort i { p with part, spill := p.spill.filter (fun x => x.1 != n), lost := p.lost ++ [n] }
  let b : Band := { b with run := b.run.map (fun r => { r with stopped := true, code := some (r.code.getD code) }), frozenRows := true }
  disarmHop (setBand { s with free := s.free + 1 } first (b.portSettle c i e s.clock)) b.block

/-- The element was performed. -/
def doneElem (s : State) (first : Nat) (b : Band) (c : Config) (i : Nat) (e : PortCfg) (n : Nat) (v : Word) : State :=
  let p := b.port i
  let part := if e.kind = 0 then put p.part n v else drop p.part n
  let b := b.setPort i { p with part, spill := p.spill.filter (fun x => x.1 != n) }
  touchHang (setBand s first (b.portSettle c i e s.clock)) b.block

/-- R294: the element faulted: it goes to the spill queue, or stays there with a new tag. -/
def spillElem (s : State) (first : Nat) (b : Band) (i : Nat) (e : PortCfg) (n : Nat) (v : Word) (tag : Nat) : State :=
  let p := b.port i
  let part := if e.kind = 0 then p.part else put p.part n v
  let s := if p.spill.any (fun x => x.1 == n) then s else countEvent s b.part (some (bandPlace first)) 0x15
  setBand s first (b.setPort i { p with part, spill := p.spill.filter (fun x => x.1 != n) ++ [(n, some tag)] })

/-- R292, R294: a load port's channel has a slot for one more token. On a commutative input the tokens with a spilled element
take none. -/
def slotFree (b : Band) (c : Config) (i : Nat) (e : PortCfg) : Bool :=
  let ch := b.chan (c.portPath i)
  let p := b.port i
  let late (t : Nat) : Bool := commutes c e && p.spill.any (fun x => x.1 / 16 == t)
  decide (ch.q.length + ch.landed.length + (p.begun.filter (fun t => !late t)).length < c.depth (c.portPath i))

/-- R292, R294, R320: a load port may begin a token: its channel has a slot, and its stage takes the token in this batch. -/
def mayBegin (b : Band) (c : Config) (i : Nat) (e : PortCfg) : Bool :=
  let ch := b.chan (c.portPath i)
  let held := ch.q.length + ch.landed.length + (b.port i).begun.length
  match c.stage e.stg with
  | none => false
  | some k =>
    slotFree b c i e &&
      (!c.scrolls || (b.resident c k.vrow &&
        decide (held < (k.fpb - (b.stage e.stg).batchFired) * k.prog.inputs e.port)))

/-- R294, R295: a port has a spilled element to retry. On a commutative input the token is delivered when the retry completes, and
takes a slot of the channel then, for which the retry waits (log 48). -/
def portRetries (b : Band) (c : Config) (i : Nat) (e : PortCfg) : Bool :=
  (b.port i).spill.any (fun x => x.2.isNone) && (e.kind != 0 || !commutes c e || slotFree b c i e)

/-- R296: a port of the band has a spilled element to retry. -/
def Band.retries (b : Band) (c : Config) : Bool := c.ports.zipIdx.any (fun e => portRetries b c e.2 e.1)

/-- R291, R294, R296, R247: a load port may read its next element: first every spilled element of the band whose fault is answered,
or that an earlier run left, is retried. `held`: its source is stopped, so that it begins no token. -/
def mayLoad (b : Band) (c : Config) (i : Nat) (e : PortCfg) (held : Bool) : Bool :=
  let p := b.port i
  !b.retries c && decide (p.pos < e.spec.length) &&
    (p.pos % 16 != 0 || (!held && mayBegin b c i e))

/-- The store port takes lane `pos % 16` of the token at its front; past the last lane it lets the token go. -/
def Band.nextLane (b : Band) (c : Config) (i : Nat) (e : PortCfg) : Band :=
  let p := b.port i
  let id := c.portPath i
  let b := b.setPort i { p with pos := p.pos + 1 }
  if (p.pos + 1) % 16 = 0 ∨ p.pos + 1 = e.spec.length then
    let ch := b.chan id
    b.setChan id { ch with q := ch.q.drop 1 }
  else b

/-- R294: a spilled store element names the same aligned location. -/
def behindSpilled (r : Run) (e : PortCfg) (p : PortSt) (n : Nat) : Bool :=
  let sp := runSpec r e
  p.spill.any (fun x => sp.at_ x.1 / sp.esz == sp.at_ n / sp.esz)

/-- One new element of a port whose spill queue has room, with what came of it. -/
def newElem (s : State) (first : Nat) (b : Band) (c : Config) (i : Nat) (e : PortCfg) (r : Run) (v : Word) : State :=
  let n := (b.port i).pos
  let m := movePort s b.part r e n v
  let step (b : Band) : Band :=
    if e.kind = 0 then b.setPort i { b.port i with pos := n + 1 } else b.nextLane c i e
  match m.met with
  | .done => doneElem m.s first (step b) c i e n m.v
  | .fail code => failElem m.s first (step b) c i e n code
  | .wait a w =>
    match portFault m.s b i n a w with
    | some (s, t) => spillElem s first (step b) i e n v t
    | none => m.s

/-- R260: the block's hop or halt has stopped the band's sources. -/
def sourcesHeld (s : State) (b : Band) : Bool := match look s.blocks b.block with
  | some x => x.hop.isSome || x.halted || (match x.halt with
    | some h => h.reached
    | none => false)
  | none => false

/-- R291, R294: the next element of a memory port, which waits in place while its spill queue is full. DESIGN CHOICE (log 48): a store
element behind a spilled one of its location waits in the port, and the elements after it with it. -/
def portStep (s : State) (first : Nat) (b : Band) (c : Config) (i : Nat) (e : PortCfg) (r : Run) : State :=
  let rest : State := setBand s first (b.portSettle c i e s.clock)
  let full := decide (32 ≤ (b.port i).spill.length)
  if e.kind = 0 then
    if !full && mayLoad b c i e (r.stopped || sourcesHeld s b) then newElem s first b c i e r 0 else rest
  else if e.kind = 1 then
    let ch := b.chan (c.portPath i)
    match ch.q with
    | [] => rest
    | t :: q =>
      let p := b.port i
      if e.spec.length ≤ p.pos then setBand s first ((b.setChan (c.portPath i) { ch with q }).portSettle c i e s.clock)
      else if full || behindSpilled r e p p.pos then rest
      else newElem s first b c i e r (t.lane (p.pos % 16))
  else s

/-- R291, a memory port's element. -/
def execMemoryPortElement (first port : Nat) (s : State) : Host.Outcome State Fault Refusal :=
  .next
    (match look s.bands first with
    | none => s
    | some b =>
      match b.cfg, b.run with
      | some c, some r => (match c.ports[port]? with
        | some e => if bandFrozen s b then s else portStep s first b c port e r
        | none => s)
      | _, _ => s)

/-- R294, a spilled element is retried. -/
def execPortSpillRetry (first port : Nat) (s : State) : Host.Outcome State Fault Refusal :=
  .next
    (match look s.bands first with
    | none => s
    | some b =>
      match b.cfg, b.run with
      | some c, some r =>
        (match c.ports[port]?, ((b.port port).spill.filter (fun x => x.2.isNone)).map (·.1) with
        | some e, n :: ns =>
          if bandFrozen s b || !portRetries b c port e then s
          else
            let n := ns.foldl min n
            let v := getZ (b.port port).part n
            let m := movePort s b.part r e n v
            match m.met with
            | .done => doneElem m.s first b c port e n m.v
            | .fail code => failElem m.s first b c port e n code
            | .wait a w => (match portFault m.s b port n a w with
              | some (s, t) => spillElem s first b port e n v t
              | none => m.s)
        | _, _ => s)
      | _, _ => s)

/-! ## Rows (R323) -/

/-- R415, R316: the fabric island of a row of a band. -/
def rowIsland (first q : Nat) : Nat := (first + q) / 12

/-- R316, R323: the rows of an island, by fabric row, that its Halyard serves, in bands that `which` names and that are not
frozen where they stand (R352). -/
def islandRows (s : State) (island : Nat) (which : Band → Bool) : Tab Row :=
  (s.bands.filter (fun d => which d.2 && !bandFrozen s d.2)).flatMap (fun d =>
    (d.2.rows.filter (fun r => rowIsland d.2.first r.1 == island)).map (fun r => (d.2.first + r.1, r.2)))

/-- R323: the Halyard of an island turns no row over. -/
def halyardFree (s : State) (island : Nat) : Bool :=
  !(islandRows s island (fun _ => true)).any (fun r => r.2.st == .lower || r.2.st == .hoist)

/-- R326: turnovers of the band are started. -/
def Band.turns (b : Band) : Bool := !b.frozenRows && b.run.isSome

/-- R323: the fabric row of the island that became DONE first. -/
def nextDone (s : State) (island : Nat) : Option Nat :=
  (leastBy (fun (r : Nat × Row) => 4096 * r.2.since + r.1) ((islandRows s island Band.turns).filter (fun r => r.2.st == .done))).map (·.1)

/-- Changes a row of a band whose configuration is installed. -/
def rowEvent (s : State) (first q : Nat) (f : Band → Config → Row → Option Band) : State :=
  match look s.bands first with
  | none => s
  | some b =>
    match b.cfg, look b.rows q with
    | some c, some r => (match (if bandFrozen s b then none else f b c r) with
      | some b => setBand s first b
      | none => s)
    | _, _ => s

def Band.setRow (b : Band) (q : Nat) (r : Row) : Band := { b with rows := put b.rows q r }

/-- R323, a row has woken. -/
def execRowWakeDone (first row : Nat) (s : State) : Host.Outcome State Fault Refusal :=
  .next (rowEvent s first row (fun b _ r => if r.st = .waking then some (b.setRow row { r with st := .install }) else none))

/-- R323, a row is installed. -/
def execRowInstallDone (first row : Nat) (s : State) : Host.Outcome State Fault Refusal :=
  .next (rowEvent s first row (fun b _ r => if r.st = .install then some (b.setRow row { r with st := .live }) else none))

/-- R322, R323, R326: the Halyard takes a DONE row and saves its state. -/
def execRowLower (first row : Nat) (s : State) : Host.Outcome State Fault Refusal :=
  .next (rowEvent s first row (fun b _ r =>
    if r.st = .done ∧ b.turns ∧ halyardFree s (rowIsland b.first row) ∧
        nextDone s (rowIsland b.first row) = some (b.first + row) then
      some (b.setRow row { r with st := .lower })
    else none))

/-- R320: the stages of a virtual row begin a batch, and their landed tokens stream in. -/
def Band.beginBatch (b : Band) (c : Config) (vrow : Nat) : Band :=
  c.stages.zipIdx.foldl (fun b s =>
    if s.1.vrow = vrow then
      let st := b.stage s.2
      let b := b.setStage s.2 { st with batchFired := 0, batches := st.batches + 1 }
      s.1.prog.ins.foldl (fun b p => match c.inPath s.2 p with
        | some id => b.stream c id
        | none => b) b
    else b) b

/-- R322, R323: a lowered row installs the next virtual row; a hoisted one is restored. -/
def execRowHoist (first row : Nat) (s : State) : Host.Outcome State Fault Refusal :=
  let ends : Bool := match (look s.bands first).bind (fun b => look b.rows row) with
    | some r => r.st == .hoist
    | none => false
  let t := rowEvent s first row (fun b c r =>
    if r.st = .lower then some (b.setRow row { r with st := .hoist, hoist := r.hoist + c.p })
    else if r.st = .hoist then
      some (((b.setRow row { r with st := .live }).beginBatch c (r.hoist % c.v)).settle c s.clock)
    else none)
  .next
    (match look t.bands first with
    | some b =>
      if ends ∧ !bandFrozen s b then
        let t := countEvent t b.part (some (bandPlace first)) 0x17
        endIntervals t b.part (some (bandPlace first))
      else t
    | none => t)

/-! ## Rare groups (R307) -/

/-- R307: the event to be served next, with the port it re-injects at: the oldest whose word has no group at work. -/
def waitingRare (b : Band) (c : Config) : Option (Nat × Rare) :=
  let all : List (Nat × Rare) := c.rarePortList.flatMap (fun i => (b.port i).rare.map (fun r => (i, r)))
  let busy (r : Rare) : Bool := all.any (fun x => x.2.stage == r.stage && x.2.word == r.word && x.2.group.isSome)
  leastBy (fun x => x.2.seq) (all.filter (fun x => !busy x.2))

/-- R307: the core that takes the group. -/
def rareCore (s : State) (first rregs : Nat) : Option Nat :=
  let blk := ((look s.bands first).map (·.block)).getD 0
  ((List.range 12).map (12 * (first / 3) + ·)).find? (fun k =>
    clusterOn s (k / 4) && !(coreOf s k).halted && !hostsVector s k && placesFree s k 1 &&
      decide (rregs ≤ rowsFree s k) && (rregs == 0 || !rowsAwaited s k) && !reservedCore s k blk &&
      (List.range 16).all (fun l => !(poolSpare s k l).isEmpty))

/-- R307: the group is created. -/
def createRare (s : State) (first : Nat) (b : Band) (c : Config) (i : Nat) (r : Rare) (core : Nat) : State :=
  let e := portAt c i
  let seed := blockSeed s b.block
  let base : Option Nat := match (look s.blocks b.block).bind (kernelOf s) with
    | some k => (look k.text 0).map (fun t => t.base)
    | none => none
  let pool (l : Nat) : Nat := (poolOrder s core l).headD 0
  let ls := List.range 16
  let set : AllocSet :=
    { block := b.block, core, rows := e.rregs,
      v := ls.foldl (fun t l => putZ (putZ t l (r.b.lane l)) (32 + l) (r.a.lane l)) [],
      rng := ls.foldl (fun t l => putZ t l (seedOf seed.1 seed.2 (pool l))) [],
      threads := ls.map (fun l => (l, { pool := pool l, index := none })) }
  let s0 : Dword := BitVec.ofNat 64 (r.stage % 2 ^ 16 * 2 ^ 48 + r.ordinal % 2 ^ 48)
  let s1 : Dword := BitVec.ofNat 64 (e.port + e.stg * 2 ^ 4)
  let g := { startGroup b.block core s.fresh 0xFFFF#32 e.rregs (BitVec.ofNat 64 (base.getD 0 + e.rentry)) [(0, s0), (1, s1)] s.clock with
    rare := some (first, i, r.stage) }
  let k := coreOf s core
  let s' := setCore s core { k with order := k.order ++ [s.fresh + 1] }
  let p := b.port i
  let b := b.setPort i { p with rare := p.rare.map (fun x => if x.seq = r.seq then { x with group := some (s.fresh + 1) } else x) }
  setBand
    { s' with sets := put s'.sets s.fresh set, groups := put s'.groups (s.fresh + 1) g, fresh := s.fresh + 2, free := s.free + 1024 }
    first b

/-- R307, a rare group is created. -/
def execRareEventGroup (first : Nat) (s : State) : Host.Outcome State Fault Refusal :=
  .next
    (match look s.bands first with
    | none => s
    | some b =>
      match b.cfg with
      | none => s
      | some c =>
        match waitingRare b c with
        | none => s
        | some (i, r) =>
          match rareCore s first (portAt c i).rregs with
          | some core => if bandFrozen s b || blockFrozen s b || swappedPart s b.part then s else createRare s first b c i r core
          | none => s)

/-! ## Operations (R244 to R247) -/

/-- R246, R292: every source port has passed its marker, every token has reached a sink and been written, and every completion is
out. A core input that no
stage re-injects at is a source that never ends; a core output is a sink (log 27). -/
def runEnded (b : Band) (c : Config) : Bool :=
  c.ports.zipIdx.all (fun e =>
    let p := b.port e.2
    p.part.isEmpty && p.spill.isEmpty && p.slots.isEmpty && (e.1.cmpl.isNone || p.cmpl == p.pos) && (match e.1.kind with
      | 0 => p.ended
      | 2 => c.reinjects e.2
      | _ => true)) &&
    c.paths.all (fun id => ((b.chan id).q.isEmpty && (b.chan id).landed.isEmpty) ||
      (decide (c.chans.length ≤ id) && (c.ports[id - c.chans.length]?).map (·.kind) == some 3))

/-- R247, R326: nothing in flight can move: no stage fires, no port delivers or retries, no turnover runs, no rare group is at
work. -/
def runStill (b : Band) (c : Config) : Bool :=
  (b.run.isNone || !b.retries c) &&
  (List.range c.stages.length).all (fun i => !b.canFire c i) &&
    c.ports.zipIdx.all (fun e =>
      let p := b.port e.2
      (!p.rare.any (fun r => r.group.isSome)) &&
        (match e.1.kind with
          | 0 => (b.nextTok c e.2 e.1).isNone && (b.run.isNone || decide (32 ≤ p.spill.length) || !mayLoad b c e.2 e.1 true)
          | 1 => (b.chan (c.portPath e.2)).q.isEmpty || (match b.run with
            | some r => behindSpilled r e.1 p p.pos || decide (32 ≤ p.spill.length)
            | none => true)
          | _ => true) &&
        (e.1.cmpl.isNone || decide (p.pos ≤ p.cmpl) || p.spill.any (fun x => x.1 == p.cmpl) || p.lost.contains p.cmpl ||
          !hasSpace (b.space c (c.cmplPath e.2)) 1)) &&
    !b.rows.any (fun r => r.2.st == .lower || r.2.st == .hoist)

/-- R244: the OR of the stages' flags, which are then cleared. -/
def Band.takeFlags (b : Band) : Band × Flags :=
  ({ b with stages := b.stages.map (fun x => (x.1, { x.2 with flags := 0 })) },
    flagsJoin (b.stages.map (fun x => x.2.flags)))

/-- The operation at the head of a band's queue. -/
def Band.modHead (b : Band) (f : BandOp → BandOp) : Band :=
  match b.ops with
  | o :: os => { b with ops := f o :: os }
  | [] => b

/-- R244: the head operation has its CODE and INFO; an `frun`, `fdrain` or `fsave` with a record delivers FLAGS in it. -/
def endBandOp (b : Band) (code : Nat) (info : Dword) : Band :=
  match b.ops with
  | [] => b
  | o :: _ =>
    let (b, fl) := if o.kind = 0 ∨ o.record = none then (b, 0) else b.takeFlags
    b.modHead (fun o => { o with code := some code, info, flags := fl })

/-- R316, R307: the size of the kernel's threaded hot text, none without a threaded version. -/
def threadedText (s : State) (blk : Nat) : Option Nat :=
  ((look s.blocks blk).bind (kernelOf s)).bind (fun k =>
    if headerHas k.header 0 then (look k.text 0).map (·.size) else none)

/-- R245: reads and checks an image at `a`: a configuration, the records of a save image, or why it is refused. -/
def readConfig (s : State) (b : Band) (a : Nat) : State × Except Refused Config :=
  let h := bandRead s b.part a 256
  match metCode h.met with
  | some c => (h.s, .error { code := c, info := some noAddr })
  | none =>
    let n := (imgHead h.bytes).imgsz
    if n < 256 then (h.s, .error refuse7)
    else
      let m := bandRead h.s b.part a n
      match metCode m.met with
      | some c => (m.s, .error { code := c, info := some noAddr })
      | none => (m.s, checkImage a b.p (threadedText s b.block) m.bytes)

/-- R245: the head `fload` is refused. Where the manual states no INFO it is free (log 5). -/
def refuseLoad (s : State) (first : Nat) (b : Band) (r : Refused) : State :=
  let (info, s) := match r.info with
    | some i => (i, s)
    | none => drawDword s
  setBand s first (endBandOp b r.code info)

/-- R310, R327: the header of a save image. -/
def savedHead (h : List Byte) : Bool := field (dwordIn h 0) 7 0 == 2 && field (dwordIn h 0) 15 8 == 1

/-- R328: refused with CODE 10. -/
def refuse10 : Refused := { code := 10, info := some noAddr }

/-- R328: reads and checks a save image at `a` whose header is `h`; the band it restores, or why it is refused. `chk`: its CHK must
match. -/
def readSaved (s : State) (b : Band) (a : Nat) (h : List Byte) (chk : Bool) : State × Except Refused Band :=
  let n := (wordIn h 0x28).toNat
  if n < 256 ∨ field (dwordIn h 0) 23 16 ≠ b.p then (s, .error refuse10)
  else
    let m := bandRead s b.part a n
    let g := bandRead m.s b.part (dwordIn h 0x10).toNat 256
    match (metCode m.met).or (metCode g.met) with
    | some c => (g.s, .error { code := c, info := some noAddr })
    | none =>
      if (chk ∧ crc32c (m.bytes.drop 256) ≠ wordIn h 0x2C) ∨ wordIn h 0x18 ≠ (imgHead g.bytes).sig ∨ (imgHead g.bytes).p ≠ b.p then
        (g.s, .error refuse10)
      else
        let (s, x) := readConfig g.s b (dwordIn h 0x10).toNat
        match x with
        | .error r => (s, .error r)
        | .ok c =>
          let seed := blockSeed s b.block
          if field (dwordIn h 0) 47 32 ≠ c.v ∨ field (dwordIn h 0) 63 48 ≠ c.stages.length then (s, .error refuse10)
          else match (parseRecords (m.bytes.drop 256) (n / 8 + 1)).bind (restoreBand c (freshBand b c seed.1 seed.2) s.fresh) with
            | none => (s, .error refuse10)
            | some b => ({ s with fresh := s.fresh + 4096 }, .ok { b with anew := runEnded b c })

/-- R328: the `fload` of a save image whose header is `h`. -/
def loadSaved (s : State) (first : Nat) (b : Band) (a : Nat) (h : List Byte) : State :=
  match readSaved s b a h true with
  | (s, .error r) => refuseLoad s first b r
  | (s, .ok b) => setBand s first (b.modHead (fun o => { o with started := true }))

/-- R245: the head `fload` begins. -/
def startLoad (s : State) (first : Nat) (b : Band) (o : BandOp) : State :=
  let h := (bandRead s b.part o.addr 256).touch b.block
  match metCode h.met with
  | some c => refuseLoad h.s first b { code := c, info := some noAddr }
  | none =>
    if savedHead h.bytes then loadSaved h.s first b o.addr h.bytes
    else
      let (s, x) := readConfig h.s b o.addr
      match x with
      | .error r => refuseLoad s first b r
      | .ok c =>
        let seed := blockSeed s b.block
        setBand s first ((freshBand b c seed.1 seed.2).modHead (fun o => { o with started := true }))

/-- R318: the scroll area of a run fits: aligned, and in the partition's device memory. -/
def scrollFits (s : State) (part : Nat) (c : Config) (a : Nat) : Bool :=
  !c.scrolls || (a % 4096 == 0 &&
    (List.range (c.scrsz / 4096 + 1)).all (fun k =>
      decide (c.scrsz ≤ 4096 * k) || (match (xlate s part (a + 4096 * k) needW).res with
        | .ok key => isHbm key
        | .bad _ => false)))

/-- R246, R247, R296: after a run that ended the streams begin anew; else they go on where they stand, spilled elements
first (log 27). -/
def resumePorts (b : Band) : Band :=
  let again (p : PortSt) : PortSt :=
    if b.anew then { p with pos := 0, cmpl := 0, ended := false, lost := [] } else { p with spill := p.spill.map (fun x => (x.1, none)) }
  let begin_ (st : StageSt) : StageSt := if b.anew then { st with eos := [], differ := false } else st
  let b : Band :=
    { b with
      anew := false, ports := b.ports.map (fun x => (x.1, again x.2)), stages := b.stages.map (fun x => (x.1, begin_ x.2)),
      frozenRows := false }
  b.streamAll

/-- R379: the faults of a band's elements are no longer waited for. -/
def dropPortFaults (s : State) (first : Nat) : State :=
  { s with faults := s.faults.filter (fun f => !(f.2.eng.kind == 3 && f.2.eng.unit == first && f.2.elem != recordElem)) }

/-- R364: in a firing's spatial block, dwords 29 and 30 of the parameters are the buffer's address and the entry count. -/
def firingParams (s : State) (blk : Nat) (ps : List Dword) : List Dword :=
  match look s.blocks blk with
  | none => ps
  | some b =>
    match if b.ver = 2 then (look s.launches b.launch).bind (·.firing) else none with
    | some f => setAt (setAt ps 29 (BitVec.ofNat 64 f.addr)) 30 (BitVec.ofNat 64 f.count)
    | none => ps

/-- R246: the head `frun` begins. -/
def startRun (s : State) (first : Nat) (b : Band) (o : BandOp) : State :=
  match b.cfg with
  | none => setBand s first (endBandOp b 11 noAddr)
  | some c =>
    let m := (bandRead s b.part o.addr 256).touch b.block
    match metCode m.met with
    | some code => setBand m.s first (endBandOp b code noAddr)
    | none =>
      let params := firingParams m.s b.block ((List.range 32).map (fun i => dwordIn m.bytes (8 * i)))
      if !scrollFits m.s b.part c (params.getD 31 0).toNat then setBand m.s first (endBandOp b 2 noAddr)
      else
        let b := resumePorts b
        let b := { b with run := some { params, stopped := false, code := none } }
        setBand (dropPortFaults m.s first) first ((b.modHead (fun o => { o with started := true })).settle c s.clock)

/-- R296: what a run that has ended leaves spilled stays with the band, and is retried by a later `frun`: no answer is awaited
for it. -/
def restPorts (s : State) (first : Nat) : State :=
  let rest (p : PortSt) : PortSt := { p with spill := p.spill.map (fun x => (x.1, none)) }
  dropPortFaults { s with bands := upd s.bands first (fun b => { b with ports := b.ports.map (fun x => (x.1, rest x.2)) }) } first

/-- R244, R246, R247, R296: the head `frun` goes on, is stopped by an `fdrain` or `fsave` behind it, or ends. After one that has
ended by itself the streams begin anew; after one that stopped or failed a later `frun` goes on. -/
def goOnRun (s : State) (first : Nat) (b : Band) (r : Run) : State :=
  match b.cfg with
  | none => setBand s first (endBandOp { b with run := none } 0 noAddr)
  | some c =>
    let ended := runEnded b c
    if ended || (r.stopped && runStill b c) then
      restPorts (setBand s first (endBandOp { b with run := none, anew := ended && r.code.isNone } (r.code.getD 0) noAddr)) first
    else if !r.stopped && (b.ops.drop 1).any (fun o => decide (2 ≤ o.kind)) then
      setBand s first { b with run := some { r with stopped := true }, frozenRows := true }
    else s

/-- R247, R327: the head `fsave` writes the save image and leaves the band unconfigured and gated. -/
def saveBand (s : State) (first : Nat) (b : Band) (o : BandOp) (c : Config) : State :=
  let m := (bandWrite s b.part o.addr (bandImage c b)).touch b.block
  match metCode m.met with
  | some code => setBand m.s first (endBandOp b code noAddr)
  | none =>
    let b := endBandOp b 0 noAddr
    setBand (dropPortFaults m.s first) first
      { b with
        cfg := none, anew := false, stages := [], chans := [], ports := [], rows := b.rows.map (fun r => (r.1, { r.2 with st := .gated })),
        frozenRows := false }

/-- R244, R422: the record of an operation. -/
def BandOp.recordBytes (o : BandOp) : List Byte := leBytes (o.code.getD 0 + o.flags.toNat * 2 ^ 16) 8 ++ dwordBytes o.info

/-- R244, R160: the operation leaves the context and the counter advances. R408: a configuration interval ends. -/
def leaveBandOp (s : State) (first : Nat) (b : Band) (o : BandOp) : State :=
  let code := o.code.getD 0
  let s := setBand s first { b with ops := b.ops.drop 1, count := o.no }
  let s := if o.kind = 0 then endIntervals s b.part (some (bandPlace first)) else s
  if code = 0 then s
  else faultRecord s b.part 0x02 0 (some o.block) noAddr (BitVec.ofNat 64 (code + o.no % 2 ^ 48 * 2 ^ 16))

/-- R244, R422: the head operation, which has its CODE, writes its record and completes. -/
def completeBandOp (s : State) (first : Nat) (b : Band) (o : BandOp) : State :=
  match o.record with
  | none => leaveBandOp s first b o
  | some a =>
    if o.wait.isSome then s
    else
      let m := (recordWrite s b.part a o.recordBytes).touch b.block
      match m.met with
      | .done => leaveBandOp m.s first b o
      | .fail c => leaveBandOp (recordLost m.s b.part 3 c o.no (some o.block) a) first b o
      | .wait x w =>
        match newFault m.s { part := b.part, eng := { kind := 3, unit := first, ctx := 0 }, op := o.no, elem := recordElem,
                             addr := BitVec.ofNat 64 x, write := w, since := 0, recorded := false, block := o.block } with
        | some (s, t) => setBand s first (b.modHead (fun o => { o with wait := some t }))
        | none => m.s

/-- R245: every row of the configuration is installed. -/
def installed (b : Band) : Bool := b.rows.all (fun r => r.2.st != .waking && r.2.st != .install)

/-- R244: one step of the band context's head operation. -/
def bandStep (s : State) (first : Nat) (b : Band) : State :=
  match b.ops with
  | [] => s
  | o :: _ =>
    if o.code.isSome then completeBandOp s first b o
    else match o.kind with
      | 0 => if o.started then (if installed b then setBand s first (endBandOp b 0 noAddr) else s) else startLoad s first b o
      | 1 =>
        if o.started then (match b.run with
          | some r => goOnRun s first b r
          | none => setBand s first (endBandOp b 0 noAddr))
        else startRun s first b o
      | k =>
        match b.cfg with
        | none => setBand s first (endBandOp b 11 noAddr)
        | some c =>
          let b := { b with frozenRows := true }
          if !runStill b c then setBand s first b
          else if k = 2 then setBand s first (endBandOp b 0 noAddr)
          else saveBand s first b o c

/-- R244, a band's operation takes its next step, and completes. A band that the hang monitor froze stops where it is (R352). -/
def execBandOpCompletion (first : Nat) (s : State) : Host.Outcome State Fault Refusal :=
  .next
    (match look s.bands first with
    | some b => if bandFrozen s b then s else bandStep s first b
    | none => s)

/-- R412: the row's stage programs are read again from the image of the last `fload`: nothing changes, unless the image no
longer matches, which stops the run with CODE 4. -/
def execConfigStoreReload (first row : Nat) (s : State) : Host.Outcome State Fault Refusal :=
  .next (match look s.bands first with
    | none => s
    | some b =>
      match b.cfg with
      | none => s
      | some c =>
        let h := bandRead s b.part c.image 256
        let n := (imgHead h.bytes).imgsz
        let m := bandRead h.s b.part c.image n
        if (look b.rows row).isNone || (h.met = .done ∧ m.met = .done ∧ 256 ≤ n ∧ (imgHead h.bytes).sig = c.sig ∧
            crc32c (m.bytes.drop 256) = c.sig) then m.s
        else
          disarmHop (setBand m.s first { b with
            run := b.run.map (fun r => { r with stopped := true, code := some (r.code.getD 4) }), frozenRows := b.frozenRows || b.run.isSome })
            b.block)

/-! ## Instruction words (R242, R243, R248, R249) -/

/-- R242: the block's band, if the binding is its own. -/
def ownBand (s : State) (q : Issuer) (b : Dword) : Option (Nat × Band) :=
  match q.b.band with
  | none => none
  | some f =>
    if bindMask b = bindMask (BitVec.ofNat 64 (2 ^ 63 + 3 * 2 ^ 59 + f * 2 ^ 32)) then (look s.bands f).map (fun d => (f, d)) else none

/-- R242 to R244: an operation enters the band context. -/
def bandAct (kind align : Nat) (f : Fixed) (o : Ops4) (s : State) (q : Issuer) : State :=
  match ownBand s q (readTl q (regNum o.b)) with
  | none => trapBefore s q causeBinding 0 false
  | some (first, _) =>
    let a := (scalarVal q o.a).toNat
    if a % align ≠ 0 then trapBefore s q causeAlign (scalarVal q o.a) (kind == 3)
    else
      let e : EngRef := { kind := 3, unit := first, ctx := 0 }
      let s := releaseNow s q.gid
      match look s.bands first with
      | none => s
      | some b =>
        if engFull s e then stall s q (.full e)
        else
          let n := b.issued + 1
          let op : BandOp :=
            { no := n, kind, addr := a, record := if o.c.used then some (scalarVal q o.c).toNat else none, block := q.g.block,
              started := false, code := none, info := noAddr, flags := 0, wait := none }
          finish (pendS (setBand s first { b with issued := n, ops := b.ops ++ [op] }) q o.d (BitVec.ofNat 64 n)) q f

/-- R245, `fload`. -/
def execFload (f : Fixed) (o : Ops4) (s : State) : Host.Outcome State Fault Refusal := word (.fload f o) s (bandAct 0 256 f o)

/-- R246, `frun`. -/
def execFrun (f : Fixed) (o : Ops4) (s : State) : Host.Outcome State Fault Refusal := word (.frun f o) s (bandAct 1 64 f o)

/-- R247, `fdrain`. -/
def execFdrain (f : Fixed) (o : Ops4) (s : State) : Host.Outcome State Fault Refusal := word (.fdrain f o) s (bandAct 2 1 f o)

/-- R247, `fsave`. -/
def execFsave (f : Fixed) (o : Ops4) (s : State) : Host.Outcome State Fault Refusal := word (.fsave f o) s (bandAct 3 4096 f o)

/-- R248: a port word: PORT, DIR, STAGE; none where it is malformed. -/
def portWord (x : Dword) : Option (Nat × Bool × Nat) :=
  if field x 63 16 ≠ 0 then none else some (field x 2 0, bitAt x 3, field x 15 4)

/-- R248: the port table entry a port word names, of KIND `kind`. -/
def corePort (b : Band) (x : Dword) (kind : Nat) : Option (Config × Nat) :=
  match b.cfg, portWord x with
  | some c, some (p, d, st) =>
    if d = (kind == 3) then
      (c.ports.findIdx? (fun e => e.kind == kind && e.stg == st && e.port == p)).map (fun i => (c, i))
    else none
  | _, _ => none

/-- R248, R326: room for a push: free slots of the channel, and of its landing ring where the token lands. -/
def pushRoom (b : Band) (c : Config) (id : Nat) : Nat :=
  match b.space c id with
  | some n => n
  | none => c.depth id + c.ring id - ((b.chan id).q.length + (b.chan id).landed.length)

/-- R307: group `gid` fills the oldest unfilled reservation, and the event it serves is served; with a group that serves
none of the port's, the oldest event is. -/
def Band.fillRare (b : Band) (c : Config) (i gid : Nat) (t : Tok) : Band :=
  let p := b.port i
  let k := p.slots.findIdx (·.isNone)
  let n := (p.rare.findIdx? (fun r => r.group == some gid)).getD 0
  (b.setPort i { p with slots := setAt p.slots k (some t), rare := p.rare.eraseIdx n }).flushSlots c i p.slots.length

/-- R248: the token of a push. -/
def pushTok (s : State) (q : Issuer) (f : Fixed) (half null : Bool) (a : Reg) : Tok :=
  if null then nullTok
  else
    let m := active q f
    { null := false,
      lanes := (List.range 16).map (fun k =>
        let l := 16 * half.toNat + k
        if m.getLsbD l then (laneVal s q false a l).setWidth 32 else 0) }

/-- R248: a push; the band and the status. -/
def pushBand (b : Band) (gid : Nat) (x : Dword) (t : Tok) (clock : Nat) : Band × Dword :=
  match corePort b x 2 with
  | none => (b, 0x4000000000000000#64)
  | some (c, i) =>
    if c.reinjects i then
      let open_ : Nat := ((b.port i).slots.filter (·.isNone)).length
      if open_ = 0 then (b, 0x8000000000000000#64)
      else ((b.fillRare c i gid t).settle c clock, BitVec.ofNat 64 (min 8 (open_ - 1)))
    else
      let n := pushRoom b c (c.portPath i)
      if n = 0 then (b, 0x8000000000000000#64)
      else ((b.arrive c (c.portPath i) t).settle c clock, BitVec.ofNat 64 (min 8 (n - 1)))

/-- R248, `fpush`. -/
def execFpush (f : Fixed) (half null : Bool) (o : Ops4) (s : State) : Host.Outcome State Fault Refusal :=
  word (.fpush f half null o) s (fun s q =>
    match q.b.band.bind (fun n => (look s.bands n).map (fun b => (n, b))) with
    | none => trapBefore s q causeBinding 0 false
    | some (first, b) =>
      let (b, st) := pushBand b q.gid (scalarVal q o.b) (pushTok s q f half null o.a) s.clock
      finish (pendS (setBand s first b) q o.d st) q f)

/-- R248, R326: a pop; the band, the token and the status. -/
def popBand (b : Band) (x : Dword) (clock : Nat) : Band × Option Tok × Dword :=
  match corePort b x 3 with
  | none => (b, none, 0x4000000000000000#64)
  | some (c, i) =>
    let id := c.portPath i
    let ch := b.chan id
    match ch.q with
    | [] => (b, none, 0x8000000000000000#64)
    | t :: q =>
      if !b.resident c (rowOf c.stages (portAt c i).stg) then (b, none, 0x8000000000000000#64)
      else
        ((b.setChan id { ch with q }).settle c clock, some t,
          BitVec.ofNat 64 q.length ||| (if t.null then 0x2000000000000000#64 else 0))

/-- R248, `fpop`. -/
def execFpop (f : Fixed) (half : Bool) (o : Ops4) (s : State) : Host.Outcome State Fault Refusal :=
  word (.fpop f half o) s (fun s q =>
    match q.b.band.bind (fun n => (look s.bands n).map (fun b => (n, b))) with
    | none => trapBefore s q causeBinding 0 false
    | some (first, b) =>
      let (b, t, st) := popBand b (scalarVal q o.a) s.clock
      let s := setBand s first b
      let s := match t with
        | some t =>
          if t.null then s
          else
            let lo := 16 * half.toNat
            let m := active q f &&& ofLanes (fun l => decide (lo ≤ l) && decide (l < lo + 16))
            addPending s q (destsOf o.d 1)
              (.value m [(List.range 32).map (fun l => (t.lanes.getD (l - lo) 0).setWidth 64)])
        | none => s
      finish (pendS s q o.c st) q f)

end Sys2Proof.Machine
end

