-- ==== Sys2Proof/Machine/Bits.lean ====
section
/-! DEFINITION. Bit manipulation (R128). -/

namespace Sys2Proof.Machine

/-- R128, `popc`: number of ones. -/
def execPopc (f : Fixed) (o : BitForm) (s : State) : Host.Outcome State Fault Refusal :=
  word (.popc f o) s (laneAct (.bit 0 o.ty) f o.d o.a o.b o.c)

/-- R128, `clz`: leading zeros. -/
def execClz (f : Fixed) (o : BitForm) (s : State) : Host.Outcome State Fault Refusal :=
  word (.clz f o) s (laneAct (.bit 1 o.ty) f o.d o.a o.b o.c)

/-- R128, `brev`: bit reversal. -/
def execBrev (f : Fixed) (o : BitForm) (s : State) : Host.Outcome State Fault Refusal :=
  word (.brev f o) s (laneAct (.bit 2 o.ty) f o.d o.a o.b o.c)

/-- R128, `bfe`: field extract. -/
def execBfe (f : Fixed) (o : BitForm) (s : State) : Host.Outcome State Fault Refusal :=
  word (.bfe f o) s (laneAct (.bit 3 o.ty) f o.d o.a o.b o.c)

/-- R128, `bfi`: field insert. -/
def execBfi (f : Fixed) (o : BitForm) (s : State) : Host.Outcome State Fault Refusal :=
  word (.bfi f o) s (laneAct (.bit 4 o.ty) f o.d o.a o.b o.c)

end Sys2Proof.Machine
end

