-- ==== Sys2Proof/Machine/Compare.lean ====
section
/-! DEFINITION. Compare, select and predicate logic (R129 to R131). -/

namespace Sys2Proof.Machine

/-- R129: sets each active lane's bit of D to the condition. -/
def cmpAct (f : Fixed) (cond : Cond) (o : BitForm) (s : State) (q : Issuer) : State :=
  let op := LaneOp.cmp cond o.ty
  let m := active q f
  let outs := laneOuts m (fun l =>
    op.eval { a := laneVal s q o.ty.wide o.a l, b := laneVal s q o.ty.wide o.b l, c := 0, old := 0, g := 0 })
  let s := holdP s q o.d m (ofLanes (fun l => bitAt ((outs.map (·.v)).getD l 0) 0)) op.lat
  let s := if op.flagging then holdFlags s q (flagsJoin (outs.map (·.flags))) op.lat else s
  finish s q f

/-- R130: A where the lane's bit of predicate C is 1, B otherwise; bits are copied. -/
def selAct (f : Fixed) (o : BitForm) (s : State) (q : Issuer) : State :=
  let m := active q f
  let p := readP q (regNum o.c)
  let vals := (List.range 32).map (fun l => laneVal s q o.ty.wide (if p.getLsbD l then o.a else o.b) l)
  finish (holdV s q o.d o.ty.wide m vals 2) q f

/-- R131: predicate logic, each active lane's bit. -/
def predAct (op : Nat) (f : Fixed) (o : Ops4) (s : State) (q : Issuer) : State :=
  let a := readP q (regNum o.a)
  let b := readP q (regNum o.b)
  finish (holdP s q o.d (active q f) (ofLanes (fun l => predBit op (a.getLsbD l) (b.getLsbD l))) 2) q f

/-- R129, `cmp`. -/
def execCmp (f : Fixed) (cond : Cond) (o : BitForm) (s : State) : Host.Outcome State Fault Refusal :=
  word (.cmp f cond o) s (cmpAct f cond o)

/-- R130, `sel`. -/
def execSel (f : Fixed) (o : BitForm) (s : State) : Host.Outcome State Fault Refusal :=
  word (.sel f o) s (selAct f o)

/-- R131, `pand`. -/
def execPand (f : Fixed) (o : Ops4) (s : State) : Host.Outcome State Fault Refusal :=
  word (.pand f o) s (predAct 0 f o)

/-- R131, `por`. -/
def execPor (f : Fixed) (o : Ops4) (s : State) : Host.Outcome State Fault Refusal :=
  word (.por f o) s (predAct 1 f o)

/-- R131, `pxor`. -/
def execPxor (f : Fixed) (o : Ops4) (s : State) : Host.Outcome State Fault Refusal :=
  word (.pxor f o) s (predAct 2 f o)

/-- R131, `pnot`. -/
def execPnot (f : Fixed) (o : Ops4) (s : State) : Host.Outcome State Fault Refusal :=
  word (.pnot f o) s (predAct 3 f o)

end Sys2Proof.Machine
end

