-- ==== Sys2Proof/Machine/Shuffle.lean ====
section
/-! DEFINITION. Shuffles within a group and across the cores of a cluster (R193 to R195). -/

namespace Sys2Proof.Machine

/-- R194: the source lane of lane `l` with operand `b`. -/
def shflSource (mode : ShflMode) (n16 : Bool) (l : Nat) (b : Word) : Option Nat :=
  let base := if n16 then l / 16 * 16 else 0
  let w := if n16 then 16 else 32
  let j := l - base
  let n := b.toNat
  match mode with
  | .idx => some (base + n % w)
  | .up => if n ≤ j then some (base + j - n) else none
  | .down => if j + n < w then some (base + j + n) else none
  | .xor => some (base + (j ^^^ n % w))

/-- R194: the lane a result comes from: the source where it is a member, else the lane itself. -/
def shflLane (mode : ShflMode) (n16 : Bool) (members : Word) (l : Nat) (b : Word) : Option Nat :=
  (shflSource mode n16 l b).bind (fun k => if members.getLsbD k then some k else none)

/-- R193: operand b of lane `l`. -/
def shflOperand (s : State) (q : Issuer) (o : ShflForm) (l : Nat) : Word := (laneVal s q false o.b l).setWidth 32

/-- R194, `shfl`. -/
def shflAct (f : Fixed) (o : ShflForm) (s : State) (q : Issuer) : State :=
  let vals := (List.range 32).map (fun l =>
    laneVal s q o.w64 o.a ((shflLane o.mode q.b.n16 q.lanes l (shflOperand s q o l)).getD l))
  finish (holdV s q o.d o.w64 (active q f) vals 4) q f

/-- R193, `shfl`. -/
def execShfl (f : Fixed) (o : ShflForm) (s : State) : Host.Outcome State Fault Refusal :=
  word (.shfl f o) s (shflAct f o)

/-! ## Across cores (R195) -/

/-- A pending offer. -/
def Pending.offerOf (p : Pending) : Option ShflOffer :=
  match p.work with
  | .offer o => some o
  | _ => none

/-- R195: the partner core and the tag of an offer. -/
def ShflOffer.partner (o : ShflOffer) : Nat := o.sc.toNat % 4
def ShflOffer.tag (o : ShflOffer) : Nat := o.sc.toNat / 2 ^ 16

/-- R195: the group's unmatched offer. -/
def groupOffer (g : Group) : Option (Pending × ShflOffer) :=
  g.ctx.pend.findSome? (fun p => p.offerOf.map (fun o => (p, o)))

/-- R195, `shfl.x`. -/
def shflXAct (f : Fixed) (o : ShflForm) (s : State) (q : Issuer) : State :=
  if (groupOffer q.g).isSome then stall s q .offer
  else
    let c := scalarVal q o.c
    let offer : ShflOffer :=
      { sc := c.setWidth 32, mode := o.mode, n16 := q.b.n16, members := q.lanes,
        vals := (List.range 32).map (laneVal s q o.w64 o.a), ops := (List.range 32).map (shflOperand s q o),
        lanes := active q f }
    finish (addPending s q (destsOf o.d (if o.w64 then 2 else 1)) (.offer offer)) q f

/-- R193, `shfl.x`. -/
def execShflX (f : Fixed) (o : ShflForm) (s : State) : Host.Outcome State Fault Refusal :=
  word (.shflX f o) s (shflXAct f o)

/-- R195: the unmatched offers of a core for a partner core and tag, other than `but`, by their stamps. -/
def offersFor (s : State) (core partner tag but : Nat) : List Nat :=
  s.groups.filterMap (fun e =>
    if e.2.core = core then
      (groupOffer e.2).bind (fun x => if x.2.partner = partner ∧ x.2.tag = tag ∧ x.1.id ≠ but then some x.1.id else none)
    else none)

/-- R195: the offer `x` is the oldest of its core that may match the one stamped `but`. -/
def oldestOffer (s : State) (core : Nat) (x : Pending × ShflOffer) (but : Nat) : Bool :=
  (offersFor s core x.2.partner x.2.tag but).all (fun i => decide (x.1.id ≤ i))

/-- R195: what the issuer of `mine` receives from `other`, by R194 with the partner's members and A. A lane in which the
partner has no member has no A there: a free value, a function of the operands of the two (R41, log 5). -/
def offerResult (s : State) (p : Pending) (mine other : ShflOffer) : Arrived :=
  let lane (l : Nat) : Dword :=
    let from_ := (shflLane mine.mode mine.n16 other.members l (mine.ops.getD l 0)).getD l
    if other.members.getLsbD from_ then other.vals.getD from_ 0 else
      Config.noMember mine.mode mine.members mine.lanes mine.vals mine.ops other.members other.lanes other.vals other.ops l
  { s, mask := mine.lanes,
    vals := p.dests.zipIdx.map (fun d => (List.range 32).map (fun l => ((lane l) >>> (32 * d.2)).setWidth 32 |>.setWidth 64)) }

/-- R195: the offers of two groups match. -/
def matchOffers (s : State) (g₁ g₂ : Nat) : State :=
  match look s.groups g₁, look s.groups g₂ with
  | some a, some b =>
    match groupOffer a, groupOffer b with
    | some (p, o), some (r, t) =>
      if p.id ≠ r.id ∧ a.core / 4 = b.core / 4 ∧ o.partner = b.core % 4 ∧ t.partner = a.core % 4 ∧ o.tag = t.tag ∧
          oldestOffer s a.core (p, o) r.id ∧ oldestOffer s b.core (r, t) p.id then
        let s := deliver p (offerResult s p o t)
        deliver r (offerResult s r t o)
      else s
    | _, _ => s
  | _, _ => s

/-- R195, the match of two offers. -/
def execShflXMatch (g₁ g₂ : Nat) (s : State) : Host.Outcome State Fault Refusal := .next (matchOffers s g₁ g₂)

end Sys2Proof.Machine
end

