-- ==== Sys2Proof/Machine/Launch.lean ====
section
/-! DEFINITION. Launches (R342 to R344, R350, R351): their records, when they begin, the placement of their blocks (R258),
the end of blocks and launches, and the hang monitor (R352, R353). -/

namespace Sys2Proof.Machine

/-! ## Records (R342, R343) -/

/-- A kernel's key among the loaded kernels: its partition and its handle. -/
def kernelKey (part handle : Nat) : Nat := part * 2 ^ 64 + handle % 2 ^ 64

/-- R343: a version of a kernel could ever fit the partition, for blocks of `t` threads. -/
def couldFit (s : State) (part : Nat) (k : Kernel) (t ver : Nat) : Bool :=
  headerHas k.header ver &&
    match ver with
    | 0 => !(partCores s part).isEmpty && decide ((t + 31) / 32 * headerRegs k.header ≤ 2048)
    | 1 => !masked s part 1 && !(partCores s part).isEmpty
    | _ =>
      let p := imageRows s part k
      !masked s part 2 && p != 0 && p % 3 == 0 &&
        (List.range 32).any (fun f => (bandRows (3 * f) p).all (fun r => (partRows s part).contains r))

/-- R351: the predecessors a record names. -/
def recordPreds (r : List Byte) (q seq : Nat) : List (Nat × Nat) :=
  let named := (List.range 4).filterMap (fun m =>
    let x := dwordIn r (0x40 + 8 * m)
    if bitAt x 63 then some (field x 59 48, field x 47 0) else none)
  if bitAt (dwordIn r 0x10) 56 ∧ 0 < seq then (q, seq - 1) :: named else named

/-- R343: a record is refused for what it holds. -/
def recordBad (s : State) (part : Nat) (r : List Byte) : Bool :=
  let x := dwordIn r 0x10
  let gx := field (dwordIn r 8) 31 0
  let gy := field (dwordIn r 8) 63 32
  let gz := field x 31 0
  (match look s.kernels (kernelKey part (dwordIn r 0).toNat) with
    | none => true
    | some k => !([0, 1, 2].any (couldFit s part k (field x 41 32 + 1)))) ||
    gx == 0 || gy == 0 || gz == 0 || decide (2 ^ 32 ≤ gx * gy * gz) ||
    field x 63 57 != 0 || field x 55 51 != 0 || field x 47 42 != 0 || field (dwordIn r 0x28) 63 21 != 0 ||
    !((r.drop 0x68).take 24).all (· == 0) ||
    (List.range 4).any (fun m =>
      let y := dwordIn r (0x40 + 8 * m)
      field y 62 60 != 0 || (bitAt y 63 && decide (queueCount s part ≤ field y 59 48)))

/-- R342: the launch of a record. DESIGN CHOICE (log 59): a CSIZE above 2^20 is taken as it stands. -/
def launchOfRecord (s : State) (part q seq order : Nat) (d : QueueDesc) (r : List Byte) : Launch :=
  let x := dwordIn r 0x10
  { part, queue := q, seq, kern := kernelKey part (dwordIn r 0).toNat, gx := field (dwordIn r 8) 31 0,
    gy := field (dwordIn r 8) 63 32, gz := field x 31 0, pri := min (min (field x 50 48) d.qpri) (field (partReg s part 0x210) 34 32),
    tm1 := field x 41 32, args := dwordIn r 0x18, const := dwordIn r 0x20, csize := field (dwordIn r 0x28) 20 0,
    seed := dwordIn r 0x30, done := dwordIn r 0x38, save := dwordIn r 0x60, preds := recordPreds r q seq, order,
    placed := 0, lost := 0, hungLost := false, refused := recordBad s part r, firing := none, rerun := [], ended := none }

def Launch.total (l : Launch) : Nat := l.gx * l.gy * l.gz

/-- R342: a launch still has blocks to place. -/
def Launch.waiting (l : Launch) : Bool := !l.refused && l.ended.isNone && (decide (l.placed < l.total) || !l.rerun.isEmpty)

/-! ## Beginning (R350, R351) -/

/-- R176: the hint of a launch has fired: all its blocks are placed, and each has hinted or ended. -/
def hintFired (s : State) (id : Nat) (l : Launch) : Bool :=
  !l.refused && decide (l.total ≤ l.placed) && l.rerun.isEmpty &&
    s.blocks.all (fun b => b.2.launch != id || b.2.hinted)

/-- R351: a predecessor no longer holds a launch back. -/
def predMet (s : State) (part : Nat) (p : Nat × Nat) : Bool :=
  predEnded s part p ||
    s.launches.any (fun e => e.2.part == part && e.2.queue == p.1 && e.2.seq == p.2 && e.2.firing.isNone && hintFired s e.1 e.2)

/-- R345: HEAD passes the record. -/
def takeRecord (s : State) (part q seq : Nat) : State :=
  let h := hubQueue s part q
  setHubQueue s part q { h with head := seq + 1, marks := h.marks.filter (fun m => decide (seq + 1 < m.1)) }

/-- R350: the place of a record's notify in the order of latching. -/
def notifyOrder (s : State) (h : HubQueue) (seq : Nat) : Nat :=
  match h.marks.find? (fun m => decide (seq < m.1)) with
  | some m => m.2
  | none => s.fresh

/-- R350, R351: the launch of the next record of a mapped queue, if it may begin now, with the state its reading leaves. A
record that cannot be read counts as zeros (log 7). -/
def nextLaunch (s : State) (part q : Nat) : Option (State × Launch) :=
  let h := hubQueue s part q
  if !h.mapped || placing s part q || (match look s.parts part with
      | some p => p.swappedOut
      | none => true) then none
  else
    let (s, d) := readQueue s part q
    if !d.pending then none
    else
      let o := readVirtual s part (d.record d.head) 128
      let r := if o.bytes.length = 128 then o.bytes else zeroBytes 128
      let l := launchOfRecord o.s part q d.head (notifyOrder o.s h d.head) d r
      if l.refused || l.preds.all (predMet o.s part) then some (o.s, l) else none

/-- R350, R351: the next launch of a queue begins. -/
def beginLaunch (s : State) (part q : Nat) : State :=
  match nextLaunch s part q with
  | none => s
  | some (t, l) =>
    let t := takeRecord t part q l.seq
    { t with launches := put t.launches t.fresh l, fresh := t.fresh + 1 }

/-- R350, a launch begins. -/
def execLaunchBegin (part queue : Nat) (s : State) : Host.Outcome State Fault Refusal :=
  .next (if queue < 4096 then beginLaunch s part queue else s)

/-! ## Placement (R258, R350) -/

/-- R258: the version a launch's next block starts in, if any fits now. -/
def nextVersion (s : State) (l : Launch) : Option Nat :=
  match look s.kernels l.kern with
  | none => none
  | some k => (headerPref k.header).find? (fun v => (placeFor s l.part k v (l.tm1 + 1) s.fresh).isSome)

/-- R258: a version fits at one core, or at one first row. -/
def fitsAt (s : State) (part : Nat) (k : Kernel) (ver t place but : Nat) : Bool :=
  headerHas k.header ver &&
    match ver with
    | 0 => (partCores s part).contains place && threadedFits s place t k.header but
    | 1 => !masked s part 1 && (partCores s part).contains place && vectorFits s place but
    | _ =>
      let p := imageRows s part k
      !masked s part 2 && p != 0 && p % 3 == 0 && place % 3 == 0 && decide (place < 96) &&
        (bandRows place p).all (fun r => (partRows s part).contains r && !rowTaken s r)

/-- R348, R350, R364: the launch may place: it is a firing of the EQU, or its queue is mapped. -/
def mayPlace (s : State) (l : Launch) : Bool := l.waiting && (l.firing.isSome || (hubQueue s l.part l.queue).mapped)

/-- R350: a launch of the same priority, which goes first, still has blocks to place. Of two launches of one notify the one
begun first does (log 53). -/
def heldBack (s : State) (id : Nat) (l : Launch) : Bool :=
  s.launches.any (fun e =>
    e.2.part == l.part && e.2.pri == l.pri && mayPlace s e.2 && (decide (e.2.order < l.order) || (e.2.order == l.order && decide (e.1 < id))))

/-- R350: a mapped queue's next launch may begin and goes before this one: by its priority, or at the same by its notify. -/
def pendingFirst (s : State) (l : Launch) : Bool :=
  (slotsHeld s l.part).any (fun q => match nextLaunch s l.part q with
    | some (_, x) => !x.refused && (decide (l.pri < x.pri) || (x.pri == l.pri && decide (x.order < l.order)))
    | none => false)

/-- R350: no other launch of the partition goes before this one: none of its own priority holds it back, none of a higher one
can place a block now, and none that goes before it is about to begin. -/
def placesNext (s : State) (id : Nat) (l : Launch) : Bool :=
  mayPlace s l && !heldBack s id l && !pendingFirst s l &&
    s.launches.all (fun e =>
      e.2.part != l.part || decide (e.2.pri ≤ l.pri) || !mayPlace s e.2 || heldBack s e.1 e.2 || (nextVersion s e.2).isNone)

/-- R344, R364: what a block's scalar registers hold at its start. -/
def startScalars (l : Launch) : Tab Dword :=
  [(1, l.args)] ++
    match l.firing with
    | some f => [(2, BitVec.ofNat 64 f.addr), (3, BitVec.ofNat 64 f.count), (4, BitVec.ofNat 64 f.queue)]
    | none => []

/-- R419, R49: blocks that start now are strict. -/
def strictNow (s : State) : Bool :=
  match s.hours.mode with
  | .startUp | .test | .recovery => true
  | _ => false

/-- R397: the size of a launch's save areas. -/
def kernelSave (s : State) (k : Kernel) : Nat :=
  saveSize k (if k.image = 0 then 0 else (readDword s k.part (k.image + 0x20)).toNat)

/-- A block at its start. -/
def newBlock (s : State) (id : Nat) (l : Launch) (k : Kernel) (ver place index : Nat) (again : Bool) : Block :=
  { part := l.part, launch := id, kern := l.kern, index, core := if ver = 2 then 12 * (place / 3) else place, ver,
    band := if ver = 2 then some place else none, strict := strictNow s, n16 := headerN16 k.header, dbg := false,
    hzd := false, hinted := false, frozen := none, hung := false, halt := none, halted := false,
    clusterBound := false, hopReq := none, hop := none, skipArrival := none, arrivals := [], threadArrivals := [],
    spans := [], spanFrom := s.clock, fired := 0, threadEnded := false, hangCount := 0,
    saveBase := (l.save.toNat + index * kernelSave s k) % 2 ^ 64, typed := [], relaunched := again, saved := none }

/-- R344: the scheduler's `fload` and `frun` of a spatial block. -/
def schedulerOps (blk image : Nat) (args : Dword) : List BandOp :=
  let o (no kind addr : Nat) : BandOp :=
    { no, kind, addr, record := none, block := blk, started := false, code := none, info := 0, flags := 0, wait := none }
  [o 1 0 image, o 2 1 args.toNat]

/-- A band of `p` rows as a block finds it (R317). -/
def newBand (first p part blk : Nat) (ops : List BandOp) : Band :=
  { first, p, part, block := blk, issued := ops.length, count := 0, ops, cfg := none, run := none, anew := false, stages := [], chans := [],
    ports := [], rows := [], frozenRows := false }

/-- R344: builds the start state of block `blk` in version `ver` on its place. -/
def startBlock (s : State) (blk : Nat) (b : Block) (l : Launch) (k : Kernel) : State :=
  let pc := BitVec.ofNat 64 (match look k.text b.ver with
    | some t => t.base
    | none => 0)
  match b.ver with
  | 0 => buildThreaded s blk b.core (l.tm1 + 1) (headerRegs k.header) b.n16 l.seed b.index pc (startScalars l)
  | 1 => buildVector s blk b.core l.seed b.index pc (startScalars l)
  | _ =>
    match b.band with
    | some f => evenBand (setBand s f (newBand f (imageRows s b.part k) b.part blk (schedulerOps blk k.image l.args))) f
    | none => s

/-- R224: `c.mestat` of the core is as at reset. -/
def clearMestat (s : State) (core : Nat) : State :=
  let c := coreOf s core
  if c.mestat = 0 then s else setCore s core { c with mestat := 0 }

/-- R258, R344: the launch's next block starts at `place`. -/
def placeBlock (s : State) (id : Nat) (l : Launch) (k : Kernel) (ver place : Nat) : State :=
  let index := l.rerun.headD l.placed
  let again := !l.rerun.isEmpty
  let blk := s.fresh
  let b := newBlock s id l k ver place index again
  let l' := if again then { l with rerun := l.rerun.drop 1 } else { l with placed := l.placed + 1 }
  let s := { s with fresh := s.fresh + 1, blocks := put s.blocks blk b, launches := put s.launches id l' }
  let s := if ver = 2 then s else clearMestat s b.core
  startBlock (endIntervals s b.part (some b.place)) blk b l k

/-- R258, R350: a launch places its next block on a core, or at a first row. -/
def execBlockPlacement (launch core : Nat) (s : State) : Host.Outcome State Fault Refusal :=
  .next
    (match look s.launches launch with
    | none => s
    | some l =>
      match look s.kernels l.kern with
      | none => s
      | some k =>
        let here : Bool := match look s.parts l.part with
          | some p => !p.swappedOut
          | none => false
        match nextVersion s l with
        | none => s
        | some v =>
          if here && l.waiting && placesNext s launch l && fitsAt s l.part k v (l.tm1 + 1) core s.fresh then
            placeBlock s launch l k v core
          else s)

/-! ## Ends (R185, R344, R343) -/

/-- R185, R344: the block has ended. -/
def blockOver (s : State) (blk : Nat) (b : Block) : Bool :=
  b.frozen.isNone && b.saved.isNone && (blockGroups s blk).isEmpty && !storesLeft s blk &&
    match b.ver with
    | 0 => !engineBusy s blk
    | 1 => true
    | _ => match b.band.bind (look s.bands) with
      | some d => d.ops.isEmpty
      | none => true

/-- R185, R344, a block ends. -/
def execBlockEnd (block : Nat) (s : State) : Host.Outcome State Fault Refusal :=
  .next
    (match look s.blocks block with
    | none => s
    | some b => if blockOver s block b then eraseBlock (endIntervals s b.part (some b.place)) block else s)

/-- R343: every block has been placed and has ended. -/
def launchOver (s : State) (id : Nat) (l : Launch) : Bool :=
  l.ended.isNone &&
    (l.refused || (decide (l.total ≤ l.placed) && l.rerun.isEmpty && s.blocks.all (fun b => b.2.launch != id)))

/-- R343: CODE. -/
def Launch.code (l : Launch) : Nat := if l.refused then 1 else if l.hungLost then 2 else if l.lost ≠ 0 then 3 else 0

/-- R226, R365: the launch is gone; a firing waits for its marking. -/
def dropLaunch (s : State) (id : Nat) (l : Launch) : State :=
  let s := freeBanks s id
  { s with launches := if l.firing.isSome then put s.launches id { l with ended := some l.code } else drop s.launches id }

/-- R422: a launch's record waits for fault service. -/
def doneWaits (s : State) (id : Nat) : Bool := s.faults.any (fun f => f.2.eng.kind == 255 && f.2.op == id)

/-- R343, R422: the launch writes its completion record and ends. -/
def completeLaunch (s : State) (id : Nat) (l : Launch) : State :=
  if l.done = 0 then dropLaunch s id l
  else
    let w := recordWrite s l.part l.done.toNat (leBytes (l.code + l.lost % 2 ^ 32 * 2 ^ 32) 8 ++ zeroBytes 8)
    match w.met with
    | .done => dropLaunch w.s id l
    | .fail c => dropLaunch (recordLost w.s l.part 4 c 0 none l.done.toNat) id l
    | .wait a wr =>
      match newFault w.s { part := l.part, eng := { kind := 255, unit := 0, ctx := 0 }, op := id, elem := recordElem,
                           addr := BitVec.ofNat 64 a, write := wr, since := 0, recorded := false, block := 0 } with
      | some (s, _) => s
      | none => w.s

/-- R343, a launch completes. -/
def execLaunchCompletion (launch : Nat) (s : State) : Host.Outcome State Fault Refusal :=
  .next
    (match look s.launches launch with
    | none => s
    | some l => if launchOver s launch l && !doneWaits s launch then completeLaunch s launch l else s)

/-! ## The hang monitor (R352, R353) -/

/-- R353: the park cause, word address and awaited value of a group that waits for another party: for the partner of its
`shfl.x` at a later one, or at the marker of a word that has issued or of one that has not (R185, R187). -/
def hangPark (g : Group) : Option (Nat × Dword × List Byte) :=
  let after := g.ctx.last
  match g.park with
  | some (.mwait _ _ _ cmp ..) => some (1, after, dwordBytes cmp)
  | some (.tbar key phase) => some (2, after, wordBytes phase ++ leBytes (key - localKey g.block 0) 4)
  | some (.join tag mask word) => some (3, word, wordBytes mask ++ leBytes tag 4)
  | some .offer | some .results => (groupOffer g).map (fun o => (4, g.ctx.pc, wordBytes o.2.sc ++ zeroBytes 4))
  | some .marker => (groupOffer g).map (fun o => (4, after, wordBytes o.2.sc ++ zeroBytes 4))
  | _ => none

/-- R353: entries of parked groups. -/
def hangGroups (s : State) (blk : Nat) : List (List Byte) :=
  (groupsByAge s blk).filterMap (fun e => (hangPark e.2).map (fun x =>
    [1, BitVec.ofNat 8 x.1] ++ zeroBytes 2 ++ wordBytes e.2.mask ++ dwordBytes x.2.1 ++ leBytes e.2.lastSafe 2 ++ zeroBytes 6 ++
      x.2.2))

/-- R353, R407: why a stage does not fire: an output port without room, with the stage it feeds; a re-injection port without
a reservation, by its input port and stage (log 51); or an input port without its tokens. -/
inductive StopCause where
  | blocked (port : Nat) (next : Option Nat)
  | missing (port : Nat)
  deriving DecidableEq, Repr

/-- R407: blocked comes before missing. -/
def stopCause (b : Band) (c : Config) (k : StageCfg) (i : Nat) : Option StopCause :=
  let next (id : Nat) : Option Nat := (c.consumer id).map (·.1)
  let blocked := k.prog.outs.find? (fun p => match c.outPath i p with
    | some id => !hasSpace (b.space c id) (k.prog.outputs p)
    | none => true)
  let unreserved := k.prog.rarePorts.find? (fun n =>
    !hasSpace (b.space c (c.portPath n)) (k.prog.rarePorts.filter (· == n)).length)
  let missing := k.prog.ins.find? (fun p => match c.inPath i p with
    | some id => decide ((b.chan id).q.length < k.prog.inputs p)
    | none => true)
  ((blocked.map (fun p => .blocked p ((c.outPath i p).bind next))).or
    (unreserved.map (fun n => .blocked (portAt c n).port (next (c.portPath n))))).or (missing.map .missing)

/-- R353: the stage at the far end of a chain of blocked outputs. -/
def farEnd (b : Band) (c : Config) (i : Nat) : Nat → Nat
  | 0 => i
  | f + 1 =>
    match (c.stage i).bind (fun k => stopCause b c k i) with
    | some (.blocked _ (some j)) => farEnd b c j f
    | _ => i

/-- R353: entries of a band: channels that hold tokens, and stopped stages. -/
def hangBand (b : Band) (c : Config) : List (List Byte) :=
  let chans := c.paths.filterMap (fun id =>
    let ch := b.chan id
    if ch.q = [] ∧ ch.landed = [] then none
    else
      let res : Bool := match c.consumer id with
        | some (st, _) => b.resident c (rowOf c.stages st)
        | none => false
      some ([2, if res then 1 else 0] ++ leBytes id 2 ++ leBytes ch.q.length 4 ++ leBytes ch.landed.length 4 ++ zeroBytes 20))
  let stages := c.stages.zipIdx.filterMap (fun x =>
    if !b.resident c x.1.vrow then none
    else (stopCause b c x.1 x.2).map (fun y =>
      let (cls, p, far) : Nat × Nat × Nat := match y with
        | .blocked p _ => (2, p, farEnd b c x.2 c.stages.length)
        | .missing p => (3, p, 0xFFFF)
      leBytes (3 + cls * 2 ^ 8 + p * 2 ^ 16) 4 ++ leBytes x.2 2 ++ leBytes far 2 ++ leBytes (b.stage x.2).fired 8 ++ zeroBytes 16))
  chans ++ stages

/-- The configured band of a block. -/
def blockBand (s : State) (b : Block) : Option (Band × Config) :=
  (b.band.bind (look s.bands)).bind (fun d => d.cfg.map (fun c => (d, c)))

/-- R353: a hang record. -/
def hangRecord (s : State) (blk : Nat) (b : Block) : List Byte :=
  let es := hangGroups s blk ++ match blockBand s b with
    | some (d, c) => hangBand d c
    | none => []
  leBytes (es.length % 2 ^ 16 + b.index * 2 ^ 32) 8 ++ es.flatten

/-- R352, R307: the block still waits: a group parked on another party, or tokens or rare events in its band. -/
def hangWaits (s : State) (blk : Nat) (b : Block) : Bool :=
  (blockGroups s blk).any (fun e => (hangPark e.2).isSome) ||
    match blockBand s b with
    | some (d, c) => c.paths.any (fun id => !(d.chan id).q.isEmpty || !(d.chan id).landed.isEmpty) || d.ports.any (fun p => !p.2.rare.isEmpty)
    | none => false

/-- R352: the hang interval of a partition, in reference cycles (R415); 0 for none. -/
def hangInterval (s : State) (part : Nat) : Nat := field (partReg s part 0x210) 31 16 * 65536

/-- R352, R400: a block's hang timer counts: not while the block is swapped out, parked on `waitpred` or halted. -/
def hangCounts (s : State) (blk : Nat) (b : Block) : Bool :=
  hangInterval s b.part != 0 && b.frozen.isNone && b.saved.isNone && !b.halted && !swappedPart s b.part &&
    !(blockGroups s blk).any (fun e => e.2.park == some .waitpred)

/-- R352: `n` reference cycles pass for a block's timer, which a trap handler holds at zero. -/
def hangTick (s : State) (n blk : Nat) (b : Block) : Block :=
  if (blockGroups s blk).any (fun e => e.2.handler) then { b with hangCount := 0 }
  else if hangCounts s blk b then { b with hangCount := b.hangCount + n }
  else b

/-- R352: the timer has run out and the block still waits. -/
def hangDue (s : State) (blk : Nat) (b : Block) : Bool :=
  hangCounts s blk b && decide (hangInterval s b.part ≤ b.hangCount) && hangWaits s blk b

/-- R352: the address at which a write of a record does not go through: of its first piece that is refused, or that meets an
uncorrectable error. -/
def lostAt (s : State) (part addr n : Nat) : Nat :=
  (((pieces (addr % 2 ^ 64) n (n / 4096 + 3)).find? (fun p => match (xlate s part p.1 needW).res with
    | .ok k => splitsPoison s (k, p.2)
    | .bad _ => true)).map (·.1)).getD addr

/-- R352, R353: the monitor freezes the block, and writes a hang record and a fault record. -/
def freezeHung (s : State) (blk : Nat) (b : Block) : State :=
  let s := modBlock (freezeBlock s blk .hang) blk (fun b => { b with hung := true })
  let bs := hangRecord s blk b
  let o := recordWrite s b.part b.saveBase bs
  match o.met with
  | .done => faultRecord o.s b.part 0x07 0 (some blk) noAddr 0
  | _ => faultRecord o.s b.part 0x07 0 (some blk) (BitVec.ofNat 64 (lostAt s b.part b.saveBase bs.length)) 1

/-- R352, the hang monitor. -/
def execHangFreeze (block : Nat) (s : State) : Host.Outcome State Fault Refusal :=
  .next
    (match look s.blocks block with
    | none => s
    | some b => if hangDue s block b then freezeHung s block b else s)

end Sys2Proof.Machine
end

