-- ==== Sys2Proof/Machine/Save.lean ====
section
/-! DEFINITION. Pre-emption and restore of blocks (R298, R398, R399, R403): when a block may be saved, what leaves the core,
and what a save image puts back. -/

namespace Sys2Proof.Machine

/-! ## Pre-emption points (R398) -/

/-- A result under way that a save keeps: an offer of `shfl.x` that waits for its partner (R399). -/
def Pending.keeps (p : Pending) : Bool := p.offerOf.isSome

/-- R398: a group stands at its pre-emption point with its results in: past a switch marker, a control thread at a strip
boundary, or parked; in handler mode, past a switch marker of the handler. A frozen block's groups stand where they
stopped. -/
def atPoint (s : State) (frozen : Bool) (g : Group) : Bool :=
  let c := ctxOf s g
  g.ctx.pend.all Pending.keeps && c.pend.all Pending.keeps &&
    (frozen || g.swapped || g.trap.isSome ||
      if g.handler then c.run == 0 && c.held == []
      else g.park.isSome || if g.vec.isSome then g.strip else c.run == 0)

/-- R398, R247: nothing moves in a band that is to be saved. -/
def bandAtPoint (s : State) (b : Block) : Bool :=
  match b.band.bind (look s.bands) with
  | none => true
  | some d => match d.cfg with
    | none => true
    | some c => !(installed d) || runStill d c

/-- R398: the block can be saved now. -/
def savable (s : State) (blk : Nat) (b : Block) : Bool :=
  b.saved.isNone && (blockGroups s blk).all (fun e => atPoint s b.frozen.isSome e.2) && bandAtPoint s b &&
    (b.ver != 2 || (blockGroups s blk).isEmpty)

/-! ## Saving -/

/-- R397: where a block's save image lies. -/
def Block.imageAt (b : Block) : Nat := b.saveBase + 0x410000

/-- The issue count of a rebuilt context; only differences of it show (R53). -/
def rebuiltIssued : Nat := 4096

/-- A place in program order as a rebuilt context counts it: behind the held records of the image that were before it. -/
def rebuiltSeq (c : Ctx) (seq : Nat) : Nat :=
  rebuiltIssued - ((c.held.filter (fun h => !h.outside && decide (seq < h.seq))).flatMap (heldBodies c.issued)).length

/-- The held values a save keeps beside the image: those still hidden from the next word, at their distance from it. -/
def keptHeld (c : Ctx) : List Held :=
  c.held.filterMap (fun h => match h.vis with
    | .at i =>
      if h.outside && decide (c.issued < i) then
        some { h with vis := .at (rebuiltIssued + (i - c.issued)), seq := rebuiltSeq c h.seq }
      else none
    | .marker => none)

/-- What a save image has no record for. -/
def savedGroup (s : State) (gid : Nat) (g : Group) : SavedGroup :=
  { gid, set := g.set, last := g.ctx.last, was := keptHeld g.ctx, pend := g.ctx.pend.map (fun p => { p with seq := rebuiltSeq g.ctx p.seq }), hand := if g.handler then some (ctxOf s g) else none, park := g.park, trap := g.trap,
    lastSafe := g.lastSafe, returned := g.returned, rare := g.rare }

/-- R298: every store of the block is performed. -/
def drainBlock (s : State) (blk : Nat) : State := (blockGroups s blk).foldl (fun s e => performEvery s e.1) s

/-- The groups and sets of a block are gone from its core; claims stand (R398), and so does the window, which engines still
reach (R399). -/
def vacate (s : State) (blk : Nat) (b : Block) : State :=
  let gs := blockGroups s blk
  let served := gs.any (fun e => e.2.handler)
  let s := gs.foldl (fun s e => removeGroup s e.1) s
  let s : State := { s with sets := s.sets.filter (fun e => e.2.block != blk) }
  if served then freeShadow s b.core else s

/-- R398, R327: the bytes of a block's image. A band that holds no whole configuration has none. -/
def saveBytes (s : State) (blk : Nat) (b : Block) (sp : Option Nat) : List Byte :=
  if b.ver = 2 then
    match blockBand s b with
    | some (d, c) => if installed d then bandImage c d else []
    | none => []
  else blockImage s blk b sp

/-- R398: a band leaves its rows. -/
def saveBand? (s : State) (b : Block) : State × Option SavedBand :=
  match b.band with
  | none => (s, none)
  | some f =>
    match look s.bands f with
    | none => (s, none)
    | some d =>
      let whole := d.cfg.isSome && installed d
      let again (o : BandOp) : BandOp := { o with started := o.started && whole, wait := none }
      let s := { s with
        bands := drop s.bands f
        faults := s.faults.filter (fun x => !(x.2.eng.kind == 3 && x.2.eng.unit == f)) }
      (s, some { p := d.p, issued := d.issued, count := d.count, ops := d.ops.map again, run := d.run, anew := d.anew, configured := whole })

/-- R398, R298, R409: the block is saved and leaves its resources. Its image goes to its save area; a write that faults
freezes it (R397). -/
def saveBlock (s : State) (blk : Nat) : State :=
  let s := drainBlock (disarmHop s blk) blk
  match look s.blocks blk with
  | none => s
  | some b =>
    let o := writeVirtual s b.part b.imageAt (saveBytes s blk b none)
    match o.bad with
    | some _ => saveWrite o.s blk b 0x410000 (saveBytes s blk b none)
    | none =>
      let groups := (groupsByAge o.s blk).map (fun e => savedGroup o.s e.1 e.2)
      let (s, band) := saveBand? (vacate o.s blk b) b
      let s := modBlock s blk (fun b => { b with saved := some { image := b.imageAt, groups, band, events := [], poisoned := false } })
      let s := countEvent s b.part (some b.place) 0x13
      traceEvent s b.part (some b.place) 3 4 b.index 0 (match groups with
        | g :: _ => g.lastSafe
        | [] => 0xFFFF)

/-- R398: a launch of a higher priority in the partition needs resources. -/
def outranked (s : State) (b : Block) : Bool :=
  match look s.launches b.launch with
  | none => false
  | some l => s.launches.any (fun e =>
      e.2.part == b.part && e.2.waiting && decide (l.pri < e.2.pri) && (nextVersion s e.2).isNone)

/-- R398, a block is pre-empted for a launch of higher priority. A block the debug agent holds, or a frozen one, stays. -/
def execPreemption (block : Nat) (s : State) : Host.Outcome State Fault Refusal :=
  .next
    (match look s.blocks block with
    | none => s
    | some b =>
      if savable s block b && b.frozen.isNone && !b.halted && outranked s b then saveBlock s block else s)

/-! ## Restoring -/

/-- R403 RESOURCES, R398: the image fits a core, its own block's present resources counting as free. -/
def imageFits (s : State) (part core blk : Nat) (img : Image) (bound : Option Nat) : Bool :=
  let sets := (img.groups.map (·.set)).eraseDups
  let rowsOf (st : Nat) : Nat := img.groups.foldl (fun n g => if g.set = st then max n g.view else n) 0
  let rows : Nat := sets.foldl (fun n st => n + rowsOf st) 0
  let served := match (coreOf s core).serving.bind (look s.groups) with
    | some g => g.block != blk
    | none => false
  (partCores s part).contains core && (match bound with
      | some c => c == core / 4
      | none => true) &&
    !(served && img.groups.any (·.hand)) && decide ((img.groups.filter (·.hand)).length ≤ 1) &&
    if img.ver = 1 then vectorFits s core blk
    else
      coreFits s core rows img.groups.length (img.window.length) (fun k => (img.groups.filter (fun g => g.mask.getLsbD k)).length) blk

/-- R12: the value a held record may hold: reserved bits of a binding and of `c.fstat` read zero. -/
def maskHeld (h : Held) : Held :=
  match h.dest with
  | .tl _ => { h with vals := h.vals.map bindMask }
  | .flagsSet | .flagsClear => { h with vals := h.vals.map (· &&& fstatBits) }
  | _ => h

/-- R402: the context of a group in an image. -/
def rebuildCtx (img : Image) (g : ImgGroup) : Ctx :=
  let toks := (recOf img 0x12 g.id).filterMap parseToken
  { Ctx.start g.pc with
    run := g.run, issued := rebuiltIssued, s := g.s, p := g.p, tl := g.tl.map (fun e => (e.1, bindMask e.2)),
    held := ((parseHeld rebuiltIssued (recOf img 0x11 g.id)).getD []).map maskHeld,
    toks := (toks.filter (fun t => !t.1)).map (·.2) }

/-- R402: the shadow bank of a group in handler mode. `hand`: what its record leaves out. -/
def rebuildShadow (img : Image) (g : ImgGroup) (hand : Option Ctx) : Shadow :=
  let b := recBody img 0x13 g.id
  let toks := (recOf img 0x12 g.id).filterMap parseToken
  { ctx := { hand.getD { Ctx.start g.pc with issued := rebuiltIssued } with
      pc := g.pc, undef := none, s := fileOf 32 (fun n => dwordIn b (8 * n)), p := fileOf 7 (fun n => wordIn b (2304 + 4 * n)),
      toks := (toks.filter (·.1)).map (·.2) },
    hv := fileOf 512 (fun i => wordIn b (256 + 4 * i)) }

/-- R251: the pool indices of an image's groups: for each, by home slot. -/
def rebuildPool (s : State) (core : Nat) (gs : List ImgGroup) (i slot : Nat) : Nat :=
  let earlier : Nat := ((gs.take i).filter (fun g => g.mask.getLsbD slot)).length
  (poolOrder s core slot).getD earlier slot

/-- R402: the allocation sets of an image on a core, by set number of the image. -/
def rebuildSets (s : State) (blk core : Nat) (img : Image) (id : Nat → Nat) : Tab AllocSet :=
  let gs := img.groups
  ((gs.map (·.set)).eraseDups).foldl (fun t st =>
    let mine := gs.zipIdx.filter (fun x => x.1.set == st)
    let lanes (x : ImgGroup × Nat) : List (Nat × Thread) := (laneList x.1.mask).map (fun k =>
      (k, { pool := rebuildPool s core gs x.2 k,
            index := if x.1.halves.getD k 0xFFFF < 0xFFFE then some (x.1.halves.getD k 0xFFFF) else none }))
    let vec := img.ver = 1
    let rng (x : ImgGroup × Nat) (t : Tab Word) : Tab Word :=
      (List.range 32).foldl (fun t k => if vec ∨ x.1.mask.getLsbD k then putZ t k (x.1.rng.getD k 0) else t) t
    let a : AllocSet :=
      { block := blk, core, rows := if vec then 0 else mine.foldl (fun n x => max n x.1.view) 0,
        v := mine.foldl (fun t x => x.1.rows.foldl (fun t e => if x.1.mask.getLsbD (e.1 % 32) then putZ t e.1 e.2 else t) t) [],
        rng := mine.foldl (fun t x => rng x t) [],
        threads := if vec then [] else mine.foldl (fun t x => (lanes x).foldl (fun t l => put t l.1 l.2) t) [] }
    put t (id st) a) []

/-- R205: a group parked on `mwait` tests again; one parked at an armed hop issues (R270). -/
def restorePark : Option Park → Option Park
  | some (.mwait c va key cmp acq last _) => some (.mwait c va key cmp acq last true)
  | some (.hop _) => none
  | p => p

/-- R402, R399: a group of an image on a core. `old`: what the image has no record for. Reserved bits read zero (R12). -/
def rebuildGroup (s : State) (blk core : Nat) (img : Image) (setId : Nat → Nat) (g : ImgGroup) (old : SavedGroup) : Group :=
  let park := restorePark old.park
  let ctx := rebuildCtx img g
  { startGroup blk core (setId g.set) g.mask g.view g.pc [] s.clock with
    ctx := { ctx with last := old.last, pend := old.pend, held := old.was.foldl (fun hs h => insertHeld h hs) ctx.held }, fstat := g.fstat &&& fstatBits,
    cxp := g.cxp &&& cxpBits, amerr := g.amerr &&& amerrBits, vstrip := g.vstrip &&& vstripBits,
    vec := if img.ver = 1 then some (parseVector (recBody img 0x15 0)) else none,
    readyAt := if park.isSome then none else some s.clock, park, trap := old.trap, handler := g.hand,
    lastSafe := old.lastSafe, returned := old.returned, rare := old.rare }

/-- The set number of an image as a set of the state: the saved one, or a new one. -/
def rebuiltSet (img : Image) (olds : List SavedGroup) (n : Nat) : Nat :=
  match (img.groups.zip olds).find? (fun x => x.1.set == n) with
  | some x => x.2.set
  | none => n

/-- R398, R402: puts a block's groups, sets, window and shadow bank on a core, behind what stands there, by their age ranks. -/
def rebuildBlock (s : State) (blk core : Nat) (img : Image) (olds : List SavedGroup) : State :=
  let setId := rebuiltSet img olds
  let sets := rebuildSets s blk core img setId
  let gs := ((img.groups.zip olds).mergeSort (fun x y => decide (x.1.age ≤ y.1.age))).map (fun x => (x.2.gid, rebuildGroup s blk core img setId x.1 x.2))
  let c := coreOf s core
  let hand := (img.groups.zip olds).find? (fun x => x.1.hand)
  let c : Core := { c with order := c.order ++ gs.map (·.1) }
  let c : Core := match hand with
    | some x => { c with serving := some x.2.gid, shadow := rebuildShadow img x.1 x.2.hand }
    | none => c
  let s := setCore s core c
  let s := { s with
    sets := sets.foldl (fun t e => put t e.1 e.2) s.sets
    groups := gs.foldl (fun t e => put t e.1 e.2) s.groups
    free := s.free + 1024 }
  let s := writeBytes s (localKey blk 0) (img.window.take (kib 256))
  modBlock s blk (fun b => { b with core, clusterBound := img.bound.isSome })

/-- R399: what came for a saved block is applied before it issues. -/
def applyEvents (s : State) (blk : Nat) (x : SavedBlock) : State :=
  x.events.foldl (fun s e => match e with
    | .token t v => writeToken s blk t.eng t.op v
    | .write a bs => writeBytes s (localKey blk a) bs
    | .decrement a => engineDecrement s blk a) s

/-- R401: reads a block's image at an address. -/
def readImage (s : State) (part a : Nat) : State × Option Image :=
  let h := readVirtual s part a 64
  if h.bytes.length ≠ 64 then (h.s, none)
  else
    let o := readVirtual h.s part a (field (dwordIn h.bytes 0x18) 31 0)
    (o.s, if o.bad.isSome then none else parseImage o.bytes)

/-- A block resumes after a save: R399, R409, R410. -/
def resumeSaved (s : State) (blk : Nat) (b : Block) (x : SavedBlock) : State :=
  let s := modBlock s blk (fun b => { b with saved := none })
  let s := applyEvents s blk x
  traceEvent s b.part (some b.place) 3 5 b.index 0 (match x.groups with
    | g :: _ => g.lastSafe
    | [] => 0xFFFF)

/-- R398: a saved spatial block returns on the rows from `first`. -/
def restoreSpatial (s : State) (blk : Nat) (b : Block) (x : SavedBlock) (d : SavedBand) (first : Nat) : State :=
  let band : Band := { newBand first d.p b.part blk d.ops with issued := d.issued, count := d.count, run := d.run, anew := d.anew }
  let done (s : State) (band : Band) : State :=
    resumeSaved (modBlock (evenBand (setBand s first band) first) blk (fun b => { b with band := some first, core := 12 * (first / 3) })) blk b x
  if !d.configured then done s band
  else
    let h := readVirtual s b.part x.image 256
    match readSaved h.s band x.image h.bytes true with
    | (_, .error _) => s
    | (s, .ok r) => done s { r with run := d.run, anew := d.anew }

/-- R398: a saved block returns on a core of its partition, or on rows, that have what its image needs. An image that
software has spoilt is not restored (R403, log 7). R411, R413: an uncorrectable error in what the block left kills it. -/
def restoreBlock (s : State) (blk : Nat) (b : Block) (x : SavedBlock) (place : Nat) : State :=
  if x.poisoned then killBlock s blk 2
  else match x.band with
  | some d =>
    if place % 3 = 0 ∧ place < 96 ∧ (bandRows place d.p).all (fun r => (partRows s b.part).contains r && !rowTaken s r) then
      restoreSpatial s blk b x d place
    else s
  | none =>
    match readImage s b.part x.image with
    | (s', some img) =>
      if imageStatus (kernelOf s b) (some img) = 0 ∧ kernelKey b.part img.kern = b.kern ∧ img.groups.length = x.groups.length ∧
          imageFits s' b.part place blk img (if b.clusterBound then some (b.core / 4) else none) then
        resumeSaved (rebuildBlock s' blk place img x.groups) blk { b with core := place } x
      else s
    | (_, none) => s

/-- R398: no launch of the partition that outranks the block can place a block now. -/
def blockReturns (s : State) (b : Block) : Bool :=
  match look s.launches b.launch with
  | none => false
  | some l => s.launches.all (fun e =>
      e.2.part != b.part || !e.2.waiting || decide (e.2.pri ≤ l.pri) || (nextVersion s e.2).isNone)

/-- R398, a pre-empted block is restored on a core, or from a first row. -/
def execBlockRestore (block core : Nat) (s : State) : Host.Outcome State Fault Refusal :=
  .next
    (match look s.blocks block with
    | none => s
    | some b =>
      let here : Bool := match look s.parts b.part with
        | some p => !p.swappedOut
        | none => false
      match b.saved with
      | some x => if here && blockReturns s b then restoreBlock s block b x core else s
      | none => s)

end Sys2Proof.Machine
end

