-- ==== Sys2Proof/Machine/Hop.lean ====
section
/-! DEFINITION. Hops (R204, R260 to R263, R266 to R271): the request, the locations of a state map (R82, R336), the commit
and the disarming. -/

namespace Sys2Proof.Machine

/-! ## The request (R204) -/

/-- R204, `hop.req`. -/
def execHopReq (f : Fixed) (n : BitVec 25) (s : State) : Host.Outcome State Fault Refusal :=
  word (.hopReq f n) s (fun s q => finish (modBlock s q.g.block (fun b => { b with hopReq := some n.toNat })) q f)

/-! ## Locations (R82, R336) -/

/-- R336: a location descriptor. -/
structure Loc where
  kind : Nat
  reg : Nat
  lo : Nat
  hi : Nat
  off : Nat
  deriving DecidableEq, Repr

def locOf (d : Dword) : Loc :=
  let r := BitVec.ofNat 9 (field d 57 49)
  { kind := field d 63 58, reg := ((Reg.ofCode r).map regNum).getD 0, lo := field d 48 39, hi := field d 38 29, off := field d 28 0 }

/-- R82: the lanes, or threads, of a range. -/
def Loc.range (l : Loc) : List Nat := (List.range (l.hi + 1 - l.lo)).map (l.lo + ·)

/-- R82: the group and home slot of a thread of the block. -/
def threadAt (s : State) (blk k : Nat) : Option (Nat × Group × Nat) :=
  (blockGroups s blk).findSome? (fun e =>
    (look s.sets e.2.set).bind (fun a =>
      (a.threads.find? (fun t => e.2.mask.getLsbD t.1 && t.2.index == some k)).map (fun t => (e.1, e.2, t.1))))

/-- The control thread of a vector block. -/
def controlThread (s : State) (blk : Nat) : Option (Nat × Group) := (blockGroups s blk).find? (fun e => e.2.vec.isSome)

/-- R83, R107: where the latch of a slot code stands in a stage's state. -/
def latchKey (code : Nat) : Nat := 4 * (code % 128) + code / 128

/-- R82: the ports of a stage, whose positions its `stage.pos` is (log 30). -/
def stagePorts (c : Config) (i : Nat) : List Nat :=
  (c.ports.zipIdx.filter (fun e => e.1.stg == i && decide (e.1.kind < 2))).map (·.2)

/-- Lanes as bits. -/
def predLanes (w : Word) : List Nat := (List.range 32).map (fun l => if w.getLsbD l then 1 else 0)

/-- A register of a control thread, by its code. -/
def readControl (g : Group) (code : Nat) : List Nat :=
  match Reg.ofCode (BitVec.ofNat 9 code) with
  | some (.s n) => [(getZ g.ctx.s n.toNat).toNat]
  | some (.p n) => predLanes (if n = 7 then BitVec.allOnes 32 else getZ g.ctx.p n.toNat)
  | some (.tl n) => [(getZ g.ctx.tl n.toNat).toNat]
  | _ => []

/-- The port a location names: whether it is a sink, and its number. -/
def locPort (code : Nat) : Bool × Nat :=
  match Reg.ofCode (BitVec.ofNat 9 code) with
  | some (.outp n) => (true, n.toNat)
  | some (.inp n) => (false, n.toNat)
  | _ => (false, 0)

/-- R82: local arrays: for each lane its local address and its bytes. -/
def Loc.cells (l : Loc) : List (Nat × Nat) :=
  match l.kind with
  | 12 => l.range.map (fun i => (l.off + 4 * i, 4))
  | 13 => l.range.map (fun i => (l.off + 8 * i, 8))
  | _ => [(l.off, 8)]

/-- R4, R145: bytes of the block's local window. -/
def inWindow (s : State) (blk : Nat) (c : Nat × Nat) : Bool :=
  match look s.blocks blk with
  | some b => decide (c.1 + c.2 ≤ blockWindow s b)
  | none => false

/-- R261: the bits of a location, lane by lane; what lies outside the block's window reads zero. `code`: its register. DESIGN
CHOICE (log 30): a null token reads as the lanes it is stored with, none of them set, and a token written is never null; a lane
above 31 of an accumulator, or of a control thread's `c.rng`, is the lane 32 × register + lane of the file. -/
def readLoc (s : State) (blk : Nat) (d : Dword) : List Nat :=
  let l := locOf d
  let code := field d 57 49
  let threads (f : Group → Nat → Nat) : List Nat := l.range.map (fun k => match threadAt s blk k with
    | some (_, g, slot) => f g slot
    | none => 0)
  let control (f : Group → List Nat) : List Nat := match controlThread s blk with
    | some (_, g) => f g
    | none => []
  let acc (g : Group) (i : Nat) : Nat := match g.vec with
    | some v => (getZ v.ac (32 * l.reg + i)).toNat
    | none => 0
  let rng (g : Group) (i : Nat) : Nat := match look s.sets g.set with
    | some a => (getZ a.rng i).toNat
    | none => 0
  let band : Option (Band × Config) := (look s.blocks blk).bind (blockBand s)
  match l.kind with
  | 0 => match threadAt s blk l.lo with
    | some (_, g, _) => [(getZ g.ctx.s l.reg).toNat]
    | none => [0]
  | 1 => match threadAt s blk l.lo with
    | some (_, g, _) => readControl g code
    | none => []
  | 2 => threads (fun g slot => match look s.sets g.set with
    | some a => (getZ a.v (32 * l.reg + slot)).toNat
    | none => 0)
  | 3 => threads rng
  | 4 => match threadAt s blk l.lo with
    | some (_, g, _) => [g.fstat.toNat]
    | none => [0]
  | 5 => control (fun g => readControl g code)
  | 6 => control (fun g => l.range.map (fun i => acc g i % 2 ^ 32))
  | 7 => control (fun g => l.range.map (fun i => acc g i / 2 ^ 32))
  | 8 => control (fun g => l.range.map (acc g))
  | 9 => control (fun g => match g.vec with
    | some v =>
      let p := locPort code
      [((look (if p.1 then v.outs else v.ins) p.2).map (·.pos)).getD 0]
    | none => [0])
  | 10 => control (fun g => l.range.map (rng g))
  | 11 => control (fun g => [g.fstat.toNat])
  | 15 => match band with
    | some (b, _) => (match look (b.stage (l.off / 2 ^ 9)).keep (latchKey (l.off % 2 ^ 9)) with
      | some t => (List.range 16).map (fun i => (t.lanes.getD i 0).toNat)
      | none => List.replicate 16 0)
    | none => []
  | 16 => match band with
    | some (b, c) => [((stagePorts c l.off).head?.map (fun i => (b.port i).pos)).getD 0]
    | none => [0]
  | 17 => match band with
    | some (b, _) => (b.chan l.off).q.flatMap (fun t => (List.range 16).map (fun i => (t.lanes.getD i 0).toNat))
    | none => []
  | _ => l.cells.map (fun c => if inWindow s blk c then loadLE s (localKey blk c.1) c.2 else 0)

/-- Sets lanes of a table of words, 32 × register + lane. -/
def putWords (t : Tab Word) (base : Nat) (xs : List (Nat × Nat)) : Tab Word :=
  xs.foldl (fun t x => putZ t (base + x.1) (BitVec.ofNat 32 x.2)) t

/-- R12, R261: writes a register of a control thread, or of a thread's group, by its code. -/
def writeControl (code : Nat) (vs : List Nat) (g : Group) : Group :=
  let x : Dword := BitVec.ofNat 64 (vs.headD 0)
  match Reg.ofCode (BitVec.ofNat 9 code) with
  | some (.s n) => { g with ctx := { g.ctx with s := putZ g.ctx.s n.toNat x } }
  | some (.p n) => { g with ctx := { g.ctx with p := putZ g.ctx.p n.toNat (ofLanes (fun l => vs.getD l 0 != 0)) } }
  | some (.tl n) => { g with ctx := { g.ctx with tl := putZ g.ctx.tl n.toNat (bindMask x) } }
  | _ => g

/-- R261: one lane of an accumulator; `half`: 0 low, 1 high, 2 whole. -/
def putAcc (half reg : Nat) (ac : Tab Dword) (x : Nat × Nat) : Tab Dword :=
  let k := 32 * reg + x.1
  let old := (getZ ac k).toNat
  putZ ac k (BitVec.ofNat 64 (match half with
    | 0 => old / 2 ^ 32 * 2 ^ 32 + x.2 % 2 ^ 32
    | 1 => old % 2 ^ 32 + x.2 % 2 ^ 32 * 2 ^ 32
    | _ => x.2))

/-- Changes the control thread of a block. -/
def modControl (s : State) (blk : Nat) (f : Group → Group) : State :=
  match controlThread s blk with
  | some (gid, _) => modGroup s gid f
  | none => s

/-- Tokens from their lanes, 16 each. -/
def toksOf (vs : List Nat) : List Tok :=
  (List.range ((vs.length + 15) / 16)).map (fun k =>
    { null := false, lanes := (List.range 16).map (fun i => BitVec.ofNat 32 (vs.getD (16 * k + i) 0)) })

/-- R12, R261: writes the bits of a location, lane by lane; nothing outside the block's window. DESIGN CHOICE (log 30): a location of a
thread that the launch does not have reads zero, and a write of it is lost. -/
def writeLoc (blk : Nat) (s : State) (e : Dword × List Nat) : State :=
  let l := locOf e.1
  let code := field e.1 57 49
  let vs := e.2
  let lanes := l.range.zip vs
  let accs (half : Nat) (s : State) : State := modControl s blk (fun g =>
    { g with vec := g.vec.map (fun v => { v with ac := lanes.foldl (putAcc half l.reg) v.ac }) })
  let onThread (s : State) (x : Nat × Nat) (f : AllocSet → Nat → AllocSet) : State := match threadAt s blk x.1 with
    | some (_, g, slot) => { s with sets := upd s.sets g.set (fun a => f a slot) }
    | none => s
  let onGroup (f : Group → Group) : State := match threadAt s blk l.lo with
    | some (gid, _, _) => modGroup s gid f
    | none => s
  let onBand (f : Band → Config → Band) : State := match (look s.blocks blk).bind (blockBand s) with
    | some (b, c) => setBand s b.first (f b c)
    | none => s
  match l.kind with
  | 0 => onGroup (writeControl code vs)
  | 1 => onGroup (writeControl code vs)
  | 2 => lanes.foldl (fun s x => onThread s x (fun a slot => { a with v := putWords a.v (32 * l.reg) [(slot, x.2)] })) s
  | 3 => lanes.foldl (fun s x => onThread s x (fun a slot => { a with rng := putWords a.rng 0 [(slot, x.2)] })) s
  | 4 => onGroup (fun g => { g with fstat := BitVec.ofNat 64 (vs.headD 0) &&& fstatBits })
  | 5 => modControl s blk (writeControl code vs)
  | 6 => accs 0 s
  | 7 => accs 1 s
  | 8 => accs 2 s
  | 9 =>
    let p := locPort code
    let at_ (t : Tab Port) : Tab Port := put t p.2 { ((look t p.2).getD { spec := none, pos := 0 }) with pos := vs.headD 0 }
    modControl s blk (fun g =>
      { g with vec := g.vec.map (fun v => if p.1 then { v with outs := at_ v.outs } else { v with ins := at_ v.ins }) })
  | 10 => match controlThread s blk with
    | some (_, g) => { s with sets := upd s.sets g.set (fun a => { a with rng := putWords a.rng 0 lanes }) }
    | none => s
  | 11 => modControl s blk (fun g => { g with fstat := BitVec.ofNat 64 (vs.headD 0) &&& fstatBits })
  | 15 => onBand (fun b _ =>
      let st := b.stage (l.off / 2 ^ 9)
      b.setStage (l.off / 2 ^ 9) { st with keep := (toksOf vs).head?.elim st.keep (put st.keep (latchKey (l.off % 2 ^ 9))) })
  | 16 => onBand (fun b c => (stagePorts c l.off).foldl (fun b i => b.setPort i { b.port i with pos := vs.headD 0, cmpl := vs.headD 0 }) b)
  | 17 => onBand (fun b _ => b.setChan l.off { q := toksOf vs, landed := [] })
  | _ => (l.cells.zip vs).foldl (fun s x => if inWindow s blk x.1 then storeLE s (localKey blk x.1.1) x.1.2 x.2 else s) s

/-! ## The commit (R267, R268) -/

/-- R336: the pairs of a state map, target first. -/
def mapPairs : List Dword → List (Dword × Dword)
  | t :: f :: ds => (t, f) :: mapPairs ds
  | _ => []

/-- R268: an engine operation of the block, its band's own aside, has not completed. -/
def enginesLeft (s : State) (blk : Nat) : Bool := engineBusy { s with bands := s.bands.filter (fun d => d.2.block != blk) } blk

/-- R260, R297: the band has drained: nothing moves, nothing is spilled, and no rare event waits. -/
def bandDrained (s : State) (b : Block) : Bool :=
  match blockBand s b with
  | some (d, c) => installed d && runStill d c && d.ports.all (fun p => p.2.spill.isEmpty && p.2.part.isEmpty && p.2.rare.isEmpty)
  | none => false

/-- R267: every thread of the T is parked at the point, none has ended, and no spawned group is resident. A spatial block has
no such threads (log 30). -/
def hopMet (s : State) (blk : Nat) (b : Block) (h : Hop) : Bool :=
  let gs := blockGroups s blk
  b.ver == 2 || (!gs.isEmpty && !b.threadEnded && gs.all (fun e => e.2.park == some (.hop h.ord) && ofTheT s e.2))

/-- R267: the conditions held within 65,536 reference cycles of arming. -/
def hopInTime (s : State) (blk : Nat) (b : Block) (h : Hop) : Bool := h.met || (decide (s.clock ≤ h.armedAt + 65536) && hopMet s blk b h)

/-- R267: the conditions that hold as time passes are noted. -/
def noteHops (s : State) : State :=
  { s with blocks := s.blocks.map (fun e => (e.1, match e.2.hop with
      | some h => { e.2 with hop := some { h with met := hopInTime s e.1 e.2 h } }
      | none => e.2)) }

/-- R267, R268: the conditions hold, and held in time, and the drain is done. -/
def hopReady (s : State) (blk : Nat) (b : Block) (h : Hop) : Bool :=
  let gs := blockGroups s blk
  b.saved.isNone && b.frozen.isNone && !b.halted && !enginesLeft s blk && hopInTime s blk b h && hopMet s blk b h &&
    if b.ver = 2 then gs.isEmpty && bandDrained s b && !drainFailed s b
    else gs.all (fun e => e.2.ctx.pend == [] && e.2.ctx.toks == [] && sinksFree s e.1 e.2)
where
  sinksFree (s : State) (gid : Nat) (g : Group) : Bool :=
    !(coreOf s g.core).storeQ.any (fun e => e.sink && e.owners.contains gid)

/-- R262, R268: the source version's resources are freed. `keep`: the window stays, with its type bits. -/
def leaveVersion (s : State) (blk : Nat) (keep : Bool) : State :=
  let s := (blockGroups s blk).foldl (fun s e => removeGroup s e.1) s
  let s := (s.sets.filter (fun e => e.2.block == blk)).foldl (fun s e => dissolveSet s e.1) s
  let s : State := { s with bands := s.bands.filter (fun d => d.2.block != blk) }
  if keep then s else modBlock (clearLocal s blk) blk (fun b => { b with typed := [] })

/-- R263: the target version's band: the image installed, and a run that begins with what the map gives (log 30). An image
that `fload` would refuse is left for it to refuse. -/
def hopBand (s : State) (blk : Nat) (b : Block) (k : Kernel) (l : Launch) (first rows : Nat) : State :=
  let d := newBand first rows b.part blk (schedulerOps blk k.image l.args)
  match readConfig s d k.image with
  | (s, .ok c) =>
    let seed := blockSeed s blk
    evenBand (setBand s first ((freshBand d c seed.1 seed.2).modHead (fun o => { o with started := true }))) first
  | (s, .error _) => evenBand (setBand s first d) first

/-- R261, R263: builds the target version at the point. -/
def enterVersion (s : State) (blk : Nat) (b : Block) (k : Kernel) (l : Launch) (h : Hop) : State :=
  let pc := ((safePointOf k h.target h.ord).map (·.addr)).getD 0
  let s := match h.target with
    | 0 => buildThreaded s blk b.core (l.tm1 + 1) (headerRegs k.header) b.n16 l.seed b.index pc (startScalars l)
    | 1 => buildVector s blk b.core l.seed b.index pc (startScalars l)
    | _ => hopBand s blk b k l h.place h.rows
  { s with groups := s.groups.map (fun e => if e.2.block = blk then (e.1, { e.2 with lastSafe := h.ord }) else e) }

/-- R266: each target thread's counts are the block's arrivals. -/
def hopCounts (b : Block) (t : Nat) : Tab Nat :=
  b.arrivals.foldl (fun m a => (List.range t).foldl (fun m i => put m (1024 * a.1 + i) a.2) m) []

/-- R224, R263: `c.mestat` of the core a block hops to is as at its block start (log 30). -/
def hopMestat (s : State) (h : Hop) : State := if h.target < 2 then clearMestat s h.place else s

/-- R268, R330, R331, R409: the hop commits. -/
def commitHop (s : State) (blk : Nat) (b : Block) (k : Kernel) (l : Launch) (h : Hop) (map : SafePoint) : State :=
  let s := (blockGroups s blk).foldl (fun s e => passMarker s e.1) s
  let vals := (mapPairs map.locs).map (fun p => (p.1, readLoc s blk p.2))
  let s := hopMestat (leaveVersion s blk (b.ver < 2 && h.target < 2)) h
  let s := modBlock s blk (fun b =>
    { b with
      ver := h.target, core := if h.target = 2 then 12 * (h.place / 3) else h.place,
      band := if h.target = 2 then some h.place else none, hop := none, skipArrival := some h.ord,
      threadArrivals := hopCounts b (if h.target = 0 then l.tm1 + 1 else 1), spans := [], spanFrom := s.clock, fired := 0 })
  match look s.blocks blk with
  | none => s
  | some b' => countEvent (vals.foldl (writeLoc blk) (enterVersion s blk b' k l h)) b.part (some b.place) 0x10

/-- R267, a hop commits. -/
def execHopCommit (block : Nat) (s : State) : Host.Outcome State Fault Refusal :=
  .next
    (match look s.blocks block with
    | none => s
    | some b =>
      match b.hop, kernelOf s b, look s.launches b.launch with
      | some h, some k, some l =>
        (match mapOf k h.ord b.ver h.target with
        | some m =>
          let t := drainBlock s block
          if hopReady t block b h && !storesLeft t block then commitHop t block b k l h m else s
        | none => s)
      | _, _, _ => s)

/-- R267, R297, R415, a hop is disarmed: its conditions did not all hold within 65,536 reference cycles, or the drain has met
a failed element. -/
def execHopDisarm (block : Nat) (s : State) : Host.Outcome State Fault Refusal :=
  .next
    (match look s.blocks block with
    | none => s
    | some b =>
      match b.hop with
      | some h => if (h.armedAt + 65536 ≤ s.clock ∧ !hopInTime s block b h) ∨ (b.ver = 2 ∧ drainFailed s b) then disarmHop s block else s
      | none => s)

end Sys2Proof.Machine
end

