-- ==== Sys2Proof/Machine/Debug.lean ====
section
/-! DEFINITION. The debug agent (R404 to R406): command blocks and the seven commands. -/

namespace Sys2Proof.Machine

/-! ## Command blocks (R404) -/

/-- R404: what a command block holds. A block that cannot be read reads as zeros (log 7). -/
structure DebugCmd where
  op : Nat
  flags : BitVec 8
  ord : Nat
  queue : Nat
  seq : Nat
  index : Nat
  addr : Nat
  deriving DecidableEq, Repr

/-- R404: reads the command block at an address. -/
def debugCmd (s : State) (part addr : Nat) : State × DebugCmd :=
  let o := readVirtual s part addr 64
  let w (off : Nat) : Dword := dwordIn o.bytes off
  (o.s,
    { op := field (w 0) 7 0, flags := BitVec.ofNat 8 (field (w 0) 15 8), ord := field (w 0) 63 48, queue := field (w 8) 11 0,
      seq := (w 0x10).toNat, index := field (w 0x18) 31 0, addr := (w 0x20).toNat })

/-- R404: a command starts: the register holds its address, and STATUS reads running. -/
def startCommand (s : State) (part addr : Nat) : State :=
  let s := setPartReg s part 0x21B (BitVec.ofNat 64 addr)
  let s := (writeVirtual s part (addr + 4) [0xFF#8]).s
  { s with parts := upd s.parts part (fun p => { p with command := some addr }) }

/-- R404: the block a command names. -/
def debugBlock (s : State) (part : Nat) (c : DebugCmd) : Option (Nat × Block) :=
  s.blocks.find? (fun e =>
    e.2.part == part && e.2.index == c.index &&
      match look s.launches e.2.launch with
      | some l => l.firing.isNone && l.queue == c.queue && l.seq == c.seq
      | none => false)

/-- R404: statuses of the agent's own. -/
def debugOk : Nat := 0x10
def debugNoBlock : Nat := 0x11
def debugNotHalted : Nat := 0x12
def debugUnknown : Nat := 0x13

/-! ## The commands (R405, R406) -/

/-- R405, R260: a halt in force lands once it can. -/
def landHalt (s : State) (blk : Nat) (b : Block) : State :=
  if b.saved.isSome then s
  else if b.ver = 2 then
    match b.halt with
    | some h => if h.reached && (blockGroups s blk).isEmpty && bandDrained s b then haltNow s blk b h else s
    | none => s
  else haltDone s blk

/-- R405: a HALT in force lands once it can; a block that has ended has no group left to park. -/
def settleHalt (s : State) (part addr : Nat) (c : DebugCmd) : State :=
  match debugBlock s part c with
  | none => commandStatus s part addr debugOk
  | some (blk, b) => landHalt s blk b

/-- R405: the halts of RESUME commands, which have no command of their own, land. -/
def landResumed (s : State) : State :=
  s.blocks.foldl (fun s e =>
    if e.2.halt.any (fun h => h.command.isNone) && (e.2.ver == 2 || !(blockGroups s e.1).isEmpty) then landHalt s e.1 e.2 else s) s

/-- R405, HALT: it strikes the block now (R270), and lands at safe points. -/
def haltBlock (s : State) (addr : Nat) (c : DebugCmd) (blk : Nat) (b : Block) : State :=
  let ord := if c.flags.getLsbD 0 then some c.ord else none
  let at_ : Bool := b.ver == 2 && match b.hop with
    | some h => ord.isNone || ord == some h.ord
    | none => false
  let s := disarmHop s blk
  let s := modBlock s blk (fun b => { b with halt := some { ord, command := some addr, reached := at_ || b.halted } })
  match b.band with
  | some f => if at_ then { s with bands := upd s.bands f (fun d => { d with frozenRows := true }) } else s
  | none => s

/-- R401: the one safe point at which every group of a block stands; 0xFFFF where there is none. -/
def commonPoint (s : State) (blk : Nat) : Nat :=
  match groupsByAge s blk with
  | [] => 0xFFFF
  | g :: gs => if gs.all (fun e => e.2.lastSafe == g.2.lastSafe) then g.2.lastSafe else 0xFFFF

/-- R405, R298, SAVE. An image that cannot be written is not (log 7). -/
def saveHalted (s : State) (part : Nat) (c : DebugCmd) (blk : Nat) (b : Block) : State :=
  let s := drainBlock s blk
  (writeVirtual s part c.addr (saveBytes s blk b (some (commonPoint s blk)))).s

/-- R405: what a group of a restored image has beside its records: a halted group at its safe point. -/
def restoredGroup (img : Image) (gid : Nat) (set : Nat) (g : ImgGroup) : SavedGroup :=
  { gid, set, last := 0, was := [], pend := [], hand := none, park := some .halted, trap := (recOf img 0x12 g.id).findSome? parseTrap, lastSafe := img.ord, returned := false,
    rare := none }

/-- R398, R405: the sets of a halted block whose numbers, and with them their claims, a restore on `core` hands on, in the
order an image numbers them: all of them on the same cluster (log 37). -/
def keptSets (s : State) (blk : Nat) (b : Block) (core : Nat) : List Nat :=
  if core / 4 = b.core / 4 then setsOf (groupsByAge s blk) else []

/-- New group numbers for the groups of an image; set numbers handed on, or new ones. -/
def restoredGroups (s : State) (img : Image) (kept : List Nat) : List SavedGroup :=
  let sets := (img.groups.map (·.set)).eraseDups
  let number (n : Nat) : Nat := kept.getD (sets.findIdx (· == n)) (s.fresh + sets.findIdx (· == n))
  img.groups.zipIdx.map (fun x => restoredGroup img (s.fresh + sets.length + x.2) (number x.1.set) x.1)

/-- R403: the core for an image: the block's own, else the first of the partition that has what it needs. -/
def restoreCore (s : State) (blk : Nat) (b : Block) (img : Image) : Option Nat :=
  (b.core :: partCores s b.part).find? (fun core => imageFits s b.part core blk img img.bound)

/-- R405, RESTORE of a threaded or vector image, with R403's status. -/
def restoreHalted (s : State) (blk : Nat) (b : Block) (img : Image) : State × Nat :=
  let k := look s.kernels (kernelKey b.part img.kern)
  match imageStatus k (some img) with
  | 0 => (match restoreCore s blk b img with
    | none => (s, 6)
    | some core =>
      let olds := restoredGroups s img (keptSets s blk b core)
      let t := leaveCoreBut { s with fresh := s.fresh + 2 * olds.length } blk (olds.map (·.set))
      let t := modBlock t blk (fun b =>
        { b with ver := img.ver, kern := kernelKey b.part img.kern, core, band := none, typed := [] })
      (rebuildBlock t blk core img olds, 0))
  | n => (s, n)

/-- R403, R327: the status of a band save image whose header is `h` and which is refused: 5 where CHK alone does not match, 6 where it
is of a band of other rows, else 1. -/
def bandRefusal (s : State) (d : Band) (addr : Nat) (h : List Byte) : Nat :=
  let right : Bool := match readSaved s d addr h false with
    | (_, .ok _) => true
    | _ => false
  if !savedHead h then 1
  else if right then 5
  else if field (dwordIn h 0) 23 16 ≠ d.p then 6
  else 1

/-- R405, R327, RESTORE of a band save image, with R403's status. -/
def restoreHaltedBand (s : State) (addr first : Nat) (d : Band) : State × Nat :=
  let h := readVirtual s d.part addr 256
  match readSaved h.s d addr h.bytes true with
  | (_, .error _) => (s, bandRefusal h.s d addr h.bytes)
  | (t, .ok r) => if savedHead h.bytes then (setBand t first { r with run := d.run, frozenRows := true }, 0) else (s, 1)

/-- R405, RESTORE. -/
def restoreCommand (s : State) (part : Nat) (c : DebugCmd) (blk : Nat) (b : Block) : State × Nat :=
  match b.ver, b.band.bind (fun f => (look s.bands f).map (fun d => (f, d))) with
  | 2, some (f, d) => restoreHaltedBand s c.addr f d
  | _, _ => match readImage s part c.addr with
    | (s, some img) => if img.groups = [] then (s, 1) else restoreHalted s blk b img
    | (s, none) => (s, 1)

/-- R405: a halted group stands at its stop word and issues it without halting again. -/
def releaseHalted (s : State) (blk : Nat) : State :=
  { s with
    groups := s.groups.map (fun e =>
      if e.2.block = blk ∧ e.2.park = some .halted then
        (e.1, { e.2 with park := none, active := false, readyAt := some s.clock, pass := true })
      else e) }

/-- R405: a halted block issues again. -/
def resumeHalted (s : State) (blk : Nat) : State :=
  unholdBands (releaseHalted (modBlock s blk (fun b => { b with halted := false, halt := none })) blk) blk

/-- R405, RESUME. FLAGS[1]: a halt without a command of its own. -/
def resumeBlock (s : State) (c : DebugCmd) (blk : Nat) : State :=
  let again : Option HaltReq := if c.flags.getLsbD 1 then some { ord := none, command := none, reached := false } else none
  modBlock (resumeHalted s blk) blk (fun b => { b with hzd := c.flags.getLsbD 2, halt := again })

/-- R405, RELEASE, R352. -/
def releaseHung (s : State) (blk : Nat) : State :=
  modBlock s blk (fun b => { b with frozen := none, hung := false, hangCount := 0 })

/-- R405, DETACH. -/
def detachBlock (s : State) (blk : Nat) : State :=
  modBlock (resumeHalted s blk) blk (fun b => { b with dbg := false, hzd := false })

/-- R405: a command on its block: the state and its STATUS, none while it runs on. A block that is pre-empted has nothing on
the device to halt, save or resume. -/
def runCommand (s : State) (part addr : Nat) (c : DebugCmd) (blk : Nat) (b : Block) : State × Option Nat :=
  let halted := b.halted && b.saved.isNone
  match c.op with
  | 1 => (settleHalt (haltBlock s addr c blk b) part addr c, none)
  | 2 => if halted then (saveHalted s part c blk b, some debugOk) else (s, some debugNotHalted)
  | 3 =>
    if halted then
      let (s, n) := restoreCommand s part c blk b
      (s, some n)
    else (s, some debugNotHalted)
  | 4 => if halted then (resumeBlock s c blk, some debugOk) else (s, some debugNotHalted)
  | 5 => (killBlock s blk 1, some debugOk)
  | 6 => if b.frozen = some .hang then (releaseHung s blk, some debugOk) else (s, some debugNotHalted)
  | 7 => if b.dbg then (detachBlock s blk, some debugOk) else (s, some debugNotHalted)
  | _ => (s, some debugUnknown)

/-- R404: a write of `addr` to the command register: ignored while a command runs or the partition is
away, or where it is not aligned. -/
def debugWrite (s : State) (part addr : Nat) : State :=
  match look s.parts part with
  | none => s
  | some p =>
    if p.command.isSome ∨ p.swappedOut ∨ addr % 64 ≠ 0 then s
    else
      let (s, c) := debugCmd s part addr
      let s := startCommand s part addr
      if 1 ≤ c.op ∧ c.op ≤ 7 then
        match debugBlock s part c with
        | none => commandStatus s part addr debugNoBlock
        | some (blk, b) =>
          match runCommand s part addr c blk b with
          | (s, some n) => commandStatus s part addr n
          | (s, none) => s
      else commandStatus s part addr debugUnknown

/-- A write of `addr` that starts a command of operation `op`. -/
def debugStep (op : Nat) (part addr : Nat) (s : State) : State :=
  if (debugCmd s part addr).2.op = op then debugWrite s part addr else s

/-- R405, HALT, and its end while it runs. -/
def execHalt (part addr : Nat) (s : State) : Host.Outcome State Fault Refusal :=
  .next
    (match (look s.parts part).bind (·.command) with
    | some a => if a = addr ∧ (debugCmd s part addr).2.op = 1 then settleHalt s part addr (debugCmd s part addr).2 else s
    | none => debugStep 1 part addr s)

/-- R405, SAVE. -/
def execSave (part addr : Nat) (s : State) : Host.Outcome State Fault Refusal := .next (debugStep 2 part addr s)

/-- R405, RESTORE. -/
def execRestore (part addr : Nat) (s : State) : Host.Outcome State Fault Refusal := .next (debugStep 3 part addr s)

/-- R405, RESUME. -/
def execResume (part addr : Nat) (s : State) : Host.Outcome State Fault Refusal := .next (debugStep 4 part addr s)

/-- R405, R406, KILL. -/
def execKill (part addr : Nat) (s : State) : Host.Outcome State Fault Refusal := .next (debugStep 5 part addr s)

/-- R405, RELEASE. -/
def execRelease (part addr : Nat) (s : State) : Host.Outcome State Fault Refusal := .next (debugStep 6 part addr s)

/-- R405, DETACH. -/
def execDetach (part addr : Nat) (s : State) : Host.Outcome State Fault Refusal := .next (debugStep 7 part addr s)

end Sys2Proof.Machine
end

