-- ==== Sys2Proof/Machine/Equ.lean ====
section
/-! DEFINITION. The expert queue unit (R201 to R203, R356 to R370): loading and unloading queues and combine groups,
enqueueing, firing, and combining. -/

namespace Sys2Proof.Machine

/-! ## Names (R356) -/

/-- R356: the physical number of a local queue of a partition. -/
def physQueue (s : State) (part id : Nat) : Option Nat :=
  let r := queueRange s part
  if id < r.2 then some (r.1 + id) else none

/-- R356: the physical number of a local group. -/
def physGroup (s : State) (part id : Nat) : Option Nat :=
  let r := groupRange s part
  if id < r.2 then some (r.1 + id) else none

/-- R356: the base of the partition's table. -/
def equTable (s : State) (part : Nat) : Nat := field (partReg s part 0x212) 63 12 * 4096

/-- R356: the queue a local id names, if it is loaded for the partition, with its physical number. -/
def loadedQueue (s : State) (part id : Nat) : Option (Nat × EqQueue) :=
  (physQueue s part id).bind (fun ph => ((look s.equ.queues ph).filter (fun q => q.part == part)).map (fun q => (ph, q)))

/-- R356: the same of a group. -/
def loadedGroup (s : State) (part id : Nat) : Option (Nat × EqGroup) :=
  (physGroup s part id).bind (fun ph => ((look s.equ.groups ph).filter (fun g => g.part == part)).map (fun g => (ph, g)))

def setEqQueue (s : State) (phys : Nat) (q : EqQueue) : State := { s with equ := { s.equ with queues := put s.equ.queues phys q } }
def setEqGroup (s : State) (phys : Nat) (g : EqGroup) : State := { s with equ := { s.equ with groups := put s.equ.groups phys g } }

/-! ## Loading (R357 to R359) -/

/-- R357, R359: the queue a descriptor describes; none where it is refused for what it holds. The manual names no alignment
of ARGS and BBASE counts pages. -/
def parseQueue (s : State) (part id : Nat) (d : List Byte) : Option EqQueue :=
  let x := dwordIn d 0x10
  let y := dwordIn d 0x20
  let ring := (dwordIn d 0x18).toNat
  let save := dwordIn d 0x30
  let kern := kernelKey part (dwordIn d 0).toNat
  let cgrp := field x 47 42
  if d.length ≠ 64 ∨ field x 55 51 ≠ 0 ∨ field x 15 9 ≠ 0 ∨ bitAt y 11 ∨ field y 7 5 ≠ 0 ∨ dwordIn d 0x38 ≠ 0 ∨
      field x 31 16 = 0 ∨ field x 8 0 = 0 ∨ 256 < field x 8 0 ∨ field y 4 0 < 4 ∨ 20 < field y 4 0 ∨ ring % 4096 ≠ 0 ∨
      save.toNat % 4096 ≠ 0 ∨ (look s.kernels kern).isNone ∨ (loadedGroup s part cgrp).isNone then none
  else some
    { part, id, kern, args := dwordIn d 8, gm1 := field x 63 56, pri := field x 50 48, cgrp, tm1 := field x 41 32,
      tmr := field x 31 16, thr := field x 8 0, ring, bbase := field y 63 12 * 4096, nbuf := field y 10 8 + 1,
      rlsz := field y 4 0, seed := dwordIn d 0x28, save, chip := [], spill := [], ringHead := 0, born := s.fresh,
      buffers := [], freed := [], draining := false, hold := [], fullAt := none }

/-- R358, R359: the group a descriptor describes. The progress dwords are aligned as their 8-byte accesses must be
(log 28). -/
def parseEqGroup (part id : Nat) (d : List Byte) : Option EqGroup :=
  let x := dwordIn d 0x20
  let cbase := (dwordIn d 0).toNat
  let dst := (dwordIn d 8).toNat
  let pbase := (dwordIn d 0x18).toNat
  if d.length ≠ 64 ∨ field x 44 40 ≠ 0 ∨ !((d.drop 0x28).all (· == 0)) ∨ cbase % 4 ≠ 0 ∨ dst % 4 ≠ 0 ∨ pbase % 8 ≠ 0 then none
  else some
    { part, id, cbase, dst, mbase := (dwordIn d 0x10).toNat, pbase, dim := field x 63 48 + 1, k := field x 47 45 + 1,
      npos := field x 39 20 + 1, nseq := field x 19 0 + 1, tokens := [], released := 0 }

/-- R359: RES of the last write: 0 done, 1 refused, 2 pending. `id`: the queue whose unload is pending, which the write-only
field ID keeps. -/
def setEqRes (s : State) (part res id : Nat) : State := setPartReg s part 0x214 (BitVec.ofNat 64 (res * 2 ^ 60 + id))

/-- R359: loads a queue. -/
def loadQueue (s : State) (part id : Nat) : State :=
  match physQueue s part id with
  | none => setEqRes s part 1 0
  | some ph =>
    let o := readVirtual s part (equTable s part + 64 * id) 64
    if (look o.s.equ.queues ph).isSome then setEqRes s part 1 0
    else match parseQueue o.s part id o.bytes with
      | some q => setEqRes (setEqQueue { o.s with fresh := o.s.fresh + 1 } ph q) part 0 0
      | none => setEqRes o.s part 1 0

/-- R359: loads a group. -/
def loadGroup (s : State) (part id : Nat) : State :=
  match physGroup s part id with
  | none => setEqRes s part 1 0
  | some ph =>
    let o := readVirtual s part (equTable s part + 0x10000 + 64 * id) 64
    if (look o.s.equ.groups ph).isSome then setEqRes s part 1 0
    else match parseEqGroup part id o.bytes with
      | some g => setEqRes (setEqGroup o.s ph g) part 0 0
      | none => setEqRes o.s part 1 0

/-- R361: a queue holds no entry. -/
def EqQueue.empty (q : EqQueue) : Bool := q.chip.isEmpty && q.spill.isEmpty

/-- R359: an unload completes once its queue is empty. -/
def queueGone (s : State) (ph : Nat) : State :=
  match look s.equ.queues ph with
  | none => s
  | some q =>
    if q.draining && q.empty then
      let s : State := { s with equ := { s.equ with queues := drop s.equ.queues ph } }
      let v := partReg s q.part 0x214
      if field v 61 60 = 2 ∧ field v 9 0 = q.id then setEqRes s q.part 0 0 else s
    else s

/-- R359: unloads a queue: done at once when it is empty. -/
def unloadQueue (s : State) (part id : Nat) : State :=
  match loadedQueue s part id with
  | none => setEqRes s part 1 0
  | some (ph, q) =>
    if q.draining then setEqRes s part 1 0
    else queueGone (setEqRes (setEqQueue s ph { q with draining := true }) part 2 id) ph

/-- R359: unloads a group that no queue names. -/
def unloadGroup (s : State) (part id : Nat) : State :=
  match loadedGroup s part id with
  | none => setEqRes s part 1 0
  | some (ph, _) =>
    if s.equ.queues.any (fun e => e.2.part == part && e.2.cgrp == id) then setEqRes s part 1 0
    else setEqRes { s with equ := { s.equ with groups := drop s.equ.groups ph } } part 0 0

/-- R359: a write of `c.eqload`. -/
def writeEqload (s : State) (part : Nat) (v : Dword) : State :=
  let id := field v 9 0
  match bitAt v 63, bitAt v 62 with
  | true, false => loadQueue s part id
  | true, true => loadGroup s part id
  | false, false => unloadQueue s part id
  | false, true => unloadGroup s part id

/-- A step of the hub for a partition that exists. -/
def onPart (s : State) (part : Nat) (f : State → State) : Host.Outcome State Fault Refusal :=
  .next (if (look s.parts part).isSome then f s else s)

/-- R359, a queue is loaded. -/
def execEqLoadQueue (part id : Nat) (s : State) : Host.Outcome State Fault Refusal := onPart s part (loadQueue · part (id % 1024))

/-- R359, a group is loaded. -/
def execEqLoadGroup (part id : Nat) (s : State) : Host.Outcome State Fault Refusal := onPart s part (loadGroup · part (id % 1024))

/-- R359, a queue is unloaded. -/
def execEqUnloadQueue (part id : Nat) (s : State) : Host.Outcome State Fault Refusal := onPart s part (unloadQueue · part (id % 1024))

/-- R359, a group is unloaded. -/
def execEqUnloadGroup (part id : Nat) (s : State) : Host.Outcome State Fault Refusal := onPart s part (unloadGroup · part (id % 1024))

/-- R359, an unload completes. -/
def execQueueUnloadComplete (queue : Nat) (s : State) : Host.Outcome State Fault Refusal := .next (queueGone s queue)

/-! ## Entries (R360, R361, R367) -/

/-- R360: the fields of an entry. -/
def entrySeq (e : Quad) : Nat := e.toNat / 2 ^ 108 % 2 ^ 20
def entryPos (e : Quad) : Nat := e.toNat / 2 ^ 88 % 2 ^ 20
def entrySlot (e : Quad) : Nat := e.toNat / 2 ^ 81 % 2 ^ 3
def entryGate (e : Quad) : Nat := e.toNat / 2 ^ 64 % 2 ^ 16

/-- The entries of a queue, oldest first. -/
def EqQueue.entries (q : EqQueue) : List EqEntry := q.chip ++ q.spill

/-- R254, R361: group `a` is group `b`, or an older one of their core. -/
def notYounger (s : State) (core a b : Nat) : Bool :=
  let o := (coreOf s core).order
  a == b || (o.contains a && decide (o.findIdx (· == a) < o.findIdx (· == b)))

/-- R361, R370: the hub cycle in which a request of a group reaches the EQU: this one, or the first in which it does not
come behind a request of the same cycle that the order of cores and groups puts after it. The manual states no time from
the word's issue to the EQU (log 33). -/
def arrivalTime (s : State) (core gid : Nat) : Nat :=
  match s.equ.last with
  | none => hubCycle s
  | some x =>
    if x.at_ < hubCycle s then hubCycle s
    else if x.core < core ∨ (x.core = core ∧ notYounger s core x.group gid) then x.at_
    else x.at_ + 1

/-- R361, R370: a request of a group reaches the EQU; the hub cycle it reaches it in. -/
def reachEqu (s : State) (core gid : Nat) : State × Nat :=
  let now := arrivalTime s core gid
  ({ s with equ := { s.equ with last := some { at_ := now, core, group := gid } } }, now)

/-- R361: the spill ring is full, or was in hub cycle `now`. -/
def EqQueue.full (q : EqQueue) (now : Nat) : Bool :=
  decide (2 ^ q.rlsz ≤ q.spill.length) || q.fullAt.any (fun t => decide (now ≤ t))

/-- R367: a group counts the tokens of its range that have been enqueued. -/
def EqGroup.count (g : EqGroup) (e : Quad) : EqGroup :=
  let t := entrySeq e * g.npos + entryPos e
  if entrySeq e < g.nseq ∧ entryPos e < g.npos ∧ !g.tokens.contains t then { g with tokens := g.tokens ++ [t] } else g

/-- R361: an entry that is taken: on chip while the ring is empty and there is room, else in the ring, whose memory the hub
writes (log 28). -/
def takeEntry (s : State) (ph : Nat) (q : EqQueue) (x : EqEntry) : State :=
  if q.spill = [] ∧ q.chip.length < 256 then setEqQueue s ph { q with chip := q.chip ++ [x] }
  else
    let at_ : Nat := q.ring + 16 * ((q.ringHead + q.spill.length) % 2 ^ q.rlsz)
    let s := (writeVirtual s q.part at_ (leBytes x.bits.toNat 16)).s
    countEvent (setEqQueue s ph { q with spill := q.spill ++ [x] }) q.part none 0x15

/-- R202, R361: one lane's entry of group `gid` reaches the EQU: the state and its status. -/
def enqueue (s : State) (part blk core gid lane : Nat) (id : Word) (e : Quad) : State × Nat :=
  if 1024 ≤ id.toNat then (s, 3)
  else match physQueue s part id.toNat with
    | none => (s, 3)
    | some _ =>
      match loadedQueue s part id.toNat with
      | none => (s, 2)
      | some (ph, q) =>
        let (s, now) := reachEqu s core gid
        if q.draining then (s, 2)
        else if q.full now then
          let s := setEqQueue s ph { q with fullAt := some now }
          (faultRecord s part 0x03 0 (some blk) noAddr (BitVec.ofNat 64 (q.id + lane % 32 * 2 ^ 16)), 1)
        else
          let s := takeEntry s ph q { bits := e, arrived := now, core, group := gid }
          let s : State := match loadedGroup s part q.cgrp with
            | some (g, _) => { s with equ := { s.equ with groups := upd s.equ.groups g (fun g => g.count e) } }
            | none => s
          (s, 0)

/-- R201: the lanes' entries in ascending order; their statuses. -/
def enqueueLanes (s : State) (q : Issuer) : List (Nat × Word × Quad) → State × List (Nat × Nat)
  | [] => (s, [])
  | (l, id, e) :: rest =>
    let (s, st) := enqueue s q.part q.g.block q.g.core q.gid l id e
    let (s, sts) := enqueueLanes s q rest
    (s, (l, st) :: sts)

/-- R201: `eqenq` of lanes whose operands are known: a release, then the entries; D is long-latency. -/
def enqueueAct (f : Fixed) (o : Ops4) (lanes : List (Nat × Word × Quad)) (s : State) (q : Issuer) : State :=
  let (s, sts) := enqueueLanes (releaseNow s q.gid) q lanes
  if lanes = [] then finish s q f
  else
    let vals := (List.range 32).map (fun l => match sts.find? (fun x => x.1 == l) with
      | some x => BitVec.ofNat 64 x.2
      | none => 0)
    finish (addPending s q (destsOf o.d 1) (.value (ofLanes (fun l => lanes.any (fun x => x.1 == l))) [vals])) q f

/-- R201, R116: what the current element of a port supplies as an operand; where its stream has none left the manual states
no value and it is free (log 29). -/
def portOperand (s : State) (q : Issuer) (r : Reg) : Got :=
  let p := portOf s q.gid false (regNum r)
  match p.spec with
  | some sp =>
    if p.left = 0 then { s, v := Config.noElement, err := 0, poisoned := false, bad := none } else sourceElement s q sp p.pos
  | none => { s, v := Config.noElement, err := 0, poisoned := false, bad := none }

/-- R201: `eqenq` in a vector block: the entry is the current element of port A and the queue that of port B, extended, in
every active lane (log 29). -/
def eqenqPorts (f : Fixed) (o : Ops4) (s : State) (q : Issuer) : State :=
  let a := portOperand s q o.a
  let b := portOperand a.s q o.b
  match a.bad.or b.bad with
  | some t => memTrap b.s q t
  | none =>
    let s := setAmerr b.s [q.gid] (a.err ||| b.err)
    if a.poisoned || b.poisoned then killBlock s q.g.block 2
    else enqueueAct f o ((laneList (active q f)).map (fun l => (l, b.v.setWidth 32, a.v.setWidth 128))) s q

/-- R201: `eqenq`. R329: a port that reads an AM stream waits for the control thread's earlier AM requests. -/
def eqenqAct (f : Fixed) (o : Ops4) (s : State) (q : Issuer) : State :=
  if !q.vec then
    enqueueAct f o ((memLanes q f).map (fun l => (l, readV s q (regNum o.b) l, BitVec.ofNat 128 (laneNat s q o.a 4 l)))) s q
  else if readsAm s q.gid [regNum o.a, regNum o.b] then
    let s := performOwn s q.gid
    if amBlocked s (coreCluster q.g.core) q.gid s.fresh then stall s q .am
    else match issuer s with
      | some q => eqenqPorts f o s q
      | none => s
  else eqenqPorts f o s q

/-- R201, `eqenq`. -/
def execEqenq (f : Fixed) (o : Ops4) (s : State) : Host.Outcome State Fault Refusal := word (.eqenq f o) s (eqenqAct f o)

/-! ## Dueness (R362, R203) -/

/-- R362: due, for the entries `es` at hub cycle `now`. -/
def EqQueue.dueWith (q : EqQueue) (es : List EqEntry) (now : Nat) : Bool :=
  match es with
  | [] => false
  | e :: _ => decide (q.thr ≤ es.length) || decide (q.tmr * 1024 ≤ now - e.arrived)

/-- R203: what `eqstat` reads of a queue. -/
def EqQueue.status (q : EqQueue) (now : Nat) : Dword :=
  let age : Nat := match q.entries with
    | e :: _ => (now - e.arrived) / 1024
    | [] => 0
  BitVec.ofNat 64 (q.chip.length + min age 0xFFFF * 2 ^ 16 + min q.spill.length 0xFFFF * 2 ^ 32 +
    (q.dueWith q.entries now).toNat * 2 ^ 63)

/-- R203, R370, `eqstat`. -/
def execEqstat (f : Fixed) (o : Ops4) (s : State) : Host.Outcome State Fault Refusal :=
  word (.eqstat f o) s (fun s q =>
    let (s, now) := reachEqu s q.g.core q.gid
    let v : Dword := match loadedQueue s q.part (field (scalarVal q o.a) 9 0) with
      | some (_, x) => x.status now
      | none => 0
    finish (pendS s q o.d v) q f)

/-! ## Firing (R362 to R364) -/

/-- R363: the entries a decision in hub cycle `now` sees. -/
def EqQueue.seen (q : EqQueue) (now : Nat) : List EqEntry := q.entries.filter (fun e => decide (e.arrived < now))

/-- R363: the queue is due as it stood before hub cycle `now`. R400: one of a swapped-out partition is not in the EQU. -/
def EqQueue.due (s : State) (q : EqQueue) (now : Nat) : Bool := q.dueWith (q.seen now) (now - 1) && !swappedPart s q.part

/-- R362: the deadline. -/
def EqQueue.deadline (q : EqQueue) (now : Nat) : Nat := match q.seen now with
  | e :: _ => e.arrived + q.tmr * 1024
  | [] => 0

/-- R362, R363: the batch buffers that were free before hub cycle `now`. -/
def EqQueue.freeBuffers (q : EqQueue) (now : Nat) : List Nat :=
  (List.range q.nbuf).filter (fun j => !q.buffers.contains j && !q.freed.contains (j, now))

/-- R363: queues leave hold sets once they are no longer due. -/
def dropHolds (s : State) (now : Nat) : State :=
  let due (ph : Nat) : Bool := match look s.equ.queues ph with
    | some q => q.due s now
    | none => false
  { s with equ := { s.equ with queues := s.equ.queues.map (fun e => (e.1, { e.2 with hold := e.2.hold.filter due })) } }

/-- R362: the queue may fire: it is due, or drains and holds entries. -/
def EqQueue.eligible (s : State) (q : EqQueue) (now : Nat) : Bool :=
  (q.due s now || (q.draining && !(q.seen now).isEmpty)) && !(q.freeBuffers now).isEmpty && q.hold.isEmpty &&
    match look s.parts q.part with
    | some p => !p.swappedOut
    | none => false

/-- R364: the launch of a firing from buffer `j`. -/
def firingLaunch (s : State) (ph : Nat) (q : EqQueue) (j count : Nat) : Launch :=
  let gx := q.gm1 + 1
  let k := look s.kernels q.kern
  let size := match k with
    | some k => kernelSave s k
    | none => 0
  let fits : Bool := match k with
    | some k => [0, 1, 2].any (couldFit s q.part k (q.tm1 + 1))
    | none => false
  { part := q.part, queue := 0, seq := 0, kern := q.kern, gx, gy := 1, gz := 1,
    pri := min q.pri (field (partReg s q.part 0x210) 34 32), tm1 := q.tm1, args := q.args, const := 0, csize := 0, seed := q.seed,
    done := 0, save := q.save + BitVec.ofNat 64 (j * gx * size), preds := [], order := s.fresh, placed := 0, lost := 0,
    hungLost := false, refused := !fits,
    firing := some { queue := q.id, phys := ph, born := q.born, group := (physGroup s q.part q.cgrp).getD 64, buffer := j, addr := q.bbase + 4096 * j, count },
    rerun := [], ended := none }

/-- R363, R361: queue `ph` fires from buffer `j` in hub cycle `now`; the queue's on-chip entries are refilled in order, and
its ring, if it was full, stays so for the cycle. Every other due queue joins its hold set, and it has left theirs. -/
def fireQueue (s : State) (ph : Nat) (q : EqQueue) (j now : Nat) : State :=
  let batch := (q.seen now).take 256
  let rest := q.entries.drop batch.length
  let hold := (s.equ.queues.filter (fun e => e.1 != ph && e.2.due s now)).map (·.1)
  let spilled := q.spill.any (fun e => decide (e.arrived < now))
  let moved := q.spill.length - (rest.length - 256)
  let q' : EqQueue := { q with
    chip := rest.take 256, spill := rest.drop 256, ringHead := q.ringHead + moved, buffers := q.buffers ++ [j], hold,
    fullAt := if q.full now then some (max now (q.fullAt.getD 0)) else q.fullAt }
  let s : State := { s with
    equ := { s.equ with
      queues := put (s.equ.queues.map (fun e => (e.1, { e.2 with hold := e.2.hold.filter (· != ph) }))) ph q'
      nextDecision := now / 128 * 128 + (if spilled then 1024 else 128) } }
  let s := (writeVirtual s q.part (q.bbase + 4096 * j) (batch.flatMap (fun e => leBytes e.bits.toNat 16))).s
  let l := firingLaunch s ph q j batch.length
  let s : State := { s with launches := put s.launches s.fresh l, fresh := s.fresh + 1 }
  let s := countEvent s q.part none 0x16
  queueGone (traceEvent s q.part none 4 6 0 q.id 0xFFFF) ph

/-- R363: the eligible queue with the earliest deadline, the lowest among equals. -/
def nextFiring (s : State) (now : Nat) : Option (Nat × EqQueue) :=
  leastBy (fun e => e.2.deadline now) (s.equ.queues.filter (fun e => e.2.eligible s now))

/-- R363: a dispatch decision, once its time has come. -/
def decideNow (s : State) : State :=
  let now := hubCycle s
  if now < s.equ.nextDecision then s
  else
    let s := dropHolds s now
    match nextFiring s now with
    | some (ph, q) =>
      match freePick s (q.freeBuffers now) with
      | some j => fireQueue (drawn s 1) ph q j now
      | none => s
    | none => { s with equ := { s.equ with nextDecision := now / 128 * 128 + 128 } }

/-- R363, a dispatch decision. -/
def execEquDispatchDecision (s : State) : Host.Outcome State Fault Refusal := .next (decideNow s)

/-! ## Combining (R365, R366) -/

/-- R365: rne32 of a product, the bits of an f32. -/
def mul32 (a b : Val) : Nat := (rneTo .f32 (mulVal a b).v false).bits

/-- R366: rne32 of a sum. -/
def add32 (a b : Nat) : Nat := (rneTo .f32 (addVal (valOf .f32 a) (valOf .f32 b) false).v false).bits

/-- The f32 words of a row. -/
def rowWords (bs : List Byte) (dim : Nat) : List Nat := (List.range dim).map (fun d => leNat ((bs.drop (4 * d)).take 4))

/-- The bytes of a row. -/
def wordsBytes (ws : List Nat) : List Byte := ws.flatMap (fun w => leBytes w 4)

/-- R358: a contribution row. -/
def EqGroup.row (g : EqGroup) (t k : Nat) : Nat := g.cbase + (t * g.k + k) * 4 * g.dim

/-- R365: entry `i` of a batch is marked, or a fault record is written. A hub access that is refused has no effect
(log 7). -/
def markEntry (g : EqGroup) (s : State) (x : Quad × Nat) : State :=
  let e := x.1
  let t := entrySeq e * g.npos + entryPos e
  let m := readVirtual s g.part (g.mbase + t) 1
  let mask := leNat m.bytes
  if g.nseq ≤ entrySeq e ∨ g.npos ≤ entryPos e ∨ g.k ≤ entrySlot e ∨ mask / 2 ^ entrySlot e % 2 = 1 then
    faultRecord s g.part 0x05 0 none noAddr (BitVec.ofNat 64 (g.id + x.2 * 2 ^ 16))
  else
    let c := readVirtual m.s g.part (g.row t (entrySlot e)) (4 * g.dim)
    let gate := valOf .bf16 (entryGate e)
    let ws := (rowWords c.bytes g.dim).map (fun w => mul32 gate (valOf .f32 w))
    let s := if c.bad.isSome then c.s else (writeVirtual c.s g.part (g.row t (entrySlot e)) (wordsBytes ws)).s
    (writeVirtual s g.part (g.mbase + t) (leBytes (mask + 2 ^ entrySlot e) 1)).s

/-- R366: releases the complete tokens of sequence `sq` from its cursor on. `ph`: the group's physical number. -/
def releaseTokens (s : State) (ph : Nat) (g : EqGroup) (sq : Nat) : Nat → State
  | 0 => s
  | f + 1 =>
    let p := (readDword s g.part (g.pbase + 8 * sq)).toNat
    let t := sq * g.npos + p
    let m := readVirtual s g.part (g.mbase + t) 1
    if g.npos ≤ p ∨ leNat m.bytes ≠ 2 ^ g.k - 1 then s
    else
      let rows := (List.range g.k).map (fun k => rowWords (readVirtual m.s g.part (g.row t k) (4 * g.dim)).bytes g.dim)
      let out := (List.range g.dim).map (fun d =>
        (rows.drop 1).foldl (fun r row => add32 r (row.getD d 0)) ((rows.headD []).getD d 0))
      let s := (writeVirtual m.s g.part (g.dst + t * 4 * g.dim) (wordsBytes out)).s
      let s := (writeVirtual s g.part (g.mbase + t) [0]).s
      let s := (writeVirtual s g.part (g.pbase + 8 * sq) (leBytes (p + 1) 8)).s
      let s : State := { s with equ := { s.equ with groups := upd s.equ.groups ph (fun g => { g with released := g.released + 1 }) } }
      releaseTokens s ph g sq f

/-- R365: the batch buffer is free; a decision of this hub cycle does not see it yet (R363). A queue that was loaded
again since has buffers of its own. -/
def freeBuffer (s : State) (fr : Firing) : State :=
  let now := hubCycle s
  match look s.equ.queues fr.phys with
  | some q =>
    if q.born = fr.born then
      setEqQueue s fr.phys { q with
        buffers := q.buffers.filter (· != fr.buffer), freed := (fr.buffer, now) :: q.freed.filter (fun x => x.2 == now) }
    else s
  | none => s

/-- R365, R366: marks a batch and releases what it completes. Nothing is marked in a group that has been unloaded
meanwhile, nor in one that another partition has loaded there since. -/
def markBatch (s : State) (l : Launch) (fr : Firing) : State :=
  match (look s.equ.groups fr.group).filter (fun g => g.part == l.part) with
  | none => s
  | some g =>
    let o := readVirtual s l.part fr.addr (16 * fr.count)
    let es := (List.range fr.count).map (fun i => BitVec.ofNat 128 (leNat ((o.bytes.drop (16 * i)).take 16)))
    let s := (es.zipIdx).foldl (markEntry g) o.s
    let seqs := ((es.map entrySeq).filter (fun q => decide (q < g.nseq))).eraseDups
    seqs.foldl (fun s q => releaseTokens s fr.group g q g.npos) s

/-- R365: the launch of a firing has ended. -/
def combine (s : State) (id : Nat) (l : Launch) (fr : Firing) (code : Nat) : State :=
  let s := if code = 0 then markBatch s l fr
    else faultRecord s l.part 0x04 0 none noAddr (BitVec.ofNat 64 (fr.queue + code % 4 * 2 ^ 16))
  let s := freeBuffer s fr
  { s with launches := drop s.launches id }

/-- R365, R366, an ended firing is combined. -/
def execCombineMark (launch : Nat) (s : State) : Host.Outcome State Fault Refusal :=
  .next
    (match look s.launches launch with
    | none => s
    | some l => match l.firing, l.ended with
      | some fr, some code => combine s launch l fr code
      | _, _ => s)

end Sys2Proof.Machine
end

