-- ==== Sys2Proof/Machine/Ise.lean ====
section
/-! DEFINITION. Gathers and scatters (R167 to R170): parameter blocks, the words, and the indirect-stream engine. -/

namespace Sys2Proof.Machine

/-! ## Parameter blocks and words -/

/-- R168: reads a parameter block; none where it breaks the map. -/
def parseIse (scat : Bool) (b : List Byte) : Option IseDesc :=
  let c := dwordIn b 0x18
  let esz : Nat := 2 ^ field c 2 0
  let op := field c 9 7
  let stride := sextNat (dwordIn b 0x20).toNat 64
  let opOk := if scat then decide (op ≤ 5) && (op == 0 || esz == (if op = 5 then 8 else 4)) else op == 0
  if field c 63 48 ≠ 0 ∨ field c 47 16 = 0 ∨ field c 15 10 ≠ 0 ∨ field c 4 3 ≠ 0 ∨ 4 < field c 2 0 ∨ !opOk ∨
      stride % (esz : Int) ≠ 0 ∨ dwordIn b 0x30 ≠ 0 ∨ dwordIn b 0x38 ≠ 0 then none
  else match parseStatus (dwordIn b 0x28) with
    | none => none
    | some status =>
      some
        { idx := (dwordIn b 0).toNat, tbl := (dwordIn b 8).toNat, dense := (dwordIn b 0x10).toNat,
          denseLocal := bitAt c 6, count := field c 47 16, op, wide := bitAt c 5, esz, stride, status }

/-- R162, R167, R213: the local dense array and status record lie in the window; only copies reach the aperture. DESIGN
CHOICE (log 54): the ISE may be that of any base die. -/
def iseFits (size : Nat) (d : IseDesc) : Bool :=
  (!d.denseLocal || decide (d.dense + d.count * d.esz ≤ size)) &&
    match d.status with
    | some (true, a) => decide (a + 16 ≤ size)
    | _ => true

/-- R167: `gath` and `scat`. -/
def iseAct (scat : Bool) (f : Fixed) (o : Ops4) (s : State) (q : Issuer) : State :=
  match commandBinding s q o.b 1 with
  | none => trapBefore s q causeBinding 0 false
  | some e =>
    let a := (scalarVal q o.a).toNat
    let size := blockLocal s q.b
    if a % 64 ≠ 0 ∨ size < a + 64 then trapBefore s q causeDescriptor 0 false
    else
      let s := releaseNow s q.gid
      match parseIse scat (ownLocal s q a 64) with
      | none => trapBefore s q causeDescriptor 0 false
      | some d =>
        if iseFits size d then issueOp f o e (if scat then .scat d else .gath d) s q
        else trapBefore s q causeDescriptor 0 false

/-- R167, `gath`. -/
def execGath (f : Fixed) (o : Ops4) (s : State) : Host.Outcome State Fault Refusal := word (.gath f o) s (iseAct false f o)

/-- R167, `scat`. -/
def execScat (f : Fixed) (o : Ops4) (s : State) : Host.Outcome State Fault Refusal := word (.scat f o) s (iseAct true f o)

/-! ## Elements (R169) -/

/-- R169: the table address of element `e`, from its index. -/
def iseTarget (s : State) (part : Nat) (d : IseDesc) (e : Nat) : Moved × Nat :=
  let n := if d.wide then 8 else 4
  let m := engineRead s part (d.idx + e * n) n
  (m, addrPlus d.tbl (sextNat (leNat m.bytes) (8 * n) * d.stride))

/-- Reads or writes the dense array. -/
def denseRead (s : State) (o : EngOp) (d : IseDesc) (e : Nat) : Moved :=
  if d.denseLocal then localRead s o.block o.core (d.dense + e * d.esz) d.esz
  else engineRead s o.part (d.dense + e * d.esz) d.esz

def denseWrite (s : State) (o : EngOp) (d : IseDesc) (e : Nat) (bs : List Byte) : Moved :=
  if d.denseLocal then
    let (s, bad) := localWrite s o.block o.core (d.dense + e * d.esz) bs
    { s, bytes := [], met := if bad then .fail 3 else .done }
  else engineWrite s o.part (d.dense + e * d.esz) bs

/-- R169: what a scatter leaves where it finds `old`. -/
def scatValue (op esz old x : Nat) : Nat :=
  match op with
  | 0 => x
  | 2 =>
    let sum := addVal (valOf .f32 old) (valOf .f32 x) false
    (roundTo .f32 sum.v .rne false 0).bits
  | 3 => if sextNat x 32 < sextNat old 32 then x else old
  | 4 => if sextNat old 32 < sextNat x 32 then x else old
  | _ => (old + x) % 2 ^ (8 * esz)

/-- R169, R374: a scatter's access: W is needed, and the old value is read for all operations but a store. -/
def scatUpdate (s : State) (part a : Nat) (d : IseDesc) (x : Nat) : Moved :=
  if d.op = 0 then engineWrite s part a (leBytes x d.esz)
  else match placePieces s part (pieces (a % 2 ^ 64) d.esz 3) with
    | (s, some (c, b), _) => { s, bytes := [], met := metBy c b true }
    | (s, none, ks) =>
      if ks.any (fun k => poisonedAt s k.1 k.2) then { s, bytes := [], met := .fail 4 }
      else
        let old := leNat (ks.flatMap (fun k => readBytes s k.1 k.2))
        engineWrite (ks.foldl (fun s k => meterHost s part k.1 k.2) s) part a (leBytes (scatValue d.op d.esz old x) d.esz)

/-- R169: element `e`. R352: bytes have moved once its index is read. -/
def iseElement (s : State) (o : EngOp) (e : Nat) : Moved :=
  match o.work with
  | .gath d =>
    let (m, a) := iseTarget s o.part d e
    if m.met ≠ .done then m
    else
      let r := engineRead (touchHang m.s o.block) o.part a d.esz
      if r.met ≠ .done then r else denseWrite r.s o d e r.bytes
  | .scat d =>
    let (m, a) := iseTarget s o.part d e
    if m.met ≠ .done then m
    else
      let x := denseRead (touchHang m.s o.block) o d e
      if x.met ≠ .done then x else scatUpdate x.s o.part a d (leNat x.bytes)
  | _ => { s, bytes := [], met := .done }

/-! ## The engine (R170) -/

/-- R170: the spilled elements of an ISE. -/
def iseSpilled (s : State) (die : Nat) : Nat :=
  (List.range 16).foldl (fun n c => (engCtx s { kind := 1, unit := die, ctx := c }).ops.foldl (fun n o => n + o.spill.length) n) 0

/-- R170: the aligned location of a scatter's element; none while its index cannot be read. -/
def scatPlace (s : State) (part : Nat) (d : IseDesc) (e : Nat) : Option Nat :=
  let (m, a) := iseTarget s part d e
  if m.met = .done then some (a / d.esz * d.esz) else none

/-- R170: an element of a storing scatter waits behind a spilled one at its location, or one whose location is not yet
known. DESIGN CHOICE (log 48): of its own operation, not behind those of other operations that share the queue. -/
def waitsBehind (s : State) (o : EngOp) (e : Nat) : Bool :=
  match o.work with
  | .scat d =>
    d.op == 0 &&
      match scatPlace s o.part d e with
      | none => false
      | some a => o.spill.any (fun x => decide (x.1 < e) && (match scatPlace s o.part d x.1 with
        | some b => a == b
        | none => true))
  | _ => false

/-- R170: element `e` goes to the spill queue, or comes back to it. -/
def iseSpill (s : State) (r : EngRef) (o : EngOp) (e : Nat) (tag : Option Nat) : State :=
  let s := if o.spill.any (fun x => x.1 == e) then s else countEvent s o.part (some (engPlace r)) 0x15
  modOp s r o.no (fun o =>
    { o with spill := o.spill.filter (fun x => x.1 != e) ++ [(e, tag)], next := max o.next (e + 1) })

/-- R170, R379: the fault element `e` waits on. -/
def iseFault (r : EngRef) (o : EngOp) (e a : Nat) (w : Bool) : XFault :=
  { part := o.part, eng := r, op := o.no, elem := e, addr := BitVec.ofNat 64 a, write := w, since := 0, recorded := false,
    block := o.block }

/-- R170: element `e` is done with. -/
def iseLeave (s : State) (r : EngRef) (o : EngOp) (e : Nat) : State :=
  modOp s r o.no (fun o =>
    { o with next := max o.next (e + 1), spill := o.spill.filter (fun x => x.1 != e), zero := o.zero.filter (· != e) })

/-- R170: the write of zero that a failed element owes its dense slot: a gather's, which no typed word refused. -/
def iseOwes (s : State) (o : EngOp) (e code : Nat) : Option Moved :=
  match o.work with
  | .gath d => if code = 3 then none else some (denseWrite s o d e (zeroBytes d.esz))
  | _ => none

/-- R170: a failed element writes its zero; where that write faults the element waits in the spill queue as any other. -/
def iseZero (s : State) (r : EngRef) (o : EngOp) (e code : Nat) : State :=
  match iseOwes s o e code with
  | none => iseLeave s r o e
  | some m =>
    match m.met with
    | .wait a w =>
      match newFault m.s (iseFault r o e a w) with
      | some (s, t) => iseSpill s r o e (some t)
      | none => iseSpill m.s r o e none
    | _ => iseLeave (m.touch o.block).s r o e

/-- R170: element `e` failed with `code`; one whose zero fails leaves it at that. DESIGN CHOICE (log 48): of several
failures CODE is that of the lowest ordinal. -/
def iseFail (s : State) (r : EngRef) (o : EngOp) (e code : Nat) : State :=
  if o.zero.contains e then iseLeave s r o e
  else
    let s := modOp s r o.no (fun o =>
      { o with fails := o.fails + 1, first := some (min (o.first.getD e) e),
               code := if o.first.all (fun x => decide (e < x)) then code else o.code, zero := o.zero ++ [e] })
    iseZero s r o e code

/-- R170: element `e` is tried; one that meets a translation fault spills if there is room for it. -/
def iseTry (s : State) (r : EngRef) (o : EngOp) (e : Nat) : State :=
  let again := o.spill.any (fun x => x.1 == e)
  let room := again || decide (iseSpilled s r.unit < 512)
  if waitsBehind s o e then (if again || !room then s else iseSpill s r o e none)
  else if o.zero.contains e then iseZero s r o e 0
  else
    let m := iseElement s o e
    match m.met with
    | .done => iseLeave m.s r o e
    | .fail c =>
      match iseOwes m.s o e c, room with
      | some { met := .wait .., .. }, false => m.s
      | _, _ => iseFail m.s r o e c
    | .wait a w =>
      if !room then m.s
      else match newFault m.s (iseFault r o e a w) with
        | some (s, t) => iseSpill s r o e (some t)
        | none => m.s

/-- R168: the elements of an operation. -/
def EngOp.elements (o : EngOp) : Nat :=
  match o.work with
  | .copy _ d => dimsCount d.dims
  | .gath d => d.count
  | .scat d => d.count

/-- R159, R170: the first unsettled operation of an ISE context takes its next step. DESIGN CHOICE (log 48): one operation
after the other. -/
def iseStep (s : State) (r : EngRef) : State :=
  match (engCtx s r).ops.find? (fun o => o.ended.isNone) with
  | none => s
  | some o =>
    if o.next < o.elements then iseTry s r o o.next
    else if o.spill = [] then modOp s r o.no (fun o => { o with ended := some o.code })
    else s

/-- R169, the ISE. -/
def execIseExecute (die ctx : Nat) (s : State) : Host.Outcome State Fault Refusal :=
  .next (iseStep s { kind := 1, unit := die, ctx })

/-- R170: a spilled element whose fault has been answered is retried. -/
def execIseSpillRetry (die ctx elem : Nat) (s : State) : Host.Outcome State Fault Refusal :=
  let r : EngRef := { kind := 1, unit := die, ctx }
  .next
    (match (engCtx s r).ops.find? (fun o => o.ended.isNone) with
    | some o => if o.spill.contains (elem, none) then iseTry s r o elem else s
    | none => s)

end Sys2Proof.Machine
end

