-- ==== Sys2Proof/Machine/Faults.lean ====
section
/-! DEFINITION. The answers to translation faults that wait for service (R379, R422): retry, failure, and the time after
which a fault fails. -/

namespace Sys2Proof.Machine

/-! ## Retries -/

/-- An element, or record, of an engine context no longer waits on the fault of `tag`. -/
def EngOp.goOn (o : EngOp) (tag : Nat) : EngOp :=
  { o with
    wait := if o.wait = some tag then none else o.wait
    spill := o.spill.map (fun x => if x.2 = some tag then (x.1, none) else x) }

/-- The same in a context. -/
def EngCtx.goOn (c : EngCtx) (tag : Nat) : EngCtx := { c with ops := c.ops.map (fun o => o.goOn tag) }

/-- The same in a band: its ports' elements and its operations' records. -/
def Band.goOn (b : Band) (tag : Nat) : Band :=
  { b with
    ops := b.ops.map (fun o => if o.wait = some tag then { o with wait := none } else o)
    ports := b.ports.map (fun p =>
      (p.1, { p.2 with spill := p.2.spill.map (fun x => if x.2 = some tag then (x.1, none) else x) })) }

/-- R379: the fault waits no longer. -/
def dropFault (s : State) (tag : Nat) : State := { s with faults := drop s.faults tag }

/-- R379: what met the fault walks again. -/
def retryFault (s : State) (tag : Nat) (f : XFault) : State :=
  let s := dropFault s tag
  match f.eng.kind with
  | 0 | 1 => setEngCtx s f.eng ((engCtx s f.eng).goOn tag)
  | 3 => (match look s.bands f.eng.unit with
    | some b => setBand s f.eng.unit (b.goOn tag)
    | none => s)
  | _ => s

/-! ## Failures -/

/-- R422: the record of an engine operation is not written. -/
def loseEngineRecord (s : State) (e : EngRef) (o : EngOp) (code : Nat) : State :=
  finishOp (recordLost s o.part o.recordKind code o.no (some o.block) ((o.status.map (·.2)).getD 0)) e o

/-- R166, R170, R422: a copy or ISE fault stays unresolved. -/
def failEngine (s : State) (f : XFault) : State :=
  match (engCtx s f.eng).ops.find? (fun o => o.no == f.op) with
  | none => s
  | some o =>
    if f.elem = recordElem then loseEngineRecord s f.eng o 1
    else if f.eng.kind = 0 then copyStop (modOp s f.eng o.no (fun o => { o with wait := none })) f.eng o f.elem 1
    else iseFail s f.eng o f.elem 1

/-- R296, R422: a fault of a band stays unresolved. -/
def failBand (s : State) (f : XFault) : State :=
  match look s.bands f.eng.unit with
  | none => s
  | some b =>
    if f.elem = recordElem then
      match b.ops with
      | o :: _ => leaveBandOp (recordLost s b.part 3 1 o.no (some o.block) (o.record.getD 0)) f.eng.unit b o
      | [] => s
    else
      let i := f.elem / 2 ^ 65 - 1
      match b.cfg with
      | some c => (match c.ports[i]? with
        | some e => failElem s f.eng.unit b c i e (f.elem % 2 ^ 65) 1
        | none => s)
      | none => s

/-- R379, R422: the fault is not resolved: its element fails, or its record is not written. -/
def failFault (s : State) (tag : Nat) (f : XFault) : State :=
  let s := dropFault s tag
  match f.eng.kind with
  | 0 | 1 => failEngine s f
  | 3 => failBand s f
  | _ => match look s.launches f.op with
    | some l => dropLaunch (recordLost s l.part 4 1 0 none l.done.toNat) f.op l
    | none => s

/-! ## Answers -/

/-- R379: the faults an answer to `tag` acts on: on an ISE, those of every spilled element in its 4 KiB page, in the order
of their tags. -/
def answered (s : State) (part tag : Nat) : List (Nat × XFault) :=
  match look s.faults tag with
  | none => []
  | some f =>
    if f.part ≠ part ∨ !f.recorded ∨ stashedPart s part then []
    else if f.eng.kind = 1 ∧ f.elem ≠ recordElem then
      s.faults.filter (fun g => g.2.part == part && g.2.eng.kind == 1 && g.2.eng.unit == f.eng.unit &&
        g.2.elem != recordElem && g.2.addr.toNat / 4096 == f.addr.toNat / 4096)
    else [(tag, f)]

/-- R379, an answer: retry. -/
def retryAnswer (s : State) (part tag : Nat) : State := (answered s part tag).foldl (fun s x => retryFault s x.1 x.2) s

/-- R379, an answer: fail. -/
def failAnswer (s : State) (part tag : Nat) : State := (answered s part tag).foldl (fun s x => failFault s x.1 x.2) s

/-- R379, `c.xlres` with ACT 1. -/
def execXlresRetry (part tag : Nat) (s : State) : Host.Outcome State Fault Refusal := .next (retryAnswer s part tag)

/-- R379, `c.xlres` with ACT 2. -/
def execXlresFail (part tag : Nat) (s : State) : Host.Outcome State Fault Refusal := .next (failAnswer s part tag)

/-- R379, R395: a fault without an answer fails after 2^26 hub cycles, in a partition swapped out once it is back (R400). -/
def execTranslationFaultTimeout (tag : Nat) (s : State) : Host.Outcome State Fault Refusal :=
  .next
    (match look s.faults tag with
    | some f => if f.since + 2 ^ 26 ≤ hubCycle s && !stashedPart s f.part then failFault s tag f else s
    | none => s)

end Sys2Proof.Machine
end

