-- ==== Sys2Proof/Machine/Invalidate.lean ====
section
/-! DEFINITION. Invalidations (R375, R382): what they discard, the accesses they wait for, and their end. -/

namespace Sys2Proof.Machine

/-- R375: an access translated before the discard. -/
def Pending.age (p : Pending) : Pending :=
  match p.work with
  | .load .. => { p with stale := true }
  | .atom .. => { p with stale := true }
  | _ => p

def Ctx.age (c : Ctx) : Ctx := { c with pend := c.pend.map Pending.age }

/-- The block is one of the partition's. -/
def blockIn (s : State) (part blk : Nat) : Bool :=
  match look s.blocks blk with
  | some b => b.part == part
  | none => false

/-- The group of a core whose handler runs is one of the partition's. -/
def serves (s : State) (part : Nat) (c : Core) : Bool :=
  match c.serving.bind (look s.groups) with
  | some g => blockIn s part g.block
  | none => false

/-- R375: the discard. `both`: second-stage translations too (R376). -/
def discard (s : State) (part : Nat) (both : Bool) : State :=
  { s with tlb := s.tlb.filter (fun t => !(t.part == part && (both || t.stage == 1))) }

/-- R375: an invalidation of the partition starts, or the one in progress is extended. -/
def invalidate (s : State) (part : Nat) (both : Bool) : State :=
  if (look s.parts part).isNone then s
  else
    let groups := s.groups.map (fun e => if blockIn s part e.2.block then (e.1, { e.2 with ctx := e.2.ctx.age }) else e)
    let old (e : StoreEnt) : StoreEnt := if blockIn s part e.block then { e with stale := true } else e
    let cores := s.cores.map (fun c =>
      (c.1, { c.2 with
        storeQ := c.2.storeQ.map old
        shadow := if serves s part c.2 then { c.2.shadow with ctx := c.2.shadow.ctx.age } else c.2.shadow }))
    let s : State := { s with groups, cores, parts := upd s.parts part (fun p => { p with invalidating := true }) }
    discard s part both

/-- R375: an access translated before the discard has not been performed. -/
def agedLeft (s : State) (part : Nat) : Bool :=
  s.groups.any (fun e => blockIn s part e.2.block && e.2.ctx.pend.any (·.stale)) ||
    s.cores.any (fun c => c.2.storeQ.any (fun e => e.stale && blockIn s part e.block) ||
      (serves s part c.2 && c.2.shadow.ctx.pend.any (·.stale)))

/-- R375, R382: the invalidation completes: the root written last takes effect, and what was cached from the old one in the
meantime is gone. -/
def endInvalidation (s : State) (part : Nat) : State :=
  let root := partReg s part 0x219
  discard { s with parts := upd s.parts part (fun p => { p with invalidating := false, root }) } part false

/-- R375, `c.tlbinv` with INV = 1. -/
def execTlbInvalidate (part : Nat) (s : State) : Host.Outcome State Fault Refusal := .next (invalidate s part false)

/-- R375, an invalidation completes. Engines translate an element as they perform it, so none is in flight. -/
def execInvalidationComplete (part : Nat) (s : State) : Host.Outcome State Fault Refusal :=
  .next
    (match look s.parts part with
    | some p => if p.invalidating && !agedLeft s part then endInvalidation s part else s
    | none => s)

end Sys2Proof.Machine
end

