-- ==== Sys2Proof/Machine/Partition.lean ====
section
/-! DEFINITION. Partitions (R380, R381), the attestation of the second stage and of the meters (R376, R377, R386 to R388),
partition swap (R400), and the accesses of the host and of peers (R377, R378). -/

namespace Sys2Proof.Machine

/-! ## The meter chain (R386 to R388) -/

/-- R384, R385: the HBM bursts of caches and fills are not the model's; a read of their meters finds them risen by a free
amount (log 5). -/
def settleMeters (s : State) (part : Nat) : State :=
  let s' := addMeter s part 10 (Config.freeDword s.free).toNat
  { addMeter s' part 11 (Config.freeDword (s.free + 1)).toNat with free := s.free + 2 }

/-- R384: the 14 counters. -/
def counters (s : State) (part : Nat) : List Dword := (List.range 14).map (fun n => partReg s part (0x230 + n))

/-- R386: a hub cycle begins: what has retired so far counts in an epoch that closes in it. -/
def markMeters (s : State) : State :=
  { s with parts := s.parts.map (fun p => (p.1, { p.2 with meters := counters s p.1 })) }

/-- R386: the counters an epoch closes with: those the hub cycle found, with the HBM bursts settled up to it. -/
def closeMeters (s : State) (part : Nat) : State :=
  let t := settleMeters s part
  let settled (p : Partition) (c : Nat × Dword) : Dword :=
    if (c.1 = 10 ∨ c.1 = 11) ∧ p.stash.isNone then partReg t part (0x230 + c.1) else c.2
  { t with parts := upd t.parts part (fun p => { p with meters := p.meters.zipIdx.map (fun c => settled p (c.2, c.1)) }) }

/-- R386: the bytes of an epoch's number and counters, little-endian. -/
def epochBytes (n : Nat) (cs : List Dword) : List Byte := leBytes n 8 ++ cs.flatMap (fun c => leBytes c.toNat 8)

/-- R386: H_n from H_{n-1}. A digest's bytes stand as SHA-384 writes them (log 8). -/
def chainNext (h : BitVec 384) (n : Nat) (cs : List Dword) : BitVec 384 := sha384 (beBytes h.toNat 48 ++ epochBytes n cs)

/-- R387: a snapshot's bytes: n, the counters, H_n; the final flag of R388 last (log 8). -/
def Snapshot.bytes (x : Snapshot) : List Byte :=
  epochBytes x.epoch x.counters ++ beBytes x.chain.toNat 48 ++ [if x.final then 1 else 0]

/-- R386: an epoch closes. -/
def closeEpoch (s : State) (part : Nat) : State :=
  let s := closeMeters s part
  { s with
    parts := upd s.parts part (fun p =>
      { p with epoch := p.epoch + 1, chain := chainNext p.chain (p.epoch + 1) p.meters, epochFrom := hubCycle s }) }

/-- R387: the snapshot of the last close. -/
def snapshot (s : State) (part : Nat) (final : Bool) : Option Snapshot :=
  (look s.parts part).map (fun p => { epoch := p.epoch, counters := p.meters, chain := p.chain, final })

/-- R386, an epoch of 2^24 hub cycles closes. -/
def execEpochClose (part : Nat) (s : State) : Host.Outcome State Fault Refusal :=
  .next
    (match look s.parts part with
    | none => s
    | some p =>
      if p.epochFrom + 2 ^ 24 ≤ hubCycle s then
        let t := closeEpoch s part
        { t with parts := upd t.parts part (fun q => { q with epochFrom := p.epochFrom + 2 ^ 24 }) }
      else s)

/-! ## Creation (R380, R386) -/

/-- R378: a partition has a 4-bit number. -/
def partLimit : Nat := 16

/-- R380: a partition holds the sector; one that is swapped out has left its sectors (R400). -/
def sectorHeld (s : State) (n : Nat) : Bool :=
  s.parts.any (fun e => e.2.sectors.contains n && e.2.stash.isNone)

/-- R380, R381: a partition holds the channel group. -/
def groupHeld (s : State) (n : Nat) : Bool := s.parts.any (fun e => e.2.groups.contains n)

/-- A mask with the bits of a list set. -/
def maskOf (xs : List Nat) : Nat := xs.foldl (fun m x => m ||| 2 ^ x) 0

/-- R386: the creation record; its byte format is the model's (log 8). -/
def creationRecord (part : Nat) (sectors groups : List Nat) (nonce : BitVec 256) : List Byte :=
  leBytes part 8 ++ leBytes (maskOf sectors) 4 ++ leBytes (maskOf groups) 8 ++ leBytes nonce.toNat 32

/-- R380, R384: a partition as it is created. -/
def newPartition (s : State) (part : Nat) (sectors groups : List Nat) (nonce : BitVec 256) : Partition :=
  { sectors, groups, regs := [], root := 0, invalidating := false, tdisp := .unlocked, s2digest := 0, lockMeasure := [], epoch := 0,
    epochFrom := hubCycle s, chain := sha384 (creationRecord part sectors groups nonce), swappedOut := false, stash := none,
    staged := [], hyper := [], claims := [], trapvec := 0, meters := List.replicate 14 0, command := none, lost := 0 }

/-- R419: the modes in which partitions are created. -/
def createMode : DeviceMode → Bool
  | .normal | .test => true
  | _ => false

/-- R380, R419, the security processor creates a partition on free sectors and channel groups. -/
def execPartitionCreate (part : Nat) (sectors groups : List Nat) (nonce : BitVec 256) (s : State) :
    Host.Outcome State Fault Refusal :=
  let sectors := (List.range 32).filter (fun n => sectors.contains n)
  let groups := (List.range 64).filter (fun n => groups.contains n)
  .next
    (if createMode s.hours.mode && decide (part < partLimit) && (look s.parts part).isNone &&
        sectors.all (fun n => sectorOn s n && !sectorHeld s n) && groups.all (fun n => !groupHeld s n) then
      { s with parts := put s.parts part (newPartition s part sectors groups nonce) }
    else s)

/-! ## What sectors hold -/

/-- A core, a cluster, a copy context, an ISE context (log 23) of some sectors. -/
def coreIn (sectors : List Nat) (c : Nat) : Bool := sectors.contains (c / 12)
def clusterIn (sectors : List Nat) (c : Nat) : Bool := sectors.contains (c / 3)
def copyIn (sectors : List Nat) (c : Nat) : Bool := sectors.contains (c / 4)
def iseIn (sectors : List Nat) (c : Nat) : Bool := sectors.contains (4 * (c / 16) + c % 16 / 4)

/-- A byte of an operand buffer or accumulator memory of some sectors. -/
def bufferIn (sectors : List Nat) (k : Nat) : Bool :=
  (decide (obBase ≤ k) && decide (k < amBase) && clusterIn sectors ((k - obBase) / mib 1)) ||
    (decide (amBase ≤ k) && decide (k < localBase) && clusterIn sectors ((k - amBase) / kib 512))

/-- R400: what the sectors hold. -/
def stashOf (s : State) (sectors : List Nat) : Stash :=
  { since := s.clock, cores := s.cores.filter (fun e => coreIn sectors e.1), clusters := s.clusters.filter (fun e => clusterIn sectors e.1),
    copies := s.copies.filter (fun e => copyIn sectors e.1), ises := s.ises.filter (fun e => iseIn sectors e.1),
    cells := s.mem.filter (fun c => bufferIn sectors c.1) }

/-- R380: the sectors as after device reset. -/
def clearSectors (s : State) (sectors : List Nat) : State :=
  { s with
    cores := s.cores.filter (fun e => !coreIn sectors e.1)
    clusters := s.clusters.filter (fun e => !clusterIn sectors e.1)
    copies := s.copies.filter (fun e => !copyIn sectors e.1)
    ises := s.ises.filter (fun e => !iseIn sectors e.1)
    mem := s.mem.filter (fun c => !bufferIn sectors c.1) }

/-- Puts the entries of a table into another. -/
def putAll (t u : Tab α) : Tab α := u.foldl (fun t e => put t e.1 e.2) t

/-- R400: the sectors hold again what was stored. -/
def unstash (s : State) (x : Stash) : State :=
  { s with
    cores := putAll s.cores x.cores
    clusters := putAll s.clusters x.clusters
    copies := putAll s.copies x.copies
    ises := putAll s.ises x.ises
    mem := x.cells.foldl (fun m c => putZ m c.1 c.2) s.mem }

/-! ## Destruction (R380, R388) -/

/-- R400: what a partition's sectors held when it was swapped out has engine operations still to complete. -/
def Stash.busy (x : Stash) : Bool :=
  x.copies.any (fun e => !e.2.ops.isEmpty) || x.ises.any (fun e => !e.2.ops.isEmpty) ||
    x.clusters.any (fun c => !c.2.table.isEmpty || !c.2.running.isEmpty)

/-- R380: a partition that is away has engine operations to complete, and its end waits for it to be swapped in (log 39). -/
def stashBusy (s : State) (part : Nat) : Bool := ((look s.parts part).bind (·.stash)).any Stash.busy

/-- R380: an engine operation of the partition has not completed. -/
def partBusy (s : State) (part : Nat) : Bool :=
  stashBusy s part || s.copies.any (fun e => e.2.ops.any (fun o => o.part == part)) || s.ises.any (fun e => e.2.ops.any (fun o => o.part == part)) ||
    s.clusters.any (fun c => c.2.table.any (fun p => p.part == part) || c.2.running.any (fun p => p.part == part)) ||
    s.bands.any (fun b => b.2.part == part && !b.2.ops.isEmpty)

/-- R380: a band whose block has stopped: its run's sources stop, and no rare group of it is left. -/
def Band.wound (b : Band) : Band :=
  { b with
    run := b.run.map (fun r => { r with stopped := true }), frozenRows := b.frozenRows || b.run.isSome,
    ports := b.ports.map (fun p => (p.1, { p.2 with rare := p.2.rare.map (fun r => { r with group := none }) })) }

/-- R380: the block stops. One whose band has operations to complete stays without its groups until they have; a band that the
hang monitor froze does not move any more, and what it had to do is given up with it (R352, log 39). -/
def stopBlock (s : State) (blk : Nat) (b : Block) : State :=
  if b.frozen != some .hang && s.bands.any (fun d => d.2.block == blk && !d.2.ops.isEmpty) then
    let s := leaveCore (disarmHop s blk) blk
    { s with bands := s.bands.map (fun d => (d.1, if d.2.block = blk then d.2.wound else d.2)) }
  else eraseBlock s blk

/-- R380: every block of the partition is stopped, and nothing of it starts any more. -/
def stopPartition (s : State) (part : Nat) : State :=
  let s := (s.blocks.filter (fun b => b.2.part == part)).foldl (fun s b => stopBlock s b.1 b.2) s
  { s with
    launches := s.launches.filter (fun l => l.2.part != part)
    parts := upd s.parts part (fun p => { p with swappedOut := true }) }

/-- R381: a key of the HBM of some channel groups. -/
def hbmOf (groups : List Nat) (k : Nat) : Bool := isHbm k && groups.contains (k / gib 16)

/-- R380, R388: the meters close, the final report is kept, and everything the partition held is as after device reset. -/
def endPartition (s : State) (part : Nat) (p : Partition) : State :=
  let s := closeEpoch s part
  let reports := match snapshot s part true with
    | some x => put s.hours.reports part x
    | none => s.hours.reports
  let s := if p.stash.isSome then s else clearSectors s p.sectors
  { s with
    mem := s.mem.filter (fun c => !hbmOf p.groups c.1)
    hours := { s.hours with reports, reportsLost := s.hours.reportsLost.filter (· != part), poison := s.hours.poison.filter (fun k => !hbmOf p.groups k) }
    tlb := s.tlb.filter (fun t => t.part != part)
    faults := s.faults.filter (fun f => f.2.part != part)
    kernels := s.kernels.filter (fun k => k.2.part != part)
    queues := s.queues.filter (fun q => q.1 / 4096 != part)
    nest := s.nest.filter (fun n => n.2.owner != some part)
    equ := { s.equ with
      queues := s.equ.queues.filter (fun q => q.2.part != part)
      groups := s.equ.groups.filter (fun g => g.2.part != part) }
    parts := drop s.parts part }

/-- R380, R388, the security processor destroys a partition: its blocks stop at once; the rest follows once its engine
operations have completed, as this step runs again. -/
def execPartitionDestroy (part : Nat) (s : State) : Host.Outcome State Fault Refusal :=
  .next
    (match look s.parts part with
    | none => s
    | some p =>
      let s := stopPartition s part
      if partBusy s part then s else endPartition s part p)

/-! ## The second stage and the interface (R376, R377) -/

/-- R376, R377, the security processor edits the second stage: `addr` is the entry's offset in the partition's channel
groups (log 6). -/
def execSecondStageEdit (part addr : Nat) (entry : Dword) (command : List Byte) (s : State) : Host.Outcome State Fault Refusal :=
  .next
    (match partPlace s part addr with
    | some k =>
      if addr % 8 = 0 then
        let s := invalidate (storeLE s k 8 entry.toNat) part true
        { s with parts := upd s.parts part (fun p => { p with s2digest := sha384 (beBytes p.s2digest.toNat 48 ++ command) }) }
      else s
    | none => s)

/-- R377: the bytes of the table in walk order: a table's page, then the tables its entries name, in their order. -/
def tableBytes (s : State) (part table : Nat) : List Nat → List Byte
  | [] => []
  | l :: ls =>
    let page := (List.range 512).flatMap (fun i => match partPlace s part (table + 8 * i) with
      | some k => readBytes s k 8
      | none => zeroBytes 8)
    let below (i : Nat) : List Byte :=
      let e := dwordIn page (8 * i)
      if l ≠ 0 ∧ bitAt e 0 ∧ !entryReserved e ∧ field e 60 58 = 0 ∧ !bitAt e 1 ∧ !bitAt e 2 ∧ !bitAt e 6 then
        tableBytes s part (field e 51 12 * 4096) ls
      else []
    page ++ (List.range 512).flatMap below

/-- R377: the second-stage digest at lock. -/
def tableDigest (s : State) (part : Nat) : BitVec 384 :=
  sha384 (tableBytes s part (field (partReg s part 0x217) 51 12 * 4096) levels)

/-- R377: measurement 0x20 + p at lock. The manual names a meter configuration and describes none: a free value (log 8). -/
def lockBytes (s : State) (part : Nat) (p : Partition) : List Byte :=
  leBytes (maskOf p.sectors) 4 ++ leBytes (maskOf p.groups) 8 ++ leBytes (partReg s part 0x218).toNat 8 ++
    leBytes (Config.meterConfig part).toNat 8

/-- R377: the interface moves. -/
def setTdisp (s : State) (part : Nat) (t : Tdisp) : State := { s with parts := upd s.parts part (fun p => { p with tdisp := t }) }

/-- R377: the interface is locked: what the hypervisor may not change stands. -/
def Partition.locked (p : Partition) : Bool :=
  match p.tdisp with
  | .locked | .run => true
  | _ => false

/-! ## Answers to the outside -/

/-- The device answers. -/
def answer (s : State) (status : Nat) (bytes : List Byte) : State := { s with answers := s.answers ++ [{ status, bytes }] }

/-- R419: the mode lets the host reach partitions and measurements. -/
def hostMode : DeviceMode → Bool
  | .startUp | .service => false
  | _ => true

/-- R377: a measurement: its bytes; none where there is nothing to report. Status 2: reports marked lost (R416). -/
def measure (s : State) (index : Nat) : Option (List Byte) :=
  let part := index % 16
  match index / 16 with
  | 1 => (look s.parts part).map (fun p => beBytes p.s2digest.toNat 48)
  | 2 => (look s.parts part).map (fun p => p.lockMeasure)
  | 4 => (snapshot s part false).map Snapshot.bytes
  | 6 => (look s.hours.reports part).map Snapshot.bytes
  | _ => none

/-- R377, R387, an SPDM GET_MEASUREMENTS. The signature is not modelled: the answer is what it signs. An unsigned request
of a snapshot closes no epoch. -/
def execGetMeasurements (index : Nat) (signed : Bool) (s : State) : Host.Outcome State Fault Refusal :=
  .next
    (if !hostMode s.hours.mode then s
    else
      let s := if index / 16 = 4 then (if signed then closeEpoch s (index % 16) else closeMeters s (index % 16)) else s
      if index / 16 = 6 ∧ s.hours.reportsLost.contains (index % 16) then answer s 2 []
      else match measure s index with
        | some bs => answer s 0 bs
        | none => answer s 1 [])

/-- R377, a host request outside the IDE stream of an interface in RUN: Unsupported Request. -/
def execIdeStreamViolation (part : Nat) (s : State) : Host.Outcome State Fault Refusal :=
  .next
    (match look s.parts part with
    | some p => if p.tdisp = .run then answer s 3 [] else s
    | none => s)

/-! ## Accesses from outside (R371, R377, R378) -/

/-- The memory keys of the pieces of a device-memory range through a partition's second stage. -/
def stage2Pieces (s : State) (part : Nat) (n : Need) : List (Nat × Nat) → State × Option (List (Nat × Nat))
  | [] => (s, some [])
  | (a, k) :: ps =>
    let o := if a / 2 ^ 50 % 4 = 0 then stage2 s part a n else { s, res := .bad .translation }
    match o.res with
    | .bad _ => (o.s, none)
    | .ok key =>
      let (s, r) := stage2Pieces o.s part n ps
      (s, r.map (fun ks => (key, k) :: ks))

/-- R384: payload bytes that cross the host link. -/
def payload (s : State) (host : Bool) (part n : Nat) : State := if host then addMeter s part 12 n else s

/-- A read of `bytes` bytes, or a write, of a partition's device memory from outside, by the `host` or a peer. `bad`: the status
of a refusal. R384: a host's write carries its bytes whatever becomes of it, a read those it is answered with. -/
def outsideAccess (s : State) (host : Bool) (part gpa : Nat) (write : Option (List Byte)) (bytes bad : Nat) : State :=
  let n := match write with
    | some bs => bs.length
    | none => bytes
  let s := if write.isSome then payload s host part n else s
  match stage2Pieces s part (if write.isSome then needW else needR) (pieces gpa n (n / 4096 + 2)) with
  | (s, none) => answer s bad []
  | (s, some ks) =>
    match write with
    | some bs => answer (writePieces s ks bs) 0 []
    | none =>
      if ks.any (fun k => poisonedAt s k.1 k.2) then answer s 4 []
      else answer (payload s host part n) 0 (ks.flatMap (fun k => readBytes s k.1 k.2))

/-- R377, R384, a host request to a partition's BAR aperture, whose offset is a device-memory GPA (log 7). -/
def execHostBarRequest (part addr : Nat) (write : Option (List Byte)) (bytes : Nat) (s : State) : Host.Outcome State Fault Refusal :=
  .next
    (if (look s.parts part).isSome then outsideAccess s true part addr write bytes 1 else s)

/-- R378, an access of a peer: a refusal completes it with CODE 5. -/
def execPeerWindowAccess (part gpa : Nat) (write : Option (List Byte)) (bytes : Nat) (s : State) : Host.Outcome State Fault Refusal :=
  .next (if (look s.parts part).isSome then outsideAccess s false part (gpa % 2 ^ 46) write bytes 5 else answer s 5 [])

/-! ## Partition swap (R400) -/

/-- The blocks of a partition that are not saved. -/
def unsaved (s : State) (part : Nat) : List (Nat × Block) := s.blocks.filter (fun b => b.2.part == part && b.2.saved.isNone)

/-- R277: the partition's translations leave the caches of its sectors. -/
def dropTlb (s : State) (part : Nat) : State := { s with tlb := s.tlb.filter (fun t => t.part != part) }

/-- R400: the partition leaves its sectors. -/
def stashPartition (s : State) (part : Nat) (p : Partition) : State :=
  let x := stashOf s p.sectors
  let s := dropTlb (clearSectors s p.sectors) part
  { s with parts := upd s.parts part (fun p => { p with swappedOut := true, stash := some x }) }

/-- R400, the hypervisor swaps a partition out, once every block stands at its pre-emption point. An element of an engine is
one step here, so contexts stop between two. A block whose image cannot be written freezes, and the swap does not happen. -/
def execPartitionSwapOut (part : Nat) (s : State) : Host.Outcome State Fault Refusal :=
  .next
    (match look s.parts part with
    | none => s
    | some p =>
      if p.swappedOut || !(unsaved s part).all (fun b => savable s b.1 b.2) then s
      else
        let s := (unsaved s part).foldl (fun s b => saveBlock s b.1) s
        if (unsaved s part).isEmpty then stashPartition s part p else s)

/-- R368: the waits of a partition's expert queue entries do not count while it is away. -/
def shiftArrivals (s : State) (part away : Nat) : State :=
  let later (e : EqEntry) : EqEntry := { e with arrived := e.arrived + away }
  { s with equ := { s.equ with
      queues := s.equ.queues.map (fun q =>
        (q.1, if q.2.part = part then { q.2 with chip := q.2.chip.map later, spill := q.2.spill.map later } else q.2)) } }

/-- R348, R400: the queues of a partition that find no slot are unmapped. -/
def fitSlots (s : State) (part : Nat) : State :=
  (slotsHeld s part).foldl (fun s q => if slotsTaken s ≤ 64 then s else unmapQueue s part q) s

/-- R400, the hypervisor swaps a partition in onto its sectors, which no other partition holds. -/
def execPartitionSwapIn (part : Nat) (s : State) : Host.Outcome State Fault Refusal :=
  .next
    (match look s.parts part with
    | none => s
    | some p =>
      match p.stash with
      | none => s
      | some x =>
        if p.sectors.any (sectorHeld s) then s
        else
          let away := hubCycle s - x.since / 2
          let s := unstash { s with parts := put s.parts part { p with swappedOut := false, stash := none } } x
          fitSlots (shiftArrivals (dropTlb s part) part away) part)

end Sys2Proof.Machine
end

