-- ==== Sys2Proof/Machine/Sys.lean ====
section
/-! DEFINITION. System words (R206 to R211): `trap`, `tret`, the moves between the shadow bank and the interrupted group,
and the claims of Crow's Nest resources. -/

namespace Sys2Proof.Machine

/-- R207, `trap`: the word issues, at a marker if marked, and then traps. -/
def execTrap (f : Fixed) (n : BitVec 4) (s : State) : Host.Outcome State Fault Refusal :=
  word (.trap f n) s (fun s q =>
    if f.sw && q.ctx.pend != [] then stall s q .results
    else
      let s := countIssue s q (q.ctx.pc + 8)
      let s := if f.sw then passMarker s q.gid else s
      takeTrap s q { cause := 0x100 + n.toNat, write := false, addr := 0, word := q.ctx.pc })

/-- R208, `tret`. -/
def execTret (f : Fixed) (s : State) : Host.Outcome State Fault Refusal :=
  word (.tret f) s (fun s q =>
    if q.ctx.pend ≠ [] then stall s q .results
    else leaveHandler (passMarker (countIssue s q (q.ctx.pc + 8)) q.gid) q.gid q.g.core)

/-! ## Cross-bank moves (R209) -/

/-- The interrupted group as its next word would find it. -/
def ownIssuer (q : Issuer) : Issuer :=
  { q with ctx := q.g.ctx, hand := false, at_ := q.g.ctx.issued + 1, lanes := q.g.mask }

/-- R209: what a register of the interrupted group holds in lane `l`: zero where the home slot has no member. -/
def ownVal (s : State) (q : Issuer) (r : Reg) (l : Nat) : Dword :=
  let o := ownIssuer q
  match r with
  | .s n => readS o n.toNat
  | .p n => (readP o n.toNat &&& q.g.mask).setWidth 64
  | .tl n => readTl o n.toNat
  | .v n => if q.g.mask.getLsbD l then (readV s o n.toNat l).setWidth 64 else 0
  | _ => 0

/-- R209, `xrd`. -/
def execXrd (f : Fixed) (o : Ops4) (s : State) : Host.Outcome State Fault Refusal :=
  word (.xrd f o) s (fun s q =>
    finish
      (match o.d with
      | .hv _ => holdV s q o.d false (BitVec.allOnes 32) ((List.range 32).map (ownVal s q o.a)) 2
      | _ => holdS s q o.d (ownVal s q o.a 0) 2) q f)

/-- R209: a register of the interrupted group is written: every result held for it is discarded, and one still under way
will find nothing to write. -/
def ownPut (d : Dest) (mask : Word) (vals : List Dword) (g : Group) : Group :=
  let g := g.unhide d
  let pend := g.ctx.pend.map (fun p => { p with dests := p.dests.map (fun x => if x = d then .gone else x) })
  { g with ctx := { g.ctx with pend, held := insertHeld { dest := d, mask, vals, vis := .at 0, seq := g.ctx.issued } g.ctx.held } }

/-- R209, `xwr`. -/
def execXwr (f : Fixed) (o : Ops4) (s : State) : Host.Outcome State Fault Refusal :=
  word (.xwr f o) s (fun s q =>
    let all := BitVec.allOnes 32
    let x := scalarVal q o.a
    finish
      (modGroup s q.gid
        (match o.d with
        | .s n => ownPut (.s n.toNat) all [x]
        | .p n => ownPut (.p n.toNat) q.g.mask [(x.setWidth 32).setWidth 64]
        | .tl n => ownPut (.tl n.toNat) all [x &&& 0xF800FFFF000000FF#64]
        | .v n => ownPut (.v n.toNat) q.g.mask ((List.range 32).map (laneVal s q false o.a))
        | _ => id)) q f)

/-! ## Crow's Nest claims (R210) -/

/-- R210: the resource an operand names: banks are keys 0 to 15, units 16 to 19. -/
def nestKey (x : Dword) : Option Nat :=
  let n := field x 3 0
  if field x 63 9 ≠ 0 ∨ field x 7 4 ≠ 0 ∨ (bitAt x 8 ∧ 3 < n) then none
  else some (if bitAt x 8 then 16 + n else n)

/-- R408: a resource as a new owner finds it. -/
def Nest.fresh (owner : Nat) (now : Nat) : Nest :=
  { lo := 0, hi := 0, owner := some owner, counts := [0, 0, 0, 0], seq := 0, from_ := now }

/-- The owner of a resource. -/
def nestOwner (s : State) (k : Nat) : Option Nat := (look s.nest k).bind (·.owner)

/-- R210: one claim is decided: its group's pending result has the status. -/
def decideClaim (part : Nat) (s : State) (c : Claim) : State :=
  match nestOwner s c.key with
  | some p => setWork s c.id (.value (BitVec.allOnes 32) [[if p = part then 0 else 1]])
  | none => setWork { s with nest := put s.nest c.key (Nest.fresh part s.clock) } c.id (.value (BitVec.allOnes 32) [[0]])

/-- R210: a release. -/
def freeNest (s : State) (part k : Nat) : State := if nestOwner s k = some part then { s with nest := drop s.nest k } else s

/-- R210: the claims of the hub cycle are decided, lower partitions first; then what was given up since is free. DESIGN CHOICE
(log 40): the cycle in which claims compete is the hub's. -/
def decideClaims (s : State) : State :=
  if s.parts.all (fun p => p.2.claims.isEmpty) then s
  else
    let t := s.parts.foldl (fun t p => p.2.claims.foldl (decideClaim p.1) t) s
    let t := s.parts.foldl (fun t p => (p.2.claims.filter (·.freed)).foldl (fun t c => freeNest t p.1 c.key) t) t
    { t with parts := t.parts.map (fun p => (p.1, { p.2 with claims := [] })) }

/-- R210: claim `x` is decided after claim `c`: of a higher core, or of a younger group of its core. -/
def claimAfter (s : State) (c x : Claim) : Bool :=
  let order := (coreOf s c.core).order
  decide (c.core < x.core) || (c.core == x.core && match order.idxOf? c.group, order.idxOf? x.group with
    | some i, some j => decide (i < j)
    | _, _ => false)

/-- R210: a claim takes its place among its partition's. -/
def insertClaim (s : State) (c : Claim) : List Claim → List Claim
  | [] => [c]
  | x :: xs => if claimAfter s c x then c :: x :: xs else x :: insertClaim s c xs

/-- R210: a claim of resource `k` enters, under the number its pending result will have. -/
def enterClaim (s : State) (q : Issuer) (k : Nat) : State :=
  let c : Claim := { core := q.g.core, group := q.gid, key := k, id := s.fresh, freed := false }
  { s with parts := upd s.parts q.part (fun p => { p with claims := insertClaim s c p.claims }) }

/-- R210, `cnclaim`. DESIGN CHOICE (log 40): the manual gives no grant of these resources to a partition but the CNT feature (R112),
so none is denied one for want of permission, and status 2 answers a malformed operand alone. -/
def execCnclaim (f : Fixed) (o : Ops4) (s : State) : Host.Outcome State Fault Refusal :=
  word (.cnclaim f o) s (fun s q =>
    match nestKey (scalarVal q o.a) with
    | none => finish (pendS s q o.d 2) q f
    | some k => finish (addPending (enterClaim s q k) q (destsOf o.d 1) .claim) q f)

/-- R210: a release by a group whose claim of the resource is not decided yet takes effect after the decision. -/
def releaseNest (s : State) (q : Issuer) (k : Nat) : State :=
  let mine (c : Claim) : Bool := c.group == q.gid && c.key == k
  match look s.parts q.part with
  | some p =>
    if p.claims.any mine then
      { s with parts := put s.parts q.part { p with claims := p.claims.map (fun c => if mine c then { c with freed := true } else c) } }
    else freeNest s q.part k
  | none => freeNest s q.part k

/-- R210, `cnfree`. -/
def execCnfree (f : Fixed) (o : Ops4) (s : State) : Host.Outcome State Fault Refusal :=
  word (.cnfree f o) s (fun s q => match nestKey (scalarVal q o.a) with
    | none => finish s q f
    | some k => finish (releaseNest s q k) q f)

end Sys2Proof.Machine
end

