-- ==== Sys2Proof/Machine/Creg.lean ====
section
/-! DEFINITION. Control registers (R10, R13, R45 to R50, R103, R125, R383): what each reads as, which bits each reader may
write, and what a write does beside. -/

namespace Sys2Proof.Machine

/-! ## Bits -/

/-- The bits of `m` come from `new`, the others from `old`. -/
def mergeBits (m old new : Dword) : Dword := (old &&& ~~~m) ||| (new &&& m)

/-- R10, R103: the plain RW bits of a partition register, low and high dword, for a guest. -/
def guestBits (n : Nat) : Dword × Dword :=
  if n = 0x219 then (bitsOf 51 12, 0)
  else if n = 0x21A then (bitsOf 63 3 ||| bitsOf 0 0, 0)
  else if n = 0x21C then (bitsOf 63 32, bitsOf 63 12 ||| bitsOf 11 8 ||| bitsOf 1 0)
  else (0, 0)

/-- R10, R383: the same for the hypervisor, who takes HV as RW (R265, R347, R356, R376, R378, R382, R415). -/
def hyperBits (n : Nat) : Dword × Dword :=
  if 0x200 ≤ n ∧ n ≤ 0x20F then (bitsOf 63 56 ||| bitsOf 47 24, 0)
  else if n = 0x210 then (bitsOf 63 56 ||| bitsOf 34 32 ||| bitsOf 31 16, 0)
  else if n = 0x211 then (bitsOf 63 0, 0)
  else if n = 0x212 then (bitsOf 63 12, 0)
  else if n = 0x213 then (bitsOf 63 30, 0)
  else if n = 0x217 then (bitsOf 51 12, 0)
  else if n = 0x218 then (bitsOf 8 0, 0)
  else if n = 0x21D then (bitsOf 7 5, 0)
  else if 0x220 ≤ n ∧ n ≤ 0x22F then (bitsOf 63 63 ||| bitsOf 59 52, 0)
  else guestBits n

/-! ## Reading -/

/-- R408: the Crow's Nest resource a register is. -/
def cregNest (n : Nat) : Option Nat :=
  if 0x240 ≤ n ∧ n ≤ 0x24F then some (n - 0x240)
  else if 0x250 ≤ n ∧ n ≤ 0x253 then some (n - 0x250 + 16)
  else none

/-- R48: `c.gmask`. -/
def gmaskOf (g : Group) : Dword := if g.vec.isSome then 0xFFFFFFFF#64 else g.mask.setWidth 64

/-- R49: `c.mode`. -/
def modeOf (b : Block) : Dword :=
  BitVec.ofNat 64 (b.strict.toNat * 8 + b.n16.toNat * 4 + b.dbg.toNat * 2 + b.hzd.toNat)

/-- R50: `c.cap`, for a guest of the partition. -/
def capOf (s : State) (part : Nat) : Dword :=
  BitVec.ofNat 64 (s.hours.step.toNat * 2 ^ 56 + (partSectors s part).length * 2 ^ 48 + (partClusters s part).length * 2 ^ 40 +
    (partRows s part).length * 2 ^ 32 + s.hours.grade.toNat * 2 ^ 24)

/-- A list of numbers as a 128-bit mask: low and high dword. -/
def mask128 (xs : List Nat) : Dword × Dword := (BitVec.ofNat 64 (maskOf xs), BitVec.ofNat 64 (maskOf xs / 2 ^ 64))

/-- R242: `c.band`. -/
def bandOf (s : State) (b : Block) : Dword :=
  match b.band.bind (look s.bands) with
  | some d => BitVec.ofNat 64 (d.p * 2 ^ 32 + d.first)
  | none => 0

/-- R10, R383: a partition register as a guest reads it. -/
def partCreg (s : State) (part core n : Nat) : Dword × Dword :=
  match cregNest n with
  | some k => (match look s.nest k with
    | some x => if x.owner = some part then (x.lo, x.hi) else (0, 0)
    | none => (0, 0))
  | none =>
    if n = 0x214 then (partReg s part n &&& bitsOf 61 60, 0)
    else if n = 0x215 then
      (match look s.parts part with
        | some p => if p.invalidating then bitsOf 63 63 else 0
        | none => 0, 0)
    else if n = 0x216 ∨ n = 0x217 then (0, 0)
    else if n = 0x21D then (partReg s part n ||| BitVec.ofNat 64 (pointOf s (core / 4)), 0)
    else (partReg s part n, partRegHigh s part n)

/-- R45 to R50, R103: what a control register that is not per lane reads as: low and high dword. In a handler the
registers of a group are the interrupted group's (R391). -/
def cregNow (s : State) (q : Issuer) (n : Nat) : Dword × Dword :=
  match n with
  | 0x001 => (readFstat q, 0)
  | 0x004 => (gmaskOf q.g, 0)
  | 0x005 => (modeOf q.b, 0)
  | 0x006 => (q.g.cxp, 0)
  | 0x007 => (q.g.amerr, 0)
  | 0x008 => (q.g.vstrip, 0)
  | 0x009 => (bandOf s q.b, 0)
  | 0x010 => (capOf s q.part, 0)
  | 0x011 => (BitVec.ofNat 64 (maskOf (partSectors s q.part)), 0)
  | 0x012 => mask128 (partClusters s q.part)
  | 0x013 => mask128 (partRows s q.part)
  | 0x100 => ((coreOf s q.g.core).mestat, 0)
  | n => partCreg s q.part q.g.core n

/-- The destination under which the high dword's earlier value is held. -/
def highWas (n : Nat) : Dest := .cregWas (n + 0x100)

/-- R54, R125: what a `crd` of the register reads: a `cwr` at distance 1 does not show. -/
def cregRead (s : State) (q : Issuer) (n : Nat) : Dword × Dword :=
  let x := cregNow s q n
  (hidden q (.cregWas n) x.1, hidden q (highWas n) x.2)

/-- R47: `c.id` of the thread in lane `l`; zero where there is none. -/
def idOf (s : State) (q : Issuer) (l : Nat) : Dword :=
  let thread : Option Nat :=
    if q.g.vec.isSome then some 0
    else if q.g.mask.getLsbD l then ((look s.sets q.g.set).bind (fun a => look a.threads l)).map (·.pool)
    else none
  match thread with
  | some t => BitVec.ofNat 64 (q.b.index * 2 ^ 32 + q.g.core % 2 ^ 9 * 2 ^ 16 + t)
  | none => 0

/-- R46, R47: a lane of `c.rng`, which reads as every earlier word left it (R127), or of `c.id`. -/
def cregLane (s : State) (q : Issuer) (n l : Nat) : Dword := if n = 2 then (rngOf s q l).setWidth 64 else idOf s q l

/-- R384: a read of an HBM meter settles it; nothing is counted while the partition is swapped out (R400). -/
def settleFor (s : State) (part n : Nat) : State :=
  if (n = 0x23A ∨ n = 0x23B) ∧ stashedPart s part = false then settleMeters s part else s

/-- R384: what comes before a `crd`'s read. -/
def beforeRead (s : State) (q : Issuer) (n : Nat) : State := settleFor s q.part n

/-- The second register of a pair. -/
def nextReg (r : Reg) : Reg :=
  match r with
  | .s n => .s (n + 1)
  | .h n => .h (n + 1)
  | r => r

/-- R125, `crd`. -/
def crdAct (f : Fixed) (d : Reg) (num : BitVec 25) (s : State) (q : Issuer) : State :=
  let n := num.toNat
  match cregForm n with
  | some .lane32 => finish (holdV s q d false (active q f) ((List.range 32).map (cregLane s q n)) 2) q f
  | some .lane64 => finish (holdV s q d (!isAc d) (active q f) ((List.range 32).map (cregLane s q n)) 2) q f
  | some .pair128 =>
    let x := cregRead s q n
    finish (holdS (holdS s q d x.1 2) q (nextReg d) x.2 2) q f
  | _ =>
    let s := beforeRead s q n
    finish (holdS s q d (cregRead s q n).1 2) q f

/-- R125, `crd`. -/
def execCrd (f : Fixed) (d : Reg) (num : BitVec 25) (s : State) : Host.Outcome State Fault Refusal :=
  word (.crd f d num) s (crdAct f d num)

/-! ## Writing -/

/-- R408, R410: the bits of a resource are written; counting and the sequence begin anew when EN rises. -/
def Nest.write (x : Nest) (lo hi : Dword) (now : Nat) : Nest :=
  let hi := hi &&& (bitsOf 63 12 ||| bitsOf 11 8)
  if bitAt lo 63 && !bitAt x.lo 63 then { x with lo, hi, counts := [0, 0, 0, 0], seq := 0, from_ := now } else { x with lo, hi }

/-- R408: a guest's write of a resource, which takes effect where its partition holds it. -/
def guestNest (s : State) (part k : Nat) (lo hi : Dword) : State :=
  match look s.nest k with
  | some x => if x.owner = some part then { s with nest := put s.nest k (x.write lo hi s.clock) } else s
  | none => s

/-- R383, R408: the hypervisor's write of a resource, which claims it for the block's partition. -/
def hyperNest (s : State) (part k : Nat) (lo hi : Dword) : State :=
  let x := match look s.nest k with
    | some x => if x.owner = some part then x else Nest.fresh part s.clock
    | none => Nest.fresh part s.clock
  { s with nest := put s.nest k (x.write lo hi s.clock) }

/-- R379: a write of `c.xlres`. -/
def writeXlres (s : State) (part : Nat) (v : Dword) : State :=
  match field v 63 62 with
  | 1 => retryAnswer s part (field v 15 0)
  | 2 => failAnswer s part (field v 15 0)
  | _ => s

/-- R359, R375, R379, R404: a write of a partition register that is a command; the others keep their writable bits. -/
def writePart (s : State) (part n : Nat) (m : Dword × Dword) (lo hi : Dword) : State :=
  if n = 0x214 then writeEqload s part lo
  else if n = 0x215 then (if bitAt lo 0 then invalidate s part false else s)
  else if n = 0x216 then writeXlres s part lo
  else if n = 0x21B then debugWrite s part lo.toNat
  else
    let s := setPartReg s part n (mergeBits m.1 (partReg s part n) lo)
    setPartRegHigh s part n (mergeBits m.2 (partRegHigh s part n) hi)

/-- R115: the write commands something beyond the register: `c.eqload` (R359), `c.tlbinv` with INV = 1 (R375),
`c.xlres` (R379), `c.dbgcmd` (R404). -/
def commands (n : Nat) (lo : Dword) : Bool := n == 0x214 || n == 0x215 && bitAt lo 0 || n == 0x216 || n == 0x21B

/-- R115, R161: a command is ordered after the group's earlier accesses. -/
def beforeWrite (s : State) (q : Issuer) (n : Nat) (lo : Dword) : State :=
  if commands n lo then releaseNow s q.gid else s

/-- R10, R125: what a `cwr` changes, registers of a lane and `c.fstat` aside. -/
def cregWrite (s : State) (q : Issuer) (n : Nat) (lo hi : Dword) : State :=
  match n with
  | 0x006 => modGroup s q.gid (fun g => { g with cxp := mergeBits cxpBits g.cxp lo })
  | 0x007 => modGroup s q.gid (fun g => { g with amerr := g.amerr &&& ~~~(lo &&& amerrBits) })
  | 0x008 => modGroup s q.gid (fun g => { g with vstrip := mergeBits vstripBits g.vstrip lo })
  | 0x100 =>
    let c := coreOf s q.g.core
    setCore s q.g.core { c with mestat := c.mestat &&& ~~~(lo &&& bitsOf 6 0) }
  | n =>
    if n < 0x200 then s
    else match cregNest n with
      | some k => guestNest s q.part k lo hi
      | none => writePart s q.part n (guestBits n) lo hi

/-- R46, R125, R127: a `cwr` of `c.rng`, which shows at once; `c.id` is read only. -/
def cregWriteLanes (s : State) (q : Issuer) (f : Fixed) (n : Nat) (a : Reg) : State :=
  if n = 2 then setRng s q (active q f &&& rngLanes q) (fun l => (laneVal s q false a l).setWidth 32) else s

/-- R125, R126: `cwr`. L = 2: the register's earlier value shows at distance 1, c.rng aside (R127). -/
def cwrAct (f : Fixed) (a : Reg) (num : BitVec 25) (s : State) (q : Issuer) : State :=
  let n := num.toNat
  let x := scalarVal q a
  match cregForm n with
  | some .lane32 => finish (cregWriteLanes s q f n a) q f
  | some .lane64 => finish s q f
  | form =>
    if n = 0x001 then finish (hold s q .flagsClear (BitVec.allOnes 32) [x &&& fstatBits] 2) q f
    else
      let all := BitVec.allOnes 32
      let was := cregNow s q n
      let s := cregWrite (beforeWrite s q n x) q n x (scalarNext q a)
      let s := hold s q (.cregWas n) all [was.1] 2
      let s := if form = some .pair128 then hold s q (highWas n) all [was.2] 2 else s
      finish s q f

/-- R125, `cwr`. -/
def execCwr (f : Fixed) (a : Reg) (num : BitVec 25) (s : State) : Host.Outcome State Fault Refusal :=
  word (.cwr f a num) s (cwrAct f a num)

/-! ## The hypervisor's page (R383) -/

/-- R377: registers that may not change while the interface is locked. -/
def lockedReg (n : Nat) : Bool := n == 0x217 || n == 0x218

/-- R383: a whole write of a register. -/
def hyperWrite (s : State) (part n : Nat) (lo hi : Dword) : State :=
  match cregNest n with
  | some k => hyperNest s part k lo hi
  | none => writePart s part n (hyperBits n) lo hi

/-- R382, R383: the hypervisor's writes in the hub cycle take effect, oldest first. -/
def settleHyper (s : State) (part : Nat) : State :=
  match look s.parts part with
  | none => s
  | some p =>
    if p.hyper = [] then s
    else p.hyper.foldl (fun s w => hyperWrite s part w.1 w.2.1 w.2.2) { s with parts := put s.parts part { p with hyper := [] } }

/-- R377, R383, a TDISP request: lock, then start; stop from any state. What is measured at lock is what the registers come to
hold with the hypervisor's writes of the hub cycle. -/
def execTdispRequest (part : Nat) (wanted : Tdisp) (s : State) : Host.Outcome State Fault Refusal :=
  .next
    (match look s.parts part with
    | none => s
    | some p =>
      match p.tdisp, wanted with
      | .unlocked, .locked =>
        let due := settleHyper s part
        { s with parts := put s.parts part { p with tdisp := .locked, s2digest := tableDigest due part, lockMeasure := lockBytes due part p } }
      | .locked, .run => setTdisp s part .run
      | _, .unlocked => setTdisp s part .unlocked
      | _, _ => s)

/-- R390: traps of the hub cycles to come find `c.trapvec` as it stands. -/
def settleTrapvec (s : State) (part : Nat) : State :=
  let v := partReg s part 0x21A
  match look s.parts part with
  | some p => if p.trapvec = v then s else { s with parts := put s.parts part { p with trapvec := v } }
  | none => s

/-- R408: what a resource's register holds for the hypervisor. -/
def hyperReadNest (s : State) (k : Nat) : Dword × Dword := ((look s.nest k).map (fun x => (x.lo, x.hi))).getD (0, 0)

/-- R383: a register as it stands, its WO fields zero (R10), with the hypervisor's own writes. -/
def hyperRead (s : State) (part n : Nat) : Dword × Dword :=
  let t := settleHyper s part
  match cregNest n with
  | some k => hyperReadNest t k
  | none => if n = 0x217 ∨ n = 0x21D then (partReg t part n, 0) else partCreg t part 0 n

/-- R13, R383: a dword's write: a 128-bit register changes at the write of its high dword. It waits for the hub cycle to
end. -/
def hyperDword (s : State) (part n : Nat) (high : Bool) (v : Dword) (p : Partition) : State :=
  let due (p : Partition) (lo hi : Dword) : State := { s with parts := put s.parts part { p with hyper := p.hyper ++ [(n, lo, hi)] } }
  if cregForm n = some .pair128 then
    if high then due { p with staged := drop p.staged n } ((look p.staged n).getD (hyperRead s part n).1) v
    else { s with parts := put s.parts part { p with staged := put p.staged n v } }
  else if high then s
  else due p v 0

/-- R376, R377: the root of the second stage is written only while the interface is unlocked. -/
def rootHeld (n : Nat) (p : Partition) : Bool := n == 0x217 && decide (p.tdisp ≠ .unlocked)

/-- R376, R377, R383, a write through the hypervisor register page. -/
def execHypervisorRegisterWrite (part num : Nat) (high : Bool) (value : Dword) (s : State) : Host.Outcome State Fault Refusal :=
  .next
    (match look s.parts part with
    | none => s
    | some p =>
      if num < 0x200 ∨ (cregForm num).isNone then s
      else if lockedReg num ∧ p.locked then setTdisp s part .error
      else if rootHeld num p then s
      else hyperDword s part num high value p)

end Sys2Proof.Machine
end

