-- ==== Sys2Proof/Machine/Float.lean ====
section
/-! DEFINITION. Floating-point arithmetic (R133, R134) and the transcendental functions (R135). -/

namespace Sys2Proof.Machine

/-- R134, `add`. -/
def execAddFloat (f : Fixed) (o : FaluForm) (s : State) : Host.Outcome State Fault Refusal :=
  word (.addFloat f o) s (laneAct (.flt 0 o.ty o.rnd o.sat) f o.d o.a o.b o.c)

/-- R134, `sub`. -/
def execSubFloat (f : Fixed) (o : FaluForm) (s : State) : Host.Outcome State Fault Refusal :=
  word (.subFloat f o) s (laneAct (.flt 1 o.ty o.rnd o.sat) f o.d o.a o.b o.c)

/-- R134, `mul`. -/
def execMulFloat (f : Fixed) (o : FaluForm) (s : State) : Host.Outcome State Fault Refusal :=
  word (.mulFloat f o) s (laneAct (.flt 2 o.ty o.rnd o.sat) f o.d o.a o.b o.c)

/-- R134, `fma`. -/
def execFma (f : Fixed) (o : FaluForm) (s : State) : Host.Outcome State Fault Refusal :=
  word (.fma f o) s (laneAct (.flt 3 o.ty o.rnd o.sat) f o.d o.a o.b o.c)

/-- R134, `fnma`. -/
def execFnma (f : Fixed) (o : FaluForm) (s : State) : Host.Outcome State Fault Refusal :=
  word (.fnma f o) s (laneAct (.flt 4 o.ty o.rnd o.sat) f o.d o.a o.b o.c)

/-- R134, `min`. -/
def execMinFloat (f : Fixed) (o : FaluForm) (s : State) : Host.Outcome State Fault Refusal :=
  word (.minFloat f o) s (laneAct (.flt 5 o.ty o.rnd o.sat) f o.d o.a o.b o.c)

/-- R134, `max`. -/
def execMaxFloat (f : Fixed) (o : FaluForm) (s : State) : Host.Outcome State Fault Refusal :=
  word (.maxFloat f o) s (laneAct (.flt 6 o.ty o.rnd o.sat) f o.d o.a o.b o.c)

/-- R134, `abs`. -/
def execAbsFloat (f : Fixed) (o : FaluForm) (s : State) : Host.Outcome State Fault Refusal :=
  word (.absFloat f o) s (laneAct (.flt 7 o.ty o.rnd o.sat) f o.d o.a o.b o.c)

/-- R134, `neg`. -/
def execNegFloat (f : Fixed) (o : FaluForm) (s : State) : Host.Outcome State Fault Refusal :=
  word (.negFloat f o) s (laneAct (.flt 8 o.ty o.rnd o.sat) f o.d o.a o.b o.c)

/-- R40, R135, `rcp`. -/
def execRcp (f : Fixed) (o : TrnForm) (s : State) : Host.Outcome State Fault Refusal :=
  word (.rcp f o) s (laneAct (.trn .rcp o.ty o.rnd) f o.d o.a .none .none)

/-- R40, R135, `rsqrt`. -/
def execRsqrt (f : Fixed) (o : TrnForm) (s : State) : Host.Outcome State Fault Refusal :=
  word (.rsqrt f o) s (laneAct (.trn .rsqrt o.ty o.rnd) f o.d o.a .none .none)

/-- R40, R135, `sqrt`. -/
def execSqrt (f : Fixed) (o : TrnForm) (s : State) : Host.Outcome State Fault Refusal :=
  word (.sqrt f o) s (laneAct (.trn .sqrt o.ty o.rnd) f o.d o.a .none .none)

/-- R40, R135, `exp2`. -/
def execExp2 (f : Fixed) (o : TrnForm) (s : State) : Host.Outcome State Fault Refusal :=
  word (.exp2 f o) s (laneAct (.trn .exp2 o.ty o.rnd) f o.d o.a .none .none)

/-- R40, R135, `log2`. -/
def execLog2 (f : Fixed) (o : TrnForm) (s : State) : Host.Outcome State Fault Refusal :=
  word (.log2 f o) s (laneAct (.trn .log2 o.ty o.rnd) f o.d o.a .none .none)

/-- R40, R135, `sinpi`. -/
def execSinpi (f : Fixed) (o : TrnForm) (s : State) : Host.Outcome State Fault Refusal :=
  word (.sinpi f o) s (laneAct (.trn .sinpi o.ty o.rnd) f o.d o.a .none .none)

/-- R40, R135, `cospi`. -/
def execCospi (f : Fixed) (o : TrnForm) (s : State) : Host.Outcome State Fault Refusal :=
  word (.cospi f o) s (laneAct (.trn .cospi o.ty o.rnd) f o.d o.a .none .none)

/-- R40, R135, `tanh`. -/
def execTanh (f : Fixed) (o : TrnForm) (s : State) : Host.Outcome State Fault Refusal :=
  word (.tanh f o) s (laneAct (.trn .tanh o.ty o.rnd) f o.d o.a .none .none)

end Sys2Proof.Machine
end

