-- ==== Sys2Proof/Machine/Hours.lean ====
section
/-! DEFINITION. Errors, islands, start-up, modes, checkpoints and links (R411 to R421). -/

namespace Sys2Proof.Machine

/-! ## Uncorrectable errors (R411, R413, R414) -/

/-- Adds a number to a rising list. -/
def addNum (n : Nat) : List Nat → List Nat
  | [] => [n]
  | x :: xs => if n < x then n :: x :: xs else if n = x then x :: xs else x :: addNum n xs

/-- R411: a 32-byte burst of HBM is poisoned. -/
def poisonBurst (s : State) (k : Nat) : State :=
  if isHbm k then { s with hours := { s.hours with poison := addNum (k / 32 * 32) s.hours.poison } } else s

/-- R414: a word of a cluster's OB or AM reads uncorrectable. -/
def spoilWord (s : State) (cluster w : Nat) : State :=
  if cluster < 96 then
    let c := clusterOf s cluster
    setCluster s cluster { c with bad := addNum w c.bad }
  else s

/-- R411: a word of the shadow store that holds what a saved block of a swapped-out partition left is poisoned. -/
def poisonSaved (s : State) (blk : Nat) : State :=
  match look s.blocks blk with
  | some b =>
    if stashedPart s b.part then modBlock s blk (fun b => { b with saved := b.saved.map (fun x => { x with poisoned := true }) }) else s
  | none => s

/-- R411, R414: a word of the shadow store that holds an OB or AM word of a swapped-out partition is poisoned. -/
def spoilStash (s : State) (part cluster w : Nat) : State :=
  let spoil (x : Stash) : Stash :=
    if clusterIn (((look s.parts part).map (·.sectors)).getD []) cluster then
      let c := (look x.clusters cluster).getD Cluster.init
      { x with clusters := put x.clusters cluster { c with bad := addNum w c.bad } }
    else x
  { s with parts := upd s.parts part (fun p => { p with stash := p.stash.map spoil }) }

/-- R411, R413, R414, an uncorrectable error. An error of the L2 poisons the burst it lies in. -/
def execUncorrectableError (site : ErrorSite) (s : State) : Host.Outcome State Fault Refusal :=
  .next
    (match site with
    | .blk b => (match look s.blocks b with
      | some x => if x.saved.isNone then killBlock s b 2 else s
      | none => s)
    | .ob c w => if w < 262144 then spoilWord s c w else s
    | .am c w => if w < amWords then spoilWord s c (amBad w) else s
    | .hbm k => poisonBurst s k
    | .l2 k => poisonBurst s k
    | .shadowBlk b => poisonSaved s b
    | .shadowOb p c w => if w < 262144 then spoilStash s p c w else s
    | .shadowAm p c w => if w < amWords then spoilStash s p c (amBad w) else s)

/-- R411: an array has corrected an error, which is counted and changes no result. -/
def countCorrected (s : State) (a : CodedArray) : State :=
  let n := ((s.hours.corrected.find? (fun x => x.1 = a)).map (·.2)).getD 0
  { s with hours := { s.hours with corrected := s.hours.corrected.filter (fun x => x.1 ≠ a) ++ [(a, n + 1)] } }

/-- R411: a scrub corrects what can be corrected, which changes no result. -/
def execHbmScrub (_pseudoChannel : Nat) (s : State) : Host.Outcome State Fault Refusal := .next s

/-! ## Islands (R415) -/

/-- R415: the sectors an island lies in: islands 0 to 95 are clusters, 96 to 103 hold twelve fabric rows each. -/
def islandSectors (i : Nat) : List Nat := if i < 96 then [i / 3] else (List.range 4).map (4 * (i - 96) + ·)

/-- R415: the point is no faster than the cap of any partition the island serves. -/
def pointAllowed (s : State) (i point : Nat) : Bool :=
  s.parts.all (fun p => p.2.stash.isSome || !(islandSectors i).any p.2.sectors.contains || decide (field (partReg s p.1 0x21D) 7 5 ≤ point))

/-- R415, the power controller moves an island, with the islands of every band it shares. -/
def execOperatingPointChange (island point : Nat) (s : State) : Host.Outcome State Fault Refusal :=
  let is := joinBands (s.bands.map (·.2)) [island] s.bands.length
  .next
    (if island < 104 ∧ point ≤ 7 ∧ is.all (fun i => pointAllowed s i point) then is.foldl (setPoint point) s else s)

/-- R415: the slowest MINPT of the partitions an island serves. -/
def islandCap (s : State) (i : Nat) : Nat :=
  s.parts.foldl (fun m p => if p.2.stash.isNone && (islandSectors i).any p.2.sectors.contains then max m (field (partReg s p.1 0x21D) 7 5) else m) 0

/-- R415: the power controller slows an island that a cap no longer allows, with the islands of every band it shares
(log 38). -/
def capIsland (s : State) (i : Nat) : State :=
  if pointOf s i < islandCap s i then
    (joinBands (s.bands.map (·.2)) [i] s.bands.length).foldl (setPoint (islandCap s i)) s
  else s

/-- R415: every island, where some partition has a cap. -/
def capIslands (s : State) : State :=
  if s.parts.all (fun p => field (partReg s p.1 0x21D) 7 5 == 0) then s else (List.range 104).foldl capIsland s

/-! ## Start-up (R416 to R419) -/

/-- R416: optional steps. -/
def stepOptional (n : Nat) : Bool := n == 6 || n == 10

/-- R416: a mandatory step with an alternative. -/
def stepHasAlt (n : Nat) : Bool := n == 2 || n == 4 || n == 5 || n == 8 || n == 9

/-- R417: bits of a step's entry. -/
def stepBegun : Byte := 0x01
def stepDone : Byte := 0x02
def stepFailed : Byte := 0x04
def stepAlt : Byte := 0x08

/-- R417: the entry of step `n`. -/
def stepEntry (s : State) (n : Nat) : Byte := s.hours.start.steps.getD (n - 1) 0

/-- R417: bits are set in the entry of step `n`. -/
def markStep (s : State) (n : Nat) (bits : Byte) : State :=
  { s with hours := { s.hours with
      start := { s.hours.start with steps := setAt s.hours.start.steps (n - 1) (stepEntry s n ||| bits) } } }

/-- R416 step 4, R418: the repair map in force. `alt`: its last record has failed, and every cluster and row that it names
is disabled instead (log 38). -/
def applyRepair (s : State) (alt : Bool) : State :=
  let last : List RepairRecord := if alt then s.hours.repair.getLast?.toList else []
  let good := if alt then s.hours.repair.dropLast else s.hours.repair
  let named (row : Bool) : List Nat := ((last.flatMap (·.remaps)).filter (fun m => m.row == row)).map (·.unit)
  let sorted (xs : List Nat) : List Nat := xs.foldl (fun xs n => addNum n xs) []
  { s with hours := { s.hours with
      clustersOff := sorted (s.hours.repair.flatMap (·.clusters) ++ named false)
      rowsOff := sorted (s.hours.repair.flatMap (·.rows) ++ named true)
      remaps := good.flatMap (·.remaps) } }

/-- R416: what a step leaves: `alt` where it took its alternative or was skipped. -/
def stepEffect (s : State) (n : Nat) (alt : Bool) : State :=
  match n with
  | 4 => applyRepair s alt
  | 6 => if alt then { s with hours := { s.hours with rowsOff := List.range 96 } } else s
  | 8 => { s with hours := { s.hours with reportsLost := if alt then List.range 16 else [] } }
  | 10 => { s with hours := { s.hours with portsDown := if alt then List.range 16 else [] } }
  | _ => s

/-- R416, R417, R419: start-up goes on after step `n`; after step 10 the mode is normal and the count is clear. -/
def nextStep (s : State) (n : Nat) : State :=
  if n < 10 then { s with hours := { s.hours with startStep := n + 1 } }
  else { s with hours := { s.hours with mode := .normal, startStep := 11, start := { s.hours.start with fails := 0 } } }

/-- R417, R419: the start ends in service mode and counts as failed. The step's entry is left not begun, so that the next
start does not count it once more. -/
def failStart (s : State) (n : Nat) : State :=
  { s with hours := { s.hours with
      mode := .service
      start := { steps := setAt s.hours.start.steps (n - 1) ((stepEntry s n ||| stepFailed) &&& ~~~stepBegun),
                 fails := s.hours.start.fails + 1 } } }

/-- R417: step `n` has failed, now or in an earlier start: it is skipped, takes its alternative, or ends the start. A skipped
step's entry reads done, so that the next start does not count it as failed. -/
def stepInstead (s : State) (n : Nat) (altOk : Bool) : State :=
  if stepOptional n ∨ (stepHasAlt n ∧ altOk) then
    nextStep (stepEffect (markStep s n (stepFailed ||| stepAlt ||| stepDone)) n true) n
  else failStart s n

/-- R416: the next start-up step is one to run. -/
def stepDue (s : State) : Bool := decide (s.hours.mode = .startUp) && decide (1 ≤ s.hours.startStep) && decide (s.hours.startStep ≤ 10)

/-- R416, R417: the next start-up step begins. -/
def beginStep (s : State) : State := if stepDue s then markStep s s.hours.startStep stepBegun else s

/-- R416, R417: the step that has begun ends, with what becomes of its work and of its alternative. -/
def endStep (s : State) (o : StepOutcome) : State :=
  let n := s.hours.startStep
  if !stepDue s then s
  else if stepEntry s n &&& stepFailed != 0 || !o.ok then stepInstead s n o.alt
  else nextStep (stepEffect (markStep s n stepDone) n false) n

/-- R416, R417: start-up goes on: its next step begins, or the one that has begun ends. -/
def startStep (s : State) (o : StepOutcome) : State :=
  if stepEntry s s.hours.startStep &&& stepBegun = 0 then beginStep s else endStep s o

/-- R417: an entry a start finds: begun and not done is failed; begun and done are cleared. -/
def foundEntry (b : Byte) : Byte :=
  (if b &&& stepBegun != 0 && b &&& stepDone == 0 then b ||| stepFailed else b) &&& ~~~(stepBegun ||| stepDone)

/-- R417: the record a start finds. -/
def foundRecord (r : StartRecord) : StartRecord :=
  let hung := r.steps.any (fun b => b &&& stepBegun != 0 && b &&& stepDone == 0)
  { steps := r.steps.map foundEntry, fails := if hung then r.fails + 1 else r.fails }

/-- R416, R419: the device as a reset leaves it: what is in flash, in the safe tier, and outside the device stays. R417:
after three failed starts the part stays in service mode. -/
def resetDevice (s : State) : State :=
  let r := foundRecord s.hours.start
  let h : Hours := { State.reset.hours with
    mode := if 3 ≤ r.fails then .service else .startUp, start := r, repair := s.hours.repair, step := s.hours.step, grade := s.hours.grade,
    checkpoint := s.hours.checkpoint, reports := s.hours.reports, refused := s.hours.refused }
  { State.reset with
    mem := s.mem.filter (fun c => isHost c.1 || decide (peerBase ≤ c.1)), hours := h, answers := s.answers, clock := s.clock,
    fresh := s.fresh, turns := s.turns, free := s.free }

/-- R416, R417, device reset, and the start-up steps whose outcomes are given; the next one has begun. A start that hangs in
a step is reset there. -/
def execDeviceReset (steps : List StepOutcome) (s : State) : Host.Outcome State Fault Refusal :=
  .next (steps.foldl (fun s o => beginStep (endStep s o)) (beginStep (resetDevice s)))

/-- R417, the management interface clears the failed and alternative bits. -/
def execStartRecordClear (s : State) : Host.Outcome State Fault Refusal :=
  .next
    { s with hours := { s.hours with
        start := { s.hours.start with steps := s.hours.start.steps.map (fun b => b &&& ~~~(stepFailed ||| stepAlt)) } } }

/-- R418, field service adds a record to the repair map. -/
def execRepairMapAdd (clusters : List Nat) (rows : RowsAndColumns) (s : State) : Host.Outcome State Fault Refusal :=
  .next { s with hours := { s.hours with
      repair := s.hours.repair ++ [{ clusters, rows := rows.off, remaps := rows.remaps }] } }

/-! ## Modes (R419) -/

/-- R419: a command to change the mode, refused where its condition does not hold. -/
def modeCommand (s : State) (ok : Bool) (m : DeviceMode) : State :=
  if ok then answer { s with hours := { s.hours with mode := m } } 0 [] else answer s 1 []

/-- R419, test mode is entered, from normal mode. -/
def execEnterTest (s : State) : Host.Outcome State Fault Refusal :=
  .next (modeCommand s (decide (s.hours.mode = .normal) && s.parts.isEmpty) .test)

/-- R419, test mode is left. -/
def execLeaveTest (s : State) : Host.Outcome State Fault Refusal :=
  .next (modeCommand s (decide (s.hours.mode = .test) && s.parts.isEmpty) .normal)

/-- R419, recovery mode is left. -/
def execLeaveRecovery (s : State) : Host.Outcome State Fault Refusal :=
  .next (modeCommand s (decide (s.hours.mode = .recovery)) .normal)

/-! ## Checkpoints (R420) -/

/-- R400: every partition is swapped out. -/
def allStashed (s : State) : Bool := s.parts.all (fun p => p.2.stash.isSome)

/-- R420: the digest of a channel group's memory. -/
def groupDigest (m : List Host.Cell) (g : Nat) : BitVec 384 := sha384 (readCells m (gib 16 * g) (gib 16))

def groupDigests (m : List Host.Cell) : List (BitVec 384) := (List.range 64).map (groupDigest m)

/-- R420: the 4 KiB units that read uncorrectable. -/
def badUnits (s : State) : List Nat := (s.hours.poison.map (· / 4096)).eraseDups

/-- R420, a checkpoint. Its record: the digests, and as its status the number of units written with a poison marker, whose
bytes count as zero (log 8). -/
def execCheckpoint (s : State) : Host.Outcome State Fault Refusal :=
  .next
    (if hostMode s.hours.mode && allStashed s then
      let poisoned := badUnits s
      let mem := s.mem.filter (fun c => isHbm c.1 && !poisoned.contains (c.1 / 4096))
      let digests := groupDigests mem
      answer { s with hours := { s.hours with checkpoint := some { mem, digests, poisoned } } } poisoned.length
        (digests.flatMap (fun d => beBytes d.toNat 48))
    else s)

/-- R420: the bursts of a unit. -/
def unitBursts (u : Nat) : List Nat := (List.range 128).map (fun i => 4096 * u + 32 * i)

/-- R419, R420: the modes in which a checkpoint is restored. -/
def restoreMode : DeviceMode → Bool
  | .normal | .recovery => true
  | _ => false

/-- R419, R420, a checkpoint is restored: recovery mode. A unit with a poison marker is poisoned again. Units that miss their
digests are not taken (log 8). -/
def execCheckpointRestore (s : State) : Host.Outcome State Fault Refusal :=
  .next
    (match s.hours.checkpoint with
    | none => s
    | some k =>
      if restoreMode s.hours.mode && allStashed s && decide (k.digests = groupDigests k.mem) then
        { s with
          mem := k.mem.foldl (fun m c => putZ m c.1 c.2) (s.mem.filter (fun c => !isHbm c.1))
          hours := { s.hours with
            mode := .recovery
            poison := (k.poisoned.flatMap unitBursts).foldl (fun xs b => addNum b xs) [] } }
      else s)

/-! ## Links (R421) -/

/-- R421: a key of a peer behind a link port. -/
def onPort (port k : Nat) : Bool := decide (peerBase ≤ k) && (k - peerBase) / 2 ^ 50 == port

/-- R421: a load or atomic is through with its accesses on a port. They complete with CODE 5, which a core's access has no
place for: what they read is a free value, drawn from `free` on, and they write nothing (log 32). -/
def Work.portGone (port free : Nat) (w : Work) : Work :=
  let lost (n l : Nat) : Nat × Nat := (l, lostValue free n l)
  match w with
  | .load n signed accs got far =>
    let on (a : Nat × Nat) : Bool := (accParts n far a).any (fun p => onPort port p.1)
    .load n signed (accs.filter (fun a => !on a)) (got ++ (accs.filter on).map (fun a => lost n a.1)) far
  | .atom op n uns accs got =>
    .atom op n uns (accs.filter (fun a => !onPort port a.key)) (got ++ (accs.filter (fun a => onPort port a.key)).map (fun a => lost n a.lane))
  | w => w

/-- R421: every outstanding access of a core on a port completes: a group's loads, atomics and queued stores. -/
def dropPort (s : State) (port : Nat) : State :=
  let ctx (c : Ctx) : Ctx := { c with pend := c.pend.map (fun p => { p with work := p.work.portGone port (s.free + 66 * p.id) }) }
  { s with
    groups := s.groups.map (fun e => (e.1, { e.2 with ctx := ctx e.2.ctx }))
    cores := s.cores.map (fun c => (c.1, { c.2 with
      storeQ := c.2.storeQ.filter (fun e => !onPort port e.key)
      shadow := { c.2.shadow with ctx := ctx c.2.shadow.ctx } }))
    free := s.free + 66 * s.fresh }

/-- R421: one of the global addresses lies behind a port. -/
def reachesPort (s : State) (part port : Nat) (as : List Nat) : Bool :=
  as.any (fun a => match (xlate s part a needR).res with
    | .ok k => onPort port k
    | .bad _ => false)

/-- The global addresses that element `e` of an engine operation accesses. -/
def elementAddrs (s : State) (o : EngOp) (e : Nat) : List Nat :=
  let ise (d : IseDesc) : List Nat :=
    let (m, a) := iseTarget s o.part d e
    [d.idx + e * (if d.wide then 8 else 4)] ++ (if m.met = .done then [a] else []) ++ (if d.denseLocal then [] else [d.dense + e * d.esz])
  match o.work with
  | .copy _ d => (if d.srcLocal then [] else [d.srcAt e]) ++ (if d.dstLocal then [] else [d.dstAt e])
  | .gath d => ise d
  | .scat d => ise d

/-- R421: whether an element is under way when the port goes down, which the manual leaves open (log 32). -/
def elementUnderWay (s : State) : Bool := decide (Config.freeNat s.free % 2 = 1)

/-- R421: the element that an engine context is about to carry out is under way on the port, and completes with CODE 5. -/
def dropElement (port : Nat) (s : State) (r : EngRef) : State :=
  match (engCtx s r).ops.find? (fun o => o.ended.isNone) with
  | none => s
  | some o =>
    if decide (o.next < o.elements) && o.wait.isNone && reachesPort s o.part port (elementAddrs s o o.next) && elementUnderWay s then
      if r.kind = 0 then copyStop (drawn s 1) r o o.next 5 else iseFail (drawn s 1) r o o.next 5
    else drawn s 1

/-- R296, R421: the same of a memory port of a band. -/
def dropPortElement (port first : Nat) (s : State) (i : Nat) : State :=
  match look s.bands first with
  | none => s
  | some b =>
    match b.cfg, b.run with
    | some c, some r => (match c.ports[i]? with
      | some e =>
        let n := (b.port i).pos
        let moves := if e.kind = 0 then mayLoad b c i e (r.stopped || sourcesHeld s b) else e.kind == 1 && !(b.chan (c.portPath i)).q.isEmpty
        if decide (n < e.spec.length) && moves && !bandFrozen s b && reachesPort s b.part port [(runSpec r e).at_ n] && elementUnderWay s then
          failElem (drawn s 1) first (if e.kind = 0 then b.setPort i { b.port i with pos := n + 1 } else b.nextLane c i e) c i e n 5
        else drawn s 1
      | none => s)
    | _, _ => s

/-- R421: what engines and bands have under way on a port. -/
def dropEngines (s : State) (port : Nat) : State :=
  let copies := s.copies.map (fun e => ({ kind := 0, unit := e.1 / 4, ctx := e.1 % 4 } : EngRef))
  let ises := s.ises.map (fun e => ({ kind := 1, unit := e.1 / 16, ctx := e.1 % 16 } : EngRef))
  let ports (b : Nat × Band) : List (Nat × Nat) := match b.2.cfg with
    | some c => (List.range c.ports.length).map (fun i => (b.1, i))
    | none => []
  (s.bands.flatMap ports).foldl (fun s x => dropPortElement port x.1 s x.2) ((copies ++ ises).foldl (dropElement port) s)

/-- R421, a link port goes down: what is outstanding on it completes. -/
def execLinkPortDown (port : Nat) (s : State) : Host.Outcome State Fault Refusal :=
  .next
    (if port < 16 then
      let s := dropPort (dropEngines s port) port
      { s with hours := { s.hours with portsDown := addNum port s.hours.portsDown } }
    else s)

/-- R421, a link port trains again. -/
def execLinkPortTrained (port : Nat) (s : State) : Host.Outcome State Fault Refusal :=
  .next { s with hours := { s.hours with portsDown := s.hours.portsDown.filter (· != port) } }

end Sys2Proof.Machine
end

