-- ==== Sys2Proof/Machine/Integer.lean ====
section
/-! DEFINITION. The sixteen integer operations in their four classes (R120 to R123). -/

namespace Sys2Proof.Machine

/-- R122: a scalar integer result. -/
def scalarInt (op : Nat) (ty : Ty) (sat : Bool) (imm : Option (BitVec 25)) (a b c : Dword) : Dword :=
  let r := intLane op ty sat imm a b c
  if ty.wide then r else if ty.signed then (r.setWidth 32).signExtend 64 else r

/-- R119 to R123: an integer word of operation `op`. -/
def intAct (op : Nat) (f : Fixed) (o : IntForm) (s : State) (q : Issuer) : State :=
  match o with
  | .salu ty d a b c sat =>
    finish (holdS s q d (scalarInt op ty sat none (scalarVal q a) (scalarVal q b) (scalarVal q c)) 1) q f
  | .salui ty d a imm sat => finish (holdS s q d (scalarInt op ty sat (some imm) (scalarVal q a) 0 0) 1) q f
  | .valu ty d a b c sat => laneAct (.int op ty sat none) f d a b c s q
  | .valui ty d a imm sat => laneAct (.int op ty sat (some imm)) f d a .none .none s q

/-- R120, R121, `add`: a + b. -/
def execAddInteger (f : Fixed) (o : IntForm) (s : State) : Host.Outcome State Fault Refusal :=
  word (.addInteger f o) s (intAct 0 f o)

/-- R120, R121, `sub`: a − b. -/
def execSubInteger (f : Fixed) (o : IntForm) (s : State) : Host.Outcome State Fault Refusal :=
  word (.subInteger f o) s (intAct 1 f o)

/-- R120, R121, `mul`: a × b. -/
def execMulInteger (f : Fixed) (o : IntForm) (s : State) : Host.Outcome State Fault Refusal :=
  word (.mulInteger f o) s (intAct 2 f o)

/-- R120, R121, `mulhi`: floor(a × b / 2^w). -/
def execMulhi (f : Fixed) (o : IntForm) (s : State) : Host.Outcome State Fault Refusal :=
  word (.mulhi f o) s (intAct 3 f o)

/-- R120, R121, `mad`: a × b + c. -/
def execMadInteger (f : Fixed) (o : IntForm) (s : State) : Host.Outcome State Fault Refusal :=
  word (.madInteger f o) s (intAct 4 f o)

/-- R120, R121, `and`. -/
def execAndInteger (f : Fixed) (o : IntForm) (s : State) : Host.Outcome State Fault Refusal :=
  word (.andInteger f o) s (intAct 5 f o)

/-- R120, R121, `or`. -/
def execOrInteger (f : Fixed) (o : IntForm) (s : State) : Host.Outcome State Fault Refusal :=
  word (.orInteger f o) s (intAct 6 f o)

/-- R120, R121, `xor`. -/
def execXorInteger (f : Fixed) (o : IntForm) (s : State) : Host.Outcome State Fault Refusal :=
  word (.xorInteger f o) s (intAct 7 f o)

/-- R120, R121, `shl`. -/
def execShl (f : Fixed) (o : IntForm) (s : State) : Host.Outcome State Fault Refusal :=
  word (.shl f o) s (intAct 8 f o)

/-- R120, R121, `shr`. -/
def execShr (f : Fixed) (o : IntForm) (s : State) : Host.Outcome State Fault Refusal :=
  word (.shr f o) s (intAct 9 f o)

/-- R120, R121, `sar`. -/
def execSar (f : Fixed) (o : IntForm) (s : State) : Host.Outcome State Fault Refusal :=
  word (.sar f o) s (intAct 10 f o)

/-- R120, R121, `min`. -/
def execMinInteger (f : Fixed) (o : IntForm) (s : State) : Host.Outcome State Fault Refusal :=
  word (.minInteger f o) s (intAct 11 f o)

/-- R120, R121, `max`. -/
def execMaxInteger (f : Fixed) (o : IntForm) (s : State) : Host.Outcome State Fault Refusal :=
  word (.maxInteger f o) s (intAct 12 f o)

/-- R120, R121, `abs`. -/
def execAbsInteger (f : Fixed) (o : IntForm) (s : State) : Host.Outcome State Fault Refusal :=
  word (.absInteger f o) s (intAct 13 f o)

/-- R120, R121, `mov`. -/
def execMovInteger (f : Fixed) (o : IntForm) (s : State) : Host.Outcome State Fault Refusal :=
  word (.movInteger f o) s (intAct 14 f o)

/-- R120, R121, `neg`. -/
def execNegInteger (f : Fixed) (o : IntForm) (s : State) : Host.Outcome State Fault Refusal :=
  word (.negInteger f o) s (intAct 15 f o)

end Sys2Proof.Machine
end

