-- ==== Sys2Proof/Machine/Limm.lean ====
section
/-! DEFINITION. `nop` (R104) and the long immediates (R124). -/

namespace Sys2Proof.Machine

/-- R124: writes a value that is the same in every lane: L is 1 for a scalar and 2 for a vector destination. -/
def immAct (f : Fixed) (d : Reg) (pair : Bool) (v : Nat → Dword) (s : State) (q : Issuer) : State :=
  let s := if d.scalar then holdS s q d (v 0) 1 else holdV s q d pair (active q f) ((List.range 32).map v) 2
  finish s q f

/-- R124: the value of `lih` over the old value of D. -/
def lihValue (imm : BitVec 35) (old : Dword) : Dword := BitVec.ofNat 64 (imm.toNat * 2 ^ 35 + old.toNat % 2 ^ 35)

/-- R104, `nop`. -/
def execNop (f : Fixed) (s : State) : Host.Outcome State Fault Refusal :=
  word (.nop f) s (fun s q => finish s q f)

/-- R124, `li`. -/
def execLi (f : Fixed) (d : Reg) (imm : BitVec 35) (s : State) : Host.Outcome State Fault Refusal :=
  word (.li f d imm) s (immAct f d false (fun _ => imm.signExtend 64))

/-- R124, `lih`. -/
def execLih (f : Fixed) (d : Reg) (imm : BitVec 35) (s : State) : Host.Outcome State Fault Refusal :=
  word (.lih f d imm) s (fun s q => immAct f d true (fun l => lihValue imm (laneVal s q true d l)) s q)

/-- R124, `li` to a pair. -/
def execLiPair (f : Fixed) (d : Reg) (imm : BitVec 35) (s : State) : Host.Outcome State Fault Refusal :=
  word (.liPair f d imm) s (immAct f d true (fun _ => imm.signExtend 64))

end Sys2Proof.Machine
end

