-- ==== Sys2Proof/Machine/Loader.lean ====
section
/-! DEFINITION. The loader (R334 to R340, R114): reading a code object, the checks it must pass, the translation of a
portable form, and what a loaded kernel leaves in memory. -/

namespace Sys2Proof.Machine

/-! ## The object (R334) -/

/-- R334: a section descriptor. -/
structure ObjSection where
  off : Nat
  size : Nat
  ver : Nat
  type : Nat
  ok : Bool
  deriving DecidableEq, Repr

/-- R334: a kernel table entry. -/
structure ObjKernel where
  header : Dword
  name : Nat
  fsec : Nat
  nsec : Nat
  ok : Bool
  deriving DecidableEq, Repr

/-- Bytes of an object. -/
def sliceOf (bs : List Byte) (off n : Nat) : List Byte := (bs.drop off).take n

def parseSection (bs : List Byte) (a : Nat) : ObjSection :=
  let x := dwordIn bs a
  let ver := field x 15 8
  let type := field x 7 0
  { off := field x 63 32, size := (dwordIn bs (a + 8)).toNat, ver, type,
    ok := field x 31 16 == 0 && decide (1 ≤ type) && decide (type ≤ 8) && (decide (ver < 3) || ver == 0xFF) }

def parseKernel (bs : List Byte) (a : Nat) : ObjKernel :=
  let y := dwordIn bs (a + 0x10)
  { header := dwordIn bs a, name := (dwordIn bs (a + 8)).toNat, fsec := field y 31 0, nsec := field y 47 32,
    ok := field y 63 48 == 0 && dwordIn bs (a + 0x18) == 0 }

/-- A checked object: its sections and kernels. -/
structure Obj where
  bytes : List Byte
  sections : List ObjSection
  kernels : List ObjKernel
  deriving DecidableEq, Repr

/-- R334, R337: an object's header, section table and kernel table. -/
def parseObj (bs : List Byte) : Option Obj :=
  let size := bs.length
  let nkern := field (dwordIn bs 0) 63 48
  let nsect := field (dwordIn bs 8) 31 0
  let stoff := field (dwordIn bs 0x10) 63 32
  let ktoff := field (dwordIn bs 0x10) 31 0
  if size < 64 ∨ field (dwordIn bs 0) 31 0 ≠ 0x424F4C43 ∨ field (dwordIn bs 0) 47 32 ≠ 1 ∨ nkern = 0 ∨ 4096 < nkern ∨
      !(sliceOf bs 0x20 32).all (· == 0) ∨ (dwordIn bs 0x18).toNat ≠ size ∨ size < stoff + 16 * nsect ∨
      size < ktoff + 32 * nkern ∨ crc32c (bs.drop 64) ≠ wordIn bs 0xC then none
  else
    let sections := (List.range nsect).map (fun i => parseSection bs (stoff + 16 * i))
    let kernels := (List.range nkern).map (fun i => parseKernel bs (ktoff + 32 * i))
    if sections.all (fun s => s.ok && decide (s.off + s.size ≤ size)) &&
        kernels.all (fun k => k.ok && decide (k.fsec + k.nsec ≤ nsect) && decide (k.name < size)) then
      some { bytes := bs, sections, kernels }
    else none

/-- The sections of a kernel. -/
def Obj.own (o : Obj) (k : ObjKernel) : List ObjSection := (o.sections.drop k.fsec).take k.nsec

/-- The bytes of a kernel's first section of a type and version. -/
def Obj.part (o : Obj) (k : ObjKernel) (type ver : Nat) : Option (List Byte) :=
  ((o.own k).find? (fun s => s.type == type && s.ver == ver)).map (fun s => sliceOf o.bytes s.off s.size)

/-- The bytes of a kernel's first section of a type, whatever its version. -/
def Obj.any (o : Obj) (k : ObjKernel) (type : Nat) : List Byte :=
  (((o.own k).find? (fun s => s.type == type)).map (fun s => sliceOf o.bytes s.off s.size)).getD []

/-! ## Safe-point tables (R336) -/

/-- R336: an entry as the table gives it. `off`: TOFF. `locs`: its descriptors. -/
structure ObjEntry where
  ord : Nat
  ver : Nat
  ep : Bool
  cold : Bool
  map : Option Nat
  off : Nat
  locs : List Dword
  ok : Bool
  deriving DecidableEq, Repr

/-- R336: entry `i` of a table, its descriptors from the location list `ls`. -/
def parseEntry (t ls : List Byte) (i : Nat) : ObjEntry :=
  let x := dwordIn t (16 * i)
  let y := dwordIn t (16 * i + 8)
  let isMap := bitAt x 20
  let loff := field y 31 0
  let n := if isMap then 2 * field y 47 32 else field y 47 32
  let locs := (List.range n).map (fun j => dwordIn ls (loff + 8 * j))
  { ord := field x 15 0, ver := field x 17 16, ep := bitAt x 18, cold := bitAt x 19,
    map := if isMap then some (field x 22 21) else none, off := field x 63 32, locs,
    ok := field x 31 23 == 0 && field y 63 48 == 0 && decide (field x 17 16 < 3) && (!isMap || decide (field x 22 21 < 3)) &&
      decide (loff + 8 * n ≤ ls.length) && locs.all (fun d => decide (field d 63 58 ≤ 17)) }

/-- R336: the entries of a kernel. -/
def Obj.entries (o : Obj) (k : ObjKernel) : List ObjEntry :=
  let t := o.any k 5
  (List.range (t.length / 16)).map (parseEntry t (o.any k 6))

/-- R82, R84: bits per lane and lanes of a location; none for the resident tokens of a channel, whose number is not in the
object. -/
def locShape (d : Dword) : Option (Nat × Nat) :=
  let l := locOf d
  let n := l.range.length
  match l.kind with
  | 1 => some (1, 32)
  | 2 | 3 | 6 | 7 | 10 | 12 => some (32, n)
  | 5 => match Reg.ofCode (BitVec.ofNat 9 (field d 57 49)) with
    | some (.p _) => some (1, 32)
    | _ => some (64, 1)
  | 8 | 13 => some (64, n)
  | 15 => some (32, 16)
  | 17 => none
  | _ => some (64, 1)

/-- R84: two locations pair. DESIGN CHOICE (log 30): the tokens of a channel pair with whole tokens, 16 lanes of 32 bits each. -/
def locsPair (t f : Dword) : Bool :=
  match locShape t, locShape f with
  | some x, some y => x == y
  | none, none => true
  | some x, none => x.1 == 32 && x.2 % 16 == 0
  | none, some y => y.1 == 32 && y.2 % 16 == 0

/-- R82, R84: the cells of storage a location is: registers by lane, half accumulators, bytes of local memory. `grp`: the
threads of a group of 32 share its scalars, as they do where a hop builds them (R263). -/
def locCells (grp : Bool) (d : Dword) : List (Nat × Nat × Nat) :=
  let l := locOf d
  let code := field d 57 49
  let thr (k : Nat) : Nat := if grp then k / 32 else k
  match l.kind with
  | 0 | 4 => [(l.kind, l.reg, thr l.lo)]
  | 1 => (List.range 32).map (fun i => (1, l.reg, 32 * thr l.lo + i))
  | 2 | 3 => l.range.map (fun k => (l.kind, if l.kind = 2 then l.reg else 0, k))
  | 5 | 9 => [(l.kind, code, 0)]
  | 6 => l.range.map (fun i => (6, l.reg, 2 * i))
  | 7 => l.range.map (fun i => (6, l.reg, 2 * i + 1))
  | 8 => l.range.flatMap (fun i => [(6, l.reg, 2 * i), (6, l.reg, 2 * i + 1)])
  | 10 => l.range.map (fun i => (10, 0, i))
  | 12 | 13 | 14 => l.cells.flatMap (fun c => (List.range c.2).map (fun i => (12, 0, c.1 + i)))
  | k => [(k, l.off, 0)]

/-- R82: the version a location belongs to. DESIGN CHOICE (log 52): a live list with a location of another is refused. -/
def locVersions (d : Dword) : List Nat :=
  match field d 63 58 with
  | 0 | 1 | 2 | 3 | 4 => [0]
  | 5 | 6 | 7 | 8 | 9 | 10 | 11 => [1]
  | 12 | 13 | 14 => [0, 1]
  | _ => [2]

/-- R82: a lane range names at most 32 lanes. DESIGN CHOICE (log 52): a list with a longer one is refused. -/
def locRangeOk (d : Dword) : Bool :=
  match field d 63 58 with
  | 2 | 3 | 6 | 7 | 8 | 10 | 12 | 13 =>
    let l := locOf d
    decide (l.lo ≤ l.hi) && decide (l.hi < l.lo + 32)
  | _ => true

/-- R83, R337: the ordinal is an equivalence point. DESIGN CHOICE (log 52): one of its entries has EP = 1, whichever. -/
def isPoint (es : List ObjEntry) (ord : Nat) : Bool := es.any (fun e => e.ord == ord && e.ep)

/-- R84, R337: a map is one of an equivalence point. It writes every cell of the target's live list once and none outside
it, reads every cell of the source's and none outside it, and pairs locations of one shape. -/
def mapOk (es : List ObjEntry) (e : ObjEntry) (t : Nat) : Bool :=
  let live (v : Nat) : Option ObjEntry := es.find? (fun x => x.map.isNone && x.ord == e.ord && x.ver == v)
  let ps := mapPairs e.locs
  match live t, live e.ver with
  | some to_, some from_ =>
    let wrote := ps.flatMap (fun p => locCells true p.1)
    let due := to_.locs.flatMap (locCells true)
    let read := ps.flatMap (fun p => locCells false p.2)
    let held := from_.locs.flatMap (locCells false)
    isPoint es e.ord && decide wrote.Nodup && wrote.all due.contains && due.all wrote.contains && read.all held.contains &&
      held.all read.contains && ps.all (fun p => locsPair p.1 p.2)
  | _, _ => false

/-! ## The portable form (R340) -/

/-- R340: a portable form. -/
structure Portable where
  nin : Nat
  nout : Nat
  ord : Nat
  /-- For each stream: the argument's index, and the six dwords of its specification after BASE. -/
  streams : List (Nat × List Dword)
  body : List Dword
  deriving DecidableEq, Repr

/-- R340: a body word names only ports, accumulators and s registers. -/
def portableWord (w : Dword) : Bool :=
  bodyWordTrap [] w == none && (fixedOf w).pred == 7 &&
    match (decode w).bind bodyOf with
    | some op => op.regs.all (fun r => match r with
      | .inp _ | .outp _ | .ac _ | .s _ | .none => true
      | _ => false)
    | none => false

/-- R340: reads a portable form; none where it breaks its limits. -/
def parsePortable (bs : List Byte) : Option Portable :=
  let h := dwordIn bs 0
  let nin := field h 3 0
  let nout := field h 6 4
  let nbody := field h 15 8
  let n := nin + nout
  let streams := (List.range n).map (fun j =>
    (field (dwordIn bs (16 + 64 * j)) 4 0, (List.range 6).map (fun i => dwordIn bs (16 + 64 * j + 8 + 8 * i))))
  let body := (List.range nbody).map (fun i => dwordIn bs (16 + 64 * n + 8 * i))
  if 8 < nin ∨ 4 < nout ∨ n = 0 ∨ nbody = 0 ∨ 48 < nbody ∨ bitAt h 7 ∨ field h 63 32 ≠ 0 ∨ dwordIn bs 8 ≠ 0 ∨
      bs.length < 16 + 64 * n + 8 * nbody ∨
      (List.range n).any (fun j => field (dwordIn bs (16 + 64 * j)) 63 5 != 0 || dwordIn bs (16 + 64 * j + 0x38) != 0) ∨
      !body.all portableWord then none
  else some { nin, nout, ord := field h 31 16, streams, body }

/-- The fixed fields of a marked word, and of the stop word at the loop head. -/
def markedF : Fixed := { sw := true, stop := false, pred := 7, sense := false }
def headF : Fixed := { sw := true, stop := true, pred := 7, sense := false }

/-- A scalar register that no body word names, the highest: it holds zero at the loop head, as at block start. -/
def scratchReg (ws : List Dword) : BitVec 6 :=
  let named (n : Nat) : Bool := ws.any (fun w => match (decode w).bind bodyOf with
    | some op => op.regs.contains (.s (BitVec.ofNat 6 n))
    | none => false)
  BitVec.ofNat 6 (((List.range 59).map (63 - ·)).find? (fun n => !named n) |>.getD 63)

/-- Loads a constant into a scalar register and stores it at a local address. -/
def storeConst (x : BitVec 6) (v : Dword) (a : Nat) : List Instr :=
  [.li markedF (.s x) (v.setWidth 35), .lih markedF (.s x) ((v >>> 35).setWidth 35),
    .st markedF { space := .l, ty := .i64, mode := .absolute, data := .s x, base := .none, off := BitVec.ofNat 21 a }]

/-- R340: the words that give a port its stream: its specification is built at local address `a`. -/
def streamSetup (x : BitVec 6) (a : Nat) (nin j : Nat) (st : Nat × List Dword) : List Instr :=
  [.ld markedF { space := .g, ty := .i64, mode := .scalar, data := .s x, base := .s 1, off := BitVec.ofNat 21 (8 * st.1) },
    .st markedF { space := .l, ty := .i64, mode := .absolute, data := .s x, base := .none, off := BitVec.ofNat 21 a }] ++
    st.2.zipIdx.flatMap (fun d => storeConst x d.1 (a + 8 + 8 * d.2)) ++
    [.li markedF (.s x) (BitVec.ofNat 35 a),
      if j < nin then .vsrc markedF { d := .inp (BitVec.ofNat 3 j), a := .s x, b := .none, c := .none }
      else .vsnk markedF { d := .outp (BitVec.ofNat 2 (j - nin)), a := .s x, b := .none, c := .none }]

/-- A word with SW as given. -/
def withSw (w : Dword) (sw : Bool) : Dword := (w &&& 0x7FFFFFFFFFFFFFFF#64) ||| (if sw then 0x8000000000000000#64 else 0)

/-- R340: the translated text of a portable form, whose streams are specified at local address `a` and then leave it zero;
and the offset of its loop head. One strip runs every element, e in lane e mod 32 (log 31). -/
def translate (p : Portable) (a : Nat) : List Dword × Nat :=
  let x := scratchReg p.body
  let setup := p.streams.zipIdx.flatMap (fun s => streamSetup x a p.nin s.2 s.1)
  let clear : List Instr := (List.range 7).flatMap (fun i => storeConst x 0 (a + 8 * i))
  let before := (setup ++ clear).map Instr.encode
  let head : List Instr := [.nop headF, .vstrip { markedF with sw := false } { d := .none, a := .s x, b := .none, c := .none }]
  let body := p.body.zipIdx.map (fun w => withSw w.1 (w.2 + 1 == p.body.length))
  let tail : List Instr := [.vdrain markedF { d := .none, a := .none, b := .none, c := .none }, .ret markedF (.s x)]
  (before ++ head.map Instr.encode ++ body ++ tail.map Instr.encode, 8 * before.length)

/-- R340: the live list the translator writes: the accumulators the body names, and the port positions. -/
def portableLive (p : Portable) : List Dword :=
  let ops := p.body.filterMap (fun w => (decode w).bind bodyOf)
  let names (r : Reg) : Bool := ops.any (fun o => o.regs.contains r)
  let desc (kind : Nat) (r : Reg) (hi : Nat) : Dword := BitVec.ofNat 64 (kind * 2 ^ 58 + r.code.toNat * 2 ^ 49 + hi * 2 ^ 29)
  ((List.range 8).filter (fun n => names (.ac (BitVec.ofNat 3 n)))).map (fun n => desc 8 (.ac (BitVec.ofNat 3 n)) 31) ++
    (List.range p.nin).map (fun n => desc 9 (.inp (BitVec.ofNat 3 n)) 0) ++
    (List.range p.nout).map (fun n => desc 9 (.outp (BitVec.ofNat 2 n)) 0)

/-! ## The checks (R337) -/

/-- The words of a text. -/
def textWords (bs : List Byte) : List Dword := (List.range (bs.length / 8)).map (fun i => dwordIn bs (8 * i))

/-- R335, R337: the header word. -/
def headerOk (h : Dword) : Bool :=
  let pref := [field h 63 62, field h 61 60, field h 59 58]
  let vers := [0, 1, 2].filter (headerHas h)
  field h 22 0 == 0 && !vers.isEmpty && (pref.take vers.length).all vers.contains && decide ((pref.take vers.length).Nodup) &&
    (pref.drop vers.length).all (· == 3) && (!headerN16 h || vers == [0]) && decide (headerLocal h ≤ 64 * 4096)

/-- R114, R337: in one text, a word has STOP exactly where an entry stands. R336: beside a spatial image, whose own stages its
entries name, a text has none (`staged`). -/
def stopsOk (es : List ObjEntry) (staged : Bool) (ver : Nat) (cold : Bool) (bs : List Byte) : Bool :=
  let at_ (off : Nat) : Bool := !staged && es.any (fun e => e.map.isNone && e.ver == ver && e.cold == cold && e.off == off)
  (textWords bs).zipIdx.all (fun w => (fixedOf w.1).stop == at_ (8 * w.2))

/-- A checked kernel, ready to install: its texts, entries and image. -/
structure Loadable where
  header : Dword
  scratch : Nat
  hot : List (Nat × List Byte)
  cold : List (Nat × List Byte)
  entries : List ObjEntry
  table : List Byte
  image : List Byte
  deriving DecidableEq, Repr

/-- R336: an entry's 16 bytes, with its descriptors from byte `loff` of the location list on. -/
def ObjEntry.bytes (e : ObjEntry) (loff : Nat) : List Byte :=
  leBytes (e.ord + 2 ^ 16 * e.ver + 2 ^ 18 * e.ep.toNat + 2 ^ 19 * e.cold.toNat + 2 ^ 32 * e.off) 8 ++ leBytes (loff + 2 ^ 32 * e.locs.length) 8

/-- R340: an entry that the translator's own takes the place of. -/
def ObjEntry.isHead (p : Portable) (e : ObjEntry) : Bool := e.map.isNone && e.ver == 1 && e.ord == p.ord

/-- R338, R340: the safe-point table and location list as they are installed: with the translator's entry `head` behind the
object's others, and its list behind theirs. -/
def tableWith (t ls : List Byte) (es : List ObjEntry) (p : Portable) (head : ObjEntry) : List Byte :=
  (es.zipIdx.filter (fun e => !e.1.isHead p)).flatMap (fun e => sliceOf t (16 * e.2) 16) ++ head.bytes ls.length ++ ls ++
    head.locs.flatMap dwordBytes

/-- R340: where the translated words build a specification: at the end of the window, which they leave as they found it, or
in scratch of their own above an empty one. -/
def specPlace (h : Dword) : Nat := headerLocal h - 64
def scratchOf (h : Dword) (translated : Bool) : Nat := if translated ∧ headerLocal h = 0 then 64 else 0

/-- R337: checks a kernel; what of it is installed. DESIGN CHOICE (log 52): an object whose live list
names a location of another version, or a range of more than 32 lanes, is refused too, and one with a STOP bit in VER 2 text
that stands beside an image. -/
def checkKernel (o : Obj) (k : ObjKernel) : Option Loadable :=
  let es := o.entries k
  let hot (v : Nat) : List Byte := (o.part k 1 v).getD []
  let cold (v : Nat) : List Byte := (o.part k 2 v).getD []
  let own (v : Nat) : Bool := !(hot v).isEmpty || !(cold v).isEmpty
  let form := o.any k 3
  let image := o.any k 4
  let trans := headerHas k.header 1 && !own 1 && !form.isEmpty
  let present (v : Nat) : Bool := !headerHas k.header v ||
    (match v with
    | 0 => own 0
    | 1 => own 1 || trans
    | _ => own 2 || !image.isEmpty)
  let staged (v : Nat) : Bool := v == 2 && !image.isEmpty
  let aligned (bs : List Byte) : Bool := bs.length % 8 == 0
  let parsed := parsePortable form
  let pf := if trans then parsed else none
  let spec := specPlace k.header
  let (es', table) : List ObjEntry × List Byte := match pf with
    | some p =>
      let head : ObjEntry :=
        { ord := p.ord, ver := 1, ep := isPoint es p.ord, cold := false, map := none, off := (translate p spec).2,
          locs := portableLive p, ok := true }
      (es.filter (fun e => !e.isHead p) ++ [head], tableWith (o.any k 5) (o.any k 6) es p head)
    | none => (es, o.any k 5 ++ o.any k 6)
  if headerOk k.header && present 0 && present 1 && present 2 && (form.isEmpty || parsed.isSome) &&
      [0, 1, 2].all (fun v => aligned (hot v) && aligned (cold v)) && es.all (·.ok) &&
      es.all (fun e => e.locs.all locRangeOk) &&
      (es.filter (·.ep)).length == field k.header 52 45 &&
      es'.all (fun e => !trans || e.map.isSome || e.ver != 1 || some e.ord == pf.map (·.ord)) &&
      [0, 1, 2].all (fun v => (trans && v == 1) || (stopsOk es (staged v) v false (hot v) && stopsOk es (staged v) v true (cold v))) &&
      es'.all (fun e => e.map.isSome || staged e.ver || (trans && e.ver == 1) ||
        decide (e.off + 8 ≤ (if e.cold then cold e.ver else hot e.ver).length) && e.off % 8 == 0) &&
      es'.all (fun e => match e.map with
        | some t => mapOk es' e t
        | none => e.locs.all (fun d => (locVersions d).contains e.ver)) then
    some
      { header := k.header, scratch := scratchOf k.header trans,
        hot := [(0, hot 0), (1, match pf with
          | some p => (translate p spec).1.flatMap dwordBytes
          | none => hot 1), (2, hot 2)],
        cold := [(0, cold 0), (1, if trans then [] else cold 1), (2, cold 2)], entries := es',
        table, image }
  else none

/-! ## Installing (R338) -/

/-- R338: where the loader puts a version's hot text. -/
def hotBase (p : KernelPlace) : Nat → Nat
  | 0 => p.hotThr
  | 1 => p.hotVec
  | _ => p.hotSpa

/-- R338, R339: the cold texts follow each other from the cold base. -/
def coldBase (l : Loadable) (p : KernelPlace) (v : Nat) : Nat :=
  p.cold + ((l.cold.filter (fun c => decide (c.1 < v))).map (fun c => c.2.length)).sum

/-- The texts of a list that hold words, where they stand. -/
def placedTexts (bases : Nat → Nat) (ts : List (Nat × List Byte)) : Tab Text :=
  (ts.filter (fun t => !t.2.isEmpty)).foldl (fun m t => put m t.1 { base := bases t.1, size := t.2.length }) []

/-- R338: the kernel as the hub knows it. -/
def loadedKernel (part : Nat) (l : Loadable) (p : KernelPlace) : Kernel :=
  { part, header := l.header, text := placedTexts (hotBase p) l.hot, coldText := placedTexts (coldBase l p) l.cold,
    coldHost := p.cold, cache := p.cache, granules := [], table := p.table,
    image := if l.image.isEmpty then 0 else p.image,
    safe := l.entries.map (fun e =>
      { ord := e.ord, ver := e.ver, ep := isPoint l.entries e.ord, map := e.map, locs := e.locs,
        addr := BitVec.ofNat 64 (if e.ver = 2 then e.off else (if e.cold then coldBase l p e.ver else hotBase p e.ver) + e.off) }), scratch := l.scratch }

/-- R338: the kernel descriptor. -/
def kernelDescriptor (l : Loadable) (p : KernelPlace) : List Byte :=
  let hot (v : Nat) : Nat := if (l.hot.any (fun t => t.1 == v && !t.2.isEmpty)) then hotBase p v else 0
  let cold := l.cold.any (fun t => !t.2.isEmpty)
  dwordBytes l.header ++ leBytes (hot 0) 8 ++ leBytes (hot 1) 8 ++ leBytes (hot 2) 8 ++ leBytes (if cold then p.cold else 0) 8 ++
    leBytes p.cache 8 ++ leBytes p.table 8 ++ leBytes (if l.image.isEmpty then 0 else p.image) 8

/-- What a kernel's installing writes: (address, bytes). -/
def kernelWrites (l : Loadable) (p : KernelPlace) : List (Nat × List Byte) :=
  ((p.handle, kernelDescriptor l p) :: l.hot.map (fun t => (hotBase p t.1, t.2)) ++ l.cold.map (fun t => (coldBase l p t.1, t.2)) ++
    [(p.table, l.table), (p.image, l.image)]).filter (fun w => !w.2.isEmpty)

/-- Writes them all, or answers none where memory refuses one. -/
def writeAll (s : State) (part : Nat) : List (Nat × List Byte) → Option State
  | [] => some s
  | (a, bs) :: ws =>
    let o := writeVirtual s part a bs
    match o.bad with
    | some _ => none
    | none => writeAll o.s part ws

/-- Installs kernels at their places. -/
def installAll (s : State) (part : Nat) : List (Loadable × KernelPlace) → Option State
  | [] => some s
  | (l, p) :: ks =>
    (writeAll s part (kernelWrites l p)).bind (fun s =>
      installAll { s with kernels := put s.kernels (kernelKey part p.handle) (loadedKernel part l p) } part ks)

/-- R334 to R340: loads the object at an address; none where it is refused. DESIGN CHOICE (log 41): the places given for it are
used as they are; the loader does not check their alignment (R79). -/
def loadObject (s : State) (part addr : Nat) (places : List KernelPlace) : Option State :=
  let h := readVirtual s part addr 64
  let o := readVirtual h.s part addr (dwordIn h.bytes 0x18).toNat
  if h.bad.isSome || o.bad.isSome then none
  else match parseObj o.bytes with
    | none => none
    | some obj =>
      if places.length < obj.kernels.length then none
      else (allSome (obj.kernels.map (checkKernel obj))).bind (fun ls => installAll o.s part (ls.zip places))

/-- R337, R338: the loader loads a code object into a partition, or refuses it and installs nothing of it. -/
def execCodeObjectLoad (part addr : Nat) (places : List KernelPlace) (s : State) : Host.Outcome State Fault Refusal :=
  .next
    (if (look s.parts part).isNone then s
    else match loadObject s part addr places with
      | some t => { t with answers := t.answers ++ [{ status := 0, bytes := [] }] }
      | none => { s with answers := s.answers ++ [{ status := 1, bytes := [] }] })

end Sys2Proof.Machine
end

