-- ==== Sys2Proof/Machine/Matrix.lean ====
section
/-! DEFINITION. The matrix engine: tile registers (R51, R215 to R217), passes from their issue to their retirement
(R218 to R225, R273, R274, R385, R414), and the exact sums of R36 to R38. -/

namespace Sys2Proof.Machine

/-! ## Tiles (R51, R214) -/

/-- R51: the high half of a tile register after device reset. -/
def tileReset : Dword := 0x8000000000000000#64

def tileLo (c : Cluster) (n : Nat) : Dword := getZ c.tiles (2 * n)
def tileHi (c : Cluster) (n : Nat) : Dword := (look c.tiles (2 * n + 1)).getD tileReset

/-- Writes a tile register; reset values are not listed. -/
def setTile (c : Cluster) (n : Nat) (t : Tile) : Cluster :=
  let ts := putZ c.tiles (2 * n) t.lo
  { c with tiles := if t.hi = tileReset then drop ts (2 * n + 1) else put ts (2 * n + 1) t.hi }

def Tile.fmtCode (t : Tile) : Nat := field t.lo 4 0
def Tile.blen (t : Tile) : Nat := field t.lo 31 24
def Tile.k (t : Tile) : Nat := field t.lo 43 32 + 1
def Tile.rows (t : Tile) : Nat := field t.lo 55 44 + 1
def Tile.base (t : Tile) : Nat := field t.lo 63 56 + field t.hi 11 0 * 256
def Tile.scoff (t : Tile) : Nat := field t.hi 31 12
def Tile.tau (t : Tile) : Int := sextNat (field t.hi 39 32) 8
def Tile.mu (t : Tile) : Nat := field t.hi 63 40

/-- R99: the format of a code. -/
def Tile.fmt (t : Tile) : Fmt := (Fmt.ofCode (BitVec.ofNat 5 t.fmtCode)).getD .f32

/-- R214: 32-element groups of a row. -/
def Tile.blocks (t : Tile) : Nat := (t.k + 31) / 32
/-- R214: bytes of a row. -/
def Tile.rowBytes (t : Tile) : Nat := 4 * fmtWidth t.fmt * t.blocks
/-- R214: bytes of a scale or header. -/
def Tile.scaleBytes (t : Tile) : Nat := if t.fmt.dx then 2 else 1
def Tile.blocked (t : Tile) : Bool := t.fmt.mx || t.fmt.dx

/-- R216: the descriptor is accepted. -/
def Tile.ok (t : Tile) : Bool :=
  decide (t.fmtCode < 0x1C) && t.fmtCode != 0x0A && t.blen == (if t.blocked then 32 else 0) && bitAt t.hi 63 &&
    field t.lo 23 5 == 0 && t.base % 16 == 0 && t.scoff % 16 == 0 && decide (t.base + t.rows * t.rowBytes ≤ mib 1) &&
    (!t.blocked || decide (t.scoff + t.rows * t.blocks * t.scaleBytes ≤ mib 1))

/-- R217: a tile register as the issuer's word sees it. -/
def readTile (s : State) (q : Issuer) (n : Nat) : Tile :=
  let c := clusterOf s (coreCluster q.g.core)
  { lo := hidden q (.tileWas (2 * n)) (tileLo c n), hi := hidden q (.tileWas (2 * n + 1)) (tileHi c n) }

/-- R215 to R217, `tcfg`. -/
def tcfgAct (f : Fixed) (o : Ops4) (s : State) (q : Issuer) : State :=
  let t : Tile := { lo := scalarVal q o.a, hi := scalarNext q o.a }
  let n := regNum o.d
  let cl := coreCluster q.g.core
  if !t.ok then trapBefore s q causeTile 0 false
  else
    let was := readTile s q n
    let s := hold s q (.tileWas (2 * n)) (BitVec.allOnes 32) [was.lo] 2
    let s := hold s q (.tileWas (2 * n + 1)) (BitVec.allOnes 32) [was.hi] 2
    finish (setCluster s cl (setTile (clusterOf s cl) n t)) q f

/-- R215, `tcfg`. -/
def execTcfg (f : Fixed) (o : Ops4) (s : State) : Host.Outcome State Fault Refusal := word (.tcfg f o) s (tcfgAct f o)

/-! ## Passes (R218 to R220) -/

/-- R220: the family of an operand format: 0 f64, 1 floating and block, 2 integer. -/
def fmtFamily (code : Nat) : Nat := if code = 0 then 0 else if code < 0x15 then 1 else 2

/-- R220: the tiles and the target word do not go together. -/
def Pass.bad (p : Pass) : Bool :=
  p.tileB.k != p.k || fmtFamily p.tileA.fmtCode != fmtFamily p.tileB.fmtCode || decide (p.stride < p.n) ||
    field p.target 63 32 != 0 || field p.target 15 8 != 0 || decide (amWords ≤ p.lastWord)

/-- R220: passes in the table, waiting or running. -/
def tableFull (c : Cluster) : Bool := decide (16 ≤ c.table.length + c.running.length)

/-- R343: the priority of a launch in force. -/
def launchPri (s : State) (launch : Nat) : Nat :=
  match look s.launches launch with
  | some l => l.pri
  | none => 0

/-- R218 to R220: `mma` and `mma.pair`. -/
def mmaAct (pair : Bool) (f : Fixed) (sat : Bool) (tl : BitVec 3) (o : Ops4) (s : State) (q : Issuer) : State :=
  let b := readTl q tl.toNat
  let e := bindRef b
  let cl := coreCluster q.g.core
  let p : Pass :=
    { no := 0, ctx := e.ctx, block := q.g.block, launch := q.b.launch, set := q.g.set, part := q.part, core := q.g.core,
      tileA := readTile s q (regNum o.a), tileB := readTile s q (regNum o.b), target := scalarVal q o.c, sat, pair,
      pri := launchPri s q.b.launch, entered := s.clock, aged := false, array := 2, wrote := false, words := [], events := 0 }
  if !bitAt b 63 || e.kind != 2 || e.unit != cl || decide (3 < e.ctx) then trapBefore s q causeBinding 0 false
  else if p.bad then trapBefore s q causeTile 0 false
  else if tableFull (clusterOf s cl) then stall s q (.full { kind := 2, unit := cl, ctx := e.ctx })
  else
    let s := releaseNow s q.gid
    let x := engCtx s e
    let n := x.issued + 1
    let s := setEngCtx s e { x with issued := n }
    let c := clusterOf s cl
    let s := setCluster s cl { c with table := c.table ++ [{ p with no := n }] }
    finish (pendS s q o.d (BitVec.ofNat 64 n)) q f

/-- R218, `mma`. -/
def execMma (f : Fixed) (sat : Bool) (tl : BitVec 3) (o : Ops4) (s : State) : Host.Outcome State Fault Refusal :=
  word (.mma f sat tl o) s (mmaAct false f sat tl o)

/-- R218, `mma.pair`. -/
def execMmaPair (f : Fixed) (sat : Bool) (tl : BitVec 3) (o : Ops4) (s : State) : Host.Outcome State Fault Refusal :=
  word (.mmaPair f sat tl o) s (mmaAct true f sat tl o)

/-! ## Operands in the operand buffer (R214) -/

/-- R214: where element (r, k) lies: its first OB byte, its bit there, its bytes. -/
def Tile.place (t : Tile) (r k : Nat) : Nat × Nat × Nat :=
  let b := fmtWidth t.fmt * k
  (t.base + r * t.rowBytes + b / 8, b % 8, (b % 8 + fmtWidth t.fmt + 7) / 8)

/-- R214: the bits of element (r, k). -/
def Tile.elem (s : State) (cl : Nat) (t : Tile) (r k : Nat) : Nat :=
  let (byte, bit, n) := t.place r k
  loadLE s (obKey cl byte) n / 2 ^ bit % 2 ^ fmtWidth t.fmt

/-- R214: the OB byte of the scale or header of block `n` of row `r`. -/
def Tile.scaleAt (t : Tile) (r n : Nat) : Nat := t.scoff + (r * t.blocks + n) * t.scaleBytes

/-- R214: the scale or header of block `n` of row `r`; 0 for a scalar format. -/
def Tile.scale (s : State) (cl : Nat) (t : Tile) (r n : Nat) : Nat :=
  if t.blocked then loadLE s (obKey cl (t.scaleAt r n)) t.scaleBytes else 0

/-- "How the matrix engine forms a sum": the element part. -/
def elemPart (fmt : Fmt) (h e : Nat) : Val :=
  if fmt.mx then (if h % 256 = 255 then .nan false else mxPart fmt e)
  else if fmt.dx then
    let k := dxMant fmt
    let sel := e / 2 ^ (k + 1) % 2 = 1
    if h = 0xFFFF then .nan false
    else .fin (e / 2 ^ k % 2 == 1) (e % 2 ^ k) (if sel then (h % 256 : Nat) - (h / 256 : Nat) else 0)
  else valOf fmt e

/-- "How the matrix engine forms a sum": the block term. -/
def blockTerm (fmt : Fmt) (h : Nat) : Int :=
  if fmt.mx then (h : Int) - 127 else if fmt.dx then ((h / 256 : Nat) : Int) - 127 - dxMant fmt else 0

/-- A row of an operand as a pass uses it, chunk by chunk: block term and element parts. -/
def Tile.row (s : State) (cl : Nat) (t : Tile) (r : Nat) : List (Int × List Val) :=
  (List.range t.blocks).map (fun c =>
    let h := t.scale s cl r c
    (blockTerm t.fmt h, (List.range (min 32 (t.k - 32 * c))).map (fun i => elemPart t.fmt h (t.elem s cl r (32 * c + i)))))

/-- R414: the pass would read an uncorrectable OB word of the operand. -/
def Tile.uncorrectable (t : Tile) (bad : List Nat) : Bool :=
  bad.any (fun w => decide (w < 262144) && (List.range t.rows).any (fun r =>
    let row := t.base + r * t.rowBytes
    let hits (a n : Nat) : Bool := decide (4 * w < a + n) && decide (a < 4 * w + 4)
    hits row ((fmtWidth t.fmt * t.k + 7) / 8) || (t.blocked && hits (t.scaleAt r 0) (t.blocks * t.scaleBytes))))

/-! ## Sums (R36 to R38) -/

/-- A value with the bits of `c.mestat` that computing it calls for. -/
structure Event where
  v : Val
  ev : Dword
  deriving DecidableEq, Repr

/-- R36, R37: the sum of one chunk's products, truncated `frac` bits below the largest, times the scales. -/
def chunkValue (fmt : Fmt) (frac : Nat) (mu : Nat) (exp : Int) (sat : Bool) (ps : List Val) : Event :=
  if ps.any Val.isNaN || (ps.contains (.inf true) && ps.contains (.inf false)) then { v := .nan false, ev := 0 }
  else if ps.contains (.inf false) then { v := .inf false, ev := 0 }
  else if ps.contains (.inf true) then { v := .inf true, ev := 0 }
  else
    let nz := ps.filter (fun p => !p.isZero)
    match nz with
    | [] => { v := .fin false 0 0, ev := 0 }
    | p :: more =>
      let e := more.foldl (fun e x => max e x.exponent) p.exponent
      let low := e - frac
      let term (x : Val) : Int := match x with
        | .fin n m h =>
          let y : Int := if low ≤ h then (m * 2 ^ (h - low).toNat : Nat) else (m / 2 ^ (low - h).toNat : Nat)
          if n then -y else y
        | _ => 0
      let sum := (nz.map term).sum
      let v : Val := .fin (decide (sum < 0)) (sum.natAbs * mu) (low + exp)
      let r := rneTo fmt v false
      if r.flags &&& flagOF = 0 then { v, ev := 0 }
      else if sat then { v := valOf fmt (rneTo fmt v true).bits, ev := evSat }
      else { v := .inf (decide (sum < 0)), ev := 0 }

/-- R36, R224: one chunk added to an entry; its bits and events. DESIGN CHOICE (log 58): an entry that was a NaN, or infinite, before the
chunk has received one only if the chunk itself is one. -/
def addChunk (fmt : Fmt) (sat : Bool) (acc : Nat) (c : Event) : Nat × Dword :=
  let old := valOf fmt acc
  let r := roundTo fmt (addVal old c.v false).v .rne sat 0
  let new := valOf fmt r.bits
  let clamped := sat && (r.flags &&& flagOF != 0)
  (r.bits,
    c.ev ||| (if clamped then evSat else 0) ||| (if new.isNaN && (c.v.isNaN || !old.isNaN) then evNaN else 0) |||
      (if new.isInf && (c.v.isInf || !old.isInf) then evInf else 0))

/-- R38: one chunk sum added to an integer entry. -/
def addIntChunk (sat : Bool) (acc : Nat) (sum : Int) : Nat × Dword :=
  let f : IntFmt := { bits := 32, signed := true }
  let x := sextNat acc 32 + sum
  (intToInt f x sat, if x < f.lo ∨ f.hi < x then evWrap else 0)

/-- An integer element as a number. -/
def Val.toInt : Val → Int
  | .fin n m e => inUnits n m e 0
  | _ => 0

/-- R36 to R38: every value an output entry takes, chunk by chunk, and the events. -/
def entryValues (p : Pass) (acc : Nat) (a b : List (Int × List Val)) : List Nat × Dword :=
  let mu := p.tileA.mu * p.tileB.mu
  let tau := p.tileA.tau + p.tileB.tau - 46
  let step (x : List Nat × Nat × Dword) (c : (Int × List Val) × (Int × List Val)) : List Nat × Nat × Dword :=
    let prods := (c.1.2.zip c.2.2)
    let (y, ev) :=
      if fmtFamily p.tileA.fmtCode = 2 then addIntChunk p.sat x.2.1 (prods.map (fun v => v.1.toInt * v.2.toInt)).sum
      else
        let fmt : Fmt := if fmtFamily p.tileA.fmtCode = 0 then .f64 else .f32
        addChunk fmt p.sat x.2.1 (chunkValue fmt (if fmt = .f64 then 110 else 56) mu (tau + c.1.1 + c.2.1) p.sat
          (prods.map (fun v => (mulVal v.1 v.2).v)))
    (x.1 ++ [y], y, x.2.2 ||| ev)
  let r := (a.zip b).foldl step ([], acc, 0)
  (r.1, r.2.2)

/-- R219: the first AM word of entry (i, j). -/
def Pass.entryWord (p : Pass) (i j : Nat) : Nat := 1024 * p.firstBank + p.entrySize * (i * p.stride + j)

/-- R219: Z. -/
def Pass.fromZero (p : Pass) : Bool := bitAt p.target 7

/-- R219: the entries of the output. -/
def Pass.entries (p : Pass) : List (Nat × Nat) := (List.range p.m).flatMap (fun i => (List.range p.n).map (fun j => (i, j)))

/-- R221: what the pass does to AM: for each word of its entries, the value it has and every value it takes. -/
def Pass.compute (s : State) (cl : Nat) (p : Pass) : List (Nat × List Word) × Dword :=
  let as := (List.range p.m).map (p.tileA.row s cl)
  let bs := (List.range p.n).map (p.tileB.row s cl)
  let es := p.entrySize
  let outs := p.entries.map (fun e =>
    let w := p.entryWord e.1 e.2
    let was := loadLE s (amKey cl w) (4 * es)
    let (vs, ev) := entryValues p (if p.fromZero then 0 else was) (as.getD e.1 []) (bs.getD e.2 [])
    let word (h : Nat) : Nat × List Word := (w + h, (was :: vs).map (fun x => BitVec.ofNat 32 (x / 2 ^ (32 * h))))
    ((List.range es).map word, ev))
  (outs.flatMap (·.1), outs.foldl (fun x o => x ||| o.2) 0)

/-! ## The arbiter (R273, R274) -/

/-- R273: entries that have waited 65,536 of the cluster's cycles age. -/
def agePasses (s : State) (cl : Nat) : State :=
  let c := clusterOf s cl
  let due (p : Pass) : Bool := decide (65536 ≤ islandCycles s cl p.entered)
  if c.table.any (fun p => !p.aged && due p) then
    setCluster s cl { c with table := c.table.map (fun p => { p with aged := p.aged || due p }) }
  else s

/-- R273: the priority level of an entry. -/
def Pass.level (p : Pass) : Nat := if p.aged then 7 else p.pri

/-- R222: the arrays that are free: west 0, east 1. -/
def freeArrays (c : Cluster) : List Nat := [0, 1].filter (fun a => !c.running.any (fun p => p.array == a || p.array == 2))

/-- R273, R223: the entry may be granted now: the regions of running passes share no bank with its own (`Pass.banks`). -/
def Pass.eligible (c : Cluster) (p : Pass) : Bool :=
  !c.table.any (fun x => x.ctx == p.ctx && decide (x.no < p.no)) && !c.running.any (fun x => x.banks.any p.banks.contains) &&
    (if p.pair then (freeArrays c).length == 2 else !(freeArrays c).isEmpty)

/-- R273, R274: the entry the arbiter grants. The table is in order of entry. -/
def nextPass (c : Cluster) : Option Pass :=
  let top := leastBy (fun p : Pass => 7 - p.level)
  match top c.table with
  | none => none
  | some t => if t.pair && (freeArrays c).length != 2 then none else top (c.table.filter (Pass.eligible c))

/-! ## Grant and retirement -/

/-- R224: the events of pass `n` in `c.mestat` of its core. -/
def setMestat (s : State) (core n : Nat) (ev : Dword) : State :=
  if ev = 0 then s
  else
    let c := coreOf s core
    setCore s core { c with mestat := ((c.mestat &&& 0x7F#64) ||| ev) ||| (BitVec.ofNat 64 n <<< 32) }

/-- R385: the meter class of a format, and its rate in eighths of a k-step (R225). -/
def macClass : Fmt → Nat × Nat
  | .f64 => (0, 1)
  | .f32 => (1, 4)
  | .e8m10 => (1, 16)
  | .bf16 | .f16 => (2, 16)
  | .e5m2 | .e4m3 | .mxf8e5 | .mxf8e4 | .mxi8 | .dx8 => (3, 32)
  | .e3m2 | .e2m3 | .mxf6e3 | .mxf6e2 | .dx6 => (4, 32)
  | .e2m1 | .mxf4 | .dx4 | .dx3 => (5, 64)
  | .i32 => (6, 4)
  | .i16 => (6, 16)
  | .i8 | .n8 => (7, 32)
  | .i4 | .n4 | .i2 => (7, 64)
  | .e8m0 => (3, 32)

/-- R385: the class a pass is counted in. -/
def Pass.class (p : Pass) : Nat :=
  let a := macClass p.tileA.fmt
  let b := macClass p.tileB.fmt
  if b.2 < a.2 then b.1 else a.1

/-- R223: the pass leaves, its events are set, its context's counter advances; then the requests that waited for it
(R233). -/
def passDone (s : State) (cl : Nat) (p : Pass) : State :=
  let s := setMestat s p.core p.no p.events
  let c := clusterOf s cl
  let gone (x : Pass) : Bool := !(x.ctx == p.ctx && x.no == p.no)
  let s := setCluster s cl { c with table := c.table.filter gone, running := c.running.filter gone }
  let e : EngRef := { kind := 2, unit := cl, ctx := p.ctx }
  let s := setEngCtx s e ((engCtx s e).complete p.no)
  settleBanks s cl (bankOpCount s cl)

/-- R414: the pass would read an uncorrectable word. -/
def Pass.uncorrectable (c : Cluster) (p : Pass) : Bool :=
  c.bad ≠ [] &&
    (p.tileA.uncorrectable c.bad || p.tileB.uncorrectable c.bad ||
      (!p.fromZero && p.entries.any (fun e => (List.range p.entrySize).any (fun h =>
        c.bad.contains (amBad (p.entryWord e.1 e.2 + h))))))

/-- R221, R223: the pass is granted. -/
def grantPass (s : State) (cl : Nat) (p : Pass) : State :=
  let c := clusterOf s cl
  if !p.banks.all (bankOwned c p.launch) then passDone s cl { p with events := evForeign }
  else if p.banks.any (bankClaimed c p.set) then passDone s cl { p with events := evClaimed }
  else
    let gone (x : Pass) : Bool := !(x.ctx == p.ctx && x.no == p.no)
    let p := { p with array := if p.pair then 2 else (freeArrays c).headD 0 }
    let p :=
      if p.uncorrectable c then { p with events := evUncorr }
      else
        let (words, ev) := p.compute s cl
        { p with wrote := true, words, events := ev }
    touchHang (setCluster s cl { c with table := c.table.filter gone, running := c.running ++ [p] }) p.block

/-- R223: the pass retires: its AM writes, its meter. -/
def retirePass (s : State) (cl : Nat) (p : Pass) : State :=
  let s := p.words.foldl (fun s w => storeLE s (amKey cl w.1) 4 (w.2.getLastD 0).toNat) s
  let s :=
    if p.wrote then
      let c := clusterOf s cl
      let s := setCluster s cl { c with bad := c.bad.filter (fun w => !p.words.any (fun x => amBad x.1 == w)) }
      touchHang (addMeter s p.part p.class (p.m * p.n * p.k)) p.block
    else faultRecord s p.part 0x02 0 (some p.block) noAddr (BitVec.ofNat 64 (4 + p.no % 2 ^ 48 * 2 ^ 16))
  passDone s cl p

/-- R273, the grant of a pass. -/
def execMatrixPassGrant (cluster : Nat) (s : State) : Host.Outcome State Fault Refusal :=
  .next
    (let s := agePasses s cluster
    match nextPass (clusterOf s cluster) with
    | some p => grantPass s cluster p
    | none => s)

/-- R273, the ageing of waiting passes. -/
def execMatrixPassAgeing (cluster : Nat) (s : State) : Host.Outcome State Fault Refusal := .next (agePasses s cluster)

/-- R223, a running pass retires. -/
def execMatrixPassRetire (cluster index : Nat) (s : State) : Host.Outcome State Fault Refusal :=
  .next
    (match (clusterOf s cluster).running[index]? with
    | some p => retirePass s cluster p
    | none => s)

end Sys2Proof.Machine
end

