-- ==== Sys2Proof/Machine/Mwait.lean ====
section
/-! DEFINITION. `mwait` (R205): the word, and the tests a parked group makes. -/

namespace Sys2Proof.Machine

/-- R205: the condition, unsigned. -/
def waitHolds (c : WaitCond) (x cmp : Dword) : Bool :=
  match c with
  | .eq => x == cmp
  | .ne => x != cmp
  | .ge => decide (cmp.toNat ≤ x.toNat)

/-- R149, R205: the dword a group's test reads, its own older stores included. -/
def waitRead (s : State) (core gid key : Nat) : Dword := BitVec.ofNat 64 (leNat (forwarded s core gid s.fresh key 8))

/-- R205, `mwait`: a switch marker that also waits for the condition. Its test comes after the group's earlier loads and
atomics (R153, R282). R413: a poisoned read kills the block. -/
def mwaitAct (cond : WaitCond) (o : AddrForm) (ord : Order) (s : State) (q : Issuer) : State :=
  let a := addrOf (scalarVal q o.base) (offsetOf o.base o.off)
  let cmp := scalarVal q o.data
  let as : List LaneAddr := [{ lane := 32, addr := a }]
  match badAddr s q.b .g 8 false as with
  | some t => memTrap s q t
  | none =>
    let k := accessKeys s q.g.block q.b .g needR true as
    match k.bad with
    | some t => memTrap k.s q t
    | none =>
      let key := (k.keys.map (·.2)).headD 0
      let s := performMem k.s q.gid
      match issuer s with
      | none => s
      | some q =>
        let s := meterHost (countIssue s q (q.ctx.pc + 8)) q.part key 8
        if poisonedAt s key 8 then killBlock s q.g.block 2
        else if waitHolds cond (waitRead s q.g.core q.gid key) cmp then atMarker s q.gid
        else parkGroup s q.gid (.mwait cond (BitVec.ofNat 64 a) key cmp (ord == .acq) (hubCycle s) false)

/-- R205, `mwait`. -/
def execMwait (f : Fixed) (cond : WaitCond) (o : AddrForm) (scope : Scope) (ord : Order) (s : State) :
    Host.Outcome State Fault Refusal :=
  word (.mwait f cond o scope ord) s (mwaitAct cond o ord)

/-- The groups of a block may move: it is neither frozen nor saved, its partition is here, and its core has not
halted. -/
def blockMoves (s : State) (g : Group) : Bool :=
  match look s.blocks g.block with
  | none => false
  | some b =>
    b.frozen.isNone && b.saved.isNone && !(coreOf s g.core).halted && !g.swapped &&
      match look s.parts b.part with
      | some p => !p.swappedOut
      | none => false

/-- R205, R375: a parked group's next test is due: of device memory at any time (a write to its line is performed
between two tests that differ); of host, CXL and peer memory after 1,024 hub cycles, or after a restore. -/
def waitDue (s : State) (key last : Nat) (ready : Bool) : Bool := isHbm key || ready || decide (last + 1024 ≤ hubCycle s)

/-- R205, R374, R375: a parked group tests again, through the translation that now stands. Where that is refused the word
has not issued, and traps. -/
def retest (s : State) (gid : Nat) (g : Group) (cond : WaitCond) (va : Dword) (cmp : Dword) (acq : Bool) : State :=
  match look s.blocks g.block with
  | none => s
  | some b =>
    let k := accessKeys s g.block b .g needR true [{ lane := 32, addr := va.toNat }]
    match k.bad with
    | some t =>
      let s := modGroup (unparkGroup k.s gid) gid (fun g =>
        { g with ctx := { g.ctx with pc := g.ctx.pc - 8, run := g.ctx.run - 1, issued := g.ctx.issued - 1 } })
      match issuer { s with cur := gid } with
      | some q => { memTrap s q t with cur := s.cur }
      | none => s
    | none =>
      let key := (k.keys.map (·.2)).headD 0
      let s := meterHost k.s b.part key 8
      if poisonedAt s key 8 then killBlock s g.block 2
      else if waitHolds cond (waitRead s g.core gid key) cmp then atMarker (unparkGroup s gid) gid
      else modGroup s gid (fun g => { g with park := some (.mwait cond va key cmp acq (hubCycle s) false) })

/-- R205, a group parked on `mwait` tests again. -/
def execMwaitRecheck (g : Nat) (s : State) : Host.Outcome State Fault Refusal :=
  .next
    (match look s.groups g with
    | none => s
    | some gr =>
      match gr.park with
      | some (.mwait cond va key cmp acq last ready) =>
        if blockMoves s gr && waitDue s key last ready then retest s g gr cond va cmp acq else s
      | _ => s)

end Sys2Proof.Machine
end

