-- ==== Sys2Proof/Machine/Nest.lean ====
section
/-! DEFINITION. The Crow's Nest's own steps (R408, R410): the end of a counter bank's interval, and a trace unit's sample. -/

namespace Sys2Proof.Machine

/-- R408, R415: the interval or sample period of a bank or unit has passed, in reference cycles; its owner. -/
def nestDue (s : State) (k : Nat) : Option (Nat × Nest) :=
  match look s.nest k with
  | none => none
  | some n =>
    match n.owner with
    | none => none
    | some part =>
      let t := field n.lo 62 48
      if bitAt n.lo 63 && t != 0 && decide (n.from_ + 1024 * t ≤ s.clock) then some (part, n) else none

/-- R410, a counter bank writes its record at the end of an interval. -/
def execCounterIntervalRecord (bank : Nat) (s : State) : Host.Outcome State Fault Refusal :=
  .next
    (if bank < 16 then
      match nestDue s bank with
      | some (part, _) => bankRecord s part bank
      | none => s
    else s)

/-- R410: what a sample of a core names: the block and last safe point of its oldest active group. -/
def sampleCore (s : State) (core : Nat) : Nat × Nat :=
  match (coreOf s core).order.findSome? (fun gid => (look s.groups gid).bind (fun g => if g.active then some g else none)) with
  | some g => ((look s.blocks g.block).map (fun b => b.index) |>.getD (2 ^ 24 - 1), g.lastSafe)
  | none => (2 ^ 24 - 1, 0xFFFF)

/-- R408, R410: what a unit samples, in ascending core number, then the bands: an engine context has neither block nor safe
point. -/
def samplePlaces (s : State) (part : Nat) (n : Nest) : List (Nat × Nat) :=
  if field n.lo 47 46 = 3 then [(2 ^ 24 - 1, 0xFFFF)]
  else
    ((partCores s part).filter (fun c => n.inScope part (some c))).map (sampleCore s) ++
      (s.bands.filter (fun b => b.2.part == part && n.inScope part (some (bandPlace b.2.first)))).map (fun b =>
        ((look s.blocks b.2.block).map (fun x => x.index) |>.getD (2 ^ 24 - 1), 0xFFFF))

/-- R407, R410: one sample record. Its class depends on timing: a free value (log 5). -/
def sampleRecord (part unit : Nat) (s : State) (x : Nat × Nat) : State :=
  traceUnit { s with free := s.free + 1 } part unit (traceBytes 3 x.1 (Config.freeWord s.free).toNat x.2 s.clock)

/-- R408, R410, a trace unit takes a sample. -/
def execTraceSample (unit : Nat) (s : State) : Host.Outcome State Fault Refusal :=
  .next
    (if unit < 4 then
      match nestDue s (16 + unit) with
      | some (part, n) =>
        let s := if bitAt n.lo 2 then (samplePlaces s part n).foldl (sampleRecord part (16 + unit)) s else s
        { s with nest := upd s.nest (16 + unit) (fun n => { n with from_ := s.clock }) }
      | none => s
    else s)

end Sys2Proof.Machine
end

