-- ==== Sys2Proof/Machine/Sched.lean ====
section
/-! DEFINITION. What a core does between instructions: groups that stop waiting (R253), the active set and starvation
(R253, R255), and the delivery of a pending trap (R63, R391). -/

namespace Sys2Proof.Machine

/-! ## The end of a wait -/

/-- A park ends: the group stands past its word's marker, or at a word that issues again. -/
inductive Leave where
  | past
  | again
  deriving DecidableEq, Repr

/-- R159, R220: an engine queue or reservation table has room again. -/
def roomAgain (s : State) (e : EngRef) : Bool := if e.kind = 2 then !tableFull (clusterOf s e.unit) else !engFull s e

/-- A control thread's sink writes are performed (R185, R240). -/
def sinksOut (s : State) (gid : Nat) (g : Group) : Bool :=
  g.vec.isNone || !(coreOf s g.core).storeQ.any (fun e => e.sink && e.owners.contains gid)

/-- R253: what a parked group waits for has come. Rows (R198), joins (R187), hops (R267), halts (R405) and `mwait` (R205)
end with steps of their own. -/
def leaves (s : State) (gid : Nat) (g : Group) : Option Leave :=
  let c := ctxOf s g
  let part := match look s.blocks g.block with
    | some b => b.part
    | none => 0
  let when_ (b : Bool) (l : Leave) : Option Leave := if b then some l else none
  match g.park with
  | some .marker => when_ (c.pend == []) .past
  | some .results => when_ (c.pend == [] && sinksOut s gid g) .again
  | some (.token r) => when_ (c.toks.all (fun t => t.reg != r)) .again
  | some (.ownToken r) => when_ (g.ctx.toks.all (fun t => t.reg != r)) .again
  | some (.full e) => when_ (roomAgain s e) .again
  | some (.tlwait e n) => when_ (decide (n ≤ engCount s part e)) .again
  | some (.tbar key phase) => when_ (c.pend == [] && phaseDone (readBarrier s key).gen phase) .past
  | some .waitpred =>
    when_ (match look s.blocks g.block with
      | some b => predsEnded s b
      | none => false) .past
  | some .offer => when_ (groupOffer g).isNone .again
  | some .drain => when_ (sinksOut s gid g) .past
  | some (.typed key) => when_ (!quadQueued s g.core key) .again
  | some .am => when_ (!amBlocked s (coreCluster g.core) gid s.fresh) .again
  | _ => none

/-- R253: the group leaves its park. -/
def leavePark (s : State) (gid : Nat) (l : Leave) : State :=
  match l with
  | .past => atMarker (unparkGroup s gid) gid
  | .again => unparkGroup s gid

/-- R253, a parked group becomes ready. -/
def execGroupUnpark (g : Nat) (s : State) : Host.Outcome State Fault Refusal :=
  .next
    (match look s.groups g with
    | none => s
    | some gr =>
      match leaves s g gr with
      | some l => if blockMoves s gr then leavePark s g l else s
      | none => s)

/-! ## The active set (R253, R255) -/

/-- The group is pending and ready. -/
def readyGroup (s : State) (g : Group) : Bool :=
  !g.active && g.readyAt.isSome && g.park.isNone && g.trap.isNone && blockMoves s g

/-- R253: the groups of a core's active set. -/
def activeCount (s : State) (core : Nat) : Nat :=
  (s.groups.filter (fun e => e.2.core == core && e.2.active && blockMoves s e.2)).length

/-- R255: the longest-starving group, else the oldest ready one. -/
def nextEntry (s : State) (core : Nat) : Option Nat :=
  let ready := (coreOf s core).order.filterMap (fun gid => match look s.groups gid with
    | some g => if readyGroup s g then some (gid, g) else none
    | none => none)
  ((leastBy (fun e => e.2.readyAt.getD 0) (ready.filter (fun e => e.2.starving))).or ready.head?).map (·.1)

/-- R253, R255, a ready group enters the active set of a core, which holds 8. -/
def execActiveSetEntry (core : Nat) (s : State) : Host.Outcome State Fault Refusal :=
  .next
    (if activeCount s core < 8 then
      match nextEntry s core with
      | some gid => modGroup s gid (fun g => { g with active := true, starving := false, readyAt := none })
      | none => s
    else s)

/-- R255, R415: a ready group starves after 512 cycles of its core's island, those of a running handler among them
(log 19). -/
def execGroupStarvation (g : Nat) (s : State) : Host.Outcome State Fault Refusal :=
  .next
    (match look s.groups g with
    | none => s
    | some gr =>
      if readyGroup s gr && !gr.starving && decide (512 ≤ islandCycles s (gr.core / 4) (gr.readyAt.getD s.clock)) then
        modGroup s g (fun g => { g with starving := true })
      else s)

/-! ## Traps -/

/-- R63, R391, a pending trap is delivered: the core's oldest, once its shadow bank is free. -/
def execTrapDelivery (g : Nat) (s : State) : Host.Outcome State Fault Refusal :=
  .next
    (match look s.groups g with
    | none => s
    | some gr =>
      match (coreOf s gr.core).serving, nextTrap s gr.core with
      | none, some (gid, t) => if gid = g ∧ blockMoves s gr then deliverTrap s g t else s
      | _, _ => s)

end Sys2Proof.Machine
end

