-- ==== Sys2Proof/Machine/Task.lean ====
section
/-! DEFINITION. Creating work (R199, R200): `spawn` and `klaunch`. -/

namespace Sys2Proof.Machine

/-! ## spawn -/

/-- R199: the lanes that get a thread: (home slot, pool index, v0). -/
def spawnLanes (s : State) (q : Issuer) (f : Fixed) (a : Reg) : List (Nat × Nat × Word) :=
  (laneList (active q f)).filterMap (fun l =>
    (poolOrder s q.g.core l).head?.map (fun i => (l, i, (laneVal s q false a l).setWidth 32)))

/-- R199: D of a lane. -/
def spawnResult (lanes : List (Nat × Nat × Word)) (l : Nat) : Dword :=
  match lanes.find? (fun x => x.1 == l) with
  | some x => BitVec.ofNat 64 x.2.1
  | none => 0xFFFFFFFF#64

/-- R199: the group of a spawn is built at once where its rows are granted at once, else the spawner parks. -/
def spawnAct (f : Fixed) (o : Ops4) (s : State) (q : Issuer) : State :=
  let start := scalarVal q o.b
  let lanes := spawnLanes s q f o.a
  let s := drawn s 1024
  if badTarget s q start then trapBefore s q causeBranch start false
  else
    let s := releaseNow s q.gid
    let s := if active q f = 0 then s
      else addPending s q (destsOf o.d 1) (.value (active q f) [(List.range 32).map (spawnResult lanes)])
    if lanes = [] then finish s q f
    else if grantsNow s q.g.core q.g.view then
      let s := spawnNow (countIssue s q (q.ctx.pc + 8)) q.gid start lanes
      if f.sw then atMarker s q.gid else s
    else parkGroup (countIssue s q (q.ctx.pc + 8)) q.gid (.spawn start lanes f.sw)

/-- R199, `spawn`. -/
def execSpawn (f : Fixed) (o : Ops4) (s : State) : Host.Outcome State Fault Refusal :=
  word (.spawn f o) s (spawnAct f o)

/-! ## klaunch -/

/-- R200: the record is appended and notified, or not: the state and the status. A record the ring's memory does not take
is lost (log 7). -/
def appendRecord (s : State) (part : Nat) (b : Dword) (record : List Byte) : State × Nat :=
  let q := b.toNat
  if field b 63 12 ≠ 0 ∨ queueCount s part ≤ q then (s, 2)
  else
    let (s, d) := readQueue s part q
    if !d.en then (s, 2)
    else if d.full then (s, 1)
    else (notifyQueue (writeVirtual s part (d.record d.tail) record).s part q (d.tail + 1), 0)

/-- R200, `klaunch`. R413: a record that reads poisoned kills the block. -/
def klaunchAct (f : Fixed) (o : Ops4) (s : State) (q : Issuer) : State :=
  let as : List LaneAddr := [{ lane := 32, addr := (scalarVal q o.a).toNat }]
  match badAddr s q.b .g 128 false as with
  | some t => memTrap s q t
  | none =>
    let k := accessKeys s q.g.block q.b .g needR true as
    match k.bad with
    | some t => memTrap k.s q t
    | none =>
      let s := releaseNow k.s q.gid
      let key := (k.keys.map (·.2)).headD 0
      if poisonedAt s key 128 then killBlock s q.g.block 2
      else
        let (s, st) := appendRecord (meterHost s q.part key 128) q.part (scalarVal q o.b) (readBytes s key 128)
        finish (pendS s q o.d (BitVec.ofNat 64 st)) q f

/-- R200, `klaunch`. -/
def execKlaunch (f : Fixed) (o : Ops4) (s : State) : Host.Outcome State Fault Refusal :=
  word (.klaunch f o) s (klaunchAct f o)

end Sys2Proof.Machine
end

