-- ==== Sys2Proof/Machine/Dispatch.lean ====
section
/-! DEFINITION. One arm per instruction of the table, each one call of its meaning. -/

namespace Sys2Proof.Machine

def exec (i : Instr) (s : State) : Host.Outcome State Fault Refusal :=
  match i with
  | .nop f => Sys2Proof.Machine.execNop f s
  | .addInteger f o => Sys2Proof.Machine.execAddInteger f o s
  | .subInteger f o => Sys2Proof.Machine.execSubInteger f o s
  | .mulInteger f o => Sys2Proof.Machine.execMulInteger f o s
  | .mulhi f o => Sys2Proof.Machine.execMulhi f o s
  | .madInteger f o => Sys2Proof.Machine.execMadInteger f o s
  | .andInteger f o => Sys2Proof.Machine.execAndInteger f o s
  | .orInteger f o => Sys2Proof.Machine.execOrInteger f o s
  | .xorInteger f o => Sys2Proof.Machine.execXorInteger f o s
  | .shl f o => Sys2Proof.Machine.execShl f o s
  | .shr f o => Sys2Proof.Machine.execShr f o s
  | .sar f o => Sys2Proof.Machine.execSar f o s
  | .minInteger f o => Sys2Proof.Machine.execMinInteger f o s
  | .maxInteger f o => Sys2Proof.Machine.execMaxInteger f o s
  | .absInteger f o => Sys2Proof.Machine.execAbsInteger f o s
  | .movInteger f o => Sys2Proof.Machine.execMovInteger f o s
  | .negInteger f o => Sys2Proof.Machine.execNegInteger f o s
  | .popc f o => Sys2Proof.Machine.execPopc f o s
  | .clz f o => Sys2Proof.Machine.execClz f o s
  | .brev f o => Sys2Proof.Machine.execBrev f o s
  | .bfe f o => Sys2Proof.Machine.execBfe f o s
  | .bfi f o => Sys2Proof.Machine.execBfi f o s
  | .cmp f cond o => Sys2Proof.Machine.execCmp f cond o s
  | .sel f o => Sys2Proof.Machine.execSel f o s
  | .pand f o => Sys2Proof.Machine.execPand f o s
  | .por f o => Sys2Proof.Machine.execPor f o s
  | .pxor f o => Sys2Proof.Machine.execPxor f o s
  | .pnot f o => Sys2Proof.Machine.execPnot f o s
  | .addFloat f o => Sys2Proof.Machine.execAddFloat f o s
  | .subFloat f o => Sys2Proof.Machine.execSubFloat f o s
  | .mulFloat f o => Sys2Proof.Machine.execMulFloat f o s
  | .fma f o => Sys2Proof.Machine.execFma f o s
  | .fnma f o => Sys2Proof.Machine.execFnma f o s
  | .minFloat f o => Sys2Proof.Machine.execMinFloat f o s
  | .maxFloat f o => Sys2Proof.Machine.execMaxFloat f o s
  | .absFloat f o => Sys2Proof.Machine.execAbsFloat f o s
  | .negFloat f o => Sys2Proof.Machine.execNegFloat f o s
  | .rcp f o => Sys2Proof.Machine.execRcp f o s
  | .rsqrt f o => Sys2Proof.Machine.execRsqrt f o s
  | .sqrt f o => Sys2Proof.Machine.execSqrt f o s
  | .exp2 f o => Sys2Proof.Machine.execExp2 f o s
  | .log2 f o => Sys2Proof.Machine.execLog2 f o s
  | .sinpi f o => Sys2Proof.Machine.execSinpi f o s
  | .cospi f o => Sys2Proof.Machine.execCospi f o s
  | .tanh f o => Sys2Proof.Machine.execTanh f o s
  | .cvt f o => Sys2Proof.Machine.execCvt f o s
  | .pack f o => Sys2Proof.Machine.execPack f o s
  | .unpack f o => Sys2Proof.Machine.execUnpack f o s
  | .dxenc f o => Sys2Proof.Machine.execDxenc f o s
  | .dxdec f o => Sys2Proof.Machine.execDxdec f o s
  | .mxenc f o => Sys2Proof.Machine.execMxenc f o s
  | .mxdec f o => Sys2Proof.Machine.execMxdec f o s
  | .crd f d num => Sys2Proof.Machine.execCrd f d num s
  | .cwr f a num => Sys2Proof.Machine.execCwr f a num s
  | .li f d imm => Sys2Proof.Machine.execLi f d imm s
  | .lih f d imm => Sys2Proof.Machine.execLih f d imm s
  | .liPair f d imm => Sys2Proof.Machine.execLiPair f d imm s
  | .ld f o => Sys2Proof.Machine.execLd f o s
  | .st f o => Sys2Proof.Machine.execSt f o s
  | .atomAdd f o => Sys2Proof.Machine.execAtomAdd f o s
  | .atomMin f o => Sys2Proof.Machine.execAtomMin f o s
  | .atomMax f o => Sys2Proof.Machine.execAtomMax f o s
  | .atomAnd f o => Sys2Proof.Machine.execAtomAnd f o s
  | .atomOr f o => Sys2Proof.Machine.execAtomOr f o s
  | .atomXor f o => Sys2Proof.Machine.execAtomXor f o s
  | .atomXchg f o => Sys2Proof.Machine.execAtomXchg f o s
  | .atomCas f o => Sys2Proof.Machine.execAtomCas f o s
  | .atomLd f o => Sys2Proof.Machine.execAtomLd f o s
  | .atomSt f o => Sys2Proof.Machine.execAtomSt f o s
  | .fence f scope ord => Sys2Proof.Machine.execFence f scope ord s
  | .cstore f w64 o => Sys2Proof.Machine.execCstore f w64 o s
  | .xload f w64 o => Sys2Proof.Machine.execXload f w64 o s
  | .acopy f o => Sys2Proof.Machine.execAcopy f o s
  | .acopyPull f o => Sys2Proof.Machine.execAcopyPull f o s
  | .gath f o => Sys2Proof.Machine.execGath f o s
  | .scat f o => Sys2Proof.Machine.execScat f o s
  | .tlwait f d a imm => Sys2Proof.Machine.execTlwait f d a imm s
  | .tlbind f d a imm => Sys2Proof.Machine.execTlbind f d a imm s
  | .tlread f d a imm => Sys2Proof.Machine.execTlread f d a imm s
  | .tbarInit f o => Sys2Proof.Machine.execTbarInit f o s
  | .tbarArrive f o => Sys2Proof.Machine.execTbarArrive f o s
  | .tbarExpect f o => Sys2Proof.Machine.execTbarExpect f o s
  | .tbarWait f o => Sys2Proof.Machine.execTbarWait f o s
  | .predhint f => Sys2Proof.Machine.execPredhint f s
  | .waitpred f => Sys2Proof.Machine.execWaitpred f s
  | .br f off => Sys2Proof.Machine.execBr f off s
  | .call f off => Sys2Proof.Machine.execCall f off s
  | .brind f a => Sys2Proof.Machine.execBrind f a s
  | .callind f d a => Sys2Proof.Machine.execCallind f d a s
  | .ret f a => Sys2Proof.Machine.execRet f a s
  | .gjoin f a tag => Sys2Proof.Machine.execGjoin f a tag s
  | .gleave f => Sys2Proof.Machine.execGleave f s
  | .elect f d => Sys2Proof.Machine.execElect f d s
  | .ballot f d => Sys2Proof.Machine.execBallot f d s
  | .shfl f o => Sys2Proof.Machine.execShfl f o s
  | .shflX f o => Sys2Proof.Machine.execShflX f o s
  | .grow f n => Sys2Proof.Machine.execGrow f n s
  | .shrink f n => Sys2Proof.Machine.execShrink f n s
  | .spawn f o => Sys2Proof.Machine.execSpawn f o s
  | .klaunch f o => Sys2Proof.Machine.execKlaunch f o s
  | .eqenq f o => Sys2Proof.Machine.execEqenq f o s
  | .eqstat f o => Sys2Proof.Machine.execEqstat f o s
  | .hopReq f n => Sys2Proof.Machine.execHopReq f n s
  | .mwait f cond o scope ord => Sys2Proof.Machine.execMwait f cond o scope ord s
  | .trap f n => Sys2Proof.Machine.execTrap f n s
  | .tret f => Sys2Proof.Machine.execTret f s
  | .cnclaim f o => Sys2Proof.Machine.execCnclaim f o s
  | .cnfree f o => Sys2Proof.Machine.execCnfree f o s
  | .xrd f o => Sys2Proof.Machine.execXrd f o s
  | .xwr f o => Sys2Proof.Machine.execXwr f o s
  | .tcfg f o => Sys2Proof.Machine.execTcfg f o s
  | .mma f sat tl o => Sys2Proof.Machine.execMma f sat tl o s
  | .mmaPair f sat tl o => Sys2Proof.Machine.execMmaPair f sat tl o s
  | .aalloc f o => Sys2Proof.Machine.execAalloc f o s
  | .afree f o => Sys2Proof.Machine.execAfree f o s
  | .aclaim f o => Sys2Proof.Machine.execAclaim f o s
  | .ard f w64 o => Sys2Proof.Machine.execArd f w64 o s
  | .azero f o => Sys2Proof.Machine.execAzero f o s
  | .vstrip f o => Sys2Proof.Machine.execVstrip f o s
  | .vsrc f o => Sys2Proof.Machine.execVsrc f o s
  | .vsnk f o => Sys2Proof.Machine.execVsnk f o s
  | .vaccReset f o => Sys2Proof.Machine.execVaccReset f o s
  | .vdrain f o => Sys2Proof.Machine.execVdrain f o s
  | .fload f o => Sys2Proof.Machine.execFload f o s
  | .frun f o => Sys2Proof.Machine.execFrun f o s
  | .fdrain f o => Sys2Proof.Machine.execFdrain f o s
  | .fsave f o => Sys2Proof.Machine.execFsave f o s
  | .fpush f half null o => Sys2Proof.Machine.execFpush f half null o s
  | .fpop f half o => Sys2Proof.Machine.execFpop f half o s
  | .shflXMatch g₁ g₂ => Sys2Proof.Machine.execShflXMatch g₁ g₂ s
  | .rowGrant core => Sys2Proof.Machine.execRowGrant core s
  | .groupSwapIn core => Sys2Proof.Machine.execGroupSwapIn core s
  | .allocationSetReturn core => Sys2Proof.Machine.execAllocationSetReturn core s
  | .mwaitRecheck g => Sys2Proof.Machine.execMwaitRecheck g s
  | .matrixPassGrant cluster => Sys2Proof.Machine.execMatrixPassGrant cluster s
  | .matrixPassAgeing cluster => Sys2Proof.Machine.execMatrixPassAgeing cluster s
  | .matrixPassRetire cluster index => Sys2Proof.Machine.execMatrixPassRetire cluster index s
  | .bandOpCompletion first => Sys2Proof.Machine.execBandOpCompletion first s
  | .stageFiring first stage => Sys2Proof.Machine.execStageFiring first stage s
  | .rareEventGroup first => Sys2Proof.Machine.execRareEventGroup first s
  | .rowWakeDone first row => Sys2Proof.Machine.execRowWakeDone first row s
  | .rowInstallDone first row => Sys2Proof.Machine.execRowInstallDone first row s
  | .rowLower first row => Sys2Proof.Machine.execRowLower first row s
  | .rowHoist first row => Sys2Proof.Machine.execRowHoist first row s
  | .configStoreReload first row => Sys2Proof.Machine.execConfigStoreReload first row s
  | .portSpillRetry first port => Sys2Proof.Machine.execPortSpillRetry first port s
  | .longLatencyResult g => Sys2Proof.Machine.execLongLatencyResult g s
  | .groupUnpark g => Sys2Proof.Machine.execGroupUnpark g s
  | .activeSetEntry core => Sys2Proof.Machine.execActiveSetEntry core s
  | .groupStarvation g => Sys2Proof.Machine.execGroupStarvation g s
  | .trapDelivery g => Sys2Proof.Machine.execTrapDelivery g s
  | .copyExecute sector ctx => Sys2Proof.Machine.execCopyExecute sector ctx s
  | .iseExecute die ctx => Sys2Proof.Machine.execIseExecute die ctx s
  | .iseSpillRetry die ctx elem => Sys2Proof.Machine.execIseSpillRetry die ctx elem s
  | .engineOpCompletion kind unit ctx => Sys2Proof.Machine.execEngineOpCompletion kind unit ctx s
  | .translationFaultRecord tag => Sys2Proof.Machine.execTranslationFaultRecord tag s
  | .translationFaultTimeout tag => Sys2Proof.Machine.execTranslationFaultTimeout tag s
  | .xlresRetry part tag => Sys2Proof.Machine.execXlresRetry part tag s
  | .xlresFail part tag => Sys2Proof.Machine.execXlresFail part tag s
  | .tlbInvalidate part => Sys2Proof.Machine.execTlbInvalidate part s
  | .invalidationComplete part => Sys2Proof.Machine.execInvalidationComplete part s
  | .hopCommit block => Sys2Proof.Machine.execHopCommit block s
  | .hopDisarm block => Sys2Proof.Machine.execHopDisarm block s
  | .codeObjectLoad part addr places => Sys2Proof.Machine.execCodeObjectLoad part addr places s
  | .coldGranuleCopy handle granule => Sys2Proof.Machine.execColdGranuleCopy handle granule s
  | .icacheFill cluster line => Sys2Proof.Machine.execIcacheFill cluster line s
  | .queueNotify part queue value => Sys2Proof.Machine.execQueueNotify part queue value s
  | .queueSlotMap part queue => Sys2Proof.Machine.execQueueSlotMap part queue s
  | .launchBegin part queue => Sys2Proof.Machine.execLaunchBegin part queue s
  | .blockPlacement launch core => Sys2Proof.Machine.execBlockPlacement launch core s
  | .blockEnd block => Sys2Proof.Machine.execBlockEnd block s
  | .launchCompletion launch => Sys2Proof.Machine.execLaunchCompletion launch s
  | .hangFreeze block => Sys2Proof.Machine.execHangFreeze block s
  | .eqLoadQueue part id => Sys2Proof.Machine.execEqLoadQueue part id s
  | .eqLoadGroup part id => Sys2Proof.Machine.execEqLoadGroup part id s
  | .eqUnloadQueue part id => Sys2Proof.Machine.execEqUnloadQueue part id s
  | .eqUnloadGroup part id => Sys2Proof.Machine.execEqUnloadGroup part id s
  | .queueUnloadComplete queue => Sys2Proof.Machine.execQueueUnloadComplete queue s
  | .equDispatchDecision => Sys2Proof.Machine.execEquDispatchDecision s
  | .combineMark launch => Sys2Proof.Machine.execCombineMark launch s
  | .preemption block => Sys2Proof.Machine.execPreemption block s
  | .blockRestore block core => Sys2Proof.Machine.execBlockRestore block core s
  | .partitionCreate part sectors groups nonce => Sys2Proof.Machine.execPartitionCreate part sectors groups nonce s
  | .partitionDestroy part => Sys2Proof.Machine.execPartitionDestroy part s
  | .secondStageEdit part addr entry command => Sys2Proof.Machine.execSecondStageEdit part addr entry command s
  | .partitionSwapOut part => Sys2Proof.Machine.execPartitionSwapOut part s
  | .partitionSwapIn part => Sys2Proof.Machine.execPartitionSwapIn part s
  | .getMeasurements index signed => Sys2Proof.Machine.execGetMeasurements index signed s
  | .epochClose part => Sys2Proof.Machine.execEpochClose part s
  | .ideStreamViolation part => Sys2Proof.Machine.execIdeStreamViolation part s
  | .hypervisorRegisterWrite part num high value => Sys2Proof.Machine.execHypervisorRegisterWrite part num high value s
  | .halt part addr => Sys2Proof.Machine.execHalt part addr s
  | .save part addr => Sys2Proof.Machine.execSave part addr s
  | .restore part addr => Sys2Proof.Machine.execRestore part addr s
  | .resume part addr => Sys2Proof.Machine.execResume part addr s
  | .kill part addr => Sys2Proof.Machine.execKill part addr s
  | .release part addr => Sys2Proof.Machine.execRelease part addr s
  | .detach part addr => Sys2Proof.Machine.execDetach part addr s
  | .counterIntervalRecord bank => Sys2Proof.Machine.execCounterIntervalRecord bank s
  | .traceSample unit => Sys2Proof.Machine.execTraceSample unit s
  | .uncorrectableError site => Sys2Proof.Machine.execUncorrectableError site s
  | .hbmScrub pseudoChannel => Sys2Proof.Machine.execHbmScrub pseudoChannel s
  | .operatingPointChange island point => Sys2Proof.Machine.execOperatingPointChange island point s
  | .deviceReset steps => Sys2Proof.Machine.execDeviceReset steps s
  | .enterTest => Sys2Proof.Machine.execEnterTest s
  | .leaveTest => Sys2Proof.Machine.execLeaveTest s
  | .leaveRecovery => Sys2Proof.Machine.execLeaveRecovery s
  | .checkpoint => Sys2Proof.Machine.execCheckpoint s
  | .checkpointRestore => Sys2Proof.Machine.execCheckpointRestore s
  | .linkPortDown port => Sys2Proof.Machine.execLinkPortDown port s
  | .linkPortTrained port => Sys2Proof.Machine.execLinkPortTrained port s
  | .storeQueueDrain core index => Sys2Proof.Machine.execStoreQueueDrain core index s
  | .memoryPortElement first port => Sys2Proof.Machine.execMemoryPortElement first port s
  | .tdispRequest part wanted => Sys2Proof.Machine.execTdispRequest part wanted s
  | .hostBarRequest part addr write bytes => Sys2Proof.Machine.execHostBarRequest part addr write bytes s
  | .peerWindowAccess part gpa write bytes => Sys2Proof.Machine.execPeerWindowAccess part gpa write bytes s
  | .startRecordClear => Sys2Proof.Machine.execStartRecordClear s
  | .repairMapAdd clusters rows => Sys2Proof.Machine.execRepairMapAdd clusters rows s

end Sys2Proof.Machine
end

