-- ==== Sys2Proof/Machine/Agents.lean ====
section
/-! DEFINITION. The agents around the instructions: which group may issue, the fetch and issue of its next word, the passing
of time, what the outside world does, and the model's own order of steps where `State.turns` names none (log 33). -/

namespace Sys2Proof.Machine

/-! ## Issue -/

/-- R253, R254, R391, R405: the group may issue its next word: it is active, its core serves its handler if it is in one, and
nothing holds it. -/
def canIssue (s : State) (gid : Nat) : Bool :=
  match look s.groups gid with
  | none => false
  | some g =>
    g.active && g.park.isNone && g.trap.isNone && !g.swapped && blockMoves s g &&
      (!g.handler || decide ((coreOf s g.core).serving = some gid))

/-- R111, R113: the trap of a word that is no instruction. -/
def badWordCause (s : State) (q : Issuer) (w : Dword) : Nat :=
  let cls := classOf w
  let minor := minorOf w
  if 48 ≤ q.ctx.run then causeRun
  else if !assigned cls minor || !classModel cls minor q.model then causeIllegal
  else if maskedBy s q cls minor then causeMasked
  else causeIllegal

/-- The issuer runs a fetched word. -/
def runWord (s : State) (q : Issuer) (w : Dword) : Host.Outcome State Fault Refusal :=
  match decode w with
  | some i => exec i s
  | none => .next (trapBefore s q (badWordCause s q w) 0 false)

/-- R339, R374, R389, R411, R413: a group fetches its next word and issues it. -/
def issueNext (s : State) (gid : Nat) : Host.Outcome State Fault Refusal :=
  let s : State := { s with cur := gid }
  match issuer s with
  | none => .next s
  | some q =>
    let o := fetchWord s q.part q.ctx.pc.toNat
    match o.word with
    | none => .next (trapBefore o.s q causeFetch q.ctx.pc false)
    | some w => if o.poisoned then .next (killBlock o.s q.g.block 2) else runWord o.s q w

/-! ## Time (R5, R363, R384, R400) -/

/-- R384, R400: the partition has a resident block or a running engine operation, and is not swapped out. -/
def partRuns (s : State) (part : Nat) : Bool :=
  !stashedPart s part &&
    (s.blocks.any (fun b => b.2.part == part && b.2.saved.isNone) || partBusy s part)

/-- R363: reference cycles that may pass before the EQU's next decision. -/
def tickRoom (s : State) (n : Nat) : Nat := if s.equ.queues.isEmpty then n else min n (2 * s.equ.nextDecision - s.clock)

/-- R210, R348, R383, R386, R390, R405, R415: a hub cycle ends: the hypervisor's writes in it take effect, its traps have found their
vector, claims of Crow's Nest resources are decided, halts without a command land, islands come under their caps, and the hub notes which queues are runnable. -/
def endHubCycle (s : State) : State :=
  let s := s.parts.foldl (fun s p => settleTrapvec (settleHyper s p.1) p.1) s
  let s := landResumed (decideClaims s)
  s.queues.foldl (fun s q => noteRunnable s (q.1 / 4096) (q.1 % 4096)) (capIslands s)

/-- Reference cycles pass. -/
def tick (s : State) (n : Nat) : State :=
  let n := tickRoom s n
  let s := noteHops s
  let next := decide (hubCycle s < (s.clock + n) / 2)
  let s := if next then endHubCycle s else s
  let s := s.parts.foldl (fun s p => if partRuns s p.1 then addMeter s p.1 13 n else s) s
  let s : State := { s with clock := s.clock + n, blocks := s.blocks.map (fun b => (b.1, hangTick s n b.1 b.2)) }
  if next then markMeters s else s

/-! ## The outside world -/

/-- R375: a translation cache drops an entry. -/
def evictTlb (s : State) (n : Nat) : State := { s with tlb := s.tlb.eraseIdx n }

/-- R378: a key of memory outside the device. -/
def outsideKey (k : Nat) : Bool := isHost k || decide (peerBase ≤ k)

/-- The host or a peer writes its own memory. -/
def outsideWrite (s : State) (k : Nat) (bs : List Byte) : State :=
  if (List.range bs.length).all (fun i => outsideKey (k + i)) then writeBytes s k bs else s

/-- R378: the host or a peer begins or ceases to refuse a partition's accesses to a page. -/
def outsideRefuse (s : State) (part k : Nat) (refuses : Bool) : State :=
  let others := s.hours.refused.filter (· != (part, k / 4096))
  if outsideKey k then { s with hours := { s.hours with refused := if refuses then others ++ [(part, k / 4096)] else others } } else s

/-- R383: the hypervisor's read of a dword of a register, which the device answers. -/
def hyperReads (s : State) (part n : Nat) (high : Bool) : State :=
  if (look s.parts part).isNone ∨ n < 0x200 ∨ (cregForm n).isNone then answer s 1 []
  else
    let s := settleFor s part n
    let x := hyperRead s part n
    answer s 0 (leBytes (if high then x.2 else x.1).toNat 8)

/-- One turn. -/
def runTurn (t : Turn) (s : State) : Host.Outcome State Fault Refusal :=
  match t with
  | .issue g => if canIssue s g then issueNext s g else .next s
  | .event i => if !i.isWord then exec i s else .next s
  | .tick n => .next (tick s n)
  | .startStep o => .next (startStep s o)
  | .evict n => .next (evictTlb s n)
  | .outsideWrite k bs => .next (outsideWrite s k bs)
  | .outsideRefuse part k refuses => .next (outsideRefuse s part k refuses)
  | .hyperRead part n high => .next (hyperReads s part n high)
  | .corrected a => .next (countCorrected s a)

/-! ## The model's own order (log 33) -/

/-- A step changes the state. -/
def changes (s : State) (i : Instr) : Bool :=
  match exec i s with
  | .next t => decide (t ≠ s)
  | _ => false

/-- Steps of groups and cores. -/
def coreSteps (s : State) : List Instr :=
  let gs := s.groups.map (·.1)
  let offers := s.groups.filterMap (fun e => (groupOffer e.2).map (fun _ => e.1))
  gs.flatMap (fun g => [.trapDelivery g, .longLatencyResult g, .groupUnpark g]) ++
    offers.flatMap (fun a => offers.map (fun b => .shflXMatch a b)) ++
    s.cores.flatMap (fun c =>
      (List.range c.2.storeQ.length).map (fun i => .storeQueueDrain c.1 i) ++
        [.rowGrant c.1, .groupSwapIn c.1, .allocationSetReturn c.1, .activeSetEntry c.1])

/-- Steps of the engines. -/
def engineSteps (s : State) : List Instr :=
  s.clusters.flatMap (fun c =>
      (List.range c.2.running.length).map (fun i => .matrixPassRetire c.1 i) ++ [.matrixPassAgeing c.1, .matrixPassGrant c.1]) ++
    s.copies.flatMap (fun e => [.copyExecute (e.1 / 4) (e.1 % 4), .engineOpCompletion 0 (e.1 / 4) (e.1 % 4)]) ++
    s.ises.flatMap (fun e =>
      e.2.ops.flatMap (fun o => o.spill.filterMap (fun x =>
        if x.2.isNone then some (.iseSpillRetry (e.1 / 16) (e.1 % 16) x.1) else none)) ++
        [.iseExecute (e.1 / 16) (e.1 % 16), .engineOpCompletion 1 (e.1 / 16) (e.1 % 16)])

/-- Steps of a band. -/
def bandSteps (f : Nat) (b : Band) : List Instr :=
  let rows := b.rows.map (·.1)
  let parts := match b.cfg with
    | some c =>
      (List.range c.stages.length).map (fun i => .stageFiring f i) ++
        (List.range c.ports.length).flatMap (fun i => [.portSpillRetry f i, .memoryPortElement f i])
    | none => []
  [.bandOpCompletion f, .rareEventGroup f] ++ rows.flatMap (fun r => [.rowWakeDone f r, .rowInstallDone f r, .rowLower f r, .rowHoist f r]) ++
    parts

/-- Steps of the hub. -/
def hubSteps (s : State) : List Instr :=
  s.faults.flatMap (fun f => [.translationFaultRecord f.1, .translationFaultTimeout f.1]) ++
    s.parts.flatMap (fun p =>
      [.invalidationComplete p.1, .epochClose p.1] ++ match p.2.command with
        | some a => [.halt p.1 a]
        | none => []) ++
    s.blocks.flatMap (fun b => [.hopCommit b.1, .hopDisarm b.1, .blockEnd b.1, .hangFreeze b.1, .preemption b.1]) ++
    s.launches.flatMap (fun l => [.launchCompletion l.1, .combineMark l.1]) ++
    s.queues.flatMap (fun q => [.queueSlotMap (q.1 / 4096) (q.1 % 4096), .launchBegin (q.1 / 4096) (q.1 % 4096)]) ++
    (if s.equ.queues.isEmpty then [] else [.equDispatchDecision]) ++
    s.equ.queues.map (fun q => .queueUnloadComplete q.1) ++
    s.nest.map (fun n => if n.1 < 16 then .counterIntervalRecord n.1 else .traceSample (n.1 - 16))

/-- R258, R398: the places of a partition: its cores, and first rows. -/
def placesOf (s : State) (part : Nat) : List Nat := partCores s part ++ (List.range 32).map (3 * ·)

/-- Steps that place blocks. -/
def placeSteps (s : State) : List Instr :=
  (s.blocks.filter (fun b => b.2.saved.isSome)).flatMap (fun b => (placesOf s b.2.part).map (fun c => .blockRestore b.1 c)) ++
    s.launches.flatMap (fun l => if l.2.waiting then (placesOf s l.2.part).map (fun c => .blockPlacement l.1 c) else [])

/-- Steps that wait for nothing else to happen. -/
def lateSteps (s : State) : List Instr := (s.groups.map (·.1)).flatMap (fun g => [.mwaitRecheck g, .groupStarvation g])

/-- The first group after `cur` that may issue. -/
def nextIssuer (s : State) : Option Nat :=
  let gs := (s.groups.map (·.1)).filter (canIssue s)
  (gs.find? (fun g => decide (s.cur < g))).or gs.head?

/-- The first step of a list that changes something. -/
def firstChange (s : State) (is : List Instr) : Option Turn := (is.find? (changes s)).map .event

/-- What happens next where `State.turns` names nothing. -/
def ownTurn (s : State) : Turn :=
  if s.hours.mode = .startUp then .startStep { ok := true, alt := true }
  else
    ((firstChange s (coreSteps s ++ engineSteps s ++ s.bands.flatMap (fun b => bandSteps b.1 b.2) ++ hubSteps s ++ placeSteps s)).or
      (((nextIssuer s).map .issue).or (firstChange s (lateSteps s)))).getD (.tick 128)

end Sys2Proof.Machine
end

