-- ==== Sys2Proof/Machine/Boot.lean ====
section
/-! DEFINITION. A loaded program, for `State.withFetchWord` (log 34): it stands for what start-up, the security processor, the
loader and a launch do before a program's first instruction runs. Nothing else uses it. -/

namespace Sys2Proof.Machine

/-- Where the one text lies. -/
def bootText : Nat := 0x1000

/-- A header with a threaded version of 256 registers and a local window of 64 KiB. -/
def bootHeader : Dword := BitVec.ofNat 64 (3 * 2 ^ 60 + 3 * 2 ^ 58 + 2 ^ 55 + 31 * 2 ^ 36 + 1024 * 2 ^ 23)

def bootKernel : Kernel :=
  { part := 0, header := bootHeader, text := [(0, { base := bootText, size := 4096 })], coldText := [], coldHost := 0, cache := 0,
    granules := [], table := 0, image := 0, safe := [], scratch := 0 }

/-- Partition 0 on sector 0 and channel group 0; no meter chain is begun. -/
def bootPartition (now : Nat) : Partition :=
  { sectors := [0], groups := [0], regs := [], root := 0, invalidating := false, tdisp := .unlocked, s2digest := 0, lockMeasure := [],
    epoch := 0, epochFrom := now, chain := 0, swappedOut := false, stash := none, staged := [], hyper := [], claims := [], trapvec := 0,
    meters := List.replicate 14 0, command := none, lost := 0 }

/-- A cached leaf that maps the lowest 16 GiB to themselves. -/
def bootLeaf (stage : Nat) : Tlb :=
  { part := 0, stage, va := 0, size := gib 16, out := 0, r := true, w := true, x := true, a := true, d := true, entry := none }

/-- A launch of one block of 32 threads. -/
def bootLaunch : Launch :=
  { part := 0, queue := 0, seq := 0, kern := 0, gx := 1, gy := 1, gz := 1, pri := 0, tm1 := 31, args := 0, const := 0, csize := 0,
    seed := 0, done := 0, save := 0, preds := [], order := 0, placed := 0, lost := 0, hungLost := false, refused := false,
    firing := none, rerun := [], ended := none }

/-- The block's threads, each with the lowest pool index of its home slot (R251 leaves the choice open, log 45). -/
def bootThreads : Tab Thread := (List.range 32).map (fun l => (l, { pool := l, index := some l }))

/-- Normal mode, with one active group of a block on core 0, named by `cur`. -/
def boot (s : State) : State :=
  let s : State := { s with
    hours := { s.hours with mode := .normal, startStep := 11 }
    parts := put s.parts 0 (bootPartition (hubCycle s))
    tlb := [bootLeaf 1, bootLeaf 2]
    kernels := put s.kernels 0 bootKernel
    launches := put s.launches s.fresh bootLaunch
    fresh := s.fresh + 1 }
  let s := placeBlock s (s.fresh - 1) bootLaunch bootKernel 0 0
  let g := s.fresh - 1
  let s := { s with sets := upd s.sets (g - 1) (fun a => { a with threads := bootThreads }) }
  { modGroup s g (fun g => { g with active := true, readyAt := none }) with cur := g }

/-- The memory key of the word `State.cur`'s group fetches next, where it is not cold text. -/
def fetchKey (s : State) : Option Nat :=
  match issuer s with
  | none => none
  | some q =>
    if s.kernels.any (fun k => k.2.part == q.part && k.2.coldHolds q.ctx.pc.toNat) then none
    else match (xlate s q.part q.ctx.pc.toNat needX).res with
      | .ok k => some k
      | .bad _ => none

/-- The state if `State.cur`'s group can fetch and issue, else a booted one. -/
def ready (s : State) : State := if canIssue s s.cur && (fetchKey s).isSome then s else boot s

end Sys2Proof.Machine
end

