-- ==== Sys2Proof/Machine/Step.lean ====
section
/-! DEFINITION. One step of the device: the next turn, or where none is named the model's own (log 33). -/

namespace Sys2Proof.Machine

/-- THE STEP. -/
def step (s : State) : Host.Outcome State Fault Refusal :=
  match s.turns with
  | t :: ts => runTurn t { s with turns := ts }
  | [] => runTurn (ownTurn s) s

/-- The state with an instruction word where the next step fetches it (log 34). -/
def State.withFetchWord (s : State) (nbits w : Nat) : State :=
  let s := ready s
  match fetchKey s with
  | some k => { storeLE s k 8 (w % 2 ^ nbits) with turns := [.issue s.cur] }
  | none => s

end Sys2Proof.Machine
end

