-- ==== Sys2Proof/Safety.lean ====
section
/-! DEFINITION. The terms in which claims about the device are stated: when a word has its own effect, what a register reads as
at a place in a group's issue order, and what an issue changes beside the word's effect. -/

namespace Sys2Proof.Safety

open Sys2Proof.Machine

/-! ## When a word has its own effect -/

/-- R113: the issuer `q` of `s` may issue the word `i`, and nothing comes before its effect: no trap that a word raises
whatever its operands hold, no stop word's event, no token to wait for, no restart to clear. -/
structure Ready (s : State) (q : Issuer) (i : Instr) : Prop where
  issues : issuer s = some q
  noTrap : staticTrap s q i = none
  noStop : (fixed i).stop = false ∨ q.hand = true
  noToken : awaitsToken q i = none
  noRestart : q.g.returned = false ∨ q.hand = true

/-- Held results stand in program order, none of them younger than the word about to issue. -/
def Ordered (q : Issuer) : Prop := ∀ h ∈ q.ctx.held, h.seq ≤ q.at_

/-! ## Registers along the issue order -/

/-- R56: what scalar register `n` of the issuer reads as at issue index `k`. -/
def sAt (q : Issuer) (n k : Nat) : Dword := youngest q.ctx.held (.s n) 0 k (baseS q.ctx n)

/-- R56: vector register `n`, lane `l`, at issue index `k`. -/
def vAt (s : State) (q : Issuer) (n l k : Nat) : Word :=
  (youngest q.ctx.held (.v n) l k ((baseV s q n l).setWidth 64)).setWidth 32

/-- R56: predicate register `n`, not p7, at issue index `k`. -/
def pAt (q : Issuer) (n k : Nat) : Word :=
  q.ctx.held.foldl (fun acc h =>
    if h.dest = .p n && h.seen k then (acc &&& ~~~h.mask) ||| ((h.lane 0).setWidth 32 &&& h.mask) else acc) (baseP q.ctx n)

/-- R56: timeline binding `n` at issue index `k`. -/
def tlAt (q : Issuer) (n k : Nat) : Dword := youngest q.ctx.held (.tl n) 0 k (getZ q.ctx.tl n)

/-- R56: accumulator `n`, lane `l`, at issue index `k`. -/
def acAt (q : Issuer) (n l k : Nat) : Dword :=
  youngest q.ctx.held (.ac n) l k (match q.g.vec with
    | some v => getZ v.ac (32 * n + l)
    | none => 0)

/-- R126: the sticky flags at issue index `k`. -/
def flagsAt (q : Issuer) (k : Nat) : Dword :=
  let own := flagsSeen q.g.ctx.held (if q.hand then q.g.ctx.issued + 1 else k) q.g.fstat
  if q.hand then flagsSeen q.ctx.held k own else own

/-- R57: what the last of the held results for `d` makes of a value, in program order. -/
def lastHeld (d : Dest) (held : List Held) (x : Dword) : Dword := held.foldl (fun x h => if h.dest = d then h.lane 0 else x) x

/-- R57: the same in lane `l`, which a result's mask may leave out. -/
def lastHeldLane (d : Dest) (l : Nat) (held : List Held) (x : Dword) : Dword :=
  held.foldl (fun x h => if h.dest = d && h.mask.getLsbD l then h.lane l else x) x

/-- R57: the same for the bits of predicate register `n`. -/
def lastHeldP (n : Nat) (held : List Held) (x : Word) : Word :=
  held.foldl (fun x h => if h.dest = .p n then (x &&& ~~~h.mask) ||| ((h.lane 0).setWidth 32 &&& h.mask) else x) x

/-- R57, R126: what held flags make of `c.fstat`. -/
def heldFlags (held : List Held) (x : Dword) : Dword :=
  held.foldl (fun x h =>
    if h.dest = .flagsSet then x ||| h.lane 0 else if h.dest = .flagsClear then x &&& ~~~(h.lane 0) else x) x

/-- R54: a result of the word that is about to issue, visible from distance `lat` on. -/
def result (q : Issuer) (d : Dest) (m : Word) (vals : List Dword) (lat : Nat) : Held :=
  { dest := d, mask := m, vals, vis := .at (q.at_ + lat), seq := q.at_ }

/-- A scalar result. -/
def scalarResult (q : Issuer) (r : Reg) (v : Dword) (lat : Nat) : Held := result q (.s (regNum r)) (BitVec.allOnes 32) [v] lat

/-- R55: a long-latency result of the word that is about to issue. -/
def underWay (s : State) (q : Issuer) (dests : List Dest) (work : Work) : Pending :=
  { id := s.fresh, seq := q.at_, dests, work, stale := false }

/-! ## What an issue changes beside the word's effect -/

/-- R53, R58, R353: the context of a word that has issued: its next word at `pc`, and its own address kept. -/
def counted (pc : Dword) (c : Ctx) : Ctx := { c with pc, run := c.run + 1, issued := c.issued + 1, last := c.pc }

/-- The tables of the device other than those of groups, cores and blocks are the same. -/
structure SameDevice (s t : State) : Prop where
  mem : t.mem = s.mem
  sets : t.sets = s.sets
  launches : t.launches = s.launches
  queues : t.queues = s.queues
  kernels : t.kernels = s.kernels
  copies : t.copies = s.copies
  ises : t.ises = s.ises
  faults : t.faults = s.faults
  clusters : t.clusters = s.clusters
  bands : t.bands = s.bands
  equ : t.equ = s.equ
  parts : t.parts = s.parts
  tlb : t.tlb = s.tlb
  nest : t.nest = s.nest
  hours : t.hours = s.hours
  answers : t.answers = s.answers
  clock : t.clock = s.clock
  cur : t.cur = s.cur
  turns : t.turns = s.turns
  free : t.free = s.free

/-- Groups, cores and blocks: `t` is `s` but that the issuer's context is `c` and its issue is counted: the block's hang timer
restarts (R352), a threaded block's issue slot fired (R264), a released stop word is past (R405), and a vector group no longer
stands at a strip boundary (R398). -/
structure OnlyContext (s t : State) (q : Issuer) (c : Ctx) : Prop where
  issues : issuer t = some { q with
    g := { q.g with pass := false, strip := false, ctx := if q.hand then q.g.ctx else c }
    b := { q.b with hangCount := 0, fired := if q.b.ver = 0 then q.b.fired + 1 else q.b.fired }
    ctx := c, at_ := c.issued + 1 }
  group : look t.groups q.gid = some { q.g with pass := false, strip := false, ctx := if q.hand then q.g.ctx else c }
  otherGroups : ∀ g, g ≠ q.gid → look t.groups g = look s.groups g
  otherBlocks : ∀ b, b ≠ q.g.block → look t.blocks b = look s.blocks b
  core : coreOf t q.g.core = if q.hand then { coreOf s q.g.core with shadow := { (coreOf s q.g.core).shadow with ctx := c } }
    else coreOf s q.g.core
  otherCores : ∀ k, k ≠ q.g.core → coreOf t k = coreOf s k

/-- THE FRAME OF AN UNMARKED WORD: the state `t` is `s` but that the issuer's context is `c`, and its issue is counted. -/
def Only (s t : State) (q : Issuer) (c : Ctx) : Prop := SameDevice s t ∧ OnlyContext s t q c ∧ t.fresh = s.fresh

/-- THE END OF A WORD whose own effect on everything but its issuer's context leaves `s`: the issue is counted, the group goes
on at `pc` with the context `c`, and where the word is marked it is then at a switch marker (R57). Nothing else changes. -/
def Ends (s t : State) (q : Issuer) (f : Fixed) (pc : Dword) (c : Ctx) : Prop :=
  ∃ u, Only s u q (counted pc c) ∧ t = if f.sw then atMarker u q.gid else u

/-- The word only computes: it goes on at the next word with the held results `h`. -/
def Goes (s t : State) (q : Issuer) (f : Fixed) (h : List Held) : Prop :=
  Ends s t q f (q.ctx.pc + 8) { q.ctx with held := h }

/-- R55: the word has the long-latency result `p` under way, and goes on at the next word. -/
def Waits (s t : State) (q : Issuer) (f : Fixed) (p : Pending) : Prop :=
  Ends { s with fresh := s.fresh + 1 } t q f (q.ctx.pc + 8) { q.ctx with pend := q.ctx.pend ++ [p] }

/-- R398: a word of classes 0x30 to 0x32 has issued: its block is bound to its cluster. -/
def bindBlock (q : Issuer) (t : State) : State := modBlock t q.g.block (fun b => { b with clusterBound := true })

/-! ## Integers (R120, R121) -/

/-- R120: the value of a pattern. -/
def value (signed : Bool) (x : BitVec w) : Int := if signed then x.toInt else x.toNat

/-- R121: an exact result of an operation in `w` bits: mod 2^w, or with `.sat` clamped to the type's range. -/
def narrowed (w : Nat) (signed sat : Bool) (x : Int) : BitVec w :=
  BitVec.ofInt w
    (if sat then
      (if signed then max (-(2 ^ (w - 1) : Nat)) (min ((2 ^ (w - 1) : Nat) - 1) x) else max 0 (min ((2 ^ w : Nat) - 1) x))
    else x)

/-- R123: the value of an immediate. -/
def immediate (signed : Bool) (imm : BitVec 25) : Int := if signed then imm.toInt else imm.toNat

/-- An integer operation: from the width and the values of the operands to the exact result of R120. -/
abbrev IntRule := Nat → Int → Int → Int → Int

/-- R122: the value of a scalar operand of an integer word. -/
def scalarValue (ty : Ty) (x : Dword) : Int := if ty.wide then value ty.signed x else value ty.signed (x.setWidth 32)

/-- R122: what an integer word writes to its scalar destination. -/
def scalarNarrowed (ty : Ty) (sat : Bool) (x : Int) : Dword :=
  if ty.wide then narrowed 64 ty.signed sat x
  else if ty.signed then (narrowed 32 true sat x).signExtend 64 else (narrowed 32 false sat x).setWidth 64

/-- R119, R120 to R122: `mk` with register operands is the integer word of operation `x` on scalars. -/
def ScalarWord (mk : Fixed → IntForm → Instr) (x : IntRule) : Prop :=
  ∀ s q f ty d a b c sat, Ready s q (mk f (.salu ty d a b c sat)) → Ordered q →
    ∃ t, exec (mk f (.salu ty d a b c sat)) s = .next t ∧
      Goes s t q f (q.ctx.held ++ [scalarResult q d
        (scalarNarrowed ty sat (x (if ty.wide then 64 else 32) (scalarValue ty (scalarVal q a)) (scalarValue ty (scalarVal q b))
          (scalarValue ty (scalarVal q c)))) 1])

/-- R123: the same with an immediate in the place of b. -/
def ScalarImmediate (mk : Fixed → IntForm → Instr) (x : IntRule) : Prop :=
  ∀ s q f ty d a imm sat, Ready s q (mk f (.salui ty d a imm sat)) → Ordered q →
    ∃ t, exec (mk f (.salui ty d a imm sat)) s = .next t ∧
      Goes s t q f (q.ctx.held ++ [scalarResult q d
        (scalarNarrowed ty sat (x (if ty.wide then 64 else 32) (scalarValue ty (scalarVal q a)) (immediate ty.signed imm) 0)) 1])

/-! ## Lanes (R117 to R119) -/

/-- R42: a vector result in the lanes of `m`: 32-bit values, or 64-bit values in a pair with the low half in the even
register. -/
def laneResults (q : Issuer) (d : Reg) (wide : Bool) (m : Word) (vals : List Dword) (lat : Nat) : List Held :=
  result q (.v (regNum d)) m (vals.map (fun x => (x.setWidth 32).setWidth 64)) lat ::
    (if wide then [result q (.v (regNum d + 1)) m (vals.map (fun (x : Dword) => x >>> 32)) lat] else [])

/-- R118: element `j` of a lane. -/
def element (w j : Nat) (x : Dword) : BitVec w := x.extractLsb' (w * j) w

/-- R119 to R121: an integer word on lanes: every element of every active lane is the narrowed result; `b` gives the value of
operand b, per lane and element. -/
def LaneInteger (s t : State) (q : Issuer) (f : Fixed) (ty : Ty) (sat : Bool) (x : IntRule) (lat : Nat) (d a c : Reg)
    (b : Nat → Nat → Int) : Prop :=
  ∃ vals : List Dword, vals.length = 32 ∧
    (∀ l, l < 32 → (active q f).getLsbD l = true → ∀ j, j < elemCount ty →
      element (elemBits ty) j (vals.getD l 0) =
        narrowed (elemBits ty) ty.signed sat
          (x (elemBits ty) (value ty.signed (element (elemBits ty) j (laneVal s q ty.wide a l))) (b l j)
            (value ty.signed (element (elemBits ty) j (laneVal s q ty.wide c l))))) ∧
    Goes s t q f (q.ctx.held ++ laneResults q d ty.wide (active q f) vals lat)

/-- R119 to R121: `mk` with register operands is the integer word of operation `x` on lanes, visible at distance `lat`. -/
def LaneWord (mk : Fixed → IntForm → Instr) (x : IntRule) (lat : Nat) : Prop :=
  ∀ s q f ty d a b c sat, Ready s q (mk f (.valu ty d a b c sat)) → Ordered q →
    ∃ t, exec (mk f (.valu ty d a b c sat)) s = .next t ∧
      LaneInteger s t q f ty sat x lat d a c
        (fun l j => value ty.signed (element (elemBits ty) j (laneVal s q ty.wide b l)))

/-- R123: the same with an immediate in the place of b. -/
def LaneImmediate (mk : Fixed → IntForm → Instr) (x : IntRule) (lat : Nat) : Prop :=
  ∀ s q f ty d a imm sat, Ready s q (mk f (.valui ty d a imm sat)) → Ordered q →
    ∃ t, exec (mk f (.valui ty d a imm sat)) s = .next t ∧
      LaneInteger s t q f ty sat x lat d a .none (fun _ _ => immediate ty.signed imm)

/-! ## Invariants that statements rest on -/

/-- The register files of a group list their registers in rising order. -/
structure Files (g : Group) : Prop where
  scalars : rising g.ctx.s = true
  predicates : rising g.ctx.p = true
  bindings : rising g.ctx.tl = true
  accumulators : ∀ v, g.vec = some v → rising v.ac = true

/-- An invariant of the device: tables list their numbers in rising order, and a group's number is below the next one to be
given. -/
structure Tables (s : State) : Prop where
  groups : rising s.groups = true
  blocks : rising s.blocks = true
  launches : rising s.launches = true
  parts : rising s.parts = true
  eqQueues : rising s.equ.queues = true
  eqGroups : rising s.equ.groups = true
  points : rising s.hours.points = true
  regs : ∀ e ∈ s.parts, rising e.2.regs = true
  files : ∀ e ∈ s.groups, Files e.2
  vectors : ∀ e ∈ s.sets, rising e.2.v = true
  shadows : ∀ e ∈ s.cores, rising e.2.shadow.ctx.tl = true
  numbers : ∀ e ∈ s.groups, e.1 < s.fresh
  saved : ∀ b ∈ s.blocks, ∀ x, b.2.saved = some x → ∀ g ∈ x.groups,
    g.gid < s.fresh ∧ ∀ c, g.hand = some c → rising c.tl = true

/-! ## Results of lane words -/

/-- R126: the flags a word adds. -/
def flagResult (q : Issuer) (fl : Flags) (lat : Nat) : Held :=
  result q .flagsSet (BitVec.allOnes 32) [fl.setWidth 64] lat

/-- R42, R129: a predicate result in the lanes of `m`; p7 takes none. -/
def predResult (q : Issuer) (d : Reg) (m bits : Word) (lat : Nat) : List Held :=
  if d = .p 7 then [] else [result q (.p (regNum d)) m [bits.setWidth 64] lat]

/-- R127, R385: `s` with the generators of the active lanes at `gens`, if the word draws, and `flops` counted for each of
them. -/
def afterLanes (s : State) (q : Issuer) (m : Word) (gens : Option (Nat → Word)) (flops : Nat) : State :=
  let u := match gens with
    | some g => setRng s q m g
    | none => s
  if flops = 0 then u else addMeter u q.part 8 (flops * (laneList m).length)

/-- R119: a lane word goes on: the active lanes hold `vals`, then the flags are added. -/
def Delivers (s t : State) (q : Issuer) (f : Fixed) (d : Reg) (wide : Bool) (vals : List Dword) (fl : Option Flags) (lat : Nat)
    (gens : Option (Nat → Word)) (flops : Nat) : Prop :=
  Goes (afterLanes s q (active q f) gens flops) t q f
    (q.ctx.held ++ laneResults q d wide (active q f) vals lat ++ (fl.map (fun x => flagResult q x lat)).toList)

/-- R119, R126, R127: a lane word whose lane `l` computes `x l`: a disabled lane keeps D, adds no flag and draws nothing. -/
def LanesCompute (s t : State) (q : Issuer) (f : Fixed) (d : Reg) (wide flagging draws : Bool) (lat flops : Nat)
    (x : Nat → LaneOut) : Prop :=
  let outs := laneOuts (active q f) x
  Delivers s t q f d wide (outs.map (·.v)) (if flagging then some (flagsJoin (outs.map (·.flags))) else none) lat
    (if draws then some (fun l => (outs.map (·.g)).getD l 0) else none) flops

/-- R118: a lane word that sets no flag: element `j` of lane `l` becomes `e l j`. -/
def LaneElements (s t : State) (q : Issuer) (f : Fixed) (ty : Ty) (d : Reg) (lat : Nat)
    (e : Nat → Nat → BitVec (elemBits ty)) : Prop :=
  ∃ vals : List Dword, vals.length = 32 ∧
    (∀ l, l < 32 → (active q f).getLsbD l = true → ∀ j, j < elemCount ty → element (elemBits ty) j (vals.getD l 0) = e l j) ∧
    Goes s t q f (q.ctx.held ++ laneResults q d ty.wide (active q f) vals lat)

/-! ## Bit operations (R128) -/

/-- R128: from the width, the signedness, the elements of A and C, and the position and length that B gives. -/
abbrev BitRule := (w : Nat) → Bool → BitVec w → BitVec w → Nat → Nat → BitVec w

/-- R128: `mk` is the bit operation `x`, visible at distance `lat`. -/
def BitWord (mk : Fixed → BitForm → Instr) (lat : Nat) (x : BitRule) : Prop :=
  ∀ s q f o, Ready s q (mk f o) → Ordered q → ∃ t, exec (mk f o) s = .next t ∧
    LaneElements s t q f o.ty o.d lat (fun l j =>
      let b := laneVal s q o.ty.wide o.b l
      x (elemBits o.ty) o.ty.signed (element (elemBits o.ty) j (laneVal s q o.ty.wide o.a l))
        (element (elemBits o.ty) j (laneVal s q o.ty.wide o.c l)) (b.extractLsb' 0 8).toNat (b.extractLsb' 8 8).toNat)

/-- R128, `bfe`. -/
def fieldOut (w : Nat) (signed : Bool) (a _ : BitVec w) (pos len : Nat) : BitVec w :=
  if signed then ((a.sshiftRight pos).setWidth len).signExtend w else ((a >>> pos).setWidth len).setWidth w

/-- R128, `bfi`. -/
def fieldIn (w : Nat) (_ : Bool) (a c : BitVec w) (pos len : Nat) : BitVec w :=
  let m := (BitVec.allOnes len).setWidth w <<< pos
  (c &&& ~~~m) ||| ((a <<< pos) &&& m)

/-! ## Floating-point elements (R134) -/

/-- R134: from the format, the modes, the values of the operands and the generator after its advance to the element. -/
abbrev FloatRule := Fmt → Rnd → Bool → Val → Val → Val → Word → Rounded

/-- R134: an exact result is rounded once; NV for a signalling operand or an invalid operation. -/
def rounded (fmt : Fmt) (rnd : Rnd) (sat : Bool) (ops : List Val) (x : Exact) (draw : Word) : Rounded :=
  let r := roundTo fmt x.v rnd sat draw
  { r with flags := r.flags ||| flagIf (ops.any Val.signals) flagNV ||| flagIf x.invalid flagNV }

/-- R134: an operand, or one with another sign, is delivered; a NaN as the canonical one. -/
def delivered (fmt : Fmt) (ops : List Val) (x : Val) : Rounded :=
  { bits := (rneTo fmt x false).bits, flags := flagIf (ops.any Val.signals) flagNV }

/-- R134: a × b + c, exact; 0 × ∞ is invalid whatever c holds. -/
def exactFused (rnd : Rnd) (a b c : Val) : Exact :=
  if (mulVal a b).invalid then mulVal a b else addVal (mulVal a b).v c (rnd == .rm)

/-- R134: a is less than b, −0 less than +0. -/
def lessVal (a b : Val) : Bool :=
  match cmpVal a b with
  | some .lt => true
  | some .eq => a.sign && !b.sign
  | _ => false

/-- R134: of two operands the one that is no NaN, or `b` where `less`, else `a`. -/
def pickVal (takeA : Bool) (a b : Val) : Val := if a.isNaN then b else if b.isNaN then a else if takeA then a else b

/-- R133, R134: `mk` is the floating operation whose elements are `x`: L is 8 for f64 and 4 otherwise; each active lane
counts `flops` per element. -/
def FloatWord (mk : Fixed → FaluForm → Instr) (flops : Nat) (x : FloatRule) : Prop :=
  ∀ s q f o, Ready s q (mk f o) → Ordered q → ∃ t, exec (mk f o) s = .next t ∧
    LanesCompute s t q f o.d o.ty.wide true (o.rnd == .rs) (if o.ty = .f64 then 8 else 4) (elemCount o.ty * flops) (fun l =>
      let el (r : Reg) (j : Nat) : Val := valOf (tyFmt o.ty) (element (elemBits o.ty) j (laneVal s q o.ty.wide r l)).toNat
      eachElem o.rnd (elemBits o.ty) (fun j draw => x (tyFmt o.ty) o.rnd o.sat (el o.a j) (el o.b j) (el o.c j) draw)
        (elemCount o.ty) (rngOf s q l))

/-- R135: `mk` is the transcendental function `op`: L is 12. -/
def TranscendentalWord (mk : Fixed → TrnForm → Instr) (op : TrnOp) : Prop :=
  ∀ s q f o, Ready s q (mk f o) → Ordered q → ∃ t, exec (mk f o) s = .next t ∧
    LanesCompute s t q f o.d false true (o.rnd == .rs) 12 (elemCount o.ty) (fun l =>
      eachElem o.rnd (elemBits o.ty) (fun j draw =>
        let x := trnVal op (valOf (tyFmt o.ty) (element (elemBits o.ty) j (laneVal s q false o.a l)).toNat)
        let r := roundTo (tyFmt o.ty) x.v o.rnd false draw
        { r with flags := r.flags ||| x.flags }) (elemCount o.ty) (rngOf s q l))

/-- A format that holds integers. -/
def integerFmt (fmt : Fmt) : Bool := (fmtInt fmt 0).isSome

/-- R136: `mk` is the conversion that computes `x` of A, B, the old value of D and the generator: L is 4. -/
def ConversionWord (mk : Fixed → CvtForm → Instr) (x : CvtForm → Dword → Dword → Dword → Word → LaneOut) : Prop :=
  ∀ s q f o, Ready s q (mk f o) → Ordered q → ∃ t, exec (mk f o) s = .next t ∧
    LanesCompute s t q f o.d (o.dst == .f64) (!integerFmt o.dst || !integerFmt o.src) (o.rnd == .rs) 4 0 (fun l =>
      x o (laneVal s q (o.src == .f64) o.a l) (laneVal s q (o.src == .f64) o.b l) (laneVal s q (o.dst == .f64) o.d l)
        (rngOf s q l))

/-- R143: `mk` is a block decoder: L is 4. -/
def DecoderWord (mk : Fixed → BlkForm → Instr) : Prop :=
  ∀ s q f o, Ready s q (mk f o) → Ordered q → ∃ t, exec (mk f o) s = .next t ∧
    LanesCompute s t q f o.d false o.fmt.mx (o.rnd == .rs) 4 0 (fun l => decLane o.fmt o.rnd o.sat (laneVal s q false o.a l) (rngOf s q l))

/-- R142: `mk` is a block encoder over the group's 32 lanes: L is 6. Lane `l` supplies the f32 value of A if it is active,
else +0, and receives its element and the shared header in the layout of R141. -/
def EncoderWord (mk : Fixed → BlkForm → Instr) (enc : BlkForm → List (Val × Word) → Encoded) : Prop :=
  ∀ s q f o, Ready s q (mk f o) → Ordered q → ∃ t, exec (mk f o) s = .next t ∧
    let m := active q f
    let e := enc o ((List.range 32).map (fun l =>
      (if m.getLsbD l then valOf .f32 ((laneVal s q false o.a l).toNat % 2 ^ 32) else .fin false 0 0, rngNext o.rnd (rngOf s q l))))
    Delivers s t q f o.d false
      ((List.range 32).map (fun l => if m.getLsbD l then blockLane o.fmt e.header (e.elems.getD l 0) else 0))
      (some e.flags) 6 (if o.rnd = .rs then some (fun l => if m.getLsbD l then rngNext o.rnd (rngOf s q l) else 0) else none) 0

/-! ## Predicates (R129 to R131) -/

/-- R129: the condition on two integers. -/
def holdsInt (cond : Cond) (a b : Int) : Prop :=
  match cond with
  | .eq => a = b
  | .ne => a ≠ b
  | .lt => a < b
  | .le => a ≤ b
  | .gt => b < a
  | .ge => b ≤ a
  | .un => False
  | .or => True

/-- R129: the condition on two floating values, unordered where one is a NaN. -/
def holdsVal (cond : Cond) (a b : Val) : Prop :=
  match cond, cmpVal a b with
  | .eq, o => o = some .eq
  | .ne, o => o ≠ some .eq
  | .lt, o => o = some .lt
  | .le, o => o = some .lt ∨ o = some .eq
  | .gt, o => o = some .gt
  | .ge, o => o = some .gt ∨ o = some .eq
  | .un, _ => a.isNaN = true ∨ b.isNaN = true
  | .or, _ => a.isNaN = false ∧ b.isNaN = false

/-- R131: `mk` is the predicate operation `x`. -/
def PredicateWord (mk : Fixed → Ops4 → Instr) (x : Bool → Bool → Bool) : Prop :=
  ∀ s q f o, Ready s q (mk f o) → Ordered q → ∃ t bits, exec (mk f o) s = .next t ∧
    (∀ l, l < 32 → bits.getLsbD l = x ((readP q (regNum o.a)).getLsbD l) ((readP q (regNum o.b)).getLsbD l)) ∧
    Goes s t q f (q.ctx.held ++ predResult q o.d (active q f) bits 2)

/-! ## Words that change more than their context -/

/-- `u` is `s` once a word's effect on the device has taken place, and `r` its issuer: still the same word of the same group. -/
structure Still (u : State) (q r : Issuer) : Prop where
  issues : issuer u = some r
  gid : r.gid = q.gid
  hand : r.hand = q.hand
  place : r.at_ = q.at_
  pc : r.ctx.pc = q.ctx.pc
  core : r.g.core = q.g.core
  block : r.g.block = q.g.block

/-- R57: the word is done and acts as a switch marker, marked or not; its group goes on at `pc`. -/
def EndsMarked (s t : State) (q : Issuer) (pc : Dword) (c : Ctx) : Prop :=
  ∃ u, Only s u q (counted pc c) ∧ t = atMarker u q.gid

/-- R253: the word has issued and its group parks on `p`, to go on at the next word. -/
def Parks (s t : State) (q : Issuer) (c : Ctx) (p : Park) : Prop :=
  ∃ u, Only s u q (counted (q.ctx.pc + 8) c) ∧ t = parkGroup u q.gid p

/-- R55: a word with a settled long-latency scalar result, or none where the destination is absent. -/
def WaitsFor (s t : State) (q : Issuer) (f : Fixed) (d : Reg) (v : Dword) : Prop :=
  if d.absent then Goes s t q f q.ctx.held
  else Waits s t q f (underWay s q (destsOf d 1) (.value (BitVec.allOnes 32) [[v]]))

/-- R145: no access of a word meets a trap, and `k` are the places they translate to. -/
def Placed (s : State) (q : Issuer) (sp : Space) (n : Nat) (need : Need) (hostOk : Bool) (as : List LaneAddr) (k : Keys) : Prop :=
  badAddr s q.b sp n need.w as = none ∧ k = accessKeys s q.g.block q.b sp need hostOk as ∧ k.bad = none

/-- R151 to R154: `mk` is the atomic `op`: its accesses are under way, and will deliver the old values unless it is `atom.st`. -/
def AtomWord (mk : Fixed → AtomForm → Instr) (op : AtomOp) : Prop :=
  ∀ s q f o k, Ready s q (mk f o) →
    let n := if o.w64 then 8 else 4
    let sp : Space := if o.loc then .l else .g
    let as := laneAddrs s q f o.data o.base o.lane (!o.loc) o.off 0
    Placed s q sp n (atomNeed op) (hostAtomic op) as k → (op = .ld ∨ typedTrap q.b sp n as = none) →
    ∃ t, exec (mk f o) s = .next t ∧
      if as = [] then Goes k.s t q f q.ctx.held
      else Waits k.s t q f (underWay k.s q (if op = .st then [] else destsOf o.data (memRegs n o.data))
        (.atom op n o.uns (k.keys.map (fun e =>
          { lane := e.1, key := e.2, x := atomData s q o.w64 o.data e.1,
            next := atomData s q o.w64 (afterData o.w64 o.data) e.1 : AtomLane })) []))

/-- R181: the group has become the groups of `ps`: each has its members, goes on at its address, and stands where the old one
stood. Where the word is unmarked, each has the old one's scalar registers, bindings and results under way, its held results in
its own lanes, and its link. -/
def Splits (s t : State) (q : Issuer) (f : Fixed) (ps : List Part) : Prop :=
  look t.groups q.gid = none ∧ ∀ i p, ps[i]? = some p → ∃ g, look t.groups (s.fresh + i) = some g ∧
    g.mask = p.mask ∧ g.ctx.pc = p.pc ∧ g.block = q.g.block ∧ g.core = q.g.core ∧ g.set = q.g.set ∧ g.view = q.g.view ∧
    (f.sw = false → Ordered q → g.ctx.s = q.ctx.s ∧ g.ctx.tl = q.ctx.tl ∧ g.ctx.pend = q.ctx.pend ∧
      g.ctx.held = q.ctx.held.map (·.forMask p.mask) ++
        (p.link.map (fun x => result q (.s x.1) (BitVec.allOnes 32) [x.2] 1)).toList)

/-- The numbers of groups are in order, as `Tables` has them. -/
def Numbered (s : State) (q : Issuer) : Prop := q.gid < s.fresh ∧ rising s.groups = true

/-- R182: the core has a place for every one of `n` groups that one of its groups becomes. -/
def RoomFor (s : State) (q : Issuer) (n : Nat) : Prop := (coreGroups s q.g.core).length + n ≤ 65 ∧ Numbered s q

/-! ## Engine commands -/

/-- The word's number `n` is under way to D, if it has one, and its token operand, if it has one, is pending (R59, R159). -/
def Commands (u t : State) (r : Issuer) (f : Fixed) (o : Ops4) (e : EngRef) (n : Nat) : Prop :=
  Ends { u with fresh := u.fresh + (if o.d.absent then 0 else 1) } t r f (r.ctx.pc + 8)
    { r.ctx with
      pend := r.ctx.pend ++ (if o.d.absent then []
        else [underWay u r (destsOf o.d 1) (.value (BitVec.allOnes 32) [[BitVec.ofNat 64 n]])])
      toks := r.ctx.toks ++ (if o.c.absent then [] else [({ reg := regNum o.c, eng := e, op := n } : Token)]) }

/-- R159: the context of `e` with an operation more, its number the next one. -/
def withOp (u : State) (q : Issuer) (e : EngRef) (work : EngWork) (token : Bool) : State :=
  let c := engCtx u e
  setEngCtx u e { c with
    issued := c.issued + 1
    ops := c.ops ++ [{
      no := c.issued + 1, part := q.part, block := q.g.block, core := q.g.core, work, token, next := 0, wait := none, spill := [],
      zero := [], decs := 0, code := 0, fails := 0, first := none, ended := none, reported := false, covered := [] }] }

/-- R159, R161, R162, R167: `mk` is a command to the engines of kind `kind`, whose descriptor of `size` bytes in the local window
`parse` reads: a bad binding or descriptor traps, a full queue makes the group wait, and else the group's earlier accesses are
performed and the operation enters the context. -/
def CommandWord (mk : Fixed → Ops4 → Instr) (kind size : Nat)
    (parse : Issuer → Nat → EngRef → List Byte → Option EngWork) : Prop :=
  ∀ s q f o, Ready s q (mk f o) →
    let b := readTl q (regNum o.b)
    let e := bindRef b
    let a := (scalarVal q o.a).toNat
    let bound := bitAt b 63 = true ∧ e.kind = kind ∧ engOwned s q.part e = true
    let u := releaseNow s q.gid
    let d := parse q (blockLocal s q.b) e (ownLocal u q a size)
    (¬bound → exec (mk f o) s = .next (trapBefore s q 0x30 0 false)) ∧
    (bound → a % size ≠ 0 ∨ blockLocal s q.b < a + size → exec (mk f o) s = .next (trapBefore s q 0x31 0 false)) ∧
    (bound → a % size = 0 → a + size ≤ blockLocal s q.b →
      (d = none → exec (mk f o) s = .next (trapBefore u q 0x31 0 false)) ∧
      (∀ w, d = some w →
        (engFull u e = true → exec (mk f o) s = .next (parkGroup u q.gid (.full e))) ∧
        (∀ r, engFull u e = false → Still (withOp u q e w o.c.used) q r →
          ∃ t, exec (mk f o) s = .next t ∧ Commands (withOp u q e w o.c.used) t r f o e ((engCtx u e).issued + 1))))

/-- R242 to R244: `mk` is the band operation of kind `kind`, whose address is a multiple of `align`. -/
def BandWord (mk : Fixed → Ops4 → Instr) (kind align : Nat) : Prop :=
  ∀ s q f o, Ready s q (mk f o) →
    let own := ownBand s q (readTl q (regNum o.b))
    let a := (scalarVal q o.a).toNat
    (own = none → exec (mk f o) s = .next (trapBefore s q 0x30 0 false)) ∧
    (∀ first d, own = some (first, d) →
      let u := releaseNow s q.gid
      let e : EngRef := { kind := 3, unit := first, ctx := 0 }
      (a % align ≠ 0 → exec (mk f o) s = .next (trapBefore s q 0x10 (scalarVal q o.a) (kind == 3))) ∧
      (a % align = 0 → ∀ b, look u.bands first = some b →
        let v := setBand u first { b with
          issued := b.issued + 1
          ops := b.ops ++ [{
            no := b.issued + 1, kind, addr := a, record := if o.c.used then some (scalarVal q o.c).toNat else none,
            block := q.g.block, started := false, code := none, info := BitVec.allOnes 64, flags := 0, wait := none }] }
        (8 ≤ b.ops.length → exec (mk f o) s = .next (parkGroup u q.gid (.full e))) ∧
        (∀ r, b.ops.length < 8 → Still v q r →
          ∃ t, exec (mk f o) s = .next t ∧ WaitsFor v t r f o.d (BitVec.ofNat 64 (b.issued + 1)))))

/-- R201: the entries of `lanes` are with the expert queue unit, in ascending lane order, and their statuses are under way. -/
def Enqueues (u t : State) (q r : Issuer) (f : Fixed) (o : Ops4) (lanes : List (Nat × Word × Quad)) : Prop :=
  let x := enqueueLanes u q lanes
  if lanes = [] then Goes x.1 t r f r.ctx.held
  else Waits x.1 t r f (underWay x.1 r (destsOf o.d 1) (.value (ofLanes (fun l => lanes.any (fun y => y.1 == l)))
    [(List.range 32).map (fun l => BitVec.ofNat 64 (((x.2.find? (fun y => y.1 == l)).map (·.2)).getD 0))]))

/-! ## Debug commands -/

/-- R404: the state in which the command at `addr` runs: its address is in the register, and STATUS reads running. -/
def started (s : State) (part addr : Nat) : State := startCommand (debugCmd s part addr).1 part addr

/-- R404, R405: `mk` is the debug command of operation `op`: on the block it names it does what `run` says. It is ignored while
another runs, at an address that is not aligned, and while the partition is away; and a block that is not there is reported. -/
def DebugCommand (mk : Nat → Nat → Instr) (op : Nat)
    (run : State → Nat → Nat → DebugCmd → Nat → Block → State) : Prop :=
  ∀ s part addr p, look s.parts part = some p → (debugCmd s part addr).2.op = op → p.command = none →
    let c := (debugCmd s part addr).2
    let u := started s part addr
    (p.swappedOut = true ∨ addr % 64 ≠ 0 → exec (mk part addr) s = .next s) ∧
    (p.swappedOut = false → addr % 64 = 0 →
      (debugBlock u part c = none → exec (mk part addr) s = .next (commandStatus u part addr 0x11)) ∧
      (∀ blk b, debugBlock u part c = some (blk, b) → exec (mk part addr) s = .next (run u part addr c blk b)))

end Sys2Proof.Safety
end

