-- ==== Sys2Proof/Certificates/Slice0/Obligations.lean ====
section
/-! DEFINITION. The obligations: statements about the device, each to be proved from the model. -/

open Sys2Proof Sys2Proof.Machine Sys2Proof.Safety

/-- R416, R419, R51, R159, R224: device reset leaves start-up mode before step 1, nothing resident, and tile
registers, engine counters and `c.mestat` at the values their maps give; memory lists nothing, in its canonical form
(that it reads as zero there is log 1). -/
def Obligations.ResetState : Prop :=
  let s := State.reset
  Memory.wf s.mem = true ∧ Tables s ∧ s.mem = [] ∧ s.groups = [] ∧ s.blocks = [] ∧ s.launches = [] ∧ s.parts = [] ∧ s.kernels = [] ∧ s.queues = [] ∧
    s.faults = [] ∧ s.bands = [] ∧ s.tlb = [] ∧ s.nest = [] ∧ s.hours.mode = .startUp ∧ s.hours.startStep = 1 ∧ s.clock = 0 ∧
    (∀ n c, tileLo (clusterOf s c) n = 0 ∧ tileHi (clusterOf s c) n = 0x8000000000000000) ∧
    (∀ e, (engCtx s e).issued = 0 ∧ (engCtx s e).count = 0 ∧ (engCtx s e).ops = []) ∧
    (∀ k, (coreOf s k).mestat = 0 ∧ (coreOf s k).halted = false ∧ (coreOf s k).storeQ = [])

/-- The words the manual writes out, as they decode. -/
def Obligations.WordsDecodeAsWritten : Prop :=
  let f : Fixed := { sw := false, stop := false, pred := 7, sense := false }
  decode 0x0000FFFFFFE0EFF8 = some (.nop f) ∧
  decode 0x873802004040E019 = some (.fma { f with sw := true }
    { ty := .f32, d := .v 4, a := .v 1, b := .v 2, c := .v 3, sat := false, rnd := .rz }) ∧
  decode 0x101004C100005800 = some (.ld { f with pred := 2, sense := true }
    { space := .g, ty := .i32, mode := .scalar, data := .v 9, base := .s 4, off := 64 }) ∧
  decode 0x030002812060EFF8 = some (.addInteger f (.valu .i32 (.v 5) (.v 4) (.s 3) .none false)) ∧
  decode 0x040002813FFFE7FD = some (.addInteger f (.valui .i32 (.v 5) (.v 4) (-3) false)) ∧
  decode 0x090601007FF0E080 = some (.cvt f
    { dst := .e4m3, src := .f32, d := .v 2, a := .v 1, b := .none, sat := true, j := 0, rnd := .rne }) ∧
  decode 0x1300FFFFC000E00A = some (.fence f .clu .rel) ∧
  decode 0x150082C12B00E838 = some (.acopy f { d := .s 5, a := .s 4, b := .tl 0, c := .s 7 }) ∧
  decode 0x2000000000032000 = some (.br { f with pred := 1 } 3) ∧
  decode 0x220382FFFFE06FF8 = some (.ballot { f with pred := 3 } (.s 5)) ∧
  decode 0x280080C10000E011 = some (.mwait f .eq { data := .s 1, base := .s 4, off := 0 } .dev .acq) ∧
  decode 0x310183522932E828 = some (.mmaPair f true 2 { d := .s 6, a := .t 0, b := .t 1, c := .s 5 }) ∧
  decode 0x32030042BFE0EFF8 = some (.ard f false { d := .v 0, a := .s 10, b := .none, c := .none }) ∧
  decode 0x3300FFC0FFE0EFF8 = some (.vstrip f { d := .none, a := .s 3, b := .none, c := .none })

/-- R89 to R110: decoding the encoding of a well-formed instruction word gives it back, whatever its operands. -/
def Obligations.DecodeInvertsEncode : Prop := ∀ i : Instr, i.isWord = true → i.wf = true → decode i.encode = some i

/-- R89 to R111: a word that decodes to a well-formed instruction is its encoding: no bit of it goes unread. -/
def Obligations.EncodeInvertsDecode : Prop := ∀ w i, decode w = some i → i.wf = true → i.encode = w

/-- R53, R339, R374, R384, R389, R413: a group that may issue runs the instruction that the word at its pc decodes to, and text
in host memory counts on the host meter; a word that is none traps, and so does a fetch that translation refuses. Cold text is
fetched from the cold cache, where its granule is first copied; the fetch traps if the copy fails. The model's own: the word is
read from memory at each issue (log 20), a refused fetch comes before the other checks (log 19), and what the rest of a turn
does is the event it names (log 33). -/
def Obligations.StepRunsTheDecodedWord : Prop :=
  (∀ s g ts q, s.turns = .issue g :: ts →
    let u : State := { s with turns := ts, cur := g }
    canIssue u g = true → issuer u = some q →
    let pc := q.ctx.pc.toNat
    let cold (e : Nat × Kernel) : Bool := e.2.part == q.part && e.2.coldHolds pc
    let runs (x : State) (a : Nat) : Prop :=
      let o := xlate x q.part a needX
      (∀ k, o.res = .ok k →
        let w := BitVec.ofNat 64 (loadLE o.s k 8)
        let v := meterHost o.s q.part k 8
        (poisonedAt o.s k 8 = false → ∀ i, decode w = some i → step s = exec i v) ∧
        (poisonedAt o.s k 8 = false → decode w = none → step s = .next (trapBefore v q (badWordCause v q w) 0 false)) ∧
        (poisonedAt o.s k 8 = true → step s = .next (killBlock v q.g.block 2))) ∧
      (∀ c, o.res = .bad c → step s = .next (trapBefore o.s q 0x17 q.ctx.pc false))
    (u.kernels.find? cold = none → runs u pc) ∧
    (∀ h k, u.kernels.find? cold = some (h, k) →
      (copyGranule u h ((pc - k.coldHost) / 4096) = none → step s = .next (trapBefore u q 0x17 q.ctx.pc false)) ∧
      (∀ x, copyGranule u h ((pc - k.coldHost) / 4096) = some x → runs x (k.cache + (pc - k.coldHost))))) ∧
  (∀ s i ts, s.turns = .event i :: ts → i.isWord = false → step s = exec i { s with turns := ts }) ∧
  (∀ s, s.turns = [] → step s = runTurn (ownTurn s) s)

/-- No step stops: every state has a next one, and an instruction stops only where no group issues it. -/
def Obligations.EveryStepAnswers : Prop :=
  (∀ s, ∃ t, step s = .next t) ∧
  (∀ i s, i.isWord = false ∨ (issuer s).isSome = true → ∃ t, exec i s = .next t) ∧
  (∀ i s, i.isWord = true → issuer s = none → exec i s = .fault .noIssuer)

/-- Every step keeps memory in its canonical form (addresses rising, no byte listed that unlisted memory reads as). -/
def Obligations.StepsKeepMemoryCanonical : Prop := ∀ s t, Memory.wf s.mem = true → step s = .next t → Memory.wf t.mem = true

/-- Every step keeps the tables in order (`Tables`), on which other statements rest. Group numbers are the model's
(log 9). -/
def Obligations.StepsKeepTablesInOrder : Prop := ∀ s t, Tables s → step s = .next t → Tables t

/-- R54 to R57: a fixed-latency result is read from its distance on and the value before it until then; one that waits
for the marker is not read; a marker with results outstanding parks the group, and one without makes every result the
register's value. That an older result goes on to show in the lanes that a younger masked one does not name, lane by lane, is
the model's choice (log 42): R56 leaves it open. -/
def Obligations.ResultsShowAtTheirDistance : Prop :=
  (∀ (q : Issuer) r n v lat k m, regNum r = n →
    let after : Issuer := { q with ctx := { q.ctx with held := q.ctx.held ++ [scalarResult q r v lat] }, at_ := k }
    readS after m = if m = n ∧ q.at_ + lat ≤ k then v else readS { q with at_ := k } m) ∧
  (∀ s (q : Issuer) n mask vals lat k m l, l < 32 → vals.length = 32 →
    let after : Issuer := { q with ctx := { q.ctx with held := q.ctx.held ++ [result q (.v n) mask vals lat] }, at_ := k }
    readV s after m l = if m = n ∧ q.at_ + lat ≤ k ∧ mask.getLsbD l = true then (vals.getD l 0).setWidth 32
      else readV s { q with at_ := k } m l) ∧
  (∀ s (q : Issuer) (h : Held) n l, h.vis = .marker →
    let after : Issuer := { q with ctx := { q.ctx with held := q.ctx.held ++ [h] } }
    readS after n = readS q n ∧ readV s after n l = readV s q n l) ∧
  (∀ s gid g, look s.groups gid = some g → (ctxOf s g).pend ≠ [] → atMarker s gid = parkGroup s gid .marker) ∧
  (∀ s gid g, look s.groups gid = some g → g.handler = false → g.ctx.undef = none → g.ctx.pend = [] → Tables s →
    let u := atMarker s gid
    ∃ t, look u.groups gid = some t ∧ t.ctx.held = [] ∧ t.ctx.run = 0 ∧ t.ctx.pc = g.ctx.pc ∧ t.mask = g.mask ∧
      (∀ n, baseS t.ctx n = lastHeld (.s n) g.ctx.held (baseS g.ctx n)) ∧
      (∀ n, baseP t.ctx n = lastHeldP n g.ctx.held (baseP g.ctx n)) ∧
      (∀ n, getZ t.ctx.tl n = lastHeld (.tl n) g.ctx.held (getZ g.ctx.tl n)) ∧
      t.fstat = heldFlags g.ctx.held g.fstat ∧
      (∀ v, g.vec = some v → ∃ v', t.vec = some v' ∧ ∀ n l, l < 32 →
        getZ v'.ac (32 * n + l) = lastHeldLane (.ac n) l g.ctx.held (getZ v.ac (32 * n + l))) ∧
      (∀ a, look s.sets g.set = some a → ∃ v, look u.sets g.set = some { a with v } ∧ ∀ n l, l < 32 →
        getZ v (32 * n + l) = (lastHeldLane (.v n) l g.ctx.held ((getZ a.v (32 * n + l)).setWidth 64)).setWidth 32) ∧
      u.mem = s.mem ∧ (∀ k, k ≠ gid → look u.groups k = look s.groups k) ∧ (∀ k, k ≠ g.set → look u.sets k = look s.sets k)) ∧
  (∀ s gid g, look s.groups gid = some g → g.handler = true → Tables s →
    let c := (shadowOf s g.core).ctx
    c.pend = [] →
    let u := atMarker s gid
    let c' := (shadowOf u g.core).ctx
    c'.held = [] ∧ c'.run = 0 ∧ c'.pc = c.pc ∧ c'.undef = c.undef ∧
      (∀ n, baseS c' n = lastHeld (.s n) c.held (baseS c n)) ∧
      (∀ n, baseP c' n = lastHeldP n c.held (baseP c n)) ∧
      (∀ n, getZ c'.tl n = lastHeld (.tl n) c.held (getZ c.tl n)) ∧
      (∀ n l, l < 32 → look (shadowOf u g.core).hv (32 * n + l) = c.held.foldl
        (fun x h => if h.dest = .v n && h.mask.getLsbD l then some ((h.lane l).setWidth 32) else x)
        (look (shadowOf s g.core).hv (32 * n + l))) ∧
      ∃ t, look u.groups gid = some t ∧ t.fstat = heldFlags c.held g.fstat ∧ t.ctx.s = g.ctx.s ∧ t.ctx.pc = g.ctx.pc)

/-- R113: of the traps that a word raises whatever its operands hold, only the first that applies is raised, before
issue. -/
def Obligations.TrapsComeInTheirOrder : Prop :=
  ∀ s q i, i.isWord = true → issuer s = some q →
    let c := (classMinor i).1
    let m := (classMinor i).2
    let faults : List (Bool × Nat) := [
      (decide (48 ≤ q.ctx.run), 0x03),
      (!assigned c m || !classModel c m q.model, 0x01),
      (maskedBy s q c m, 0x02),
      (!i.wf || !legal q.where_ i, 0x01),
      (outOfView q i, 0x04),
      (overwritesToken q i, 0x05),
      (exposed q i, 0x06),
      ((fixed i).stop && q.ctx.run != 0, 0x07)]
    ∀ (k : Nat) (x : Bool × Nat), faults[k]? = some x → x.1 = true → (∀ (j : Nat) (y : Bool × Nat), j < k → faults[j]? = some y → y.1 = false) →
      exec i s = .next (trapBefore s q x.2 0 false)

/-- R61, R63, R389 to R392: a trap enters the handler, with h0 to h4 written and everything of the group kept; it
waits behind a running handler; with no handler its block freezes; and one of the handler itself halts the core. That h2 and h4
of a trap that was pending in a saved image are the values its record gives is the model's choice (log 21). -/
def Obligations.TrapsEnterTheHandler : Prop :=
  (∀ s gid g b x entry, look s.groups gid = some g → look s.blocks g.block = some b → handlerEntry s b.part = some entry →
    ∃ t, look (deliverTrap s gid x).groups gid = some t ∧ t.handler = true ∧ t.trap = none ∧ t.park = none ∧ t.ctx = g.ctx ∧
      t.mask = g.mask ∧ (coreOf (deliverTrap s gid x) g.core).serving = some gid ∧
      let h := (coreOf (deliverTrap s gid x) g.core).shadow.ctx
      h.pc = entry ∧ h.run = 0 ∧ h.held = [] ∧ h.pend = [] ∧
      baseS h 0 = BitVec.ofNat 64 (x.cause % 2 ^ 16 + (if x.write then 2 ^ 16 else 0)) ∧ baseS h 1 = x.word ∧
      baseS h 2 = (x.given.map (·.1)).getD (BitVec.ofNat 64 g.lastSafe) ∧ baseS h 3 = x.addr ∧
      baseS h 4 = (x.given.map (·.2)).getD (if g.vec.isSome then 0xFFFFFFFF else g.mask.setWidth 64)) ∧
  (∀ s gid g b x, look s.groups gid = some g → look s.blocks g.block = some b → handlerEntry s b.part = none →
    ∃ t u, look (deliverTrap s gid x).blocks g.block = some t ∧ t.frozen.isSome = true ∧
      look (deliverTrap s gid x).groups gid = some u ∧ u.ctx = g.ctx ∧ u.handler = g.handler) ∧
  (∀ s q x, issuer s = some q → q.hand = false →
    ((coreOf s q.g.core).serving = none → takeTrap s q x = deliverTrap s q.gid x) ∧
    ((coreOf s q.g.core).serving ≠ none →
      takeTrap s q x = modGroup s q.gid (fun g => { g with trap := some x, active := false, readyAt := none }))) ∧
  (∀ s q x, issuer s = some q → q.hand = true → (coreOf (takeTrap s q x) q.g.core).halted = true ∧
    ∀ gid g b, look s.groups gid = some g → g.core = q.g.core → look s.blocks g.block = some b → (gid, g) ∈ s.groups →
      ∃ t, look (takeTrap s q x).blocks g.block = some t ∧ t.frozen.isSome = true)

/-- R59, R158, R239, R405: what comes before a word's own effect: the wait for a pending token it reads, the clearing
of a restart it does not consume, and a halt at a stop word. R266, R267: a stop word that is not halted at is an arrival of its
group; it parks the group where a hop is armed there, and goes on as any word where none is, its threads' counts raised; an
arrival of the block closes a span and is decided on. That a failed run of the band arms no hop is log 30. -/
def Obligations.EventsBeforeAWord : Prop :=
  (∀ s q i n, i.isWord = true → issuer s = some q → staticTrap s q i = none → ((fixed i).stop = false ∨ q.hand = true) →
    awaitsToken q i = some n → exec i s = .next (parkGroup s q.gid n)) ∧
  (∀ s q i, i.isWord = true → issuer s = some q → staticTrap s q i = none → ((fixed i).stop = false ∨ q.hand = true) →
    awaitsToken q i = none → q.g.returned = true → q.hand = false →
    let c := (classMinor i).1
    let strip := c = 0x33 ∧ (classMinor i).2 = 0
    let u := modGroup s q.gid (fun g => { g with
      returned := false
      cxp := if c = 0x14 then g.cxp else g.cxp &&& 0x7FFFFFFFFFFFFFFF
      vstrip := if strip then g.vstrip else g.vstrip &&& 0x7FFFFFFFFFFFFFFF })
    exec i s = exec i u) ∧
  (∀ s q i k e h, i.isWord = true → issuer s = some q → staticTrap s q i = none → (fixed i).stop = true → q.hand = false →
    kernelOf s q.b = some k → safePointAt k q.b.ver q.ctx.pc = some e → q.b.halt = some h → q.g.pass = false →
    (h.ord = none ∨ h.ord = some e.ord) →
    ∃ t g, exec i s = .next t ∧ look t.groups q.gid = some g ∧
      g = { q.g with lastSafe := e.ord, park := some .halted, active := false, readyAt := none }) ∧
  (∀ s q i k e, ∀ act : State → Issuer → State, i.isWord = true → (∀ x, exec i x = word i x act) → issuer s = some q →
    staticTrap s q i = none → (fixed i).stop = true → q.hand = false → kernelOf s q.b = some k →
    safePointAt k q.b.ver q.ctx.pc = some e →
    (∀ h, q.b.halt = some h → q.g.pass = true ∨ ∃ n, h.ord = some n ∧ n ≠ e.ord) →
    let v := modGroup s q.gid (fun g => { g with lastSafe := e.ord })
    let counts := e.ep && ofTheT v q.g
    let u := if counts then arrive v q.gid e.ord else v
    let armed := ∃ b h, look u.blocks q.g.block = some b ∧ b.hop = some h ∧ h.ord = e.ord
    (counts = true ∧ armed → exec i s = .next (parkGroup u q.gid (.hop e.ord))) ∧
    (¬(counts = true ∧ armed) →
      (∀ n, awaitsToken q i = some n → exec i s = .next (parkGroup u q.gid n)) ∧
      (awaitsToken q i = none → ∀ r, issuer (clearRestart u q i) = some r →
        let w := act (clearRestart u q i) r
        let x := if issued w r && clusterWord i then bindBlock r w else w
        exec i s = .next (if issued x r then passStopWord (clearRestart u q i) x r else x)))) ∧
  (∀ before s q k e b, kernelOf s q.b = some k → safePointAt k q.b.ver q.ctx.pc = some e → look s.blocks q.g.block = some b →
    ∃ t : Tab Nat, look (passStopWord before s q).blocks q.g.block = some { b with threadArrivals := t } ∧ ∀ n, (look t n).getD 0 =
      (look b.threadArrivals n).getD 0 + (if e.ep = true ∧ ofTheT s q.g = true then (countKeys before q.g e.ord).count n else 0)) ∧
  (∀ s gid g b k l ord, look s.groups gid = some g → look s.blocks g.block = some b → kernelOf s b = some k →
    look s.launches b.launch = some l →
    let n := (look b.arrivals ord).getD 0
    let keys := countKeys s g ord
    let count (j : Nat) : Nat := (look b.threadArrivals j).getD 0 + keys.count j
    ((∀ j ∈ keys, count j ≤ n) → arrive s gid ord = s) ∧
    (∀ j ∈ keys, n < count j → (∀ m ∈ keys, count m ≤ count j) →
      let a := { b with arrivals := put b.arrivals ord (count j) }
      let y := { a with spans := b.spans ++ [{ elems := spanElements s b, fired := b.fired }], spanFrom := s.clock, fired := 0 }
      let w := modBlock s g.block (fun _ => { y with hopReq := none })
      let wanted := match b.hopReq with
        | some c => requested (headerPref k.header) b.ver c
        | none => if inefficient (partReg s b.part (0x200 + headerRule k.header)) y then othersFrom (headerPref k.header) b.ver
          else []
      let fits (c p : Nat) : Prop := c ≠ b.ver ∧ (mapOf k ord b.ver c).isSome = true ∧ holdsClaim w g.block = false ∧
        hopPlace w g.block y k (l.tm1 + 1) c = some p
      let may := b.dbg = false ∧ ¬(b.ver = 2 ∧ drainFailed w y = true)
      (b.skipArrival = some ord → arrive s gid ord = modBlock s g.block (fun _ => { a with skipArrival := none })) ∧
      (b.skipArrival ≠ some ord → b.hop.isSome = true → arrive s gid ord = modBlock s g.block (fun _ => y)) ∧
      (b.skipArrival ≠ some ord → b.hop = none → (¬may ∨ ∀ c ∈ wanted, ∀ p, ¬fits c p) → arrive s gid ord = w) ∧
      (b.skipArrival ≠ some ord → b.hop = none → may → ∀ (m c p : Nat), wanted[m]? = some c → fits c p →
        (∀ (i d : Nat), i < m → wanted[i]? = some d → ∀ p', ¬fits d p') →
        arrive s gid ord = modBlock { w with free := s.free + 1 } g.block (fun b => { b with
          hop := some {
            ord, target := c, armedAt := s.clock, place := p, rows := if c = 2 then imageRows w b.part k else 0, met := false } }))))

/-- R120 to R123: what the integer words write to a scalar register. -/
def Obligations.ScalarIntegerResults : Prop :=
  ScalarWord .addInteger (fun _ a b _ => a + b) ∧
  ScalarWord .subInteger (fun _ a b _ => a - b) ∧
  ScalarWord .mulInteger (fun _ a b _ => a * b) ∧
  ScalarWord .mulhi (fun w a b _ => a * b / (2 ^ w : Nat)) ∧
  ScalarWord .madInteger (fun _ a b c => a * b + c) ∧
  ScalarWord .andInteger (fun w a b _ => (BitVec.ofInt w a &&& BitVec.ofInt w b).toNat) ∧
  ScalarWord .orInteger (fun w a b _ => (BitVec.ofInt w a ||| BitVec.ofInt w b).toNat) ∧
  ScalarWord .xorInteger (fun w a b _ => (BitVec.ofInt w a ^^^ BitVec.ofInt w b).toNat) ∧
  ScalarWord .shl (fun w a b _ => (BitVec.ofInt w a <<< BitVec.ofInt w b).toNat) ∧
  ScalarWord .shr (fun w a b _ => (BitVec.ofInt w a >>> BitVec.ofInt w b).toNat) ∧
  ScalarWord .sar (fun w a b _ => ((BitVec.ofInt w a).sshiftRight (BitVec.ofInt w b).toNat).toInt) ∧
  ScalarWord .minInteger (fun _ a b _ => min a b) ∧
  ScalarWord .maxInteger (fun _ a b _ => max a b) ∧
  ScalarWord .absInteger (fun _ a _ _ => (a.natAbs : Int)) ∧
  ScalarWord .movInteger (fun _ a _ _ => a) ∧
  ScalarWord .negInteger (fun _ a _ _ => -a) ∧
  ScalarImmediate .addInteger (fun _ a b _ => a + b) ∧
  ScalarImmediate .subInteger (fun _ a b _ => a - b) ∧
  ScalarImmediate .mulInteger (fun _ a b _ => a * b) ∧
  ScalarImmediate .mulhi (fun w a b _ => a * b / (2 ^ w : Nat)) ∧
  ScalarImmediate .andInteger (fun w a b _ => (BitVec.ofInt w a &&& BitVec.ofInt w b).toNat) ∧
  ScalarImmediate .orInteger (fun w a b _ => (BitVec.ofInt w a ||| BitVec.ofInt w b).toNat) ∧
  ScalarImmediate .xorInteger (fun w a b _ => (BitVec.ofInt w a ^^^ BitVec.ofInt w b).toNat) ∧
  ScalarImmediate .shl (fun w a b _ => (BitVec.ofInt w a <<< BitVec.ofInt w b).toNat) ∧
  ScalarImmediate .shr (fun w a b _ => (BitVec.ofInt w a >>> BitVec.ofInt w b).toNat) ∧
  ScalarImmediate .sar (fun w a b _ => ((BitVec.ofInt w a).sshiftRight (BitVec.ofInt w b).toNat).toInt) ∧
  ScalarImmediate .minInteger (fun _ a b _ => min a b) ∧
  ScalarImmediate .maxInteger (fun _ a b _ => max a b) ∧
  ScalarImmediate .movInteger (fun _ _ b _ => b)

/-- R120, R121, R123: what the integer words write to the lanes of a vector register. -/
def Obligations.LaneIntegerResults : Prop :=
  LaneWord .addInteger (fun _ a b _ => a + b) 2 ∧
  LaneWord .subInteger (fun _ a b _ => a - b) 2 ∧
  LaneWord .mulInteger (fun _ a b _ => a * b) 3 ∧
  LaneWord .mulhi (fun w a b _ => a * b / (2 ^ w : Nat)) 3 ∧
  LaneWord .madInteger (fun _ a b c => a * b + c) 3 ∧
  LaneWord .andInteger (fun w a b _ => (BitVec.ofInt w a &&& BitVec.ofInt w b).toNat) 2 ∧
  LaneWord .orInteger (fun w a b _ => (BitVec.ofInt w a ||| BitVec.ofInt w b).toNat) 2 ∧
  LaneWord .xorInteger (fun w a b _ => (BitVec.ofInt w a ^^^ BitVec.ofInt w b).toNat) 2 ∧
  LaneWord .shl (fun w a b _ => (BitVec.ofInt w a <<< BitVec.ofInt w b).toNat) 2 ∧
  LaneWord .shr (fun w a b _ => (BitVec.ofInt w a >>> BitVec.ofInt w b).toNat) 2 ∧
  LaneWord .sar (fun w a b _ => ((BitVec.ofInt w a).sshiftRight (BitVec.ofInt w b).toNat).toInt) 2 ∧
  LaneWord .minInteger (fun _ a b _ => min a b) 2 ∧
  LaneWord .maxInteger (fun _ a b _ => max a b) 2 ∧
  LaneWord .absInteger (fun _ a _ _ => (a.natAbs : Int)) 2 ∧
  LaneWord .movInteger (fun _ a _ _ => a) 2 ∧
  LaneWord .negInteger (fun _ a _ _ => -a) 2 ∧
  LaneImmediate .addInteger (fun _ a b _ => a + b) 2 ∧
  LaneImmediate .subInteger (fun _ a b _ => a - b) 2 ∧
  LaneImmediate .mulInteger (fun _ a b _ => a * b) 3 ∧
  LaneImmediate .mulhi (fun w a b _ => a * b / (2 ^ w : Nat)) 3 ∧
  LaneImmediate .andInteger (fun w a b _ => (BitVec.ofInt w a &&& BitVec.ofInt w b).toNat) 2 ∧
  LaneImmediate .orInteger (fun w a b _ => (BitVec.ofInt w a ||| BitVec.ofInt w b).toNat) 2 ∧
  LaneImmediate .xorInteger (fun w a b _ => (BitVec.ofInt w a ^^^ BitVec.ofInt w b).toNat) 2 ∧
  LaneImmediate .shl (fun w a b _ => (BitVec.ofInt w a <<< BitVec.ofInt w b).toNat) 2 ∧
  LaneImmediate .shr (fun w a b _ => (BitVec.ofInt w a >>> BitVec.ofInt w b).toNat) 2 ∧
  LaneImmediate .sar (fun w a b _ => ((BitVec.ofInt w a).sshiftRight (BitVec.ofInt w b).toNat).toInt) 2 ∧
  LaneImmediate .minInteger (fun _ a b _ => min a b) 2 ∧
  LaneImmediate .maxInteger (fun _ a b _ => max a b) 2 ∧
  LaneImmediate .movInteger (fun _ _ b _ => b) 2

/-- R128: the bit operations. -/
def Obligations.BitOperationResults : Prop :=
  BitWord .popc 3 (fun w _ a _ _ _ => BitVec.ofNat w ((List.range w).countP (fun k => a.getLsbD k))) ∧
  BitWord .clz 3 (fun w _ a _ _ _ => BitVec.ofNat w ((List.range w).takeWhile (fun k => !a.getMsbD k)).length) ∧
  BitWord .brev 3 (fun _ _ a _ _ _ => a.reverse) ∧
  BitWord .bfe 2 fieldOut ∧
  BitWord .bfi 2 fieldIn

/-- R133, R134: the floating-point operations, element by element. R135, R40: the transcendental functions. -/
def Obligations.FloatResults : Prop :=
  (FloatWord .addFloat 1 (fun fmt rnd sat a b _ g => rounded fmt rnd sat [a, b] (addVal a b (rnd == .rm)) g) ∧
  FloatWord .subFloat 1 (fun fmt rnd sat a b _ g => rounded fmt rnd sat [a, b] (addVal a b.neg (rnd == .rm)) g) ∧
  FloatWord .mulFloat 1 (fun fmt rnd sat a b _ g => rounded fmt rnd sat [a, b] (mulVal a b) g) ∧
  FloatWord .fma 2 (fun fmt rnd sat a b c g => rounded fmt rnd sat [a, b, c] (exactFused rnd a b c) g) ∧
  FloatWord .fnma 2 (fun fmt rnd sat a b c g => rounded fmt rnd sat [a, b, c] (exactFused rnd a.neg b c) g) ∧
  FloatWord .minFloat 1 (fun fmt _ _ a b _ _ => delivered fmt [a, b] (pickVal (lessVal a b) a b)) ∧
  FloatWord .maxFloat 1 (fun fmt _ _ a b _ _ => delivered fmt [a, b] (pickVal (!lessVal a b) a b)) ∧
  FloatWord .absFloat 1 (fun fmt _ _ a _ _ _ => delivered fmt [a] a.abs) ∧
  FloatWord .negFloat 1 (fun fmt _ _ a _ _ _ => delivered fmt [a] a.neg)) ∧
  (TranscendentalWord .rcp .rcp ∧ TranscendentalWord .rsqrt .rsqrt ∧ TranscendentalWord .sqrt .sqrt ∧
  TranscendentalWord .exp2 .exp2 ∧ TranscendentalWord .log2 .log2 ∧ TranscendentalWord .sinpi .sinpi ∧
  TranscendentalWord .cospi .cospi ∧ TranscendentalWord .tanh .tanh)

/-- R136 to R139, R141 to R143: conversions, block decoders and block encoders. -/
def Obligations.ConversionResults : Prop :=
  ConversionWord .cvt (fun o a _ _ g =>
    let r := convert o.dst o.src o.rnd o.sat (a.toNat % 2 ^ fmtWidth o.src) (rngNext o.rnd g)
    { v := widen o.dst r.bits, flags := r.flags, g := rngNext o.rnd g }) ∧
  ConversionWord .pack (fun o a b old g =>
    let r := packElem o.dst o.src o.rnd o.sat (a.toNat % 2 ^ 32) (b.toNat % 2 ^ 16) (rngNext o.rnd g)
    { v := joinElems (slotBits o.dst) ((List.range o.dst.perWord).map (fun i =>
        if i = o.j.toNat then r.bits else elemOf old (slotBits o.dst) i)),
      flags := r.flags, g := rngNext o.rnd g }) ∧
  ConversionWord .unpack (fun o a b _ g =>
    let e := packedElem o.src a o.j.toNat
    let r := if o.src.plain then convert o.dst o.src o.rnd o.sat e (rngNext o.rnd g)
      else roundTo o.dst (elemVal o.src (b.toNat % 2 ^ 16) e) o.rnd o.sat (rngNext o.rnd g)
    { v := BitVec.ofNat 64 r.bits, flags := r.flags, g := rngNext o.rnd g }) ∧
  DecoderWord .dxdec ∧ DecoderWord .mxdec ∧
  EncoderWord .dxenc (fun o vs => dxEncode o.fmt o.sat (vs.map (·.1))) ∧
  EncoderWord .mxenc (fun o vs => mxEncode o.fmt o.rnd vs)

/-- R129: `cmp` sets each active lane's bit to its condition, over every element of the lane. -/
def Obligations.ComparisonResults : Prop :=
  ∀ s q f cond o, Ready s q (.cmp f cond o) → Ordered q → ∃ t bits, exec (.cmp f cond o) s = .next t ∧
    let el (r : Reg) (l j : Nat) : BitVec (elemBits o.ty) := element (elemBits o.ty) j (laneVal s q o.ty.wide r l)
    let val (r : Reg) (l j : Nat) : Val := valOf (tyFmt o.ty) (el r l j).toNat
    let signals (l : Nat) : Bool := (List.range (elemCount o.ty)).any (fun j => (val o.a l j).signals || (val o.b l j).signals)
    let lat := if o.ty.integer then 2 else if o.ty = .f64 then 8 else 4
    (∀ l, l < 32 → (active q f).getLsbD l = true → (bits.getLsbD l = true ↔ ∀ j, j < elemCount o.ty →
      if o.ty.integer then holdsInt cond (value o.ty.signed (el o.a l j)) (value o.ty.signed (el o.b l j))
      else holdsVal cond (val o.a l j) (val o.b l j))) ∧
    Goes s t q f (q.ctx.held ++ predResult q o.d (active q f) bits lat ++
      (if o.ty.integer then []
        else [flagResult q (flagIf ((laneList (active q f)).any signals) flagNV) lat]))

/-- R130, R131: `sel` copies bits by a predicate, and the predicate operations. -/
def Obligations.SelectAndPredicateResults : Prop :=
  (∀ s q f o, Ready s q (.sel f o) → Ordered q → ∃ t, exec (.sel f o) s = .next t ∧
    Goes s t q f (q.ctx.held ++ laneResults q o.d o.ty.wide (active q f)
      ((List.range 32).map (fun l =>
        if (readP q (regNum o.c)).getLsbD l then laneVal s q o.ty.wide o.a l else laneVal s q o.ty.wide o.b l)) 2)) ∧
  PredicateWord .pand (fun a b => a && b) ∧ PredicateWord .por (fun a b => a || b) ∧
  PredicateWord .pxor (fun a b => a ^^ b) ∧ PredicateWord .pnot (fun a _ => !a)

/-- R104, R124: `nop` has no effect; `li`, `lih` and `li` to a pair. -/
def Obligations.NopAndImmediateResults : Prop :=
  (∀ s q f, Ready s q (.nop f) → ∃ t, exec (.nop f) s = .next t ∧ Goes s t q f q.ctx.held) ∧
  (∀ s q f d imm, Ready s q (.li f d imm) → Ordered q → ∃ t, exec (.li f d imm) s = .next t ∧
    Goes s t q f (q.ctx.held ++ (if d.scalar then [scalarResult q d (imm.signExtend 64) 1]
      else laneResults q d false (active q f) (List.replicate 32 (imm.signExtend 64)) 2))) ∧
  (∀ s q f d imm, Ready s q (.lih f d imm) → Ordered q → ∃ t, exec (.lih f d imm) s = .next t ∧
    let v (l : Nat) : Dword := BitVec.ofNat 64 (imm.toNat * 2 ^ 35 + (laneVal s q true d l).toNat % 2 ^ 35)
    Goes s t q f (q.ctx.held ++ (if d.scalar then [scalarResult q d (v 0) 1]
      else laneResults q d true (active q f) ((List.range 32).map v) 2))) ∧
  (∀ s q f d imm, Ready s q (.liPair f d imm) → Ordered q → ∃ t, exec (.liPair f d imm) s = .next t ∧
    Goes s t q f (q.ctx.held ++ laneResults q d true (active q f) (List.replicate 32 (imm.signExtend 64)) 2))

/-- R125: a control register read delivers what the register holds at distance 2; `c.rng` as every earlier instruction
left it, a `cwr` one before included (R127). R45 to R50: what the registers of a group read as. -/
def Obligations.ControlRegisterReads : Prop :=
  (∀ s q f d num, Ready s q (.crd f d num) → Ordered q → ∃ t, exec (.crd f d num) s = .next t ∧
    let n := num.toNat
    let lanes := (List.range 32).map (fun l => if n = 2 then (rngOf s q l).setWidth 64 else idOf s q l)
    match cregForm n with
    | some .scalar =>
      Goes (beforeRead s q n) t q f (q.ctx.held ++ [scalarResult q d (cregRead (beforeRead s q n) q n).1 2])
    | some .pair128 =>
      Goes s t q f (q.ctx.held ++ [scalarResult q d (cregRead s q n).1 2, scalarResult q (nextReg d) (cregRead s q n).2 2])
    | some .lane32 =>
      Goes s t q f (q.ctx.held ++ (if isAc d then [result q (.ac (regNum d)) (active q f) lanes 2]
        else laneResults q d false (active q f) lanes 2))
    | some .lane64 =>
      Goes s t q f (q.ctx.held ++ (if isAc d then [result q (.ac (regNum d)) (active q f) lanes 2]
        else laneResults q d true (active q f) lanes 2))
    | none => False) ∧
  (∀ s q, issuer s = some q →
    cregNow s q 0x001 = (flagsAt q q.at_, 0) ∧
    cregNow s q 0x004 = (if q.g.vec.isSome then 0xFFFFFFFF else q.g.mask.setWidth 64, 0) ∧
    cregNow s q 0x006 = (q.g.cxp, 0) ∧ cregNow s q 0x007 = (q.g.amerr, 0) ∧ cregNow s q 0x008 = (q.g.vstrip, 0) ∧
    ((cregNow s q 0x005).1.getLsbD 0 = q.b.hzd ∧ (cregNow s q 0x005).1.getLsbD 1 = q.b.dbg ∧
      (cregNow s q 0x005).1.getLsbD 2 = q.b.n16 ∧ (cregNow s q 0x005).1.getLsbD 3 = q.b.strict))

/-- R125, R126: a control register write issues; `c.fstat` loses the bits written as 1; `c.rng` of the active members changes,
and shows at once (R127), `c.id` does not change; any other register changes as its access codes say (R10), and its earlier value
shows at distance 1. Registers that are RO, or HV to a guest, stay as they are; RW bits are taken and the others kept (R158,
R239, R375, R390, R393); bits of RW1C registers that are written as 1 are cleared (R224, R232); a Crow's Nest register changes
where its partition holds the resource, and begins to count anew when EN rises (R408). A write of `c.eqload`, of `c.tlbinv` with
INV = 1, of `c.xlres` or of `c.dbgcmd` commands what the event of that name does (R359, R375, R379, R404), after every earlier
access of the group (R115, R161); that the model performs those at the write is log entry 13. -/
def Obligations.ControlRegisterWrites : Prop :=
  (∀ s q f a num, Ready s q (.cwr f a num) → Ordered q →
    let n := num.toNat
    let all := BitVec.allOnes 32
    let x := scalarVal q a
    (n = 0x001 → ∃ t, exec (.cwr f a num) s = .next t ∧
      Goes s t q f (q.ctx.held ++ [result q .flagsClear all [x &&& 0x3F] 2])) ∧
    (n = 0x002 → ∃ t, exec (.cwr f a num) s = .next t ∧
      let m := active q f &&& rngLanes q
      Goes (setRng s q m (fun l => (laneVal s q false a l).setWidth 32)) t q f q.ctx.held) ∧
    (n = 0x003 → ∃ t, exec (.cwr f a num) s = .next t ∧ Goes s t q f q.ctx.held) ∧
    (∀ r, n ≠ 0x001 → n ≠ 0x002 → n ≠ 0x003 →
      let command := n = 0x214 ∨ n = 0x215 ∧ x.getLsbD 0 = true ∨ n = 0x216 ∨ n = 0x21B
      let u := cregWrite (if command then releaseNow s q.gid else s) q n x (scalarNext q a)
      Still u q r → Ordered r → ∃ t, exec (.cwr f a num) s = .next t ∧
        Goes u t r f (r.ctx.held ++ result q (.cregWas n) all [(cregNow s q n).1] 2 ::
          (if cregForm n = some .pair128 then [result q (highWas n) all [(cregNow s q n).2] 2] else [])))) ∧
  (∀ s q x y,
    let w (n : Nat) : State := cregWrite s q n x y
    let taken (m old new : Dword) : Dword := (old &&& ~~~m) ||| (new &&& m)
    (∀ n ∈ [0x004, 0x005, 0x009, 0x010, 0x011, 0x012, 0x013], w n = s) ∧
    w 0x006 = modGroup s q.gid (fun g => { g with cxp := taken 0x800000000000003F g.cxp x }) ∧
    w 0x007 = modGroup s q.gid (fun g => { g with amerr := g.amerr &&& ~~~(x &&& 0x1F) }) ∧
    w 0x008 = modGroup s q.gid (fun g => { g with vstrip := taken 0x80000000FFFFFFFF g.vstrip x }) ∧
    w 0x100 = setCore s q.g.core { coreOf s q.g.core with mestat := (coreOf s q.g.core).mestat &&& ~~~(x &&& 0x7F) } ∧
    (∀ n p, look s.parts q.part = some p → 0x200 ≤ n → n ≤ 0x23F → n ∉ [0x214, 0x215, 0x216, 0x21B] →
      let lo : Dword := if n = 0x219 then 0x000FFFFFFFFFF000 else if n = 0x21A then 0xFFFFFFFFFFFFFFF9
        else if n = 0x21C then 0xFFFFFFFF00000000 else 0
      let hi : Dword := if n = 0x21C then 0xFFFFFFFFFFFFFF03 else 0
      partReg (w n) q.part n = taken lo (partReg s q.part n) x ∧
      partRegHigh (w n) q.part n = taken hi (partRegHigh s q.part n) y ∧
      (∀ k, k ≠ n → k < 0x400 → partReg (w n) q.part k = partReg s q.part k ∧ partRegHigh (w n) q.part k = partRegHigh s q.part k) ∧
      (∃ r, look (w n).parts q.part = some { p with regs := r }) ∧ (∀ k, k ≠ q.part → look (w n).parts k = look s.parts k) ∧
      w n = { s with parts := (w n).parts }) ∧
    (∀ n, 0x240 ≤ n → n ≤ 0x253 →
      let k := n - 0x240
      let held := (look s.nest k).bind (·.owner) = some q.part
      (¬held → w n = s) ∧
      (∀ e, held → look s.nest k = some e → ∃ z, w n = { s with nest := put s.nest k z } ∧ z.owner = e.owner ∧ z.lo = x ∧
        z.hi = y &&& 0xFFFFFFFFFFFFFF00 ∧
        (x.getLsbD 63 = true → e.lo.getLsbD 63 = false → z.counts = [0, 0, 0, 0] ∧ z.seq = 0 ∧ z.from_ = s.clock) ∧
        (x.getLsbD 63 = false ∨ e.lo.getLsbD 63 = true → z.counts = e.counts ∧ z.seq = e.seq ∧ z.from_ = e.from_))) ∧
    ((look s.parts q.part).isSome = true →
      let id := field x 9 0
      exec (match x.getLsbD 63, x.getLsbD 62 with
        | true, false => .eqLoadQueue q.part id
        | true, true => .eqLoadGroup q.part id
        | false, false => .eqUnloadQueue q.part id
        | false, true => .eqUnloadGroup q.part id) s = .next (w 0x214)) ∧
    (if x.getLsbD 0 then exec (.tlbInvalidate q.part) s = .next (w 0x215) else w 0x215 = s) ∧
    (field x 63 62 = 1 → exec (.xlresRetry q.part (field x 15 0)) s = .next (w 0x216)) ∧
    (field x 63 62 = 2 → exec (.xlresFail q.part (field x 15 0)) s = .next (w 0x216)) ∧
    (field x 63 62 = 0 ∨ field x 63 62 = 3 → w 0x216 = s) ∧
    (∀ p, look s.parts q.part = some p → p.command = none →
      let a := x.toNat
      ∀ c ∈ [(1, Instr.halt q.part a), (2, .save q.part a), (3, .restore q.part a), (4, .resume q.part a), (5, .kill q.part a),
        (6, .release q.part a), (7, .detach q.part a)], (debugCmd s q.part a).2.op = c.1 → exec c.2 s = .next (w 0x21B)))

/-- R148, R149: a load whose accesses meet no trap is under way; memory, the store queue and every register stand.
R148 to R150: a store whose accesses meet no trap is queued, one entry for each access, with the bytes of DATA;
nothing is written yet. -/
def Obligations.LoadsAndStoresIssue : Prop :=
  (∀ s q f o, Ready s q (.ld f o) →
    let n := memBytes o.ty
    let as := memAccs o f s q
    let k := loadKeys s q.g.block q.b o.space n as
    badAddr s q.b o.space n false as = none → k.1.bad = none →
    ∃ t, exec (.ld f o) s = .next t ∧
      if as = [] then Goes k.1.s t q f q.ctx.held
      else Waits k.1.s t q f (underWay k.1.s q (destsOf o.data (memRegs n o.data)) (.load n (memSigned o.ty) k.1.keys [] k.2))) ∧
  (∀ s blk b sp n as, farAccs s b sp n as = [] → loadKeys s blk b sp n as = (accessKeys s blk b sp needR true as, [])) ∧
  (∀ s b sp n as, sp ≠ .k ∨ (∀ a ∈ as, ((constWindow s b).1 + a.addr) % 4096 + n ≤ 4096) → farAccs s b sp n as = []) ∧
  (∀ s blk b n (a : LaneAddr) i j,
    let at_ := ((constWindow s b).1 + a.addr) % 4096
    let k := accessKeys s blk b .k needR true [a, { a with addr := a.addr + (4096 - at_) }]
    4096 < at_ + n → k.bad = none → k.keys = [(a.lane, i), (a.lane, j)] →
      loadKeys s blk b .k n [a] = ({ k with keys := [(a.lane, i)] }, [(a.lane, j)])) ∧
  (∀ s q f o k, Ready s q (.st f o) → Placed s q o.space (memBytes o.ty) needW true (memAccs o f s q) k →
    typedTrap q.b o.space (memBytes o.ty) (memAccs o f s q) = none →
    ∃ t, exec (.st f o) s = .next t ∧
      Goes (pushStores k.s q false (k.keys.map (fun e => (e.2, leBytes (storedNat s q o.data (memBytes o.ty) e.1) (memBytes o.ty)))))
        t q f q.ctx.held)

/-- R151 to R154: atomics whose accesses meet no trap are under way. R152: the lanes of an atomic are performed one
after the other in their order: each reads the old value, and writes the new one where the operation has one; no other
byte of memory changes. One of a host that the partition has been cut off from since writes nothing and delivers a free value
(log entry 32). -/
def Obligations.AtomicsUpdateInLaneOrder : Prop :=
  (AtomWord .atomAdd .add ∧ AtomWord .atomMin .min ∧ AtomWord .atomMax .max ∧ AtomWord .atomAnd .and ∧ AtomWord .atomOr .or ∧
  AtomWord .atomXor .xor ∧ AtomWord .atomXchg .xchg ∧ AtomWord .atomCas .cas ∧ AtomWord .atomLd .ld ∧ AtomWord .atomSt .st) ∧
  (∀ op uns n part s (a : AtomLane) as, Memory.wf s.mem = true → (n = 4 ∨ n = 8) →
    let cut := hostCut s part a.key
    let old := if cut then lostValue s.free n a.lane else loadLE s a.key n
    let x := a.x.toNat % 2 ^ (8 * n)
    let less (y z : Nat) : Prop := if uns then y < z else sextNat y (8 * n) < sextNat z (8 * n)
    ∃ u, (atomLanes op uns n part s (a :: as)).2 = (a.lane, old) :: (atomLanes op uns n part u as).2 ∧
      (atomLanes op uns n part s (a :: as)).1 = (atomLanes op uns n part u as).1 ∧
      (∀ k, k < a.key ∨ a.key + n ≤ k → readByte u k = readByte s k) ∧
      (cut = true → u.mem = s.mem) ∧
      (cut = false → (op = .add → loadLE u a.key n = (old + x) % 2 ^ (8 * n)) ∧
      (op = .and → loadLE u a.key n = old &&& x) ∧ (op = .or → loadLE u a.key n = old ||| x) ∧
      (op = .xor → loadLE u a.key n = old ^^^ x) ∧
      (op = .xchg ∨ op = .st → loadLE u a.key n = x) ∧
      (op = .min → (less x old → loadLE u a.key n = x) ∧ (¬less x old → loadLE u a.key n = old)) ∧
      (op = .max → (less old x → loadLE u a.key n = x) ∧ (¬less old x → loadLE u a.key n = old)) ∧
      (op = .cas → (old = x → loadLE u a.key n = a.next.toNat % 2 ^ (8 * n)) ∧ (old ≠ x → u.mem = s.mem)) ∧
      (op = .ld → u.mem = s.mem)))

/-- R156 to R158: compress-store and expand-load: the elements lie dense from BASE, those a pending restart has done
are skipped, and a fault leaves the number done in `c.cxp` and traps. -/
def Obligations.DenseWords : Prop :=
  (∀ s q r f w64 o, Ready s q (.cstore f w64 o) →
    let n := if w64 then 8 else 4
    let d := denseKeys s q n (cxpDone q.g.cxp) (addrOf (scalarVal q o.base) (offsetOf o.base o.off)) true 0
      (laneList (active q f))
    let u := pushStores d.s q false (d.keys.map (fun e => (e.2, leBytes (storedNat d.s q o.data n e.1) n)))
    let done (x : Dword) := modGroup u q.gid (fun g => { g with cxp := x })
    (d.bad = none → Still (done 0) q r → ∃ t, exec (.cstore f w64 o) s = .next t ∧ Goes (done 0) t r f r.ctx.held) ∧
    (∀ k x, d.bad = some (k, x) →
      exec (.cstore f w64 o) s = .next (memTrap (done (BitVec.ofNat 64 (2 ^ 63 + k))) q x))) ∧
  (∀ s q r f w64 o, Ready s q (.xload f w64 o) →
    let n := if w64 then 8 else 4
    let d := denseKeys s q n (cxpDone q.g.cxp) (addrOf (scalarVal q o.base) (offsetOf o.base o.off)) false 0
      (laneList (active q f))
    let done := modGroup d.s q.gid (fun g => { g with cxp := 0 })
    d.bad = none → Still done q r → ∃ t, exec (.xload f w64 o) s = .next t ∧
      if d.keys = [] then Goes done t r f r.ctx.held
      else Waits done t r f (underWay d.s q (destsOf o.data (memRegs n o.data)) (.load n false d.keys [] [])))

/-- R144, R145, R276: an access to the block's own local memory needs no translation and changes nothing. R371 to
R376: translating accesses changes only the A and D bits (bits 5 and 4) of page-table entries, and the translation cache: a byte
that changes is the first of the entry of a leaf that the cache then holds, of the first stage for the address, or of the second
stage for the address it leads to or for a guest address through which the walk reads or writes an entry (`walkTouches`; that
the walk goes through the second stage so is log entry 6). Nothing else of the device changes. -/
def Obligations.AccessesTranslate : Prop :=
  (∀ s blk b need hostOk as, accessKeys s blk b .l need hostOk as =
    { s, keys := as.map (fun a => (a.lane, localKey blk a.addr)), bad := none }) ∧
  (∀ s blk b sp need hostOk as, Memory.wf s.mem = true →
    let u := (accessKeys s blk b sp need hostOk as).s
    (∀ a, readByte u a ||| 0x30 = readByte s a ||| 0x30 ∧ readByte u a ||| readByte s a = readByte u a) ∧
    (∀ a, readByte u a ≠ readByte s a → ∃ t ∈ u.tlb, t.part = b.part ∧ t.entry = some a ∧ t.a = true) ∧
    u = { s with mem := u.mem, tlb := u.tlb }) ∧
  (∀ s part va n, Memory.wf s.mem = true →
    let root := match look s.parts part with
      | some p => field p.root 51 12 * 4096
      | none => 0
    let place (gpa : Nat) : Option Nat := match (gpaKey s part gpa needR).res with
      | .ok k => if gpa / 2 ^ 50 % 4 = 0 then some k else none
      | .bad _ => none
    let ws := walkTouches s part (va % 2 ^ 57) root place n
    let last := match (stageOf (ws.foldl (fun s x => (gpaKey s part x.1 x.2).s) s) part 1 (va % 2 ^ 57) root place n).res with
      | .ok gpa => [gpa % 2 ^ 52]
      | .bad _ => []
    let u := (xlate s part va n).s
    (canonical va = false → u = s) ∧
    ∀ a, readByte u a ≠ readByte s a → ∃ t ∈ u.tlb, t.entry = some a ∧ t.a = true ∧
      (t.covers part 1 (va % 2 ^ 57) = true ∨ ∃ g ∈ ws.map (·.1) ++ last, t.covers part 2 g = true))

/-- R145: an access out of alignment, out of its window, or at a non-canonical address traps before issue, in that
order, with the lowest lane's address in h3. -/
def Obligations.MemoryWordsTrapInOrder : Prop :=
  ∀ (store : Bool) s q f o,
    let i : Instr := if store then .st f o else .ld f o
    Ready s q i → ∀ a, a ∈ memAccs o f s q →
    let n := memBytes o.ty
    let first (p : Nat → Prop) (x : LaneAddr) : Prop :=
      x ∈ memAccs o f s q ∧ p x.addr ∧ ∀ y ∈ memAccs o f s q, p y.addr → x.lane ≤ y.lane
    let aligned := ∀ y ∈ memAccs o f s q, y.addr % n = 0
    (first (fun x => x % n ≠ 0) a → exec i s = .next (trapBefore s q 0x10 (BitVec.ofNat 64 a.addr) store)) ∧
    (aligned → o.space = .l → first (fun x => blockLocal s q.b < x + n) a →
      exec i s = .next (trapBefore s q 0x11 (BitVec.ofNat 64 a.addr) store)) ∧
    (aligned → o.space = .k → first (fun x => (constWindow s q.b).2 < x + n) a →
      exec i s = .next (trapBefore s q 0x12 (BitVec.ofNat 64 a.addr) store)) ∧
    (aligned → o.space = .g → first (fun x => canonical x = false) a →
      exec i s = .next (trapBefore s q 0x13 (BitVec.ofNat 64 a.addr) store))

/-- R150: a store leaves the queue when no earlier one of its groups stands in it: its bytes are written (of a host that the
partition has been cut off from since, they are lost: log entry 32), and every other byte of memory is as before; one that may
not leave changes nothing. R55, R147, R149: the next load of a group makes
its next access, lane by lane: it reads the group's own older queued stores over memory, and after the last of them the
values are visible after the group's next switch marker. Nothing is written. An access that crosses a page of the constant
window (R342) reads the pieces its two pages hold, and one of a host cut off since delivers a free value (log entry 32). That a load is performed in a step
LONG_LATENCY_RESULT, oldest first, and that a store stands until a STORE_QUEUE_DRAIN are the model's choice (log entry
13). -/
def Obligations.QueuedAccessesArePerformed : Prop :=
  ((∀ s core i e, Memory.wf s.mem = true → (coreOf s core).storeQ[i]? = some e → mayDrain s core i = true →
    let lost : Bool := (look s.blocks e.block).any (fun b => hostCut s b.part e.key)
    ∃ t, exec (.storeQueueDrain core i) s = .next t ∧
    (∀ a, readByte t a = if lost = false ∧ e.key ≤ a ∧ a < e.key + e.bytes.length then e.bytes.getD (a - e.key) 0
      else readByte s a) ∧
    (coreOf t core).storeQ = (coreOf s core).storeQ.eraseIdx i ∧ t.groups = s.groups ∧ t.blocks = s.blocks) ∧
  (∀ s core i, mayDrain s core i = false → exec (.storeQueueDrain core i) s = .next s)) ∧
  (∀ s gid g b p ps n signed accs got far, look s.groups gid = some g → g.handler = false → look s.blocks g.block = some b →
    g.ctx.pend = p :: ps → p.work = .load n signed accs got far →
    let lost (a : Nat × Nat) : Bool := (accParts n far a).any (fun x => hostCut s b.part x.1)
    let well (a : Nat × Nat) : Bool := (accParts n far a).all (fun x => !poisonedAt s x.1 x.2)
    let value (a : Nat × Nat) : Nat := if lost a then lostValue s.free n a.1
      else leNat ((accParts n far a).flatMap (fun x => forwarded s g.core gid p.id x.1 x.2))
    (∀ a c as, accs = a :: c :: as → well a = true →
      ∃ t, exec (.longLatencyResult gid) s = .next t ∧ t.mem = s.mem ∧
        let left : Work := .load n signed (c :: as) (got ++ [(a.1, value a)]) far
        look t.groups gid = some { g with ctx := { g.ctx with
          pend := g.ctx.pend.map (fun x => if x.id = p.id then { x with work := left } else x) } }) ∧
    (accs.length ≤ 1 → accs.all well = true →
      ∃ t, exec (.longLatencyResult gid) s = .next t ∧ t.mem = s.mem ∧
        let vals := got ++ accs.map (fun a => (a.1, value a))
        let ext (x : Nat) : Nat := if n = 16 then x else (extendTo64 signed n x).toNat
        let a : Arrived := { s := t, mask := accMask (vals.map (·.1)), vals := spreadVals p.dests n ext vals }
        look t.groups gid = some { g with ctx := g.ctx.arrive p a (if g.vec.isSome then BitVec.allOnes 32 else g.mask) }) ∧
    (∀ a, (∀ x ∈ far, x.1 ≠ a.1) → accParts n far a = [(a.2, n)]))

/-- R155: a fence performs every earlier access of the group, and goes on. R176: `predhint` and `waitpred`. -/
def Obligations.FencesAndPredecessors : Prop :=
  (∀ s q r f scope ord, Ready s q (.fence f scope ord) → Still (releaseNow s q.gid) q r →
    ∃ t, exec (.fence f scope ord) s = .next t ∧ Goes (releaseNow s q.gid) t r f r.ctx.held) ∧
  ((∀ s q r f, Ready s q (.predhint f) →
    let u := modBlock s q.g.block (fun b => { b with hinted := true })
    Still u q r → ∃ t, exec (.predhint f) s = .next t ∧ Goes u t r f r.ctx.held) ∧
  (∀ s q f, Ready s q (.waitpred f) → ∃ t, exec (.waitpred f) s = .next t ∧
    if predsEnded (countIssue s q (q.ctx.pc + 8)) q.b then EndsMarked s t q (q.ctx.pc + 8) q.ctx
    else Parks s t q q.ctx .waitpred))

/-- R173, R175: the barrier words, where the barrier's address meets no trap. R174: `tbar.arrive` releases; that `tbar.init`,
`tbar.expect` and `tbar.wait` too come after the group's earlier accesses is the model's choice (log entry 13). R172: a phase
completes when nothing is expected any more: the generation rises by one and the arrivals begin anew. -/
def Obligations.TransactionBarriers : Prop :=
  ((∀ s q r f o, Ready s q (.tbarInit f o) → barrierTrap s q (barrierAddr q o) false true = none →
    let u := releaseNow s q.gid
    let key := localKey q.g.block (barrierAddr q o)
    let n : Word := (scalarVal q o.data).setWidth 32
    let v := setTyped (writeBarrier u key { gen := 0, parr := n, psec := 0, exp := n }) q.g.block (barrierAddr q o) (n != 0)
    ¬(q.b.strict = true ∧ n ≠ 0 ∧ quadQueued u q.g.core key = true) → Still v q r →
    ∃ t, exec (.tbarInit f o) s = .next t ∧ Goes v t r f r.ctx.held) ∧
  (∀ s q r f o, Ready s q (.tbarArrive f o) → barrierTrap s q (barrierAddr q o) true true = none →
    let u := releaseNow s q.gid
    let key := localKey q.g.block (barrierAddr q o)
    let b := readBarrier u key
    let v := writeBarrier u key (BarrierWord.check { b with parr := b.parr - 1 })
    Still v q r → ∃ t, exec (.tbarArrive f o) s = .next t ∧ WaitsFor v t r f o.data (b.gen.setWidth 64)) ∧
  (∀ s q r f o, Ready s q (.tbarExpect f o) → barrierTrap s q (barrierAddr q o) true true = none →
    let u := releaseNow s q.gid
    let key := localKey q.g.block (barrierAddr q o)
    let b := readBarrier u key
    let v := writeBarrier u key (BarrierWord.check { b with psec := b.psec + (scalarVal q o.data).setWidth 32 })
    Still v q r → ∃ t, exec (.tbarExpect f o) s = .next t ∧ Goes v t r f r.ctx.held) ∧
  (∀ s q r f o, Ready s q (.tbarWait f o) → barrierTrap s q (barrierAddr q o) true false = none →
    let u := releaseNow s q.gid
    let key := localKey q.g.block (barrierAddr q o)
    let phase : Word := (scalarVal q o.data).setWidth 32
    Still u q r → ∃ t, exec (.tbarWait f o) s = .next t ∧
      if q.ctx.pend = [] ∧ ((readBarrier u key).gen - phase - 1).toNat < 2 ^ 31 then EndsMarked u t r (q.ctx.pc + 8) r.ctx
      else Parks u t r r.ctx (.tbar key phase))) ∧
  (∀ b : BarrierWord,
    (b.exp ≠ 0 → b.parr = 0 → b.psec = 0 → b.check = { gen := b.gen + 1, parr := b.exp, psec := 0, exp := b.exp }) ∧
    (b.exp = 0 ∨ b.parr ≠ 0 ∨ b.psec ≠ 0 → b.check = b) ∧
    ∀ s key, Memory.wf s.mem = true → readBarrier (writeBarrier s key b) key = b ∧
      ∀ a, a < key ∨ key + 16 ≤ a → readByte (writeBarrier s key b) a = readByte s a)

/-- R179 to R182: `br` and `call`: no member takes it, every one does, or the group splits, each member that calls with its link;
a bad target traps. That a branch which no member takes goes on whatever its target is the model's choice (log 57): R179 leaves
it open. -/
def Obligations.BranchesAndCalls : Prop :=
  (∀ s q f off, Ready s q (.br f off) →
    let target := q.ctx.pc + 8 * off.signExtend 64
    let stay := q.lanes &&& ~~~takers q f
    (takers q f = 0 → ∃ t, exec (.br f off) s = .next t ∧ Goes s t q f q.ctx.held) ∧
    (takers q f ≠ 0 → badTarget s q target = true → exec (.br f off) s = .next (trapBefore s q 0x20 target false)) ∧
    (takers q f ≠ 0 → badTarget s q target = false → stay = 0 → ∃ t, exec (.br f off) s = .next t ∧ Ends s t q f target q.ctx) ∧
    (takers q f ≠ 0 → badTarget s q target = false → stay ≠ 0 → Numbered s q → ∃ t, exec (.br f off) s = .next t ∧
      Splits s t q f [{ mask := stay, pc := q.ctx.pc + 8, link := none }, { mask := takers q f, pc := target, link := none }])) ∧
  (∀ s q f off, Ready s q (.call f off) → Ordered q →
    let target := q.ctx.pc + 8 * off.signExtend 64
    let stay := q.lanes &&& ~~~takers q f
    (takers q f = 0 → ∃ t, exec (.call f off) s = .next t ∧ Goes s t q f q.ctx.held) ∧
    (takers q f ≠ 0 → badTarget s q target = true → exec (.call f off) s = .next (trapBefore s q 0x20 target false)) ∧
    (takers q f ≠ 0 → badTarget s q target = false → stay = 0 → ∃ t, exec (.call f off) s = .next t ∧
      Ends s t q f target
        { q.ctx with held := q.ctx.held ++ [scalarResult q (if q.hand then .h 31 else .s 63) (q.ctx.pc + 8) 1] }) ∧
    (takers q f ≠ 0 → badTarget s q target = false → stay ≠ 0 → Numbered s q → ∃ t, exec (.call f off) s = .next t ∧
      Splits s t q f [{ mask := stay, pc := q.ctx.pc + 8, link := none },
        { mask := takers q f, pc := target, link := some (63, q.ctx.pc + 8) }]))

/-- R183, R184: indirect jumps and `ret`: one target, or one group for each distinct target in ascending order; the
lowest bad target traps. That the lowest is taken of misaligned targets and of targets outside every text together is the
model's choice (log 57). -/
def Obligations.IndirectJumps : Prop :=
  ∀ (i : Instr) s q f d a,
    (i = .brind f a ∧ d = none ∨ (∃ r, i = .callind f r a ∧ d = some r) ∨ i = .ret f a ∧ d = none ∧ scalarVal q a ≠ 0) →
    Ready s q i → Ordered q →
    let ts := jumpTargets s q a
    (∀ x ∈ ts, badTarget s q x.2 = true → (∀ y ∈ ts, badTarget s q y.2 = true → x.2.toNat ≤ y.2.toNat) →
      exec i s = .next (trapBefore s q 0x20 x.2 false)) ∧
    (∀ target, ts ≠ [] → (∀ x ∈ ts, x.2 = target) → badTarget s q target = false → ∃ t, exec i s = .next t ∧
      Ends s t q f target
        { q.ctx with held := q.ctx.held ++ (d.map (fun r => scalarResult q r (q.ctx.pc + 8) 1)).toList }) ∧
    (∀ x ∈ ts, ∀ y ∈ ts, x.2 ≠ y.2 → (∀ z ∈ ts, badTarget s q z.2 = false) → Numbered s q →
      ∃ t ps, exec i s = .next t ∧ Splits s t q f ps ∧ (∀ p ∈ ps, p.link = d.map (fun r => (regNum r, q.ctx.pc + 8))) ∧
        (∀ p ∈ ps, ∀ l, l < 32 → (p.mask.getLsbD l = true ↔ (l, p.pc) ∈ ts)) ∧ (∀ z ∈ ts, ∃ p ∈ ps, p.pc = z.2) ∧
        ps.Pairwise (fun p r => p.pc.toNat < r.pc.toNat))

/-- R185: `ret` of zero ends a group whose results are in; it waits for them, and in a handler it is illegal. R187,
R188: `gjoin` alone is a marker; the last group to arrive merges all into one, which goes on after the word; an
earlier one parks; a conflict traps. R190: `gleave`: nobody leaves, or every active member becomes a group of its own
and the others stay together. -/
def Obligations.GroupsEndJoinAndLeave : Prop :=
  (∀ s q f a, Ready s q (.ret f a) → scalarVal q a = 0 →
    (q.hand = true → exec (.ret f a) s = .next (trapBefore s q 0x01 0 false)) ∧
    (q.hand = false → q.ctx.pend ≠ [] → exec (.ret f a) s = .next (parkGroup s q.gid .results)) ∧
    (q.hand = false → q.ctx.pend = [] → q.g.vec = none → Tables s → ∃ t, exec (.ret f a) s = .next t ∧ look t.groups q.gid = none ∧
      ∀ g, g ≠ q.gid → look t.groups g = look s.groups g)) ∧
  (∀ s q f a tag, Ready s q (.gjoin f a tag) →
    let m : Word := (scalarVal q a).setWidth 32
    let ws := joinWaiters s q.g.block tag.toNat
    (joinConflict q m ws = true → exec (.gjoin f a tag) s = .next (trapBefore s q 0x21 0 false)) ∧
    (joinConflict q m ws = false → q.g.mask = m → ∃ t, exec (.gjoin f a tag) s = .next t ∧
      EndsMarked s t q (q.ctx.pc + 8) q.ctx) ∧
    (joinConflict q m ws = false → q.g.mask ≠ m → q.ctx.toks = [] → q.ctx.pend = [] →
      ws.foldl (fun u w => u ||| w.2.1.mask) q.g.mask ≠ m → ∃ t g, exec (.gjoin f a tag) s = .next t ∧
        look t.groups q.gid = some g ∧ g.park = some (.join tag.toNat m q.ctx.pc) ∧ g.ctx.pc = q.ctx.pc + 8 ∧
        g.mask = q.g.mask ∧ g.active = false ∧ g.ctx.held = [] ∧ g.ctx.run = 0) ∧
    (joinConflict q m ws = false → q.g.mask ≠ m → q.ctx.toks = [] → q.ctx.pend = [] →
      ws.foldl (fun u w => u ||| w.2.1.mask) q.g.mask = m → Tables s →
      ∃ t g, exec (.gjoin f a tag) s = .next t ∧ look t.groups s.fresh = some g ∧ g.mask = m ∧ g.ctx.pc = q.ctx.pc + 8 ∧
        g.block = q.g.block ∧ g.set = q.g.set ∧ g.park = none ∧ look t.groups q.gid = none ∧
        (∀ w ∈ ws, look t.groups w.1 = none))) ∧
  (∀ s q f, Ready s q (.gleave f) →
    let out := active q f
    (out = 0 → ∃ t, exec (.gleave f) s = .next t ∧ EndsMarked s t q (q.ctx.pc + 8) q.ctx) ∧
    let stay := q.g.mask &&& ~~~out
    let ps : List Part := (if stay = 0 then [] else [{ mask := stay, pc := q.ctx.pc + 8, link := none }]) ++
      (laneList out).map (fun l => { mask := 1#32 <<< l, pc := q.ctx.pc + 8, link := none })
    (out ≠ 0 → Numbered s q → ∃ t, exec (.gleave f) s = .next t ∧ Splits s t q f ps))

/-- R191, R192: `elect` sets the bit of the lowest active member alone; `ballot` delivers the active members. -/
def Obligations.ElectAndBallot : Prop :=
  (∀ s q f d, Ready s q (.elect f d) → Ordered q → ∃ t bits, exec (.elect f d) s = .next t ∧
    (∀ l, l < 32 → (bits.getLsbD l = true ↔
      (active q f).getLsbD l = true ∧ ∀ k, k < l → (active q f).getLsbD k = false)) ∧
    Goes s t q f (q.ctx.held ++ predResult q d (BitVec.allOnes 32) bits 4)) ∧
  (∀ s q f d, Ready s q (.ballot f d) → Ordered q → ∃ t, exec (.ballot f d) s = .next t ∧
    Goes s t q f (q.ctx.held ++ [scalarResult q d ((active q f).setWidth 64) 4])) ∧
  (let f : Fixed := { sw := false, stop := false, pred := 7, sense := false }
   decode 0x2202A17FFFE0EFF8 = some (.elect f (.p 2)) ∧
   decode 0x220382FFFFE06FF8 = some (.ballot { f with pred := 3 } (.s 5)) ∧
   decode 0x2200FFC08000E007 = some (.gjoin f (.s 2) 7))

/-- R193 to R195: a shuffle within the group; an offer across cores, of which a group has one at a time; the match of
two. R194: the source of a lane: `.idx` within the group or half, `.up`, `.down` and `.xor` from the lane's place in
it. -/
def Obligations.ShufflesWithinAndAcross : Prop :=
  ((∀ s q f o, Ready s q (.shfl f o) → Ordered q → ∃ t, exec (.shfl f o) s = .next t ∧
    Goes s t q f (q.ctx.held ++ laneResults q o.d o.w64 (active q f) ((List.range 32).map (fun l =>
      let b : Word := (laneVal s q false o.b l).setWidth 32
      match shflSource o.mode q.b.n16 l b with
      | some k => laneVal s q o.w64 o.a (if q.lanes.getLsbD k then k else l)
      | none => laneVal s q o.w64 o.a l)) 4)) ∧
  (∀ s q f o, Ready s q (.shflX f o) →
    (groupOffer q.g ≠ none → exec (.shflX f o) s = .next (parkGroup s q.gid .offer)) ∧
    (groupOffer q.g = none → ∃ t, exec (.shflX f o) s = .next t ∧
      Waits s t q f (underWay s q (destsOf o.d (if o.w64 then 2 else 1)) (.offer
        { sc := (scalarVal q o.c).setWidth 32, mode := o.mode, n16 := q.b.n16, members := q.lanes,
          vals := (List.range 32).map (laneVal s q o.w64 o.a),
          ops := (List.range 32).map (fun l => (laneVal s q false o.b l).setWidth 32), lanes := active q f }))))) ∧
  (∀ (n16 : Bool) (l : Nat) (b : Word), l < 32 →
    let w := if n16 then 16 else 32
    let base := l / w * w
    shflSource .idx n16 l b = some (base + b.toNat % w) ∧
    (shflSource .up n16 l b = if b.toNat ≤ l - base then some (l - b.toNat) else none) ∧
    (shflSource .down n16 l b = if l + b.toNat < base + w then some (l + b.toNat) else none) ∧
    (∃ k, shflSource .xor n16 l b = some k ∧ base ≤ k ∧ k < base + w ∧ k - base = (l - base) ^^^ (b.toNat % w)))

/-- R197, R198: `grow` and `shrink`: a switch marker. A larger view is granted at once or the group parks for it: the set has
the larger of its rows and the view, and the new registers of the members read zero. A smaller view discards the held results of
the registers given up; the set keeps the rows of its largest view. -/
def Obligations.RegisterGrowth : Prop :=
  (∀ s q f n, Ready s q (.grow f n) →
    (n.toNat ≤ q.g.view → ∃ t, exec (.grow f n) s = .next t ∧ EndsMarked s t q (q.ctx.pc + 8) q.ctx) ∧
    (q.g.view < n.toNat →
      let u := countIssue s q (q.ctx.pc + 8)
      let more := n.toNat - setRows u q.g.set
      Only s u q (counted (q.ctx.pc + 8) q.ctx) ∧
      (grantsNow u q.g.core more = true → ∃ (t : State) (v : Tab Word → Tab Word), exec (.grow f n) s = .next t ∧
        t = atMarker (modGroup
          { u with sets := upd u.sets q.g.set (fun a => { a with rows := max a.rows n.toNat, v := v a.v }) }
          q.gid (fun g => { g with view := n.toNat })) q.gid ∧
        ∀ x k l, l < 32 → getZ (v x) (32 * k + l) =
          if q.g.view ≤ k ∧ k < n.toNat ∧ q.g.mask.getLsbD l = true then 0 else getZ x (32 * k + l)) ∧
      (grantsNow u q.g.core more = false → ∃ t, exec (.grow f n) s = .next t ∧ Parks s t q q.ctx (.grow n.toNat)))) ∧
  (∀ s q f n, Ready s q (.shrink f n) →
    (q.g.view ≤ n.toNat → ∃ t, exec (.shrink f n) s = .next t ∧ EndsMarked s t q (q.ctx.pc + 8) q.ctx) ∧
    (n.toNat < q.g.view →
      let kept (h : Held) : Bool := match h.dest with
        | .v m => decide (m < n.toNat)
        | _ => true
      let c : Ctx := { q.ctx with held := q.ctx.held.filter kept }
      let g : Group := { q.g with view := n.toNat, ctx := c }
      let w := modGroup s q.gid (fun _ => g)
      ∃ (t : State) (rows : Nat) (v : Tab Word → Tab Word), exec (.shrink f n) s = .next t ∧
        EndsMarked { w with sets := upd w.sets q.g.set (fun a => { a with rows, v := v a.v }) } t { q with g, ctx := c }
          (q.ctx.pc + 8) c ∧
        (∀ e ∈ w.groups, e.2.set = q.g.set → e.2.view ≤ rows) ∧ (∃ e ∈ w.groups, e.2.set = q.g.set ∧ e.2.view = rows) ∧
        ∀ x k l, l < 32 → getZ (v x) (32 * k + l) = if k < rows then getZ x (32 * k + l) else 0))

/-- R199: `spawn`: the active lanes that find a place in the pool form a new group that starts at B with the scalars and bindings
of the spawner, v0 its A, and rows of its own, the youngest of its core; D is under way with their pool indices, all ones where
there is none. Where the rows are not granted at once the spawner parks for them; a target outside the text traps. Which free
index a lane takes is log entry 45; that a `spawn` performs the group's earlier accesses at issue (`releaseNow`) is the model's
choice (log entry 13). -/
def Obligations.SpawnWords : Prop :=
  ∀ s q r f o, Ready s q (.spawn f o) →
    let bad := badTarget (drawn s 1024) q (scalarVal q o.b)
    let lanes := spawnLanes s q f o.a
    let u := releaseNow (drawn s 1024) q.gid
    let indices : List Dword := (List.range 32).map (fun l => match lanes.find? (fun x => x.1 == l) with
      | some x => BitVec.ofNat 64 x.2.1
      | none => 0xFFFFFFFF)
    let v := if active q f = 0 then u else addPending u q (destsOf o.d 1) (.value (active q f) [indices])
    (∀ x ∈ lanes, (active q f).getLsbD x.1 = true ∧ x.2.1 % 32 = x.1 ∧ x.2.1 < 1024 ∧ x.2.1 ∉ poolUsed s q.g.core ∧
      x.2.2 = (laneVal s q false o.a x.1).setWidth 32) ∧
    (∀ l, (active q f).getLsbD l = true → poolSpare s q.g.core l ≠ [] → ∃ x ∈ lanes, x.1 = l) ∧
    (bad = true → exec (.spawn f o) s = .next (trapBefore (drawn s 1024) q 0x20 (scalarVal q o.b) false)) ∧
    (bad = false → Still v q r →
      (lanes = [] → ∃ t, exec (.spawn f o) s = .next t ∧ Goes v t r f r.ctx.held) ∧
      (lanes ≠ [] → grantsNow v q.g.core q.g.view = false → ∃ t,
        exec (.spawn f o) s = .next t ∧ Parks v t r r.ctx (.spawn (scalarVal q o.b) lanes f.sw)) ∧
      (lanes ≠ [] → grantsNow v q.g.core q.g.view = true → RoomFor v r 2 →
        ∃ t p g a, exec (.spawn f o) s = .next (if f.sw then atMarker t q.gid else t) ∧
          look t.groups q.gid = some p ∧ p.ctx = counted (q.ctx.pc + 8) r.ctx ∧
          (∃ x ∈ p.ctx.pend, x.dests = destsOf o.d 1 ∧ x.work = .value (active q f) [indices]) ∧
          look t.groups (v.fresh + 1) = some g ∧ g.ctx.pc = scalarVal q o.b ∧ g.block = q.g.block ∧ g.core = q.g.core ∧
          g.view = r.g.view ∧ g.set = v.fresh ∧ g.ctx.run = 0 ∧ g.ctx.held = [] ∧ g.ctx.pend = [] ∧
          (∀ l, l < 32 → (g.mask.getLsbD l = true ↔ ∃ x ∈ lanes, x.1 = l)) ∧
          (∀ n, baseS g.ctx n = if n < 63 then readS r n else 0) ∧ (∀ n, n < 8 → getZ g.ctx.tl n = readTl r n) ∧
          look t.sets v.fresh = some a ∧ a.rows = r.g.view ∧
          (∀ x ∈ lanes, getZ a.v x.1 = x.2.2 ∧ look a.threads x.1 = some { pool := x.2.1, index := none }) ∧
          (coreOf t q.g.core).order = (coreOf v q.g.core).order ++ [v.fresh + 1]))

/-- R201 to R204: `eqenq` hands its lanes' entries to the expert queue unit, in a vector block after the control thread's AM
requests where a port reads an AM stream (R329); `eqstat` reads a queue, `hop.req` asks for a hop. R200: `klaunch`: the record
at A is appended to queue B and notified, or the status says why not. That `eqenq` and `klaunch` perform the group's earlier
accesses at issue (`releaseNow`, `performOwn`) is the model's choice (log 13), and so is the hub cycle in which an entry or an
`eqstat` reaches the unit (`arrivalTime`, log 33). -/
def Obligations.ExpertQueueAndLaunchWords : Prop :=
  ((∀ s q r f o, Ready s q (.eqenq f o) → q.vec = false →
    let u := releaseNow s q.gid
    let lanes := (memLanes q f).map (fun l => (l, readV s q (regNum o.b) l, BitVec.ofNat 128 (laneNat s q o.a 4 l)))
    Still (enqueueLanes u q lanes).1 q r → ∃ t, exec (.eqenq f o) s = .next t ∧ Enqueues u t q r f o lanes) ∧
  (∀ s q p r f o, Ready s q (.eqenq f o) → q.vec = true →
    let ams := readsAm s q.gid [regNum o.a, regNum o.b]
    let v := if ams then performOwn s q.gid else s
    let waits := ams && amBlocked v (coreCluster q.g.core) q.gid v.fresh
    (waits = true → exec (.eqenq f o) s = .next (parkGroup v q.gid .am)) ∧
    (waits = false → Still v q p →
      let a := portOperand v p o.a
      let b := portOperand a.s p o.b
      let u := releaseNow (setAmerr b.s [q.gid] (a.err ||| b.err)) q.gid
      let lanes := (laneList (active p f)).map (fun l => (l, b.v.setWidth 32, a.v.setWidth 128))
      a.bad = none → b.bad = none → a.poisoned = false → b.poisoned = false → Still (enqueueLanes u p lanes).1 p r →
      ∃ t, exec (.eqenq f o) s = .next t ∧ Enqueues u t p r f o lanes)) ∧
  (∀ s q f o, Ready s q (.eqstat f o) →
    let now := arrivalTime s q.g.core q.gid
    let u := { s with equ := { s.equ with last := some { at_ := now, core := q.g.core, group := q.gid } } }
    ∃ t, exec (.eqstat f o) s = .next t ∧
      WaitsFor u t q f o.d (match loadedQueue s q.part (field (scalarVal q o.a) 9 0) with
        | some (_, x) => x.status now
        | none => 0)) ∧
  (∀ s q r f n, Ready s q (.hopReq f n) →
    let u := modBlock s q.g.block (fun b => { b with hopReq := some n.toNat })
    Still u q r → ∃ t, exec (.hopReq f n) s = .next t ∧ Goes u t r f r.ctx.held)) ∧
  (∀ s q r f o k, Ready s q (.klaunch f o) →
    Placed s q .g 128 needR true [{ lane := 32, addr := (scalarVal q o.a).toNat }] k →
    let u := releaseNow k.s q.gid
    let key := (k.keys.map (·.2)).headD 0
    let x := appendRecord (meterHost u q.part key 128) q.part (scalarVal q o.b) (readBytes u key 128)
    poisonedAt u key 128 = false → Still x.1 q r → ∃ t, exec (.klaunch f o) s = .next t ∧ WaitsFor x.1 t r f o.d (BitVec.ofNat 64 x.2))

/-- R205: `mwait`: a switch marker that also waits until the dword in memory meets the condition, unsigned. That it performs
the group's earlier loads and atomics at issue (`performMem`), which R153 and R282 order before its test, is the model's choice
(log 13). R210: a claim of a Crow's Nest resource joins those of its hub cycle, lower cores and older groups first; at the end
of the cycle the resource's owner, or else the partition of the first claim, has it, status 0, and every other claim is
turned away, status 1; a release frees what the partition holds. That claims compete in the cycle of the hub, that a malformed
operand alone gives status 2, and that a release of an undecided claim waits for the decision, is the model's choice (log 40). -/
def Obligations.MemoryWaitsAndClaims : Prop :=
  (∀ s q r f cond o scope ord k, Ready s q (.mwait f cond o scope ord) →
    let a := addrOf (scalarVal q o.base) (offsetOf o.base o.off)
    Placed s q .g 8 needR true [{ lane := 32, addr := a }] k →
    let key := (k.keys.map (·.2)).headD 0
    let v := performMem k.s q.gid
    let u := meterHost v q.part key 8
    let x := waitRead v q.g.core q.gid key
    let cmp := scalarVal q o.data
    let holds := match cond with
      | .eq => x = cmp
      | .ne => x ≠ cmp
      | .ge => cmp.toNat ≤ x.toNat
    poisonedAt v key 8 = false → Still v q r →
    (holds → ∃ t, exec (.mwait f cond o scope ord) s = .next t ∧ EndsMarked u t r (q.ctx.pc + 8) r.ctx) ∧
    (¬holds → ∃ t, exec (.mwait f cond o scope ord) s = .next t ∧
      Parks u t r r.ctx (.mwait cond (BitVec.ofNat 64 a) key cmp (ord == .acq) (hubCycle s) false))) ∧
  ((∀ s q f o, Ready s q (.cnclaim f o) →
    (nestKey (scalarVal q o.a) = none → ∃ t, exec (.cnclaim f o) s = .next t ∧ WaitsFor s t q f o.d 2) ∧
    (∀ k, nestKey (scalarVal q o.a) = some k →
      let c : Claim := { core := q.g.core, group := q.gid, key := k, id := s.fresh, freed := false }
      ∃ (t : State) (enter : List Claim → List Claim), exec (.cnclaim f o) s = .next t ∧
        Waits { s with parts := upd s.parts q.part (fun p => { p with claims := enter p.claims }) } t q f
          (underWay s q (destsOf o.d 1) .claim) ∧
        ∀ l, ∃ a b, l = a ++ b ∧ enter l = a ++ c :: b ∧ (∀ x ∈ a, claimAfter s c x = false) ∧
          ∀ x ∈ b.head?, claimAfter s c x = true)) ∧
  (∀ s q f o, Ready s q (.cnfree f o) → ∃ t u, exec (.cnfree f o) s = .next t ∧ Goes u t q f q.ctx.held ∧
    (nestKey (scalarVal q o.a) = none → u = s) ∧
    (∀ k, nestKey (scalarVal q o.a) = some k →
      let mine (c : Claim) : Bool := c.group == q.gid && c.key == k
      let undecided := ∃ p, look s.parts q.part = some p ∧ p.claims.any mine = true
      (undecided → u = { s with parts := upd s.parts q.part (fun p =>
        { p with claims := p.claims.map (fun c => if mine c then { c with freed := true } else c) }) }) ∧
      (¬undecided → u = if nestOwner s k = some q.part then { s with nest := drop s.nest k } else s)))) ∧
  (∀ s,
    let all : List (Nat × Claim) := s.parts.flatMap (fun e => e.2.claims.map (fun c => (e.1, c)))
    let winner (k : Nat) : Option Nat := match nestOwner s k with
      | some p => some p
      | none => (all.find? (fun x => x.2.key == k)).map (·.1)
    let t := decideClaims s
    (all.Pairwise (fun x y => x.2.id ≠ y.2.id) → ∀ part c, (part, c) ∈ all → ∀ gid g, look s.groups gid = some g →
      ∃ h, look t.groups gid = some h ∧ ∀ p ∈ g.ctx.pend, p.id = c.id →
        { p with work := .value (BitVec.allOnes 32) [[if winner c.key = some part then 0 else 1]] } ∈ h.ctx.pend) ∧
    (∀ k, (∀ x ∈ all, x.2.key = k → x.2.freed = false) → nestOwner t k = winner k) ∧
    (∀ part c, rising s.nest = true → (part, c) ∈ all → c.freed = true → winner c.key = some part → nestOwner t c.key = none) ∧
    ∀ e ∈ t.parts, e.2.claims = [])

/-- R207: `trap` issues, at a marker if marked, and then its group traps with cause 0x100 + n, past the word. R208:
`tret`: the interrupted group goes on at h1, with its own register results and run count, and the shadow bank is free. -/
def Obligations.SoftwareTrapsAndReturns : Prop :=
  (∀ s q f n, Ready s q (.trap f n) →
    let x : Trap := { cause := 0x100 + n.toNat, write := false, addr := 0, word := q.ctx.pc }
    (f.sw = false → ∃ u, Only s u q (counted (q.ctx.pc + 8) q.ctx) ∧ exec (.trap f n) s = .next (takeTrap u q x)) ∧
    (f.sw = true → q.ctx.pend = [] → ∃ u, Only s u q (counted (q.ctx.pc + 8) q.ctx) ∧
      exec (.trap f n) s = .next (takeTrap (passMarker u q.gid) q x)) ∧
    (f.sw = true → q.ctx.pend ≠ [] → exec (.trap f n) s = .next (parkGroup s q.gid .results)) ∧
    (∀ entry, q.hand = false → (coreOf s q.g.core).serving = none → handlerEntry s q.part = some entry →
      (f.sw = true → q.ctx.pend = []) → ∃ t g, exec (.trap f n) s = .next t ∧ look t.groups q.gid = some g ∧ g.handler = true ∧
        let h := (coreOf t q.g.core).shadow.ctx
        h.pc = entry ∧ baseS h 0 = 0x100 + n.setWidth 64 ∧ baseS h 1 = q.ctx.pc)) ∧
  (∀ s q f, Ready s q (.tret f) →
    let own (h : Held) : Bool := match h.dest with
      | .s _ | .p _ | .v _ | .ac _ | .tl _ => true
      | _ => false
    (q.ctx.pend ≠ [] → exec (.tret f) s = .next (parkGroup s q.gid .results)) ∧
    (q.ctx.pend = [] → ∀ g, look s.groups q.gid = some g →
      (∀ o ∈ (coreOf s q.g.core).order, ∀ x, look s.groups o = some x → x.trap = none) →
      ∃ t u, exec (.tret f) s = .next t ∧ Only s u q (counted (q.ctx.pc + 8) q.ctx) ∧
        (∃ x, look t.groups q.gid = some x ∧ x.handler = false ∧ x.returned = true ∧ x.mask = g.mask ∧
          x.ctx.pc = baseS (shadowOf (passMarker u q.gid) q.g.core).ctx 1 ∧ x.ctx.held.filter own = g.ctx.held.filter own ∧
          x.ctx.run = g.ctx.run ∧
          x.ctx.issued = g.ctx.issued) ∧
        (coreOf t q.g.core).serving = none))

/-- R209: `xrd` reads a register of the interrupted group as its next word would find it, zero where a lane has no member;
`xwr` writes one, the lanes of its members, younger than every result held for it or still under way to it. -/
def Obligations.CrossBankMoves : Prop :=
  (∀ s q f o, Ready s q (.xrd f o) → Ordered q → ∃ t, exec (.xrd f o) s = .next t ∧
    let own : Issuer := { q with ctx := q.g.ctx, hand := false, at_ := q.g.ctx.issued + 1, lanes := q.g.mask }
    match o.a with
    | .s n => Goes s t q f (q.ctx.held ++ [scalarResult q o.d (readS own n.toNat) 2])
    | .p n => Goes s t q f (q.ctx.held ++ [scalarResult q o.d ((readP own n.toNat &&& q.g.mask).setWidth 64) 2])
    | .tl n => Goes s t q f (q.ctx.held ++ [scalarResult q o.d (readTl own n.toNat) 2])
    | .v n => Goes s t q f (q.ctx.held ++ laneResults q o.d false (BitVec.allOnes 32) ((List.range 32).map (fun l =>
        if q.g.mask.getLsbD l then (readV s own n.toNat l).setWidth 64 else 0)) 2)
    | _ => False) ∧
  (∀ s q r f o, Ready s q (.xwr f o) →
    let put (d : Dest) (mask : Word) (vals : List Dword) : State :=
      modGroup s q.gid (fun g => { g with ctx := { g.ctx with
        pend := g.ctx.pend.map (fun p => { p with dests := p.dests.map (fun x => if x = d then .gone else x) })
        held := insertHeld { dest := d, mask, vals, vis := .at 0, seq := g.ctx.issued } (g.ctx.held.filter (fun h => h.dest != d)) } })
    let u := match o.d with
      | .s n => put (.s n.toNat) (BitVec.allOnes 32) [scalarVal q o.a]
      | .p n => put (.p n.toNat) q.g.mask [((scalarVal q o.a).setWidth 32).setWidth 64]
      | .tl n => put (.tl n.toNat) (BitVec.allOnes 32) [scalarVal q o.a &&& 0xF800FFFF000000FF]
      | .v n => put (.v n.toNat) q.g.mask ((List.range 32).map (laneVal s q false o.a))
      | _ => s
    Still u q r → ∃ t, exec (.xwr f o) s = .next t ∧ Goes u t r f r.ctx.held)

/-- R171: `tlwait` goes on at n, waits for an operation that has been issued, and traps on one that never was;
`tlbind` writes a binding; `tlread` reads a counter. -/
def Obligations.TimelineWords : Prop :=
  (∀ s q f d a imm, Ready s q (.tlwait f d a imm) →
    let b := readTl q (regNum a)
    let e := bindRef b
    let n := (scalarVal q d + imm.setWidth 64).toNat
    let owned := engOwned s q.part e = true
    (bitAt b 63 = false → exec (.tlwait f d a imm) s = .next (trapBefore s q 0x22 0 false)) ∧
    (bitAt b 63 = true → ¬owned → exec (.tlwait f d a imm) s = .next (trapBefore s q 0x30 0 false)) ∧
    (bitAt b 63 = true → owned → n ≤ engCount s q.part e → ∃ t, exec (.tlwait f d a imm) s = .next t ∧ Goes s t q f q.ctx.held) ∧
    (bitAt b 63 = true → owned → engCount s q.part e < n → engIssued s q.part e < n →
      exec (.tlwait f d a imm) s = .next (trapBefore s q 0x22 0 false)) ∧
    (bitAt b 63 = true → owned → engCount s q.part e < n → n ≤ engIssued s q.part e →
      exec (.tlwait f d a imm) s = .next (parkGroup s q.gid (.tlwait e n)))) ∧
  (∀ s q f d a imm, Ready s q (.tlbind f d a imm) → Ordered q →
    let b := scalarVal q a &&& 0xF800FFFF000000FF
    let bad := 4 < field b 62 59 ∨ bitAt b 63 = true ∧ engOwned s q.part (bindRef b) = false
    (bad → exec (.tlbind f d a imm) s = .next (trapBefore s q 0x30 0 false)) ∧
    (¬bad → ∃ t, exec (.tlbind f d a imm) s = .next t ∧
      Goes s t q f (q.ctx.held ++ [result q (.tl (regNum d)) (BitVec.allOnes 32) [b] 2]))) ∧
  (∀ s q f d a imm, Ready s q (.tlread f d a imm) →
    let b := readTl q (regNum a)
    let ok := bitAt b 63 = true ∧ engOwned s q.part (bindRef b) = true
    (¬ok → exec (.tlread f d a imm) s = .next (trapBefore s q 0x30 0 false)) ∧
    (ok → ∃ t, exec (.tlread f d a imm) s = .next t ∧ WaitsFor s t q f d (BitVec.ofNat 64 (engCount s q.part (bindRef b)))))

/-- R162, R167: the commands to the copy engines and the indirect-stream engines. The model's own: the group's earlier accesses
are performed at issue (log 13), who may use a context of an indirect-stream engine (log 23), and that a local status record or
barrier counts as a local side (log 54). -/
def Obligations.EngineCommands : Prop :=
  CommandWord .acopy 0 128 (fun q size e bs =>
    (parseCopy bs).bind (fun d => if copyFits size (q.g.core / 12) e.unit d then some (.copy false d) else none)) ∧
  CommandWord .acopyPull 0 128 (fun q size e bs =>
    (parseCopy bs).bind (fun d => if copyFits size (q.g.core / 12) e.unit d then some (.copy true d) else none)) ∧
  CommandWord .gath 1 64 (fun _ size _ bs => (parseIse false bs).bind (fun d => if iseFits size d then some (.gath d) else none)) ∧
  CommandWord .scat 1 64 (fun _ size _ bs => (parseIse true bs).bind (fun d => if iseFits size d then some (.scat d) else none))

/-- R215 to R220, R398: `tcfg` writes a tile register at distance 2, `mma` and `mma.pair` enter a pass in the
cluster's table; each binds its block to the cluster. That a pass performs the group's earlier accesses at issue
(`releaseNow`) is the model's choice (log 13), as is how it counts in its context and table (log 24). -/
def Obligations.MatrixWords : Prop :=
  (∀ s q f o, Ready s q (.tcfg f o) → Ordered q →
    let tile : Tile := { lo := scalarVal q o.a, hi := scalarNext q o.a }
    let n := regNum o.d
    let cl := q.g.core / 4
    let u := setCluster s cl (setTile (clusterOf s cl) n tile)
    let all := BitVec.allOnes 32
    (tile.ok = false → exec (.tcfg f o) s = .next (trapBefore s q 0x32 0 false)) ∧
    (tile.ok = true → ∃ t, exec (.tcfg f o) s = .next (bindBlock q t) ∧
      Goes u t q f (q.ctx.held ++ [result q (.tileWas (2 * n)) all [(readTile s q n).lo] 2,
        result q (.tileWas (2 * n + 1)) all [(readTile s q n).hi] 2]))) ∧
  (∀ (pair : Bool) s q r f sat tl o,
    let i : Instr := if pair then .mmaPair f sat tl o else .mma f sat tl o
    Ready s q i →
    let b := readTl q tl.toNat
    let cl := q.g.core / 4
    let e := bindRef b
    let bound := bitAt b 63 = true ∧ e.kind = 2 ∧ e.unit = cl ∧ e.ctx < 4
    let n := (engCtx (releaseNow s q.gid) e).issued + 1
    let p : Pass :=
      { no := n, ctx := e.ctx, block := q.g.block, launch := q.b.launch, set := q.g.set, part := q.part, core := q.g.core,
        tileA := readTile s q (regNum o.a), tileB := readTile s q (regNum o.b), target := scalarVal q o.c, sat, pair,
        pri := launchPri s q.b.launch, entered := s.clock, aged := false, array := 2, wrote := false, words := [], events := 0 }
    let u := setEngCtx (releaseNow s q.gid) e { engCtx (releaseNow s q.gid) e with issued := n }
    let v := setCluster u cl { clusterOf u cl with table := (clusterOf u cl).table ++ [p] }
    (¬bound → exec i s = .next (trapBefore s q 0x30 0 false)) ∧
    (bound → p.bad = true → exec i s = .next (trapBefore s q 0x32 0 false)) ∧
    (bound → p.bad = false → 16 ≤ (clusterOf s cl).table.length + (clusterOf s cl).running.length →
      exec i s = .next (parkGroup s q.gid (.full { kind := 2, unit := cl, ctx := e.ctx }))) ∧
    (bound → p.bad = false → (clusterOf s cl).table.length + (clusterOf s cl).running.length < 16 → Still v q r →
      ∃ t, exec i s = .next (bindBlock q t) ∧ WaitsFor v t r f o.d (BitVec.ofNat 64 n)))

/-- R228 to R231, R329, R398: the accumulator memory words: a request with a result is under way, an `afree` or
`azero` joins the waiting ones; R228: an allocation takes the lowest run of free banks. -/
def Obligations.AccumulatorWords : Prop :=
  (∀ s q f o, Ready s q (.aalloc f o) → ∃ t, exec (.aalloc f o) s = .next (bindBlock q t) ∧
    Waits s t q f (underWay s q (destsOf o.d 1) (.am .alloc (scalarVal q o.a)))) ∧
  (∀ s q f o, Ready s q (.aclaim f o) → ∃ t, exec (.aclaim f o) s = .next (bindBlock q t) ∧
    Waits s t q f (underWay s q (destsOf o.d 1) (.am .claim (scalarVal q o.a)))) ∧
  (∀ s q f w64 o, Ready s q (.ard f w64 o) → ∃ t, exec (.ard f w64 o) s = .next (bindBlock q t) ∧
    Waits s t q f (underWay s q (destsOf o.d (if w64 && !o.d.scalar then 2 else 1))
      (.am (.read w64 o.d.scalar (active q f)) (scalarVal q o.a)))) ∧
  (∀ (zero : Bool) s q r f o,
    let i : Instr := if zero then .azero f o else .afree f o
    Ready s q i →
    let cl := q.g.core / 4
    let c := clusterOf s cl
    let req : BankOp :=
      { zero, range := scalarVal q o.a, owners := [q.gid], launch := q.b.launch, set := q.g.set, seq := s.fresh,
        passes := passesTo c (rangeOf (scalarVal q o.a)).banks }
    let u := setCluster { s with fresh := s.fresh + 1 } cl { c with bankOps := c.bankOps ++ [req] }
    let v := settleBanks u cl (c.bankOps.length + 1)
    Still v q r → ∃ t, exec i s = .next (bindBlock q t) ∧ Goes v t r f r.ctx.held) ∧
  (∀ s cl launch x,
    let n := field x 7 0
    let banks := (clusterOf s cl).banks
    let free (k : Nat) : Prop := k + n ≤ 128 ∧ ∀ i, i < n → look banks (k + i) = none
    let a := allocBanks s cl launch x
    (field x 63 8 ≠ 0 ∨ n = 0 ∨ 128 < n → a = (s, 0x101)) ∧
    (field x 63 8 = 0 → 0 < n → n ≤ 128 → (∀ k, ¬free k) → a = (s, 0x100)) ∧
    (∀ k, field x 63 8 = 0 → 0 < n → free k → (∀ j, j < k → ¬free j) → a.2 = BitVec.ofNat 64 k ∧
      ∀ b, look (clusterOf a.1 cl).banks b = if k ≤ b ∧ b < k + n then some { launch, claim := none } else look banks b))

/-- R236, R237, R240: a port gets its stream, an accumulator its value; `vdrain` is a marker that also waits for the
sinks. R241: `vsrc` comes after every earlier access of its thread. That those, and at `vsnk` the earlier loads and atomics
(`performMem`), are performed at issue is the model's choice (log 13). -/
def Obligations.StreamWords : Prop :=
  (∀ (sink : Bool) s q r f o sp,
    let i : Instr := if sink then .vsnk f o else .vsrc f o
    Ready s q i →
    let a := (scalarVal q o.a).toNat
    let u := if sink then performMem s q.gid else releaseNow s q.gid
    let v := setPort u q.gid sink (regNum o.d) { spec := some sp, pos := 0 }
    (a % 64 ≠ 0 ∨ blockLocal s q.b < a + 64 → exec i s = .next (trapBefore s q 0x31 0 false)) ∧
    (a % 64 = 0 → a + 64 ≤ blockLocal s q.b →
      (parseSpec sink (ownLocal u q a 64) = none → exec i s = .next (trapBefore u q 0x31 0 false)) ∧
      (parseSpec sink (ownLocal u q a 64) = some sp → Still v q r →
        ∃ t, exec i s = .next t ∧ Goes v t r f r.ctx.held))) ∧
  (∀ s q f o, Ready s q (.vaccReset f o) → Ordered q → ∃ t, exec (.vaccReset f o) s = .next t ∧
    Goes s t q f (q.ctx.held ++ [result q (.ac (regNum o.d)) (BitVec.allOnes 32) (List.replicate 32 (scalarVal q o.a)) 1])) ∧
  (∀ s q f o, Ready s q (.vdrain f o) → ∃ t, exec (.vdrain f o) s = .next t ∧
    if (coreOf s q.g.core).storeQ.any (fun e => e.sink && e.owners.contains q.gid) then Parks s t q q.ctx .drain
    else EndsMarked s t q (q.ctx.pc + 8) q.ctx)

/-- R57, R59, R234, R235, R238, R239, R329, R413: `vstrip` waits for a pending token that its body reads, where it reads AM for
the control thread's AM requests, and where it is marked for every result under way, which its body then sees; then it runs its
body over as many elements as its streams and E allow, and goes on after the body: each port has moved on, or lost its rest, and
the sinks' elements are queued in order. An element that faults stops the strip: those before it have their effect, `c.vstrip`
keeps their number, and the trap is taken at the `vstrip`. Poison in a body word or an element kills the block. That a `vstrip`
performs the group's earlier loads and atomics (`performMem`), or every access and AM request (`performOwn`), at issue is the
model's choice (log entry 13), as is what a body word sees of the thread's own earlier words (log entry 56). -/
def Obligations.StripsRunTheirBody : Prop :=
  ∀ s q f o, Ready s q (.vstrip f o) →
    let c := checkBody s q.part ((q.ctx.pc.toNat + 8) % 2 ^ 64) [] (bodyRoom q f.sw)
    let am := readsAm c.s q.gid (bodyIns c.words)
    let u := if am || f.sw then performOwn c.s q.gid else performMem c.s q.gid
    let waits := am && amBlocked u (q.g.core / 4) q.gid u.fresh
    let exposed := !f.sw && bodyExposed q c.words
    (bodyRoom q f.sw = if f.sw then 48 else 47 - q.ctx.run) ∧
    (c.poisoned = true → exec (.vstrip f o) s = .next (killBlock c.s q.g.block 2)) ∧
    (c.poisoned = false → ∀ cause a, c.trap = some (cause, a) → exec (.vstrip f o) s = .next (trapBefore c.s q cause a false)) ∧
    (c.poisoned = false → c.trap = none → exposed = true →
      exec (.vstrip f o) s = .next (trapBefore c.s q 0x06 0 false)) ∧
    (c.poisoned = false → c.trap = none → exposed = false → ∀ n, bodyToken q c.words = some n →
      exec (.vstrip f o) s = .next (parkGroup c.s q.gid (.token n))) ∧
    (c.poisoned = false → c.trap = none → exposed = false → bodyToken q c.words = none → waits = true →
      exec (.vstrip f o) s = .next (parkGroup u q.gid .am)) ∧
    ∀ r, c.poisoned = false → c.trap = none → exposed = false → bodyToken q c.words = none → waits = false →
      Still u q r →
      (f.sw = true → r.ctx.pend ≠ [] → exec (.vstrip f o) s = .next (parkGroup u q.gid .results)) ∧
      let sees : Issuer := if f.sw then
        { r with ctx := { r.ctx with held := r.ctx.held.map (fun h => { h with vis := .at 0 }) } } else r
      let ports (sink : Bool) (ns : List Nat) : List (Nat × Port) := ns.map (fun n => (n, portOf u q.gid sink n))
      let ins := ports false (bodyIns c.words)
      let outs := ports true (bodyOuts c.words)
      let k := stripDone (hidden r (.cregWas 8) r.g.vstrip)
      let e := field (scalarVal r o.a) 31 0
      let n := (stripCount e k ((ins ++ outs).map (fun p => p.2.left))).1
      let atE := (stripCount e k ((ins ++ outs).map (fun p => p.2.left))).2
      let src (n : Nat) := readElements sees ins { s := u, els := [], err := 0, poisoned := false, bad := none } n
      let snk (n : Nat) (stopped : Bool) :=
        let x := src n
        let run := runBody x.s sees x.els c.words k (if x.bad.isSome then x.els.length else n) (stopped || x.bad.isSome)
        run.emits.foldl (placeEmit sees outs) { s := x.s, stores := [], bad := none }
      let queued (v : State) (w : Writes) := v.mem = w.s.mem ∧
        (coreOf v q.g.core).storeQ = (coreOf (pushStores w.s r true w.stores) q.g.core).storeQ
      let ended (b : Bool) (t : State) : State := if b then killBlock t q.g.block 2 else t
      (f.sw = false ∨ r.ctx.pend = []) →
      ((src n).bad = none → (snk n false).bad = none →
        ∃ t v g, exec (.vstrip f o) s = .next (ended (src n).poisoned t) ∧ look v.groups q.gid = some g ∧
          t = modGroup (atMarker v q.gid) q.gid (fun g => { g with strip := true }) ∧
          g.vstrip = 0 ∧ g.ctx.pc = q.ctx.pc + 8 * BitVec.ofNat 64 (c.words.length + 1) ∧
          g.ctx.issued = r.ctx.issued + c.words.length + 1 ∧ queued v (snk n false) ∧
          (∀ (sink : Bool) (p : Nat × Port), p ∈ (if sink then outs else ins) →
            portOf v q.gid sink p.1 =
              if atE = false ∧ n < p.2.left then { spec := none, pos := 0 } else { p.2 with pos := p.2.pos + n })) ∧
      (∀ j x, ((snk n false).bad.or ((src n).bad.map (fun x => ((src n).els.length, x)))) = some (j, x) →
        ∃ v g, exec (.vstrip f o) s = .next (ended (src j).poisoned (memTrap v r x)) ∧ look v.groups q.gid = some g ∧
          g.vstrip = BitVec.ofNat 64 (2 ^ 63 + (k + j) % 2 ^ 32) ∧ g.ctx.pc = r.ctx.pc ∧ g.ctx.issued = r.ctx.issued ∧
          queued v (snk j true) ∧
          (∀ (sink : Bool) (p : Nat × Port), p ∈ (if sink then outs else ins) →
            portOf v q.gid sink p.1 = { p.2 with pos := p.2.pos + j }))

/-- R242 to R247: the band operations. The model's own: the group's earlier accesses are performed at issue (log 13), and a
band's context is context 0 of its first row (log 24). -/
def Obligations.BandCommands : Prop :=
  BandWord .fload 0 256 ∧ BandWord .frun 1 64 ∧ BandWord .fdrain 2 1 ∧ BandWord .fsave 3 4096

/-- R248: `fpush` and `fpop` at a port of the block's band; a push to a port that does not exist, or that has no room,
and a pop that finds no token, change no channel and say so. -/
def Obligations.PortWords : Prop :=
  (∀ s q f half null o first b, Ready s q (.fpush f half null o) → q.b.band = some first → look s.bands first = some b →
    let tok := pushTok s q f half null o.a
    let x := pushBand b q.gid (scalarVal q o.b) tok s.clock
    (tok.null = null ∧ (null = false → ∀ k, k < 16 → tok.lanes.getD k 0 =
      if (active q f).getLsbD (16 * half.toNat + k) then (laneVal s q false o.a (16 * half.toNat + k)).setWidth 32 else 0)) ∧
    ∃ t, exec (.fpush f half null o) s = .next t ∧ WaitsFor (setBand s first x.1) t q f o.d x.2) ∧
  (∀ s q f half o first b, Ready s q (.fpop f half o) → q.b.band = some first → look s.bands first = some b →
    let x := popBand b (scalarVal q o.a) s.clock
    let u := setBand s first x.1
    (∀ k, x.2.1 = some k → k.null = false → ∃ t, exec (.fpop f half o) s = .next t ∧
      let lo := 16 * half.toNat
      let p := underWay u q (destsOf o.d 1) (.value (active q f &&& ofLanes (fun l => decide (lo ≤ l) && decide (l < lo + 16)))
        [(List.range 32).map (fun l => (k.lanes.getD (l - lo) 0).setWidth 64)])
      let w : State := { u with fresh := u.fresh + 1 }
      Ends { w with fresh := w.fresh + (if o.c.absent then 0 else 1) } t q f (q.ctx.pc + 8)
        { q.ctx with pend := q.ctx.pend ++ p :: (if o.c.absent then []
          else [underWay w q (destsOf o.c 1) (.value (BitVec.allOnes 32) [[x.2.2]])]) }) ∧
    ((∀ k, x.2.1 = some k → k.null = true) → ∃ t, exec (.fpop f half o) s = .next t ∧ WaitsFor u t q f o.c x.2.2)) ∧
  (∀ b gid x tok now, corePort b x 2 = none → pushBand b gid x tok now = (b, 0x4000000000000000)) ∧
  (∀ b gid x tok now c i, corePort b x 2 = some (c, i) → c.reinjects i = false → pushRoom b c (c.portPath i) = 0 →
    pushBand b gid x tok now = (b, 0x8000000000000000)) ∧
  (∀ b x now, corePort b x 3 = none → popBand b x now = (b, none, 0x4000000000000000)) ∧
  (∀ b x now c i, corePort b x 3 = some (c, i) → (b.chan (c.portPath i)).q = [] → popBand b x now = (b, none, 0x8000000000000000))

/-- R55, R59, R171 to R173, R253, R255, R389 to R391: what happens to groups between their words: a park ends, a ready
group enters the active set of 8, one starves, a pending trap is delivered. That the cycles of a handler that runs count among
the 512 of a group that starves is the model's reading of R255 (log 19). -/
def Obligations.GroupEvents : Prop :=
  (∀ s gid g, look s.groups gid = some g → blockMoves s g = true →
    (leaves s gid g = some .again → exec (.groupUnpark gid) s = .next (unparkGroup s gid)) ∧
    (leaves s gid g = some .past → exec (.groupUnpark gid) s = .next (atMarker (unparkGroup s gid) gid)) ∧
    (leaves s gid g = none → exec (.groupUnpark gid) s = .next s) ∧
    (g.park = some .marker → (leaves s gid g = some .past ↔ (ctxOf s g).pend = [])) ∧
    (∀ n, g.park = some (.token n) → (leaves s gid g = some .again ↔ ∀ t ∈ (ctxOf s g).toks, t.reg ≠ n)) ∧
    (∀ key phase, g.park = some (.tbar key phase) →
      (leaves s gid g = some .past ↔ (ctxOf s g).pend = [] ∧ ((readBarrier s key).gen - phase - 1).toNat < 2 ^ 31)) ∧
    (∀ e n b, g.park = some (.tlwait e n) → look s.blocks g.block = some b →
      (leaves s gid g = some .again ↔ n ≤ engCount s b.part e))) ∧
  (∀ s core gid g, activeCount s core < 8 → nextEntry s core = some gid → look s.groups gid = some g →
    ∃ t, exec (.activeSetEntry core) s = .next t ∧
      look t.groups gid = some { g with active := true, starving := false, readyAt := none } ∧
      ∀ k, k ≠ gid → look t.groups k = look s.groups k) ∧
  (∀ s core, 8 ≤ activeCount s core → exec (.activeSetEntry core) s = .next s) ∧
  (∀ s core gid, nextEntry s core = some gid → ∃ g, look s.groups gid = some g ∧ readyGroup s g = true ∧
    ∀ k h, k ∈ (coreOf s core).order → look s.groups k = some h → readyGroup s h = true → h.starving = true →
      g.starving = true ∧ g.readyAt.getD 0 ≤ h.readyAt.getD 0) ∧
  (∀ s gid g, look s.groups gid = some g → readyGroup s g = true → g.starving = false →
    let waited := islandCycles s (g.core / 4) (g.readyAt.getD s.clock)
    (waited < 512 → exec (.groupStarvation gid) s = .next s) ∧
    (512 ≤ waited → ∃ t, exec (.groupStarvation gid) s = .next t ∧ look t.groups gid = some { g with starving := true } ∧
      ∀ k, k ≠ gid → look t.groups k = look s.groups k)) ∧
  (∀ s gid g, look s.groups gid = some g → blockMoves s g = true →
    (∀ x, (coreOf s g.core).serving = none → nextTrap s g.core = some (gid, x) →
      exec (.trapDelivery gid) s = .next (deliverTrap s gid x)) ∧
    ((coreOf s g.core).serving ≠ none → exec (.trapDelivery gid) s = .next s))

/-- R182, R195, R198, R205, R266, R396: the other events of groups: two offers across cores match, rows are granted to the
oldest waiter, behind a swapped-out set a deadlock in growth is broken, a swapped-out group or set returns, and a group parked
on `mwait` tests memory again. A shuffled lane whose partner has no member there is free (log entry 5). That a set whose groups
have all been swapped out one by one under R182 returns whole, as a set of R396 does, and is passed over where groups return one
by one (`setSwapped`), is the model's reading (log 22). -/
def Obligations.WaitersGoOn : Prop :=
  (∀ s g₁ g₂ a b p o r t, look s.groups g₁ = some a → look s.groups g₂ = some b → groupOffer a = some (p, o) →
    groupOffer b = some (r, t) → p.id ≠ r.id → a.core / 4 = b.core / 4 → o.sc.toNat % 4 = b.core % 4 →
    t.sc.toNat % 4 = a.core % 4 → o.sc.toNat / 2 ^ 16 = t.sc.toNat / 2 ^ 16 →
    oldestOffer s a.core (p, o) r.id = true → oldestOffer s b.core (r, t) p.id = true →
    ∃ u, exec (.shflXMatch g₁ g₂) s = .next u ∧ u.mem = s.mem ∧
      let both (g : Group) : Group :=
        let m := if g.vec.isSome then BitVec.allOnes 32 else g.mask
        { g with ctx := (g.ctx.arrive p (offerResult s p o t) m).arrive r (offerResult s r t o) m }
      look u.groups g₁ = some (both a) ∧ look u.groups g₂ = some (both b)) ∧
  (∀ s p (mine other : ShflOffer) n, p.dests = [.v n] →
    (offerResult s p mine other).mask = mine.lanes ∧
    (offerResult s p mine other).vals = [(List.range 32).map (fun l =>
      let source := match shflSource mine.mode mine.n16 l (mine.ops.getD l 0) with
        | some j => if other.members.getLsbD j then j else l
        | none => l
      ((if other.members.getLsbD source then other.vals.getD source 0 else
        Config.noMember mine.mode mine.members mine.lanes mine.vals mine.ops other.members other.lanes other.vals other.ops l
        ).setWidth 32).setWidth 64)]) ∧
  (∀ s core gid g n k ws, waiters s core = .request gid n :: ws → look s.groups gid = some g → n ≤ rowsFree s core →
    (g.park = some (.grow k) → exec (.rowGrant core) s = .next (atMarker (unparkGroup (growNow s gid k) gid) gid)) ∧
    (∀ start lanes mark, g.park = some (.spawn start lanes mark) →
      let u := unparkGroup (spawnNow s gid start lanes) gid
      exec (.rowGrant core) s = .next (if mark then atMarker u gid else u))) ∧
  (∀ s core, waiters s core = [] → exec (.rowGrant core) s = .next s) ∧
  (∀ s core set rows places ws gid g, waiters s core = .returning set rows places :: ws →
    rowsFree s core < rows ∨ placesFree s core places = false → growDeadlock s core = true →
    (coreOf s core).order.find? (fun k => ((coreGroups s core).map (·.1)).contains k) = some gid → look s.groups gid = some g →
    ((rowsWanted s g).getD 0 ≤ rowsFree s core → exec (.rowGrant core) s = .next (grantRows s gid)) ∧
    (∀ y, rowsFree s core < (rowsWanted s g).getD 0 → youngestSet s core g.set = some y →
      exec (.rowGrant core) s = .next (swapSet s y))) ∧
  (∀ s core n, placesFree s core n = true ↔ (coreGroups s core).length + heldPlaces s core none + n ≤ 64) ∧
  (∀ s core, placesFree s core 1 = false → exec (.groupSwapIn core) s = .next s) ∧
  (∀ s core gid g, placesFree s core 1 = true → look s.groups gid = some g →
    (coreOf s core).order.find? (fun k => match look s.groups k with
      | some x => x.swapped && !setSwapped s x.set
      | none => false) = some gid →
    ∃ t, exec (.groupSwapIn core) s = .next t ∧
      look t.groups gid = some { g with swapped := false, slot := none, readyAt := if g.park = none then some s.clock else none } ∧
      ∀ k, k ≠ gid → look t.groups k = look s.groups k) ∧
  (∀ s core set rows places ws, waiters s core = .returning set rows places :: ws → rows ≤ rowsFree s core →
    placesFree s core places = true → ∃ t, exec (.allocationSetReturn core) s = .next t ∧
      ∀ gid g, look s.groups gid = some g → g.set = set → ∃ x, look t.groups gid = some x ∧ x.swapped = false ∧ x.slot = none ∧
        x.mask = g.mask ∧ x.ctx.pc = g.ctx.pc) ∧
  (∀ s gid g b cond va key cmp acq last ready, look s.groups gid = some g → look s.blocks g.block = some b →
    g.park = some (.mwait cond va key cmp acq last ready) → blockMoves s g = true →
    (isHbm key = true ∨ ready = true ∨ last + 1024 ≤ hubCycle s) →
    let k := accessKeys s g.block b .g needR true [{ lane := 32, addr := va.toNat }]
    let at_ := (k.keys.map (·.2)).headD 0
    let u := meterHost k.s b.part at_ 8
    let x := waitRead u g.core gid at_
    let holds := match cond with
      | .eq => x = cmp
      | .ne => x ≠ cmp
      | .ge => cmp.toNat ≤ x.toNat
    k.bad = none → poisonedAt u at_ 8 = false →
    (holds → exec (.mwaitRecheck gid) s = .next (atMarker (unparkGroup u gid) gid)) ∧
    (¬holds → exec (.mwaitRecheck gid) s =
      .next (modGroup u gid (fun g => { g with park := some (.mwait cond va at_ cmp acq (hubCycle u) false) }))))

/-- R159, R160, R164 to R166, R169, R170, R174, R223, R273, R414: the steps of the copy, indirect-stream and matrix engines.
A copy's element goes to memory, or to its block's local window or the cluster's OB without the bytes of typed barrier words
(CODE 3); its barrier is decremented for each 64 bytes, and for what is left at completion. One element at a time, in ascending
order, is the model's choice (log 48); so is that a local status record leaves the bytes of a typed quad, which keeps the
operation's CODE and is not reported (log 54). R352: what has moved bytes restarts the block's hang timer. -/
def Obligations.EngineEvents : Prop :=
  (∀ s cl,
    let c := clusterOf s cl
    let due (p : Pass) : Prop := 65536 ≤ islandCycles s cl p.entered
    ∃ t, exec (.matrixPassAgeing cl) s = .next t ∧ (clusterOf t cl).table.length = c.table.length ∧
      ∀ (i : Nat) (p : Pass), c.table[i]? = some p → ∃ x : Pass, (clusterOf t cl).table[i]? = some x ∧ (x.aged = true ↔ p.aged = true ∨ due p) ∧
        x = { p with aged := x.aged }) ∧
  (∀ s cl p,
    let u := agePasses s cl
    let c := clusterOf u cl
    nextPass c = some p →
    (p.banks.all (bankOwned c p.launch) = false → exec (.matrixPassGrant cl) s = .next (passDone u cl { p with events := evForeign })) ∧
    (p.banks.all (bankOwned c p.launch) = true → p.banks.any (bankClaimed c p.set) = true →
      exec (.matrixPassGrant cl) s = .next (passDone u cl { p with events := evClaimed })) ∧
    (p.banks.all (bankOwned c p.launch) = true → p.banks.any (bankClaimed c p.set) = false → p.uncorrectable c = false →
      ∃ t, exec (.matrixPassGrant cl) s = .next t ∧ t.mem = s.mem ∧
        let r : Pass := { p with array := if p.pair then 2 else (freeArrays c).headD 0 }
        clusterOf t cl = { c with
          table := c.table.filter (fun x => !(x.ctx == p.ctx && x.no == p.no))
          running := c.running ++ [{ r with wrote := true, words := (r.compute u cl).1, events := (r.compute u cl).2 }] })) ∧
  (∀ s cl, nextPass (clusterOf (agePasses s cl) cl) = none → exec (.matrixPassGrant cl) s = .next (agePasses s cl)) ∧
  (∀ s cl i p, (clusterOf s cl).running[i]? = some p → (clusterOf s cl).bankOps = [] →
    ∃ t, exec (.matrixPassRetire cl i) s = .next t ∧
      (∀ x ∈ (clusterOf t cl).running, ¬(x.ctx = p.ctx ∧ x.no = p.no)) ∧
      engCtx t { kind := 2, unit := cl, ctx := p.ctx } = (engCtx s { kind := 2, unit := cl, ctx := p.ctx }).complete p.no ∧
      (p.wrote = true → ∀ a, (∀ w ∈ p.words, a < amKey cl w.1 ∨ amKey cl w.1 + 4 ≤ a) → readByte t a = readByte s a)) ∧
  (∀ s cl i, (clusterOf s cl).running[i]? = none → exec (.matrixPassRetire cl i) s = .next s) ∧
  (∀ s sector ctx o pull d,
    let e : EngRef := { kind := 0, unit := sector, ctx }
    let rd := (if d.srcLocal then localRead s o.block o.core (d.srcAt o.next) d.esz
      else engineRead s o.part (d.srcAt o.next) d.esz).touch o.block
    let w := engineWrite rd.s o.part (d.dstAt o.next) rd.bytes
    (engCtx s e).ops.find? (fun o => o.ended.isNone) = some o → o.work = .copy pull d →
    (o.wait ≠ none → exec (.copyExecute sector ctx) s = .next s) ∧
    (o.wait = none → o.next < dimsCount d.dims → wrongDirection s o.part pull d o.next = true → exec (.copyExecute sector ctx) s =
      .next (modOp s e o.no (fun x => { x with code := 6, fails := 1, first := some 0, ended := some 6 }))) ∧
    (o.wait = none → dimsCount d.dims ≤ o.next → exec (.copyExecute sector ctx) s =
      .next (modOp s e o.no (fun x => { x with ended := some x.code }))) ∧
    (∀ n a w, o.wait = none → o.next = 0 → 0 < dimsCount d.dims → wrongDirection s o.part pull d 0 = false →
      unknownSide s o.part pull d = some (n, a, w) → exec (.copyExecute sector ctx) s = .next (copyMet s e o n (.wait a w))) ∧
    (o.wait = none → wrongDirection s o.part pull d o.next = false → (o.next = 0 → unknownSide s o.part pull d = none) →
      o.next < dimsCount d.dims →
      let chunk := (o.next + 1) * d.esz % 64 = 0 ∧ o.next + 1 < dimsCount d.dims
      let local_ := localWrite rd.s o.block o.core (d.dstAt o.next) rd.bytes
      let moved (u : State) (refused : Bool) : State :=
        let v := match d.barrier with
          | some a => if chunk then engineDecrement u o.block a else u
          | none => u
        modOp v e o.no (fun x =>
          let first := refused = true ∧ x.code = 0
          { x with
            next := o.next + 1
            decs := if chunk ∧ d.barrier ≠ none then x.decs + 1 else x.decs
            code := if first then 3 else x.code
            fails := if first then 1 else x.fails
            first := if first then some o.next else x.first })
      (rd.met ≠ .done → exec (.copyExecute sector ctx) s = .next (copyMet rd.s e o o.next rd.met)) ∧
      (rd.met = .done → d.dstLocal = true → exec (.copyExecute sector ctx) s =
        .next (moved (coverOb local_.1 e o (d.dstAt o.next) d.esz) local_.2)) ∧
      (rd.met = .done → d.dstLocal = false → w.met = .done → exec (.copyExecute sector ctx) s = .next (moved w.s false)) ∧
      (rd.met = .done → d.dstLocal = false → w.met ≠ .done →
        exec (.copyExecute sector ctx) s = .next (copyMet w.s e o o.next w.met)))) ∧
  (∀ s blk core a bs b, Tables s → Memory.wf s.mem = true → look s.blocks blk = some b → obAperture a = false → b.saved = none →
    let t := (localWrite s blk core a bs).1
    ((localWrite s blk core a bs).2 = typedHit b a bs.length) ∧
    ∀ k, readByte t k = if ∃ i, i < bs.length ∧ k = localKey blk (a + i) ∧ typedHit b (a + i) 1 = false
      then bs.getD (k - localKey blk a) 0 else readByte s k) ∧
  (∀ s blk a b, Tables s → look s.blocks blk = some b → b.saved = none →
    let x := readBarrier s (localKey blk a)
    engineDecrement s blk a = writeBarrier s (localKey blk a) (BarrierWord.check { x with psec := x.psec - 1 })) ∧
  (∀ s die ctx o,
    let e : EngRef := { kind := 1, unit := die, ctx }
    (engCtx s e).ops.find? (fun o => o.ended.isNone) = some o →
    (o.next = o.elements → o.spill = [] → exec (.iseExecute die ctx) s =
      .next (modOp s e o.no (fun x => { x with ended := some x.code }))) ∧
    let left (u : State) (n : Nat) : State := modOp u e o.no (fun x =>
      { x with next := max x.next (n + 1), spill := x.spill.filter (fun y => y.1 != n), zero := x.zero.filter (· != n) })
    (∀ n, o.next = n → n < o.elements → waitsBehind s o n = false → n ∉ o.zero → (iseElement s o n).met = .done →
      exec (.iseExecute die ctx) s = .next (left (iseElement s o n).s n)) ∧
    (∀ n, (n, none) ∈ o.spill → waitsBehind s o n = false → n ∉ o.zero → (iseElement s o n).met = .done →
      exec (.iseSpillRetry die ctx n) s = .next (left (iseElement s o n).s n)) ∧
    (∀ n d, (n, none) ∈ o.spill → n ∈ o.zero → o.work = .gath d → (denseWrite s o d n (zeroBytes d.esz)).met = .done →
      exec (.iseSpillRetry die ctx n) s = .next (left ((denseWrite s o d n (zeroBytes d.esz)).touch o.block).s n)) ∧
    (∀ n, (n, none) ∉ o.spill → exec (.iseSpillRetry die ctx n) s = .next s)) ∧
  (∀ s kind unit ctx o,
    let e : EngRef := { kind, unit, ctx }
    kind < 2 → (engCtx s e).ops.find? (fun o => o.ended.isSome) = some o →
    (o.status = none → exec (.engineOpCompletion kind unit ctx) s = .next (finishOp s e o)) ∧
    (∀ a, o.status = some (true, a) → o.reported = false → o.wait = none →
      exec (.engineOpCompletion kind unit ctx) s = .next
        (finishOp (touchHang (localWrite s o.block o.core a o.record).1 o.block) e o)) ∧
    (∀ a, o.status = some (false, a) → o.reported = false → o.wait = none →
      let w := (recordWrite s o.part a o.record).touch o.block
      (w.met = .done → exec (.engineOpCompletion kind unit ctx) s = .next (finishOp w.s e o)) ∧
      (∀ c, w.met = .fail c → exec (.engineOpCompletion kind unit ctx) s =
        .next (finishOp (recordLost w.s o.part o.recordKind c o.no (some o.block) a) e o))) ∧
    (o.ended = some 0 → o.decrements = none → engCtx (finishOp s e o) e = (engCtx s e).complete o.no) ∧
    (∀ a n, o.ended = some 0 → o.token = false → o.decrements = some (a, n) →
      let u := decrementTimes s o.block a (n - o.decs)
      finishOp s e o = setEngCtx u e ((engCtx u e).complete o.no)))

/-- R166, R170, R296, R375, R379, R382, R393 to R395, R422: faults of the engines and bands wait for the guest: the record,
the answers (on an indirect-stream engine for every spilled element of the page), the time after which they fail, and what a
failure does: a copy and a band stop, a gather writes zero and goes on, a record is lost (logs 27 and 48); and invalidations, which end once what was translated before has been
performed. -/
def Obligations.FaultEvents : Prop :=
  (∀ s tag f, look s.faults tag = some f → f.recorded = false → stashedPart s f.part = false →
    (ringReady s f.part = false → exec (.translationFaultRecord tag) s = .next s) ∧
    (ringReady s f.part = true → exec (.translationFaultRecord tag) s =
      .next (faultRecord { s with faults := put s.faults tag { f with recorded := true } } f.part 1 tag (some f.block) f.addr
        (BitVec.ofNat 64 (f.eng.kind % 256 + f.eng.unit % 65536 * 256 + f.eng.ctx % 256 * 2 ^ 24 + (if f.write then 2 ^ 32 else 0)))))) ∧
  (∀ s tag f, look s.faults tag = some f → stashedPart s f.part = false →
    (f.since + 2 ^ 26 ≤ hubCycle s → exec (.translationFaultTimeout tag) s = .next (failFault s tag f)) ∧
    (hubCycle s < f.since + 2 ^ 26 → exec (.translationFaultTimeout tag) s = .next s)) ∧
  (∀ s part tag f, look s.faults tag = some f → f.part = part → stashedPart s part = false →
    (f.recorded = false → exec (.xlresRetry part tag) s = .next s ∧ exec (.xlresFail part tag) s = .next s) ∧
    (f.recorded = true → f.eng.kind = 0 →
      let u : State := { s with faults := drop s.faults tag }
      (∃ t, exec (.xlresRetry part tag) s = .next t ∧ t.faults = u.faults ∧ t.mem = s.mem ∧
        engCtx t f.eng = { engCtx s f.eng with ops := (engCtx s f.eng).ops.map (fun o =>
          { o with
            wait := if o.wait = some tag then none else o.wait
            spill := o.spill.map (fun x => if x.2 = some tag then (x.1, none) else x) }) }) ∧
      (∀ o, (engCtx s f.eng).ops.find? (fun o => o.no == f.op) = some o → f.elem ≠ 2 ^ 64 →
        ∃ t, exec (.xlresFail part tag) s = .next t ∧ t.faults = u.faults ∧ t.mem = s.mem ∧
          engCtx t f.eng = { engCtx s f.eng with ops := (engCtx s f.eng).ops.map (fun x =>
            if x.no = f.op then { x with
              wait := none, code := 1, fails := 1, first := some (min (x.first.getD f.elem) f.elem), ended := some 1 }
            else x) })) ∧
    (f.recorded = true → f.eng.kind = 1 → f.elem ≠ 2 ^ 64 →
      let together := s.faults.filter (fun g => g.2.part == part && g.2.eng.kind == 1 && g.2.eng.unit == f.eng.unit &&
        g.2.elem != 2 ^ 64 && g.2.addr.toNat / 4096 == f.addr.toNat / 4096)
      let again (u : State) (x : Nat × XFault) : State :=
        setEngCtx { u with faults := drop u.faults x.1 } x.2.eng { engCtx u x.2.eng with ops := (engCtx u x.2.eng).ops.map (fun o =>
          { o with
            wait := if o.wait = some x.1 then none else o.wait
            spill := o.spill.map (fun y => if y.2 = some x.1 then (y.1, none) else y) }) }
      exec (.xlresRetry part tag) s = .next (together.foldl again s) ∧
      exec (.xlresFail part tag) s = .next (together.foldl (fun u x => failFault u x.1 x.2) s)) ∧
    (f.recorded = true → f.eng.kind = 3 →
      (∀ b, look s.bands f.eng.unit = some b → exec (.xlresRetry part tag) s =
        .next (setBand { s with faults := drop s.faults tag } f.eng.unit { b with
          ops := b.ops.map (fun o => if o.wait = some tag then { o with wait := none } else o)
          ports := b.ports.map (fun p =>
            (p.1, { p.2 with spill := p.2.spill.map (fun x => if x.2 = some tag then (x.1, none) else x) })) })) ∧
      exec (.xlresFail part tag) s = .next (failFault s tag f))) ∧
  (∀ s tag f o, f.eng.kind < 2 → (engCtx s f.eng).ops.find? (fun o => o.no == f.op) = some o →
    let u : State := { s with faults := drop s.faults tag }
    let e := f.elem
    let v := modOp u f.eng o.no (fun x =>
      { x with fails := x.fails + 1, first := some (min (x.first.getD e) e),
               code := if x.first.all (fun y => decide (e < y)) then 1 else x.code, zero := x.zero ++ [e] })
    let left (w : State) : State := modOp w f.eng o.no (fun x =>
      { x with next := max x.next (e + 1), spill := x.spill.filter (fun y => y.1 != e), zero := x.zero.filter (· != e) })
    (∀ d, f.eng.kind = 1 → e ≠ 2 ^ 64 → e ∉ o.zero → o.work = .scat d → failFault s tag f = left v) ∧
    (∀ d, f.eng.kind = 1 → e ≠ 2 ^ 64 → e ∉ o.zero → o.work = .gath d → (denseWrite v o d e (zeroBytes d.esz)).met = .done →
      failFault s tag f = left ((denseWrite v o d e (zeroBytes d.esz)).touch o.block).s) ∧
    (e = 2 ^ 64 → failFault s tag f =
      finishOp (recordLost u o.part o.recordKind 1 o.no (some o.block) ((o.status.map (·.2)).getD 0)) f.eng o)) ∧
  (∀ s tag f b c p, f.eng.kind = 3 → f.elem ≠ 2 ^ 64 → look s.bands f.eng.unit = some b → b.cfg = some c →
    let i := f.elem / 2 ^ 65 - 1
    let n := f.elem % 2 ^ 65
    c.ports[i]? = some p →
      let t := failFault s tag f
      t.mem = s.mem ∧ t.faults = drop s.faults tag ∧ (∀ x, look t.blocks b.block = some x → x.hop = none) ∧
      ∃ d, look t.bands f.eng.unit = some d ∧ d.frozenRows = true ∧ (∀ x ∈ (d.port i).spill, x.1 ≠ n) ∧
        d.run = b.run.map (fun r => { r with stopped := true, code := some (r.code.getD 1) })) ∧
  (∀ s part p, look s.parts part = some p → ∃ t, exec (.tlbInvalidate part) s = .next t ∧ t.mem = s.mem ∧
    look t.parts part = some { p with invalidating := true } ∧
    (∀ x, x ∈ t.tlb ↔ x ∈ s.tlb ∧ ¬(x.part = part ∧ x.stage = 1)) ∧
    ∀ gid g b, look s.groups gid = some g → look s.blocks g.block = some b → b.part = part → ∃ h, look t.groups gid = some h ∧
      h.ctx.pend.length = g.ctx.pend.length ∧ ∀ x ∈ h.ctx.pend, (∀ n sg as got far, x.work = .load n sg as got far → x.stale = true) ∧
        (∀ op n un as got, x.work = .atom op n un as got → x.stale = true)) ∧
  (∀ s part p, look s.parts part = some p →
    (p.invalidating = true → agedLeft s part = false → ∃ t, exec (.invalidationComplete part) s = .next t ∧ t.mem = s.mem ∧
      look t.parts part = some { p with invalidating := false, root := partReg s part 0x219 } ∧
      (∀ x, x ∈ t.tlb ↔ x ∈ s.tlb ∧ ¬(x.part = part ∧ x.stage = 1))) ∧
    (p.invalidating = false ∨ agedLeft s part = true → exec (.invalidationComplete part) s = .next s)) ∧
  (∀ s part type tag blk addr info p, look s.parts part = some p → ringReady s part = false →
    faultRecord s part type tag blk addr info = { s with parts := put s.parts part { p with lost := p.lost + 1 } })

/-- R244 to R247, R257, R294, R296, R306, R307, R322, R323, R412: the steps of a band: its operations, the firing of a
stage, its memory ports (a port whose spill queue holds 32 elements waits in place), the turnover of its rows by the one Halyard
of their island, rare groups, and the reload of a configuration store. A frozen band stands still. The model's own: the retry of
an element on a commutative input waits for a slot of the channel (log 48), and a reload that fails also disarms the block's hop
(log 30). -/
def Obligations.BandEvents : Prop :=
  (∀ s f b, look s.bands f = some b → bandFrozen s b = true → ∀ i n,
    exec (.bandOpCompletion f) s = .next s ∧ exec (.stageFiring f i) s = .next s ∧ exec (.memoryPortElement f i) s = .next s ∧
    exec (.portSpillRetry f i) s = .next s ∧ exec (.rareEventGroup f) s = .next s ∧ exec (.rowWakeDone f n) s = .next s ∧
    exec (.rowInstallDone f n) s = .next s ∧ exec (.rowLower f n) s = .next s ∧ exec (.rowHoist f n) s = .next s) ∧
  (∀ s f b o os, look s.bands f = some b → bandFrozen s b = false → b.ops = o :: os →
    (o.code = some 0 → o.record = none → o.kind ≠ 0 → exec (.bandOpCompletion f) s =
      .next (setBand s f { b with ops := os, count := o.no })) ∧
    (∀ a, o.code = some 0 → o.record = some a → o.wait = none → o.kind ≠ 0 →
      (recordWrite s b.part a o.recordBytes).met = .done → exec (.bandOpCompletion f) s =
        .next (setBand (touchHang (recordWrite s b.part a o.recordBytes).s b.block) f { b with ops := os, count := o.no })) ∧
    (o.code = none → o.kind = 0 → o.started = true → exec (.bandOpCompletion f) s =
      .next (if b.rows.all (fun r => r.2.st != .waking && r.2.st != .install) then setBand s f (endBandOp b 0 (BitVec.allOnes 64)) else s)) ∧
    (∀ r c, o.code = none → o.kind = 1 → o.started = true → b.run = some r → b.cfg = some c →
      (runEnded b c = true → exec (.bandOpCompletion f) s =
        .next (restPorts (setBand s f (endBandOp { b with run := none, anew := r.code.isNone } (r.code.getD 0) (BitVec.allOnes 64))) f)) ∧
      (runEnded b c = false → r.stopped = true → runStill b c = true → exec (.bandOpCompletion f) s =
        .next (restPorts (setBand s f (endBandOp { b with run := none, anew := false } (r.code.getD 0) (BitVec.allOnes 64))) f)) ∧
      (runEnded b c = false → r.stopped = false → (∃ x ∈ os, x.kind = 2 ∨ x.kind = 3) → exec (.bandOpCompletion f) s =
        .next (setBand s f { b with run := some { r with stopped := true }, frozenRows := true }))) ∧
    (∀ c, o.code = none → o.kind = 2 → b.cfg = some c →
      let d : Band := { b with frozenRows := true }
      exec (.bandOpCompletion f) s = .next (setBand s f (if runStill d c then endBandOp d 0 (BitVec.allOnes 64) else d)))) ∧
  (∀ s f b c i k, look s.bands f = some b → b.cfg = some c → c.stage i = some k → bandFrozen s b = false →
    (b.canFire c i = false → exec (.stageFiring f i) s = .next s) ∧
    (b.canFire c i = true → (∀ x e, look s.blocks b.block = some x → kernelOf s x = some e → safePointOf e 2 k.prog.spord = none) →
      ∃ t d, exec (.stageFiring f i) s = .next t ∧ look t.bands f = some d ∧ (d.stage i).fired = (b.stage i).fired + 1 ∧
        t.mem = s.mem ∧ t.groups = s.groups)) ∧
  (∀ s f b c r i e, look s.bands f = some b → b.cfg = some c → b.run = some r → c.ports[i]? = some e → bandFrozen s b = false →
    let n := (b.port i).pos
    let room := (b.port i).spill.length < 32
    (¬room → (e.kind = 0 ∨ e.kind = 1 ∧ (b.chan (c.portPath i)).q ≠ [] ∧ n < e.spec.length) →
      exec (.memoryPortElement f i) s = .next (setBand s f (b.portSettle c i e s.clock))) ∧
    (e.kind = 0 → room → mayLoad b c i e (r.stopped || sourcesHeld s b) = true → (movePort s b.part r e n 0).met = .done →
      exec (.memoryPortElement f i) s = .next (doneElem (movePort s b.part r e n 0).s f
        (b.setPort i { b.port i with pos := n + 1 }) c i e n (movePort s b.part r e n 0).v)) ∧
    (∀ k ks, e.kind = 1 → room → (b.chan (c.portPath i)).q = k :: ks → n < e.spec.length → behindSpilled r e (b.port i) n = false →
      let x := movePort s b.part r e n (k.lane (n % 16))
      x.met = .done → exec (.memoryPortElement f i) s = .next (doneElem x.s f (b.nextLane c i e) c i e n x.v)) ∧
    (∀ m ms, ((b.port i).spill.filter (fun x => x.2.isNone)).map (·.1) = m :: ms →
      let least := ms.foldl min m
      let x := movePort s b.part r e least (getZ (b.port i).part least)
      let room := e.kind ≠ 0 ∨ commutes c e = false ∨ slotFree b c i e = true
      (room → x.met = .done → exec (.portSpillRetry f i) s = .next (doneElem x.s f b c i e least x.v)) ∧
      (¬room → exec (.portSpillRetry f i) s = .next s))) ∧
  (∀ s f b c row r, look s.bands f = some b → b.cfg = some c → look b.rows row = some r → bandFrozen s b = false →
    let becomes (x : Row) : State := setBand s f { b with rows := put b.rows row x }
    (exec (.rowWakeDone f row) s = .next (if r.st = .waking then becomes { r with st := .install } else s)) ∧
    (exec (.rowInstallDone f row) s = .next (if r.st = .install then becomes { r with st := .live } else s)) ∧
    let island := rowIsland b.first row
    (r.st = .done → b.frozenRows = false → b.run.isSome = true → halyardFree s island = true →
      nextDone s island = some (b.first + row) →
      exec (.rowLower f row) s = .next (becomes { r with st := .lower })) ∧
    (r.st ≠ .done ∨ b.frozenRows = true ∨ halyardFree s island = false ∨ nextDone s island ≠ some (b.first + row) → exec (.rowLower f row) s = .next s) ∧
    (r.st = .lower → exec (.rowHoist f row) s = .next (becomes { r with st := .hoist, hoist := r.hoist + c.p })) ∧
    (r.st = .hoist → ∃ t d x, exec (.rowHoist f row) s = .next t ∧ look t.bands f = some d ∧ look d.rows row = some x ∧
      x.hoist = r.hoist ∧ (x.st = .live ∨ x.st = .done))) ∧
  (∀ s f b c i r core, look s.bands f = some b → b.cfg = some c → bandFrozen s b = false → waitingRare b c = some (i, r) →
    swappedPart s b.part = false → blockFrozen s b = false → rareCore s f (portAt c i).rregs = some core → ∃ t g, exec (.rareEventGroup f) s = .next t ∧
      look t.groups (s.fresh + 1) = some g ∧ g.mask = 0xFFFF ∧ g.core = core ∧ g.block = b.block ∧ g.view = (portAt c i).rregs ∧
      baseS g.ctx 0 = BitVec.ofNat 64 (r.stage % 2 ^ 16 * 2 ^ 48 + r.ordinal % 2 ^ 48) ∧
      baseS g.ctx 1 = BitVec.ofNat 64 ((portAt c i).port + (portAt c i).stg * 16) ∧
      (coreOf t core).order = (coreOf s core).order ++ [s.fresh + 1]) ∧
  (∀ b c i r, waitingRare b c = some (i, r) → r ∈ (b.port i).rare ∧
    ∀ j ∈ c.rarePortList, ∀ x ∈ (b.port j).rare, x.stage = r.stage → x.word = r.word → x.group = none ∧ r.seq ≤ x.seq) ∧
  (∀ s f b c row r, look s.bands f = some b → b.cfg = some c → look b.rows row = some r →
    let h := bandRead s b.part c.image 256
    let m := bandRead h.s b.part c.image (imgHead h.bytes).imgsz
    let same := h.met = .done ∧ m.met = .done ∧ 256 ≤ (imgHead h.bytes).imgsz ∧ (imgHead h.bytes).sig = c.sig ∧ crc32c (m.bytes.drop 256) = c.sig
    (same → exec (.configStoreReload f row) s = .next m.s) ∧
    (¬same → ∀ x, b.run = some x → x.code = none → exec (.configStoreReload f row) s =
      .next (disarmHop (setBand m.s f { b with run := some { x with stopped := true, code := some 4 }, frozenRows := true }) b.block)) ∧
    (∀ (d : Band) r, restPorts (setBand s f d) f = r → r.mem = s.mem ∧ ∀ e ∈ r.faults, e ∈ s.faults ∧
      (e.2.eng.kind ≠ 3 ∨ e.2.eng.unit ≠ f ∨ e.2.elem = 2 ^ 64)))

/-- R266 to R270, R297, R298, R330, R398: hops commit or are disarmed; a block that a launch of higher priority needs
the place of is saved, and restored; one whose saved state has met an uncorrectable error is killed (R411, R413). That a spatial
block's conditions hold as soon as its hop is armed is the model's reading of R267 (log 30). -/
def Obligations.HopsAndPreemption : Prop :=
  (∀ s blk b h k l m, look s.blocks blk = some b → b.hop = some h → kernelOf s b = some k → look s.launches b.launch = some l →
    mapOf k h.ord b.ver h.target = some m →
    let u := drainBlock s blk
    (hopReady u blk b h = true → storesLeft u blk = false → ∀ y, look u.blocks blk = some y → ∃ t x, exec (.hopCommit blk) s = .next t ∧
      look t.blocks blk = some x ∧ x.ver = h.target ∧ x.hop = none ∧ x.skipArrival = some h.ord ∧ x.index = y.index ∧
      (h.target < 2 → x.core = h.place)) ∧
    (hopReady u blk b h = false ∨ storesLeft u blk = true → exec (.hopCommit blk) s = .next s)) ∧
  (∀ s blk b, look s.blocks blk = some b → b.hop = none → exec (.hopCommit blk) s = .next s ∧ exec (.hopDisarm blk) s = .next s) ∧
  (∀ s blk b h, look s.blocks blk = some b → b.hop = some h →
    let gs := blockGroups s blk
    let met := b.ver = 2 ∨ gs ≠ [] ∧ b.threadEnded = false ∧ ∀ e ∈ gs, e.2.park = some (.hop h.ord) ∧ ofTheT s e.2 = true
    let inTime := h.met = true ∨ s.clock ≤ h.armedAt + 65536 ∧ met
    let due := h.armedAt + 65536 ≤ s.clock ∧ ¬inTime ∨ b.ver = 2 ∧ drainFailed s b = true
    (hopReady s blk b h = true → inTime ∧ met) ∧
    (due → ∃ t, exec (.hopDisarm blk) s = .next t ∧
      look t.blocks blk = some { b with hop := none } ∧ ∀ gid g n, look s.groups gid = some g → g.block = blk → g.park = some (.hop n) →
        look t.groups gid = some { g with park := none, readyAt := some s.clock }) ∧
    (¬due → exec (.hopDisarm blk) s = .next s)) ∧
  (∀ s blk b, look s.blocks blk = some b →
    let may := savable s blk b = true ∧ b.frozen = none ∧ b.halted = false ∧ outranked s b = true
    (¬may → exec (.preemption blk) s = .next s) ∧
    (may → Tables s →
      let u := drainBlock (disarmHop s blk) blk
      ∀ y, look u.blocks blk = some y → (writeVirtual u y.part y.imageAt (saveBytes u blk y none)).bad = none →
        ∃ t x, exec (.preemption blk) s = .next t ∧ look t.blocks blk = some x ∧ x.saved.isSome = true ∧
          ∀ e ∈ t.groups, e.2.block ≠ blk)) ∧
  (∀ s blk core b x p, look s.blocks blk = some b → b.saved = some x → look s.parts b.part = some p →
    (p.swappedOut = true ∨ blockReturns s b = false → exec (.blockRestore blk core) s = .next s) ∧
    (p.swappedOut = false → blockReturns s b = true → x.poisoned = true → exec (.blockRestore blk core) s = .next (killBlock s blk 2)) ∧
    (p.swappedOut = false → blockReturns s b = true → x.poisoned = false → x.band = none →
      ∀ u img, readImage s b.part x.image = (u, some img) → imageStatus (kernelOf s b) (some img) = 0 →
        kernelKey b.part img.kern = b.kern → img.groups.length = x.groups.length → imageFits u b.part core blk img (if b.clusterBound then some (b.core / 4) else none) = true →
        ∃ t y, exec (.blockRestore blk core) s = .next t ∧ look t.blocks blk = some y ∧ y.saved = none ∧ y.core = core ∧
          y.index = b.index)) ∧
  (∀ s blk core b, look s.blocks blk = some b → b.saved = none → exec (.blockRestore blk core) s = .next s)

/-- R185, R258, R337 to R339, R341, R343 to R348, R350 to R352: kernels are loaded, queues notified and mapped,
launches begin, place their blocks and complete, blocks end, and the hang monitor freezes one that waits too long. The model's
own: the answers' status numbers (log 15), that an instruction cache fill leaves nothing behind (log 20), the TAIL of an
unmapped queue (log 18), what a local window takes where a block is placed (log 50), and in which order and at which place
blocks are placed (log 53). -/
def Obligations.LaunchEvents : Prop :=
  (∀ s part addr places, (look s.parts part).isSome = true →
    exec (.codeObjectLoad part addr places) s = .next (match loadObject s part addr places with
      | some t => { t with answers := t.answers ++ [{ status := 0, bytes := [] }] }
      | none => { s with answers := s.answers ++ [{ status := 1, bytes := [] }] })) ∧
  (∀ s key n k, look s.kernels key = some k →
    let size := k.coldText.foldl (fun m t => max m (t.2.base + t.2.size)) k.coldHost - k.coldHost
    let bytes := min 4096 (size - 4096 * n)
    let r := readVirtual s k.part (k.coldHost + 4096 * n) bytes
    let w := writeVirtual r.s k.part (k.cache + 4096 * n) r.bytes
    (n ∈ k.granules → exec (.coldGranuleCopy key n) s = .next s) ∧
    (r.bad ≠ none → n ∉ k.granules → 0 < bytes → exec (.coldGranuleCopy key n) s = .next s) ∧
    (n ∉ k.granules → 0 < bytes → r.bad = none → w.bad = none → ∃ t, exec (.coldGranuleCopy key n) s = .next t ∧
      t.mem = w.s.mem ∧ look t.kernels key = some { k with granules := n :: k.granules })) ∧
  (∀ s cl line, exec (.icacheFill cl line) s = .next s) ∧
  (∀ s part q v p, look s.parts part = some p → v < 2 ^ 64 →
    let x := addMeter s part 12 8
    let u := (readQueue x part q).1
    let d := (readQueue x part q).2
    (queueCount x part ≤ q → exec (.queueNotify part q v) s = .next x) ∧
    (q < queueCount x part → d.en = false → exec (.queueNotify part q v) s = .next u) ∧
    (q < queueCount x part → d.en = true → d.head + 2 ^ d.lsz < v → exec (.queueNotify part q v) s =
      .next (faultRecord (clearEnable u part d) part 6 0 none (BitVec.allOnes 64) (BitVec.ofNat 64 q))) ∧
    (q < queueCount x part → d.en = true → v ≤ d.head + 2 ^ d.lsz → v ≤ d.tail → exec (.queueNotify part q v) s = .next u) ∧
    (q < queueCount x part → d.en = true → v ≤ d.head + 2 ^ d.lsz → d.tail < v → (hubQueue s part q).mapped = true →
      ∃ t, exec (.queueNotify part q v) s = .next t ∧ (hubQueue t part q).tail = v ∧ (hubQueue t part q).head = (hubQueue s part q).head) ∧
    (q < queueCount x part → q < 4096 → d.en = true → v ≤ d.head + 2 ^ d.lsz → d.tail < v → (hubQueue s part q).mapped = false →
      let w := writeVirtual u part (d.addr + 0x18) (leBytes v 8)
      ∃ t, exec (.queueNotify part q v) s = .next t ∧ t.mem = w.s.mem ∧ (hubQueue t part q).mapped = false ∧
        (hubQueue t part q).marks.length = (hubQueue s part q).marks.length + 1)) ∧
  (∀ s part q,
    let u := noteRunnable (readQueue s part q).1 part q
    let room := (slotsHeld u part).length < field (partReg u part 0x210) 63 56 ∧ slotsTaken u < 64
    let goes := (hubQueue u part q).mapped = false ∧ runnable u part q = true ∧ firstWaiting u part q (queuePri u part q) = true
    (queueCount s part ≤ q ∨ swappedPart s part = true → exec (.queueSlotMap part q) s = .next s) ∧
    (q < queueCount s part → swappedPart s part = false →
      (¬goes → exec (.queueSlotMap part q) s = .next u) ∧
      (goes → room → ∃ t, exec (.queueSlotMap part q) s = .next t ∧ (hubQueue t part q).mapped = true ∧
        (hubQueue t part q).head = (readQueue u part q).2.head ∧ (hubQueue t part q).tail = (readQueue u part q).2.tail) ∧
      (goes → ¬room → slotVictim u part (queuePri u part q) = none → exec (.queueSlotMap part q) s = .next u) ∧
      (∀ v, goes → ¬room → slotVictim u part (queuePri u part q) = some v → v ≠ q → ∃ t, exec (.queueSlotMap part q) s = .next t ∧
        (hubQueue t part q).mapped = true ∧ (hubQueue t part v).mapped = false))) ∧
  (∀ s part q p, q < 4096 → look s.parts part = some p →
    let u := (readQueue s part q).1
    let d := (readQueue s part q).2
    let o := readVirtual u part (d.record d.head) 128
    let l := launchOfRecord o.s part q d.head (notifyOrder o.s (hubQueue s part q) d.head) d o.bytes
    ((hubQueue s part q).mapped = false ∨ placing s part q = true ∨ p.swappedOut = true → exec (.launchBegin part q) s = .next s) ∧
    ((hubQueue s part q).mapped = true → placing s part q = false → p.swappedOut = false →
      (d.pending = false → exec (.launchBegin part q) s = .next s) ∧
      (d.pending = true → o.bytes.length = 128 → l.refused = false → l.preds.all (predMet o.s part) = false →
        exec (.launchBegin part q) s = .next s) ∧
      (d.pending = true → o.bytes.length = 128 → (l.refused = true ∨ l.preds.all (predMet o.s part) = true) →
        ∃ t, exec (.launchBegin part q) s = .next t ∧ look t.launches s.fresh = some l ∧ t.fresh = s.fresh + 1 ∧
          (hubQueue t part q).head = d.head + 1))) ∧
  (∀ s id l k v place p, look s.launches id = some l → look s.kernels l.kern = some k → look s.parts l.part = some p →
    nextVersion s l = some v →
    let may := p.swappedOut = false ∧ l.waiting = true ∧ placesNext s id l = true ∧ fitsAt s l.part k v (l.tm1 + 1) place s.fresh = true
    (¬may → exec (.blockPlacement id place) s = .next s) ∧
    (may → ∃ t b, exec (.blockPlacement id place) s = .next t ∧ look t.blocks s.fresh = some b ∧ b.launch = id ∧ b.part = l.part ∧
      b.ver = v ∧ b.index = l.rerun.headD l.placed ∧ (v < 2 → b.core = place) ∧ (v = 2 → b.band = some place) ∧
      look t.launches id = some (if l.rerun = [] then { l with placed := l.placed + 1 } else { l with rerun := l.rerun.drop 1 }))) ∧
  (∀ s blk b, look s.blocks blk = some b →
    (blockOver s blk b = false → exec (.blockEnd blk) s = .next s) ∧
    (blockOver s blk b = true → Tables s → ∃ t, exec (.blockEnd blk) s = .next t ∧ look t.blocks blk = none ∧
      ∀ k, k ≠ blk → (look t.blocks k).isSome = (look s.blocks k).isSome)) ∧
  (∀ s id l, look s.launches id = some l →
    (launchOver s id l = false ∨ doneWaits s id = true → exec (.launchCompletion id) s = .next s) ∧
    (launchOver s id l = true → doneWaits s id = false → Tables s →
      let w := recordWrite s l.part l.done.toNat (leBytes (l.code + l.lost % 2 ^ 32 * 2 ^ 32) 8 ++ zeroBytes 8)
      (l.firing = none → l.done = 0 → ∃ t, exec (.launchCompletion id) s = .next t ∧ look t.launches id = none ∧ t.mem = s.mem) ∧
      (l.firing = none → l.done ≠ 0 → w.met = .done → ∃ t, exec (.launchCompletion id) s = .next t ∧ look t.launches id = none ∧
        t.mem = w.s.mem) ∧
      (∀ c, l.firing = none → l.done ≠ 0 → w.met = .fail c → ∃ t, exec (.launchCompletion id) s = .next t ∧
        look t.launches id = none ∧ t.mem = (recordLost w.s l.part 4 c 0 none l.done.toNat).mem))) ∧
  (∀ s blk b, look s.blocks blk = some b →
    (hangDue s blk b = false → exec (.hangFreeze blk) s = .next s) ∧
    (hangDue s blk b = true → ∃ t x, exec (.hangFreeze blk) s = .next t ∧ look t.blocks blk = some x ∧ x.frozen = some .hang ∧
      x.hung = true ∧ t.groups = s.groups)) ∧
  (∀ s n ts blk b, s.turns = .tick n :: ts → look s.blocks blk = some b → (∀ e ∈ s.parts, e.2.hyper = [] ∧ e.2.claims = []) →
    (∀ e ∈ s.blocks, e.2.halt = none) →
    ∃ t x, step s = .next t ∧ look t.blocks blk = some x ∧ t.clock = s.clock + tickRoom s n ∧ x.hangCount =
      (if (blockGroups s blk).any (fun e => e.2.handler) then 0
        else if hangCounts s blk b then b.hangCount + tickRoom s n
        else b.hangCount))

/-- R356 to R366: the expert queue unit: queues and combine groups are loaded and unloaded, with the result in
`c.eqload`; a decision fires the eligible queue of the earliest deadline; an ended firing gives its buffer back, its entries
scale and mark their contribution rows, and the rows of each complete token are summed in slot order, in position order within a
sequence. What a descriptor is refused for (`parseQueue`, `parseEqGroup`) and when the hub writes the ring are log entry 28; a
hub access that is refused has no effect (log entry 7); how an unloading queue drains is log entry 36; the time at which a request reaches the unit is log entry 33. -/
def Obligations.ExpertQueueEvents : Prop :=
  (∀ s part id p, Tables s → look s.parts part = some p →
    let n := id % 1024
    let o := readVirtual s part (equTable s part + 64 * n) 64
    let a := readVirtual s part (equTable s part + 0x10000 + 64 * n) 64
    (∀ ph q, physQueue s part n = some ph → look s.equ.queues ph = none → parseQueue o.s part n o.bytes = some q →
      ∃ t, exec (.eqLoadQueue part id) s = .next t ∧ look t.equ.queues ph = some q ∧ partReg t part 0x214 = 0) ∧
    (physQueue s part n = none → exec (.eqLoadQueue part id) s = .next (setPartReg s part 0x214 (BitVec.ofNat 64 (2 ^ 60)))) ∧
    (∀ ph g, physGroup s part n = some ph → look s.equ.groups ph = none → parseEqGroup part n a.bytes = some g →
      ∃ t, exec (.eqLoadGroup part id) s = .next t ∧ look t.equ.groups ph = some g ∧ partReg t part 0x214 = 0) ∧
    (physGroup s part n = none → exec (.eqLoadGroup part id) s = .next (setPartReg s part 0x214 (BitVec.ofNat 64 (2 ^ 60)))) ∧
    (loadedQueue s part n = none → exec (.eqUnloadQueue part id) s = .next (setPartReg s part 0x214 (BitVec.ofNat 64 (2 ^ 60)))) ∧
    (∀ ph q, loadedQueue s part n = some (ph, q) → q.draining = true →
      exec (.eqUnloadQueue part id) s = .next (setPartReg s part 0x214 (BitVec.ofNat 64 (2 ^ 60)))) ∧
    (∀ ph q, loadedQueue s part n = some (ph, q) → q.draining = false →
      (q.chip = [] → q.spill = [] → q.id = n → ∃ t, exec (.eqUnloadQueue part id) s = .next t ∧
        look t.equ.queues ph = none ∧ partReg t part 0x214 = 0) ∧
      (q.chip ≠ [] → ∃ t, exec (.eqUnloadQueue part id) s = .next t ∧ look t.equ.queues ph = some { q with draining := true } ∧
        partReg t part 0x214 = BitVec.ofNat 64 (2 * 2 ^ 60 + n))) ∧
    (loadedGroup s part n = none → exec (.eqUnloadGroup part id) s = .next (setPartReg s part 0x214 (BitVec.ofNat 64 (2 ^ 60)))) ∧
    (∀ ph g, loadedGroup s part n = some (ph, g) →
      ((∃ e ∈ s.equ.queues, e.2.part = part ∧ e.2.cgrp = n) → exec (.eqUnloadGroup part id) s =
        .next (setPartReg s part 0x214 (BitVec.ofNat 64 (2 ^ 60)))) ∧
      ((∀ e ∈ s.equ.queues, ¬(e.2.part = part ∧ e.2.cgrp = n)) → ∃ t, exec (.eqUnloadGroup part id) s = .next t ∧
        look t.equ.groups ph = none ∧ t.equ.queues = s.equ.queues))) ∧
  (∀ s ph q, look s.equ.queues ph = some q →
    (q.draining = true → q.chip = [] → q.spill = [] → Tables s → ∃ t, exec (.queueUnloadComplete ph) s = .next t ∧
      look t.equ.queues ph = none) ∧
    (q.draining = false ∨ q.chip ≠ [] ∨ q.spill ≠ [] → exec (.queueUnloadComplete ph) s = .next s)) ∧
  (∀ s,
    let now := hubCycle s
    let u := dropHolds s now
    (now < s.equ.nextDecision → exec .equDispatchDecision s = .next s) ∧
    (s.equ.nextDecision ≤ now → (∀ e ∈ u.equ.queues, EqQueue.eligible u e.2 now = false) → ∃ t, exec .equDispatchDecision s = .next t ∧
      t.equ.nextDecision = now / 128 * 128 + 128 ∧ t.equ.queues = u.equ.queues ∧ t.launches = s.launches) ∧
    (∀ ph q, s.equ.nextDecision ≤ now → nextFiring u now = some (ph, q) →
      (ph, q) ∈ u.equ.queues ∧ EqQueue.eligible u q now = true ∧
      (∀ e ∈ u.equ.queues, EqQueue.eligible u e.2 now = true → q.deadline now ≤ e.2.deadline now) ∧
      ∃ t l j, exec .equDispatchDecision s = .next t ∧ look t.launches s.fresh = some l ∧ j ∈ q.freeBuffers now ∧
        l.firing = some { queue := q.id, phys := ph, born := q.born, group := (physGroup s q.part q.cgrp).getD 64, buffer := j,
                          addr := q.bbase + 4096 * j, count := min 256 (q.seen now).length } ∧
        l.gx = q.gm1 + 1 ∧ l.kern = q.kern)) ∧
  (∀ s id l, look s.launches id = some l →
    (l.firing = none ∨ l.ended = none → exec (.combineMark id) s = .next s) ∧
    (∀ fr code, l.firing = some fr → l.ended = some code → Tables s → ∃ t, exec (.combineMark id) s = .next t ∧
      look t.launches id = none ∧
      (∀ q, look s.equ.queues fr.phys = some q → q.born = fr.born → ∃ x, look t.equ.queues fr.phys = some x ∧
        (∀ j, j ∈ x.buffers ↔ j ∈ q.buffers ∧ j ≠ fr.buffer) ∧ (fr.buffer, hubCycle s) ∈ x.freed) ∧
      (∀ q, look s.equ.queues fr.phys = some q → q.born ≠ fr.born → look t.equ.queues fr.phys = some q) ∧
      (code ≠ 0 → t.mem =
        (faultRecord s l.part 0x04 0 none (BitVec.allOnes 64) (BitVec.ofNat 64 (fr.queue + code % 4 * 2 ^ 16))).mem) ∧
      ∀ g, code = 0 → look s.equ.groups fr.group = some g → g.part = l.part →
        let o := readVirtual s l.part fr.addr (16 * fr.count)
        let es := (List.range fr.count).map (fun i => BitVec.ofNat 128 (leNat ((o.bytes.drop (16 * i)).take 16)))
        let seqs := ((es.map entrySeq).filter (fun x => decide (x < g.nseq))).eraseDups
        t.mem = (seqs.foldl (fun u x => releaseTokens u fr.group g x g.npos) ((es.zipIdx).foldl (markEntry g) o.s)).mem)) ∧
  (∀ g s (e : Quad) i,
    let seq := e.toNat / 2 ^ 108 % 2 ^ 20
    let pos := e.toNat / 2 ^ 88 % 2 ^ 20
    let slot := e.toNat / 2 ^ 81 % 2 ^ 3
    let gate := valOf .bf16 (e.toNat / 2 ^ 64 % 2 ^ 16)
    let t := seq * g.npos + pos
    let m := readVirtual s g.part (g.mbase + t) 1
    let mask := leNat m.bytes
    let bad := g.nseq ≤ seq ∨ g.npos ≤ pos ∨ g.k ≤ slot ∨ mask / 2 ^ slot % 2 = 1
    (bad → markEntry g s (e, i) = faultRecord s g.part 0x05 0 none (BitVec.allOnes 64) (BitVec.ofNat 64 (g.id + i * 2 ^ 16))) ∧
    (¬bad →
      let row := g.cbase + (t * g.k + slot) * 4 * g.dim
      let c := readVirtual m.s g.part row (4 * g.dim)
      let scaled (d : Nat) : Nat := (roundTo .f32 (mulVal gate (valOf .f32 (leNat ((c.bytes.drop (4 * d)).take 4)))).v .rne false 0).bits
      let u := if c.bad.isSome then c.s else (writeVirtual c.s g.part row ((List.range g.dim).flatMap (fun d => leBytes (scaled d) 4))).s
      markEntry g s (e, i) = (writeVirtual u g.part (g.mbase + t) (leBytes (mask + 2 ^ slot) 1)).s)) ∧
  (∀ s ph g seq fuel,
    let p := (readDword s g.part (g.pbase + 8 * seq)).toNat
    let t := seq * g.npos + p
    let m := readVirtual s g.part (g.mbase + t) 1
    let complete := p < g.npos ∧ leNat m.bytes = 2 ^ g.k - 1
    (¬complete → releaseTokens s ph g seq (fuel + 1) = s) ∧
    (complete →
      let elem (k d : Nat) : Nat :=
        leNat (((readVirtual m.s g.part (g.cbase + (t * g.k + k) * 4 * g.dim) (4 * g.dim)).bytes.drop (4 * d)).take 4)
      let sum (d : Nat) : Nat := ((List.range g.k).drop 1).foldl
        (fun r k => (roundTo .f32 (addVal (valOf .f32 r) (valOf .f32 (elem k d)) false).v .rne false 0).bits) (elem 0 d)
      let u := (writeVirtual m.s g.part (g.dst + t * 4 * g.dim) ((List.range g.dim).flatMap (fun d => leBytes (sum d) 4))).s
      let v := (writeVirtual u g.part (g.mbase + t) [0]).s
      let w := (writeVirtual v g.part (g.pbase + 8 * seq) (leBytes (p + 1) 8)).s
      0 < g.k → releaseTokens s ph g seq (fuel + 1) =
        releaseTokens { w with equ := { w.equ with groups := upd w.equ.groups ph (fun g => { g with released := g.released + 1 }) } }
          ph g seq fuel))

/-- R376 to R381, R383, R386 to R388, R400, R419: partitions are created on free sectors and channel groups and
destroyed with everything they held, swapped out and in; their second stage and interface change; the host and peers
read and write their memory. The bytes that are measured and chained, the form of a creation record and of a second-stage edit,
and the status of an answer are log entry 8; that a hypervisor write takes effect when its hub cycle ends, which a lock already
measures, and what a report's counters show are log entry 39. -/
def Obligations.PartitionEvents : Prop :=
  (∀ s part sectors groups nonce,
    let ss := (List.range 32).filter (fun n => sectors.contains n)
    let gs := (List.range 64).filter (fun n => groups.contains n)
    let may := (s.hours.mode = .normal ∨ s.hours.mode = .test) ∧ part < 16 ∧ look s.parts part = none ∧
      (∀ n ∈ ss, sectorOn s n = true ∧ ∀ e ∈ s.parts, n ∈ e.2.sectors → e.2.stash ≠ none) ∧ (∀ n ∈ gs, ∀ e ∈ s.parts, n ∉ e.2.groups)
    (¬may → exec (.partitionCreate part sectors groups nonce) s = .next s) ∧
    (may → ∃ p, exec (.partitionCreate part sectors groups nonce) s = .next { s with parts := put s.parts part p } ∧
      p.sectors = ss ∧ p.groups = gs ∧ p.regs = [] ∧ p.root = 0 ∧ p.tdisp = .unlocked ∧ p.swappedOut = false ∧ p.stash = none ∧
      p.epoch = 0 ∧ p.lost = 0 ∧ p.hyper = [] ∧ p.claims = [] ∧ p.meters = List.replicate 14 0)) ∧
  (∀ s part p, look s.parts part = some p → Tables s →
    (partBusy (stopPartition s part) part = true → exec (.partitionDestroy part) s = .next (stopPartition s part)) ∧
    (partBusy (stopPartition s part) part = false → ∃ t x, exec (.partitionDestroy part) s = .next t ∧ look t.parts part = none ∧
      (∀ e ∈ t.blocks, e.2.part ≠ part) ∧ (∀ k, hbmOf p.groups k = true → readByte t k = 0) ∧
      (∀ e ∈ t.kernels, e.2.part ≠ part) ∧ (∀ e ∈ t.tlb, e.part ≠ part) ∧ (∀ e ∈ t.faults, e.2.part ≠ part) ∧
      look t.hours.reports part = some x ∧ x.final = true ∧ x.epoch = p.epoch + 1 ∧ part ∉ t.hours.reportsLost)) ∧
  (∀ s part addr entry command p k, look s.parts part = some p → partPlace s part addr = some k →
    (addr % 8 ≠ 0 → exec (.secondStageEdit part addr entry command) s = .next s) ∧
    (addr % 8 = 0 → Memory.wf s.mem = true → ∃ t, exec (.secondStageEdit part addr entry command) s = .next t ∧
      loadLE t k 8 = entry.toNat ∧ (∀ a, a < k ∨ k + 8 ≤ a → readByte t a = readByte s a) ∧ (∀ e ∈ t.tlb, e.part ≠ part) ∧
      look t.parts part = some { p with invalidating := true, s2digest := sha384 (beBytes p.s2digest.toNat 48 ++ command) })) ∧
  (∀ s part p, look s.parts part = some p →
    (p.swappedOut = true → exec (.partitionSwapOut part) s = .next s) ∧
    (∀ blk b, b.part = part → savable s blk b = false → b.saved = none → (blk, b) ∈ s.blocks →
      exec (.partitionSwapOut part) s = .next s) ∧
    (p.swappedOut = false → (∀ e ∈ s.blocks, e.2.part = part → e.2.saved ≠ none) → ∃ t x, exec (.partitionSwapOut part) s = .next t ∧
      look t.parts part = some { p with swappedOut := true, stash := some x } ∧ x.since = s.clock ∧ t.groups = s.groups ∧
      (∀ n ∈ p.sectors, ∀ e ∈ t.cores, e.1 / 12 ≠ n) ∧ (∀ e, e ∈ x.cores ↔ e ∈ s.cores ∧ e.1 / 12 ∈ p.sectors) ∧
      (∀ e ∈ t.tlb, e.part ≠ part))) ∧
  (∀ s part p x, look s.parts part = some p → p.stash = some x →
    ((∃ n ∈ p.sectors, sectorHeld s n = true) → exec (.partitionSwapIn part) s = .next s) ∧
    ((∀ n ∈ p.sectors, sectorHeld s n = false) → ∃ t y, exec (.partitionSwapIn part) s = .next t ∧ look t.parts part = some y ∧
      y.swappedOut = false ∧ y.stash = none ∧ y.sectors = p.sectors)) ∧
  (∀ s part p wanted, look s.parts part = some p → exec (.tdispRequest part wanted) s = .next (
    let move (x : Partition) : State := { s with parts := put s.parts part x }
    let due := settleHyper s part
    match p.tdisp, wanted with
    | .unlocked, .locked => move { p with tdisp := .locked, s2digest := tableDigest due part, lockMeasure := lockBytes due part p }
    | .locked, .run => move { p with tdisp := .run }
    | _, .unlocked => move { p with tdisp := .unlocked }
    | _, _ => s)) ∧
  (∀ s part p, look s.parts part = some p →
    (p.epochFrom + 2 ^ 24 ≤ hubCycle s → ∃ t x, exec (.epochClose part) s = .next t ∧ look t.parts part = some x ∧
      x.epoch = p.epoch + 1 ∧ x.epochFrom = p.epochFrom + 2 ^ 24 ∧ t.mem = s.mem ∧
      x.chain = chainNext p.chain (p.epoch + 1) x.meters ∧
      ∀ n, n ≠ 10 → n ≠ 11 → x.meters[n]? = p.meters[n]?) ∧
    (hubCycle s < p.epochFrom + 2 ^ 24 → exec (.epochClose part) s = .next s)) ∧
  (∀ s index signed,
    (s.hours.mode = .startUp ∨ s.hours.mode = .service → exec (.getMeasurements index signed) s = .next s) ∧
    (s.hours.mode ≠ .startUp → s.hours.mode ≠ .service → ∃ t st bs, exec (.getMeasurements index signed) s = .next t ∧
      t.answers = s.answers ++ [{ status := st, bytes := bs }] ∧
      (∀ p, index / 16 = 1 → look s.parts (index % 16) = some p → st = 0 ∧ bs = beBytes p.s2digest.toNat 48) ∧
      (∀ p, index / 16 = 2 → look s.parts (index % 16) = some p → st = 0 ∧ bs = p.lockMeasure) ∧
      (∀ x, index / 16 = 6 → index % 16 ∉ s.hours.reportsLost → look s.hours.reports (index % 16) = some x → st = 0 ∧ bs = x.bytes) ∧
      (index / 16 = 6 → index % 16 ∈ s.hours.reportsLost → st = 2))) ∧
  (∀ s part p, look s.parts part = some p → exec (.ideStreamViolation part) s =
    .next (if p.tdisp = .run then { s with answers := s.answers ++ [{ status := 3, bytes := [] }] } else s)) ∧
  (∀ s part num high v p, look s.parts part = some p →
    (num < 0x200 ∨ cregForm num = none → exec (.hypervisorRegisterWrite part num high v) s = .next s) ∧
    ((num = 0x217 ∨ num = 0x218) → (p.tdisp = .locked ∨ p.tdisp = .run) → exec (.hypervisorRegisterWrite part num high v) s =
      .next { s with parts := put s.parts part { p with tdisp := .error } }) ∧
    (num = 0x217 → p.tdisp = .error → exec (.hypervisorRegisterWrite part num high v) s = .next s) ∧
    (∀ form, 0x200 ≤ num → cregForm num = some form → ¬((num = 0x217 ∨ num = 0x218) ∧ (p.tdisp = .locked ∨ p.tdisp = .run)) →
      ¬(num = 0x217 ∧ p.tdisp = .error) →
      (form ≠ .pair128 → exec (.hypervisorRegisterWrite part num high v) s = .next (if high then s
        else { s with parts := put s.parts part { p with hyper := p.hyper ++ [(num, v, 0)] } })) ∧
      (form = .pair128 → high = false → exec (.hypervisorRegisterWrite part num high v) s =
        .next { s with parts := put s.parts part { p with staged := put p.staged num v } }) ∧
      (form = .pair128 → high = true → exec (.hypervisorRegisterWrite part num high v) s =
        .next { s with parts := put s.parts part { p with
          staged := drop p.staged num, hyper := p.hyper ++ [(num, (look p.staged num).getD (hyperRead s part num).1, v)] } }))) ∧
  (∀ s part p n v ts, Tables s → look s.parts part = some p → p.hyper = [(0x218, v, 0)] → (∀ e ∈ s.parts, e.1 ≠ part → e.2.hyper = []) →
    s.turns = .tick n :: ts → ∃ t x, step s = .next t ∧ look t.parts part = some x ∧
      (hubCycle t = hubCycle s → x.hyper = p.hyper ∧ partReg t part 0x218 = partReg s part 0x218) ∧
      (hubCycle s < hubCycle t → x.hyper = [] ∧ (hyperBits 0x218).1 &&& partReg t part 0x218 = (hyperBits 0x218).1 &&& v ∧
        x.meters = counters t part)) ∧
  (∀ s part gpa n k, (look s.parts part).isSome = true → gpa < 2 ^ 46 → 0 < n → gpa % 4096 + n ≤ 4096 → (stage2 s part gpa needR).res = .ok k →
    let u := (stage2 s part gpa needR).s
    poisonedAt u k n = false →
    exec (.peerWindowAccess part gpa none n) s = .next { u with answers := u.answers ++ [{ status := 0, bytes := readBytes u k n }] }) ∧
  (∀ s part gpa n k, (look s.parts part).isSome = true → gpa < 2 ^ 50 → 0 < n → gpa % 4096 + n ≤ 4096 →
    (stage2 s part gpa needR).res = .ok k →
    let u := (stage2 s part gpa needR).s
    poisonedAt u k n = false →
    exec (.hostBarRequest part gpa none n) s = .next
      { addMeter u part 12 n with answers := u.answers ++ [{ status := 0, bytes := readBytes u k n }] }) ∧
  (∀ s part gpa n c, (look s.parts part).isSome = true → gpa < 2 ^ 50 → 0 < n → gpa % 4096 + n ≤ 4096 →
    (stage2 s part gpa needR).res = .bad c →
    let u := (stage2 s part gpa needR).s
    exec (.hostBarRequest part gpa none n) s = .next { u with answers := u.answers ++ [{ status := 1, bytes := [] }] }) ∧
  (∀ (host : Bool) s part gpa bs m, (look s.parts part).isSome = true → gpa < (if host then 2 ^ 50 else 2 ^ 46) → bs ≠ [] →
    gpa % 4096 + bs.length ≤ 4096 → Memory.wf s.mem = true →
    let i : Instr := if host then .hostBarRequest part gpa (some bs) m else .peerWindowAccess part gpa (some bs) m
    let v := if host then addMeter s part 12 bs.length else s
    let o := stage2 v part gpa needW
    (∀ k, o.res = .ok k → ∃ t, exec i s = .next t ∧ t.answers = s.answers ++ [{ status := 0, bytes := [] }] ∧
      t.groups = s.groups ∧ t.blocks = s.blocks ∧
      ∀ a, readByte t a = if k ≤ a ∧ a < k + bs.length then bs.getD (a - k) 0 else readByte o.s a) ∧
    (∀ c, o.res = .bad c → exec i s = .next { o.s with answers := o.s.answers ++ [{ status := if host then 1 else 5, bytes := [] }] })) ∧
  (∀ s part gpa n, (look s.parts part).isSome = false →
    exec (.peerWindowAccess part gpa none n) s = .next { s with answers := s.answers ++ [{ status := 5, bytes := [] }] } ∧
    exec (.hostBarRequest part gpa none n) s = .next s)

/-- R404 to R406: the seven debug commands, and the landing of a halt: of a spatial block once its drained band has no group left,
of another once every group is parked at its safe point. -/
def Obligations.DebugCommands : Prop :=
  let held (b : Block) : Bool := b.halted && b.saved.isNone
  DebugCommand .halt 1 (fun u part addr c blk b => settleHalt (haltBlock u addr c blk b) part addr c) ∧
  DebugCommand .save 2 (fun u part addr c blk b =>
    let d := drainBlock u blk
    if held b then commandStatus (writeVirtual d part c.addr (saveBytes d blk b (some (commonPoint d blk)))).s part addr 0x10
    else commandStatus u part addr 0x12) ∧
  DebugCommand .restore 3 (fun u part addr c blk b =>
    if held b then commandStatus (restoreCommand u part c blk b).1 part addr (restoreCommand u part c blk b).2
    else commandStatus u part addr 0x12) ∧
  DebugCommand .resume 4 (fun u part addr c blk b =>
    if held b then commandStatus (resumeBlock u c blk) part addr 0x10 else commandStatus u part addr 0x12) ∧
  DebugCommand .kill 5 (fun u part addr _ blk _ => commandStatus (killBlock u blk 1) part addr 0x10) ∧
  DebugCommand .release 6 (fun u part addr _ blk b =>
    if b.frozen = some .hang then
      commandStatus (modBlock u blk (fun b => { b with frozen := none, hung := false, hangCount := 0 })) part addr 0x10
    else commandStatus u part addr 0x12) ∧
  DebugCommand .detach 7 (fun u part addr _ blk b =>
    if b.dbg then
      commandStatus (modBlock (resumeHalted u blk) blk (fun b => { b with dbg := false, hzd := false })) part addr 0x10
    else commandStatus u part addr 0x12) ∧
  (∀ s part addr p a, look s.parts part = some p → p.command = some a → a ≠ addr →
    ∀ i ∈ [Instr.halt part addr, .save part addr, .restore part addr, .resume part addr, .kill part addr, .release part addr,
      .detach part addr], exec i s = .next s) ∧
  (∀ s blk c b, look s.blocks blk = some b → b.halted = true → ∀ gid g, look s.groups gid = some g → g.block = blk →
    g.park = some .halted →
    ∃ x h, look (resumeBlock s c blk).blocks blk = some x ∧ x.halted = false ∧ x.hzd = c.flags.getLsbD 2 ∧
      look (resumeBlock s c blk).groups gid = some h ∧ h.park = none ∧ h.pass = true ∧ h.ctx = g.ctx) ∧
  (∀ s blk b h, look s.blocks blk = some b → b.saved = none → b.halt = some h →
    let due := if b.ver = 2 then h.reached = true ∧ blockGroups s blk = [] ∧ bandDrained s b = true
      else ∀ e ∈ blockGroups s blk, e.2.park = some .halted
    (due → landHalt s blk b = haltNow s blk b h) ∧ (¬due → landHalt s blk b = s) ∧
    (h.command = none → ∃ x, look (haltNow s blk b h).blocks blk = some x ∧ x.halt = none ∧ x.halted = true ∧ x.dbg = true)) ∧
  (∀ s, (∀ e ∈ s.blocks, ∀ h, e.2.halt = some h → h.command ≠ none) → landResumed s = s)

/-- R408, R410 to R421: the rest of the device: interval and sample records, errors, operating points, start-up,
modes, checkpoints and link ports. An operating-point change moves the points and the clocks of its islands, and nothing else;
how long the clocks stop is free (log entry 38). The answers of the mode commands are log entry 15, the form of a checkpoint log
entry 8, and which accesses are under way when a link port goes down, and what they read, log entry 32. -/
def Obligations.DeviceEvents : Prop :=
  (∀ s bank, bank < 16 →
    (nestDue s bank = none → exec (.counterIntervalRecord bank) s = .next s) ∧
    (∀ part n, nestDue s bank = some (part, n) → ∃ t x, exec (.counterIntervalRecord bank) s = .next t ∧ look t.nest bank = some x ∧
      x.seq = n.seq + 1 ∧ x.counts = [0, 0, 0, 0] ∧ x.from_ = s.clock ∧ x.owner = some part ∧ x.lo = n.lo ∧ x.hi = n.hi)) ∧
  (∀ s unit, unit < 4 →
    (nestDue s (16 + unit) = none → exec (.traceSample unit) s = .next s) ∧
    (∀ part n, nestDue s (16 + unit) = some (part, n) → ∃ t x, exec (.traceSample unit) s = .next t ∧ look t.nest (16 + unit) = some x ∧
      x.from_ = s.clock ∧ x.seq = n.seq + (if bitAt n.lo 2 then (samplePlaces s part n).length else 0))) ∧
  (∀ s k, k < 2 ^ 40 → ∃ t, exec (.uncorrectableError (.hbm k)) s = .next t ∧ exec (.uncorrectableError (.l2 k)) s = .next t ∧
    t.mem = s.mem ∧ ∀ x, x ∈ t.hours.poison ↔ x ∈ s.hours.poison ∨ x = k / 32 * 32) ∧
  (∀ s c w, c < 96 → w < 262144 → ∃ t, exec (.uncorrectableError (.ob c w)) s = .next t ∧
    ∀ x, x ∈ (clusterOf t c).bad ↔ x ∈ (clusterOf s c).bad ∨ x = w) ∧
  (∀ s c w, c < 96 → w < 131072 → ∃ t, exec (.uncorrectableError (.am c w)) s = .next t ∧
    ∀ x, x ∈ (clusterOf t c).bad ↔ x ∈ (clusterOf s c).bad ∨ x = 262144 + w) ∧
  (∀ s blk b, look s.blocks blk = some b → b.saved = none → Tables s → ∃ t, exec (.uncorrectableError (.blk blk)) s = .next t ∧
    t = killBlock s blk 2 ∧ look t.blocks blk = none) ∧
  (∀ s blk b x, look s.blocks blk = some b → b.saved = some x → (stashedPart s b.part = true → ∃ t, exec (.uncorrectableError (.shadowBlk blk)) s =
    .next t ∧ look t.blocks blk = some { b with saved := some { x with poisoned := true } } ∧ t.mem = s.mem ∧ t.parts = s.parts) ∧
    (stashedPart s b.part = false → exec (.uncorrectableError (.shadowBlk blk)) s = .next s)) ∧
  (∀ s part p x c w, look s.parts part = some p → p.stash = some x → c / 3 ∈ p.sectors →
    (w < 262144 → ∃ t y d, exec (.uncorrectableError (.shadowOb part c w)) s = .next t ∧ look t.parts part = some y ∧ y.stash = some d ∧
      t.clusters = s.clusters ∧ ∀ n, n ∈ ((look d.clusters c).getD Cluster.init).bad ↔ n ∈ ((look x.clusters c).getD Cluster.init).bad ∨ n = w) ∧
    (w < 131072 → ∃ t y d, exec (.uncorrectableError (.shadowAm part c w)) s = .next t ∧ look t.parts part = some y ∧ y.stash = some d ∧
      t.clusters = s.clusters ∧ ∀ n, n ∈ ((look d.clusters c).getD Cluster.init).bad ↔
        n ∈ ((look x.clusters c).getD Cluster.init).bad ∨ n = 262144 + w)) ∧
  (∀ s a ts, s.turns = .corrected a :: ts → ∃ h, step s = .next { s with turns := ts, hours := h } ∧ (a,
    ((s.hours.corrected.find? (fun x => x.1 = a)).map (·.2)).getD 0 + 1) ∈ h.corrected ∧
    (∀ x, x.1 ≠ a → (x ∈ h.corrected ↔ x ∈ s.hours.corrected)) ∧ h.poison = s.hours.poison) ∧
  (∀ s pc, exec (.hbmScrub pc) s = .next s) ∧
  (∀ s island point,
    let is := joinBands (s.bands.map (·.2)) [island] s.bands.length
    (island < 104 → point ≤ 7 → (∀ i ∈ is, pointAllowed s i point = true) → Tables s →
      ∃ t, exec (.operatingPointChange island point) s = .next t ∧ (∀ i, (look t.hours.points i).getD 0 =
        if i ∈ is then point else (look s.hours.points i).getD 0) ∧ (∀ i a, islandCycles t i a = islandCycles s i a) ∧
        t = { s with hours := { s.hours with points := t.hours.points, rates := t.hours.rates }, free := t.free }) ∧
    ((¬(island < 104 ∧ point ≤ 7)) → exec (.operatingPointChange island point) s = .next s) ∧
    ((∃ i ∈ is, pointAllowed s i point = false) → exec (.operatingPointChange island point) s = .next s)) ∧
  (∀ s steps, ∃ t, exec (.deviceReset steps) s = .next t ∧ t.groups = [] ∧ t.blocks = [] ∧ t.parts = [] ∧ t.launches = [] ∧
    t.kernels = [] ∧ t.queues = [] ∧ t.tlb = [] ∧ t.clusters = [] ∧ t.cores = [] ∧ t.bands = [] ∧
    (∀ a, readByte t a = if isHost a ∨ peerBase ≤ a then readByte s a else 0)) ∧
  (∀ s, s.hours.start.fails < 3 → (∀ b ∈ s.hours.start.steps, b = 0) →
    ∃ t, exec (.deviceReset (List.replicate 10 { ok := true, alt := true })) s = .next t ∧ t.hours.mode = .normal ∧
      t.hours.startStep = 11 ∧ t.hours.start.fails = 0) ∧
  (∀ s, 3 ≤ s.hours.start.fails → ∃ t, exec (.deviceReset []) s = .next t ∧ t.hours.mode = .service) ∧
  (∀ s (i : Nat) (b : Byte), s.hours.start.steps[i]? = some b → b &&& 1 ≠ 0 → b &&& 2 = 0 → ∃ t c, exec (.deviceReset []) s = .next t ∧
    t.hours.start.fails = s.hours.start.fails + 1 ∧ t.hours.start.steps[i]? = some c ∧ c &&& 4 ≠ 0) ∧
  (∀ s o ts, s.turns = .startStep o :: ts → s.hours.mode = .startUp → s.hours.startStep = 4 →
    (s.hours.start.steps[3]? = some 0 → ∃ t, step s = .next t ∧ t.hours.startStep = 4 ∧ t.hours.start.steps[3]? = some 1) ∧
    (s.hours.start.steps[3]? = some 1 → o.ok = true → ∃ t, step s = .next t ∧ t.hours.startStep = 5 ∧
      t.hours.start.steps[3]? = some 3 ∧ t.hours.remaps = s.hours.repair.flatMap (·.remaps) ∧ t.mem = s.mem ∧
      (∀ c, c ∈ t.hours.clustersOff ↔ ∃ r ∈ s.hours.repair, c ∈ r.clusters) ∧
      (∀ c, c ∈ t.hours.rowsOff ↔ ∃ r ∈ s.hours.repair, c ∈ r.rows))) ∧
  (∀ s,
    let mode (m : DeviceMode) (st : Nat) : State :=
      { s with hours := { s.hours with mode := m }, answers := s.answers ++ [{ status := st, bytes := [] }] }
    exec .enterTest s = .next (if s.hours.mode = .normal ∧ s.parts = [] then mode .test 0 else mode s.hours.mode 1) ∧
    exec .leaveTest s = .next (if s.hours.mode = .test ∧ s.parts = [] then mode .normal 0 else mode s.hours.mode 1) ∧
    exec .leaveRecovery s = .next (if s.hours.mode = .recovery then mode .normal 0 else mode s.hours.mode 1)) ∧
  (∀ s, (∀ e ∈ s.parts, e.2.stash ≠ none) → s.hours.mode = .normal → s.hours.poison = [] →
    ∃ t c, exec .checkpoint s = .next t ∧ t.hours.checkpoint = some c ∧ t.mem = s.mem ∧ c.poisoned = [] ∧
      (∀ e, e ∈ c.mem ↔ e ∈ s.mem ∧ isHbm e.1 = true)) ∧
  (∀ s c, s.hours.checkpoint = some c → (∀ e ∈ s.parts, e.2.stash ≠ none) → s.hours.mode = .normal →
    c.digests = groupDigests c.mem → Memory.wf s.mem = true → Memory.wf c.mem = true → (∀ e ∈ c.mem, isHbm e.1 = true) →
    ∃ t, exec .checkpointRestore s = .next t ∧ t.hours.mode = .recovery ∧
      ∀ a, readByte t a = if isHbm a then getZ c.mem a else readByte s a) ∧
  (∀ s, s.hours.checkpoint = none → exec .checkpointRestore s = .next s) ∧
  (∀ s port, port < 16 → ∃ t u, exec (.linkPortDown port) s = .next t ∧ exec (.linkPortTrained port) s = .next u ∧
    ((∀ e ∈ s.ises, e.2.ops = []) → t.mem = s.mem) ∧ u.mem = s.mem ∧ (∀ x, x ∈ t.hours.portsDown ↔ x ∈ s.hours.portsDown ∨ x = port) ∧
    (∀ x, x ∈ u.hours.portsDown ↔ x ∈ s.hours.portsDown ∧ x ≠ port) ∧
    (∀ c ∈ t.cores, ∀ e ∈ c.2.storeQ, onPort port e.key = false) ∧
    (∀ e ∈ t.groups, ∀ p ∈ e.2.ctx.pend, ∀ n sg accs got far, p.work = .load n sg accs got far → ∀ a ∈ accs,
      ∀ x ∈ accParts n far a, onPort port x.1 = false)) ∧
  (∀ s port, 16 ≤ port → exec (.linkPortDown port) s = .next s) ∧
  (∀ s port (r : EngRef) o, r.kind < 2 → (engCtx s r).ops.find? (fun o => o.ended.isNone) = some o → o.next < o.elements → o.wait = none →
    reachesPort s o.part port (elementAddrs s o o.next) = true →
    let u : State := { s with free := s.free + 1 }
    (Config.freeNat s.free % 2 = 1 → dropElement port s r =
      (if r.kind = 0 then modOp u r o.no (fun x => { x with
          code := 5, fails := 1, first := some (min (x.first.getD o.next) o.next), ended := some 5 })
        else iseFail u r o o.next 5)) ∧
    (Config.freeNat s.free % 2 = 0 → dropElement port s r = u)) ∧
  (∀ s clusters rows, exec (.repairMapAdd clusters rows) s =
    .next { s with hours := { s.hours with repair := s.hours.repair ++ [{ clusters, rows := rows.off, remaps := rows.remaps }] } }) ∧
  (∀ s, ∃ t : State, exec .startRecordClear s = .next t ∧ t.hours.start.fails = s.hours.start.fails ∧ t.hours.mode = s.hours.mode ∧
    ∀ (i : Nat) (b : Byte), s.hours.start.steps[i]? = some b → t.hours.start.steps[i]? = some (b &&& 0xF3))
end

