-- ==== Sys2Proof/Laws/State.lean ====
section
/-! SUPPORT. What the shared updates of the state leave alone, field by field. -/

namespace Sys2Proof.Machine

/-! ## `setCore` -/

@[simp] theorem setCore_mem (s : State) (core : Nat) (c : Core) : (setCore s core c).mem = s.mem := rfl
@[simp] theorem setCore_groups (s : State) (core : Nat) (c : Core) : (setCore s core c).groups = s.groups := rfl
@[simp] theorem setCore_sets (s : State) (core : Nat) (c : Core) : (setCore s core c).sets = s.sets := rfl
@[simp] theorem setCore_blocks (s : State) (core : Nat) (c : Core) : (setCore s core c).blocks = s.blocks := rfl
@[simp] theorem setCore_launches (s : State) (core : Nat) (c : Core) : (setCore s core c).launches = s.launches := rfl
@[simp] theorem setCore_queues (s : State) (core : Nat) (c : Core) : (setCore s core c).queues = s.queues := rfl
@[simp] theorem setCore_kernels (s : State) (core : Nat) (c : Core) : (setCore s core c).kernels = s.kernels := rfl
@[simp] theorem setCore_copies (s : State) (core : Nat) (c : Core) : (setCore s core c).copies = s.copies := rfl
@[simp] theorem setCore_ises (s : State) (core : Nat) (c : Core) : (setCore s core c).ises = s.ises := rfl
@[simp] theorem setCore_faults (s : State) (core : Nat) (c : Core) : (setCore s core c).faults = s.faults := rfl
@[simp] theorem setCore_clusters (s : State) (core : Nat) (c : Core) : (setCore s core c).clusters = s.clusters := rfl
@[simp] theorem setCore_bands (s : State) (core : Nat) (c : Core) : (setCore s core c).bands = s.bands := rfl
@[simp] theorem setCore_equ (s : State) (core : Nat) (c : Core) : (setCore s core c).equ = s.equ := rfl
@[simp] theorem setCore_parts (s : State) (core : Nat) (c : Core) : (setCore s core c).parts = s.parts := rfl
@[simp] theorem setCore_tlb (s : State) (core : Nat) (c : Core) : (setCore s core c).tlb = s.tlb := rfl
@[simp] theorem setCore_nest (s : State) (core : Nat) (c : Core) : (setCore s core c).nest = s.nest := rfl
@[simp] theorem setCore_hours (s : State) (core : Nat) (c : Core) : (setCore s core c).hours = s.hours := rfl
@[simp] theorem setCore_answers (s : State) (core : Nat) (c : Core) : (setCore s core c).answers = s.answers := rfl
@[simp] theorem setCore_clock (s : State) (core : Nat) (c : Core) : (setCore s core c).clock = s.clock := rfl
@[simp] theorem setCore_cur (s : State) (core : Nat) (c : Core) : (setCore s core c).cur = s.cur := rfl
@[simp] theorem setCore_fresh (s : State) (core : Nat) (c : Core) : (setCore s core c).fresh = s.fresh := rfl
@[simp] theorem setCore_turns (s : State) (core : Nat) (c : Core) : (setCore s core c).turns = s.turns := rfl
@[simp] theorem setCore_free (s : State) (core : Nat) (c : Core) : (setCore s core c).free = s.free := rfl

@[simp] theorem setCore_cores (s : State) (core : Nat) (c : Core) : (setCore s core c).cores = put s.cores core c := rfl

/-! ## `modGroup` -/

@[simp] theorem modGroup_mem (s : State) (gid : Nat) (f : Group → Group) : (modGroup s gid f).mem = s.mem := rfl
@[simp] theorem modGroup_sets (s : State) (gid : Nat) (f : Group → Group) : (modGroup s gid f).sets = s.sets := rfl
@[simp] theorem modGroup_cores (s : State) (gid : Nat) (f : Group → Group) : (modGroup s gid f).cores = s.cores := rfl
@[simp] theorem modGroup_blocks (s : State) (gid : Nat) (f : Group → Group) : (modGroup s gid f).blocks = s.blocks := rfl
@[simp] theorem modGroup_launches (s : State) (gid : Nat) (f : Group → Group) : (modGroup s gid f).launches = s.launches := rfl
@[simp] theorem modGroup_queues (s : State) (gid : Nat) (f : Group → Group) : (modGroup s gid f).queues = s.queues := rfl
@[simp] theorem modGroup_kernels (s : State) (gid : Nat) (f : Group → Group) : (modGroup s gid f).kernels = s.kernels := rfl
@[simp] theorem modGroup_copies (s : State) (gid : Nat) (f : Group → Group) : (modGroup s gid f).copies = s.copies := rfl
@[simp] theorem modGroup_ises (s : State) (gid : Nat) (f : Group → Group) : (modGroup s gid f).ises = s.ises := rfl
@[simp] theorem modGroup_faults (s : State) (gid : Nat) (f : Group → Group) : (modGroup s gid f).faults = s.faults := rfl
@[simp] theorem modGroup_clusters (s : State) (gid : Nat) (f : Group → Group) : (modGroup s gid f).clusters = s.clusters := rfl
@[simp] theorem modGroup_bands (s : State) (gid : Nat) (f : Group → Group) : (modGroup s gid f).bands = s.bands := rfl
@[simp] theorem modGroup_equ (s : State) (gid : Nat) (f : Group → Group) : (modGroup s gid f).equ = s.equ := rfl
@[simp] theorem modGroup_parts (s : State) (gid : Nat) (f : Group → Group) : (modGroup s gid f).parts = s.parts := rfl
@[simp] theorem modGroup_tlb (s : State) (gid : Nat) (f : Group → Group) : (modGroup s gid f).tlb = s.tlb := rfl
@[simp] theorem modGroup_nest (s : State) (gid : Nat) (f : Group → Group) : (modGroup s gid f).nest = s.nest := rfl
@[simp] theorem modGroup_hours (s : State) (gid : Nat) (f : Group → Group) : (modGroup s gid f).hours = s.hours := rfl
@[simp] theorem modGroup_answers (s : State) (gid : Nat) (f : Group → Group) : (modGroup s gid f).answers = s.answers := rfl
@[simp] theorem modGroup_clock (s : State) (gid : Nat) (f : Group → Group) : (modGroup s gid f).clock = s.clock := rfl
@[simp] theorem modGroup_cur (s : State) (gid : Nat) (f : Group → Group) : (modGroup s gid f).cur = s.cur := rfl
@[simp] theorem modGroup_fresh (s : State) (gid : Nat) (f : Group → Group) : (modGroup s gid f).fresh = s.fresh := rfl
@[simp] theorem modGroup_turns (s : State) (gid : Nat) (f : Group → Group) : (modGroup s gid f).turns = s.turns := rfl
@[simp] theorem modGroup_free (s : State) (gid : Nat) (f : Group → Group) : (modGroup s gid f).free = s.free := rfl

@[simp] theorem modGroup_groups (s : State) (gid : Nat) (f : Group → Group) : (modGroup s gid f).groups = upd s.groups gid f := rfl

/-! ## `modBlock` -/

@[simp] theorem modBlock_mem (s : State) (blk : Nat) (f : Block → Block) : (modBlock s blk f).mem = s.mem := rfl
@[simp] theorem modBlock_groups (s : State) (blk : Nat) (f : Block → Block) : (modBlock s blk f).groups = s.groups := rfl
@[simp] theorem modBlock_sets (s : State) (blk : Nat) (f : Block → Block) : (modBlock s blk f).sets = s.sets := rfl
@[simp] theorem modBlock_cores (s : State) (blk : Nat) (f : Block → Block) : (modBlock s blk f).cores = s.cores := rfl
@[simp] theorem modBlock_launches (s : State) (blk : Nat) (f : Block → Block) : (modBlock s blk f).launches = s.launches := rfl
@[simp] theorem modBlock_queues (s : State) (blk : Nat) (f : Block → Block) : (modBlock s blk f).queues = s.queues := rfl
@[simp] theorem modBlock_kernels (s : State) (blk : Nat) (f : Block → Block) : (modBlock s blk f).kernels = s.kernels := rfl
@[simp] theorem modBlock_copies (s : State) (blk : Nat) (f : Block → Block) : (modBlock s blk f).copies = s.copies := rfl
@[simp] theorem modBlock_ises (s : State) (blk : Nat) (f : Block → Block) : (modBlock s blk f).ises = s.ises := rfl
@[simp] theorem modBlock_faults (s : State) (blk : Nat) (f : Block → Block) : (modBlock s blk f).faults = s.faults := rfl
@[simp] theorem modBlock_clusters (s : State) (blk : Nat) (f : Block → Block) : (modBlock s blk f).clusters = s.clusters := rfl
@[simp] theorem modBlock_bands (s : State) (blk : Nat) (f : Block → Block) : (modBlock s blk f).bands = s.bands := rfl
@[simp] theorem modBlock_equ (s : State) (blk : Nat) (f : Block → Block) : (modBlock s blk f).equ = s.equ := rfl
@[simp] theorem modBlock_parts (s : State) (blk : Nat) (f : Block → Block) : (modBlock s blk f).parts = s.parts := rfl
@[simp] theorem modBlock_tlb (s : State) (blk : Nat) (f : Block → Block) : (modBlock s blk f).tlb = s.tlb := rfl
@[simp] theorem modBlock_nest (s : State) (blk : Nat) (f : Block → Block) : (modBlock s blk f).nest = s.nest := rfl
@[simp] theorem modBlock_hours (s : State) (blk : Nat) (f : Block → Block) : (modBlock s blk f).hours = s.hours := rfl
@[simp] theorem modBlock_answers (s : State) (blk : Nat) (f : Block → Block) : (modBlock s blk f).answers = s.answers := rfl
@[simp] theorem modBlock_clock (s : State) (blk : Nat) (f : Block → Block) : (modBlock s blk f).clock = s.clock := rfl
@[simp] theorem modBlock_cur (s : State) (blk : Nat) (f : Block → Block) : (modBlock s blk f).cur = s.cur := rfl
@[simp] theorem modBlock_fresh (s : State) (blk : Nat) (f : Block → Block) : (modBlock s blk f).fresh = s.fresh := rfl
@[simp] theorem modBlock_turns (s : State) (blk : Nat) (f : Block → Block) : (modBlock s blk f).turns = s.turns := rfl
@[simp] theorem modBlock_free (s : State) (blk : Nat) (f : Block → Block) : (modBlock s blk f).free = s.free := rfl

@[simp] theorem modBlock_blocks (s : State) (blk : Nat) (f : Block → Block) : (modBlock s blk f).blocks = upd s.blocks blk f := rfl

/-! ## `drawn` -/

@[simp] theorem drawn_mem (s : State) (n : Nat) : (drawn s n).mem = s.mem := rfl
@[simp] theorem drawn_groups (s : State) (n : Nat) : (drawn s n).groups = s.groups := rfl
@[simp] theorem drawn_sets (s : State) (n : Nat) : (drawn s n).sets = s.sets := rfl
@[simp] theorem drawn_cores (s : State) (n : Nat) : (drawn s n).cores = s.cores := rfl
@[simp] theorem drawn_blocks (s : State) (n : Nat) : (drawn s n).blocks = s.blocks := rfl
@[simp] theorem drawn_launches (s : State) (n : Nat) : (drawn s n).launches = s.launches := rfl
@[simp] theorem drawn_queues (s : State) (n : Nat) : (drawn s n).queues = s.queues := rfl
@[simp] theorem drawn_kernels (s : State) (n : Nat) : (drawn s n).kernels = s.kernels := rfl
@[simp] theorem drawn_copies (s : State) (n : Nat) : (drawn s n).copies = s.copies := rfl
@[simp] theorem drawn_ises (s : State) (n : Nat) : (drawn s n).ises = s.ises := rfl
@[simp] theorem drawn_faults (s : State) (n : Nat) : (drawn s n).faults = s.faults := rfl
@[simp] theorem drawn_clusters (s : State) (n : Nat) : (drawn s n).clusters = s.clusters := rfl
@[simp] theorem drawn_bands (s : State) (n : Nat) : (drawn s n).bands = s.bands := rfl
@[simp] theorem drawn_equ (s : State) (n : Nat) : (drawn s n).equ = s.equ := rfl
@[simp] theorem drawn_parts (s : State) (n : Nat) : (drawn s n).parts = s.parts := rfl
@[simp] theorem drawn_tlb (s : State) (n : Nat) : (drawn s n).tlb = s.tlb := rfl
@[simp] theorem drawn_nest (s : State) (n : Nat) : (drawn s n).nest = s.nest := rfl
@[simp] theorem drawn_hours (s : State) (n : Nat) : (drawn s n).hours = s.hours := rfl
@[simp] theorem drawn_answers (s : State) (n : Nat) : (drawn s n).answers = s.answers := rfl
@[simp] theorem drawn_clock (s : State) (n : Nat) : (drawn s n).clock = s.clock := rfl
@[simp] theorem drawn_cur (s : State) (n : Nat) : (drawn s n).cur = s.cur := rfl
@[simp] theorem drawn_fresh (s : State) (n : Nat) : (drawn s n).fresh = s.fresh := rfl
@[simp] theorem drawn_turns (s : State) (n : Nat) : (drawn s n).turns = s.turns := rfl

@[simp] theorem drawn_free (s : State) (n : Nat) : (drawn s n).free = s.free + n := rfl

/-! ## `parkGroup` -/

@[simp] theorem parkGroup_mem (s : State) (gid : Nat) (p : Park) : (parkGroup s gid p).mem = s.mem := rfl
@[simp] theorem parkGroup_sets (s : State) (gid : Nat) (p : Park) : (parkGroup s gid p).sets = s.sets := rfl
@[simp] theorem parkGroup_cores (s : State) (gid : Nat) (p : Park) : (parkGroup s gid p).cores = s.cores := rfl
@[simp] theorem parkGroup_blocks (s : State) (gid : Nat) (p : Park) : (parkGroup s gid p).blocks = s.blocks := rfl
@[simp] theorem parkGroup_launches (s : State) (gid : Nat) (p : Park) : (parkGroup s gid p).launches = s.launches := rfl
@[simp] theorem parkGroup_queues (s : State) (gid : Nat) (p : Park) : (parkGroup s gid p).queues = s.queues := rfl
@[simp] theorem parkGroup_kernels (s : State) (gid : Nat) (p : Park) : (parkGroup s gid p).kernels = s.kernels := rfl
@[simp] theorem parkGroup_copies (s : State) (gid : Nat) (p : Park) : (parkGroup s gid p).copies = s.copies := rfl
@[simp] theorem parkGroup_ises (s : State) (gid : Nat) (p : Park) : (parkGroup s gid p).ises = s.ises := rfl
@[simp] theorem parkGroup_faults (s : State) (gid : Nat) (p : Park) : (parkGroup s gid p).faults = s.faults := rfl
@[simp] theorem parkGroup_clusters (s : State) (gid : Nat) (p : Park) : (parkGroup s gid p).clusters = s.clusters := rfl
@[simp] theorem parkGroup_bands (s : State) (gid : Nat) (p : Park) : (parkGroup s gid p).bands = s.bands := rfl
@[simp] theorem parkGroup_equ (s : State) (gid : Nat) (p : Park) : (parkGroup s gid p).equ = s.equ := rfl
@[simp] theorem parkGroup_parts (s : State) (gid : Nat) (p : Park) : (parkGroup s gid p).parts = s.parts := rfl
@[simp] theorem parkGroup_tlb (s : State) (gid : Nat) (p : Park) : (parkGroup s gid p).tlb = s.tlb := rfl
@[simp] theorem parkGroup_nest (s : State) (gid : Nat) (p : Park) : (parkGroup s gid p).nest = s.nest := rfl
@[simp] theorem parkGroup_hours (s : State) (gid : Nat) (p : Park) : (parkGroup s gid p).hours = s.hours := rfl
@[simp] theorem parkGroup_answers (s : State) (gid : Nat) (p : Park) : (parkGroup s gid p).answers = s.answers := rfl
@[simp] theorem parkGroup_clock (s : State) (gid : Nat) (p : Park) : (parkGroup s gid p).clock = s.clock := rfl
@[simp] theorem parkGroup_cur (s : State) (gid : Nat) (p : Park) : (parkGroup s gid p).cur = s.cur := rfl
@[simp] theorem parkGroup_fresh (s : State) (gid : Nat) (p : Park) : (parkGroup s gid p).fresh = s.fresh := rfl
@[simp] theorem parkGroup_turns (s : State) (gid : Nat) (p : Park) : (parkGroup s gid p).turns = s.turns := rfl
@[simp] theorem parkGroup_free (s : State) (gid : Nat) (p : Park) : (parkGroup s gid p).free = s.free := rfl

/-! ## `unparkGroup` -/

@[simp] theorem unparkGroup_mem (s : State) (gid : Nat) : (unparkGroup s gid).mem = s.mem := rfl
@[simp] theorem unparkGroup_sets (s : State) (gid : Nat) : (unparkGroup s gid).sets = s.sets := rfl
@[simp] theorem unparkGroup_cores (s : State) (gid : Nat) : (unparkGroup s gid).cores = s.cores := rfl
@[simp] theorem unparkGroup_blocks (s : State) (gid : Nat) : (unparkGroup s gid).blocks = s.blocks := rfl
@[simp] theorem unparkGroup_launches (s : State) (gid : Nat) : (unparkGroup s gid).launches = s.launches := rfl
@[simp] theorem unparkGroup_queues (s : State) (gid : Nat) : (unparkGroup s gid).queues = s.queues := rfl
@[simp] theorem unparkGroup_kernels (s : State) (gid : Nat) : (unparkGroup s gid).kernels = s.kernels := rfl
@[simp] theorem unparkGroup_copies (s : State) (gid : Nat) : (unparkGroup s gid).copies = s.copies := rfl
@[simp] theorem unparkGroup_ises (s : State) (gid : Nat) : (unparkGroup s gid).ises = s.ises := rfl
@[simp] theorem unparkGroup_faults (s : State) (gid : Nat) : (unparkGroup s gid).faults = s.faults := rfl
@[simp] theorem unparkGroup_clusters (s : State) (gid : Nat) : (unparkGroup s gid).clusters = s.clusters := rfl
@[simp] theorem unparkGroup_bands (s : State) (gid : Nat) : (unparkGroup s gid).bands = s.bands := rfl
@[simp] theorem unparkGroup_equ (s : State) (gid : Nat) : (unparkGroup s gid).equ = s.equ := rfl
@[simp] theorem unparkGroup_parts (s : State) (gid : Nat) : (unparkGroup s gid).parts = s.parts := rfl
@[simp] theorem unparkGroup_tlb (s : State) (gid : Nat) : (unparkGroup s gid).tlb = s.tlb := rfl
@[simp] theorem unparkGroup_nest (s : State) (gid : Nat) : (unparkGroup s gid).nest = s.nest := rfl
@[simp] theorem unparkGroup_hours (s : State) (gid : Nat) : (unparkGroup s gid).hours = s.hours := rfl
@[simp] theorem unparkGroup_answers (s : State) (gid : Nat) : (unparkGroup s gid).answers = s.answers := rfl
@[simp] theorem unparkGroup_clock (s : State) (gid : Nat) : (unparkGroup s gid).clock = s.clock := rfl
@[simp] theorem unparkGroup_cur (s : State) (gid : Nat) : (unparkGroup s gid).cur = s.cur := rfl
@[simp] theorem unparkGroup_fresh (s : State) (gid : Nat) : (unparkGroup s gid).fresh = s.fresh := rfl
@[simp] theorem unparkGroup_turns (s : State) (gid : Nat) : (unparkGroup s gid).turns = s.turns := rfl
@[simp] theorem unparkGroup_free (s : State) (gid : Nat) : (unparkGroup s gid).free = s.free := rfl

/-! ## `modCtx` -/

@[simp] theorem modCtx_mem (s : State) (q : Issuer) (f : Ctx → Ctx) : (modCtx s q f).mem = s.mem := by unfold modCtx; split <;> rfl
@[simp] theorem modCtx_sets (s : State) (q : Issuer) (f : Ctx → Ctx) : (modCtx s q f).sets = s.sets := by unfold modCtx; split <;> rfl
@[simp] theorem modCtx_blocks (s : State) (q : Issuer) (f : Ctx → Ctx) : (modCtx s q f).blocks = s.blocks := by unfold modCtx; split <;> rfl
@[simp] theorem modCtx_launches (s : State) (q : Issuer) (f : Ctx → Ctx) : (modCtx s q f).launches = s.launches := by unfold modCtx; split <;> rfl
@[simp] theorem modCtx_queues (s : State) (q : Issuer) (f : Ctx → Ctx) : (modCtx s q f).queues = s.queues := by unfold modCtx; split <;> rfl
@[simp] theorem modCtx_kernels (s : State) (q : Issuer) (f : Ctx → Ctx) : (modCtx s q f).kernels = s.kernels := by unfold modCtx; split <;> rfl
@[simp] theorem modCtx_copies (s : State) (q : Issuer) (f : Ctx → Ctx) : (modCtx s q f).copies = s.copies := by unfold modCtx; split <;> rfl
@[simp] theorem modCtx_ises (s : State) (q : Issuer) (f : Ctx → Ctx) : (modCtx s q f).ises = s.ises := by unfold modCtx; split <;> rfl
@[simp] theorem modCtx_faults (s : State) (q : Issuer) (f : Ctx → Ctx) : (modCtx s q f).faults = s.faults := by unfold modCtx; split <;> rfl
@[simp] theorem modCtx_clusters (s : State) (q : Issuer) (f : Ctx → Ctx) : (modCtx s q f).clusters = s.clusters := by unfold modCtx; split <;> rfl
@[simp] theorem modCtx_bands (s : State) (q : Issuer) (f : Ctx → Ctx) : (modCtx s q f).bands = s.bands := by unfold modCtx; split <;> rfl
@[simp] theorem modCtx_equ (s : State) (q : Issuer) (f : Ctx → Ctx) : (modCtx s q f).equ = s.equ := by unfold modCtx; split <;> rfl
@[simp] theorem modCtx_parts (s : State) (q : Issuer) (f : Ctx → Ctx) : (modCtx s q f).parts = s.parts := by unfold modCtx; split <;> rfl
@[simp] theorem modCtx_tlb (s : State) (q : Issuer) (f : Ctx → Ctx) : (modCtx s q f).tlb = s.tlb := by unfold modCtx; split <;> rfl
@[simp] theorem modCtx_nest (s : State) (q : Issuer) (f : Ctx → Ctx) : (modCtx s q f).nest = s.nest := by unfold modCtx; split <;> rfl
@[simp] theorem modCtx_hours (s : State) (q : Issuer) (f : Ctx → Ctx) : (modCtx s q f).hours = s.hours := by unfold modCtx; split <;> rfl
@[simp] theorem modCtx_answers (s : State) (q : Issuer) (f : Ctx → Ctx) : (modCtx s q f).answers = s.answers := by unfold modCtx; split <;> rfl
@[simp] theorem modCtx_clock (s : State) (q : Issuer) (f : Ctx → Ctx) : (modCtx s q f).clock = s.clock := by unfold modCtx; split <;> rfl
@[simp] theorem modCtx_cur (s : State) (q : Issuer) (f : Ctx → Ctx) : (modCtx s q f).cur = s.cur := by unfold modCtx; split <;> rfl
@[simp] theorem modCtx_fresh (s : State) (q : Issuer) (f : Ctx → Ctx) : (modCtx s q f).fresh = s.fresh := by unfold modCtx; split <;> rfl
@[simp] theorem modCtx_turns (s : State) (q : Issuer) (f : Ctx → Ctx) : (modCtx s q f).turns = s.turns := by unfold modCtx; split <;> rfl
@[simp] theorem modCtx_free (s : State) (q : Issuer) (f : Ctx → Ctx) : (modCtx s q f).free = s.free := by unfold modCtx; split <;> rfl

/-! ## `hold` -/

@[simp] theorem hold_mem (s : State) (q : Issuer) (d : Dest) (m : Word) (vs : List Dword) (lat : Nat) : (hold s q d m vs lat).mem = s.mem := modCtx_mem ..
@[simp] theorem hold_sets (s : State) (q : Issuer) (d : Dest) (m : Word) (vs : List Dword) (lat : Nat) : (hold s q d m vs lat).sets = s.sets := modCtx_sets ..
@[simp] theorem hold_blocks (s : State) (q : Issuer) (d : Dest) (m : Word) (vs : List Dword) (lat : Nat) : (hold s q d m vs lat).blocks = s.blocks := modCtx_blocks ..
@[simp] theorem hold_launches (s : State) (q : Issuer) (d : Dest) (m : Word) (vs : List Dword) (lat : Nat) : (hold s q d m vs lat).launches = s.launches := modCtx_launches ..
@[simp] theorem hold_queues (s : State) (q : Issuer) (d : Dest) (m : Word) (vs : List Dword) (lat : Nat) : (hold s q d m vs lat).queues = s.queues := modCtx_queues ..
@[simp] theorem hold_kernels (s : State) (q : Issuer) (d : Dest) (m : Word) (vs : List Dword) (lat : Nat) : (hold s q d m vs lat).kernels = s.kernels := modCtx_kernels ..
@[simp] theorem hold_copies (s : State) (q : Issuer) (d : Dest) (m : Word) (vs : List Dword) (lat : Nat) : (hold s q d m vs lat).copies = s.copies := modCtx_copies ..
@[simp] theorem hold_ises (s : State) (q : Issuer) (d : Dest) (m : Word) (vs : List Dword) (lat : Nat) : (hold s q d m vs lat).ises = s.ises := modCtx_ises ..
@[simp] theorem hold_faults (s : State) (q : Issuer) (d : Dest) (m : Word) (vs : List Dword) (lat : Nat) : (hold s q d m vs lat).faults = s.faults := modCtx_faults ..
@[simp] theorem hold_clusters (s : State) (q : Issuer) (d : Dest) (m : Word) (vs : List Dword) (lat : Nat) : (hold s q d m vs lat).clusters = s.clusters := modCtx_clusters ..
@[simp] theorem hold_bands (s : State) (q : Issuer) (d : Dest) (m : Word) (vs : List Dword) (lat : Nat) : (hold s q d m vs lat).bands = s.bands := modCtx_bands ..
@[simp] theorem hold_equ (s : State) (q : Issuer) (d : Dest) (m : Word) (vs : List Dword) (lat : Nat) : (hold s q d m vs lat).equ = s.equ := modCtx_equ ..
@[simp] theorem hold_parts (s : State) (q : Issuer) (d : Dest) (m : Word) (vs : List Dword) (lat : Nat) : (hold s q d m vs lat).parts = s.parts := modCtx_parts ..
@[simp] theorem hold_tlb (s : State) (q : Issuer) (d : Dest) (m : Word) (vs : List Dword) (lat : Nat) : (hold s q d m vs lat).tlb = s.tlb := modCtx_tlb ..
@[simp] theorem hold_nest (s : State) (q : Issuer) (d : Dest) (m : Word) (vs : List Dword) (lat : Nat) : (hold s q d m vs lat).nest = s.nest := modCtx_nest ..
@[simp] theorem hold_hours (s : State) (q : Issuer) (d : Dest) (m : Word) (vs : List Dword) (lat : Nat) : (hold s q d m vs lat).hours = s.hours := modCtx_hours ..
@[simp] theorem hold_answers (s : State) (q : Issuer) (d : Dest) (m : Word) (vs : List Dword) (lat : Nat) : (hold s q d m vs lat).answers = s.answers := modCtx_answers ..
@[simp] theorem hold_clock (s : State) (q : Issuer) (d : Dest) (m : Word) (vs : List Dword) (lat : Nat) : (hold s q d m vs lat).clock = s.clock := modCtx_clock ..
@[simp] theorem hold_cur (s : State) (q : Issuer) (d : Dest) (m : Word) (vs : List Dword) (lat : Nat) : (hold s q d m vs lat).cur = s.cur := modCtx_cur ..
@[simp] theorem hold_fresh (s : State) (q : Issuer) (d : Dest) (m : Word) (vs : List Dword) (lat : Nat) : (hold s q d m vs lat).fresh = s.fresh := modCtx_fresh ..
@[simp] theorem hold_turns (s : State) (q : Issuer) (d : Dest) (m : Word) (vs : List Dword) (lat : Nat) : (hold s q d m vs lat).turns = s.turns := modCtx_turns ..
@[simp] theorem hold_free (s : State) (q : Issuer) (d : Dest) (m : Word) (vs : List Dword) (lat : Nat) : (hold s q d m vs lat).free = s.free := modCtx_free ..

/-! ## `holdFlags` -/

@[simp] theorem holdFlags_mem (s : State) (q : Issuer) (fl : Flags) (lat : Nat) : (holdFlags s q fl lat).mem = s.mem := modCtx_mem ..
@[simp] theorem holdFlags_sets (s : State) (q : Issuer) (fl : Flags) (lat : Nat) : (holdFlags s q fl lat).sets = s.sets := modCtx_sets ..
@[simp] theorem holdFlags_blocks (s : State) (q : Issuer) (fl : Flags) (lat : Nat) : (holdFlags s q fl lat).blocks = s.blocks := modCtx_blocks ..
@[simp] theorem holdFlags_launches (s : State) (q : Issuer) (fl : Flags) (lat : Nat) : (holdFlags s q fl lat).launches = s.launches := modCtx_launches ..
@[simp] theorem holdFlags_queues (s : State) (q : Issuer) (fl : Flags) (lat : Nat) : (holdFlags s q fl lat).queues = s.queues := modCtx_queues ..
@[simp] theorem holdFlags_kernels (s : State) (q : Issuer) (fl : Flags) (lat : Nat) : (holdFlags s q fl lat).kernels = s.kernels := modCtx_kernels ..
@[simp] theorem holdFlags_copies (s : State) (q : Issuer) (fl : Flags) (lat : Nat) : (holdFlags s q fl lat).copies = s.copies := modCtx_copies ..
@[simp] theorem holdFlags_ises (s : State) (q : Issuer) (fl : Flags) (lat : Nat) : (holdFlags s q fl lat).ises = s.ises := modCtx_ises ..
@[simp] theorem holdFlags_faults (s : State) (q : Issuer) (fl : Flags) (lat : Nat) : (holdFlags s q fl lat).faults = s.faults := modCtx_faults ..
@[simp] theorem holdFlags_clusters (s : State) (q : Issuer) (fl : Flags) (lat : Nat) : (holdFlags s q fl lat).clusters = s.clusters := modCtx_clusters ..
@[simp] theorem holdFlags_bands (s : State) (q : Issuer) (fl : Flags) (lat : Nat) : (holdFlags s q fl lat).bands = s.bands := modCtx_bands ..
@[simp] theorem holdFlags_equ (s : State) (q : Issuer) (fl : Flags) (lat : Nat) : (holdFlags s q fl lat).equ = s.equ := modCtx_equ ..
@[simp] theorem holdFlags_parts (s : State) (q : Issuer) (fl : Flags) (lat : Nat) : (holdFlags s q fl lat).parts = s.parts := modCtx_parts ..
@[simp] theorem holdFlags_tlb (s : State) (q : Issuer) (fl : Flags) (lat : Nat) : (holdFlags s q fl lat).tlb = s.tlb := modCtx_tlb ..
@[simp] theorem holdFlags_nest (s : State) (q : Issuer) (fl : Flags) (lat : Nat) : (holdFlags s q fl lat).nest = s.nest := modCtx_nest ..
@[simp] theorem holdFlags_hours (s : State) (q : Issuer) (fl : Flags) (lat : Nat) : (holdFlags s q fl lat).hours = s.hours := modCtx_hours ..
@[simp] theorem holdFlags_answers (s : State) (q : Issuer) (fl : Flags) (lat : Nat) : (holdFlags s q fl lat).answers = s.answers := modCtx_answers ..
@[simp] theorem holdFlags_clock (s : State) (q : Issuer) (fl : Flags) (lat : Nat) : (holdFlags s q fl lat).clock = s.clock := modCtx_clock ..
@[simp] theorem holdFlags_cur (s : State) (q : Issuer) (fl : Flags) (lat : Nat) : (holdFlags s q fl lat).cur = s.cur := modCtx_cur ..
@[simp] theorem holdFlags_fresh (s : State) (q : Issuer) (fl : Flags) (lat : Nat) : (holdFlags s q fl lat).fresh = s.fresh := modCtx_fresh ..
@[simp] theorem holdFlags_turns (s : State) (q : Issuer) (fl : Flags) (lat : Nat) : (holdFlags s q fl lat).turns = s.turns := modCtx_turns ..
@[simp] theorem holdFlags_free (s : State) (q : Issuer) (fl : Flags) (lat : Nat) : (holdFlags s q fl lat).free = s.free := modCtx_free ..

/-! ## `holdS` -/

@[simp] theorem holdS_mem (s : State) (q : Issuer) (r : Reg) (v : Dword) (lat : Nat) : (holdS s q r v lat).mem = s.mem := by cases r <;> simp [holdS]
@[simp] theorem holdS_sets (s : State) (q : Issuer) (r : Reg) (v : Dword) (lat : Nat) : (holdS s q r v lat).sets = s.sets := by cases r <;> simp [holdS]
@[simp] theorem holdS_blocks (s : State) (q : Issuer) (r : Reg) (v : Dword) (lat : Nat) : (holdS s q r v lat).blocks = s.blocks := by cases r <;> simp [holdS]
@[simp] theorem holdS_launches (s : State) (q : Issuer) (r : Reg) (v : Dword) (lat : Nat) : (holdS s q r v lat).launches = s.launches := by cases r <;> simp [holdS]
@[simp] theorem holdS_queues (s : State) (q : Issuer) (r : Reg) (v : Dword) (lat : Nat) : (holdS s q r v lat).queues = s.queues := by cases r <;> simp [holdS]
@[simp] theorem holdS_kernels (s : State) (q : Issuer) (r : Reg) (v : Dword) (lat : Nat) : (holdS s q r v lat).kernels = s.kernels := by cases r <;> simp [holdS]
@[simp] theorem holdS_copies (s : State) (q : Issuer) (r : Reg) (v : Dword) (lat : Nat) : (holdS s q r v lat).copies = s.copies := by cases r <;> simp [holdS]
@[simp] theorem holdS_ises (s : State) (q : Issuer) (r : Reg) (v : Dword) (lat : Nat) : (holdS s q r v lat).ises = s.ises := by cases r <;> simp [holdS]
@[simp] theorem holdS_faults (s : State) (q : Issuer) (r : Reg) (v : Dword) (lat : Nat) : (holdS s q r v lat).faults = s.faults := by cases r <;> simp [holdS]
@[simp] theorem holdS_clusters (s : State) (q : Issuer) (r : Reg) (v : Dword) (lat : Nat) : (holdS s q r v lat).clusters = s.clusters := by cases r <;> simp [holdS]
@[simp] theorem holdS_bands (s : State) (q : Issuer) (r : Reg) (v : Dword) (lat : Nat) : (holdS s q r v lat).bands = s.bands := by cases r <;> simp [holdS]
@[simp] theorem holdS_equ (s : State) (q : Issuer) (r : Reg) (v : Dword) (lat : Nat) : (holdS s q r v lat).equ = s.equ := by cases r <;> simp [holdS]
@[simp] theorem holdS_parts (s : State) (q : Issuer) (r : Reg) (v : Dword) (lat : Nat) : (holdS s q r v lat).parts = s.parts := by cases r <;> simp [holdS]
@[simp] theorem holdS_tlb (s : State) (q : Issuer) (r : Reg) (v : Dword) (lat : Nat) : (holdS s q r v lat).tlb = s.tlb := by cases r <;> simp [holdS]
@[simp] theorem holdS_nest (s : State) (q : Issuer) (r : Reg) (v : Dword) (lat : Nat) : (holdS s q r v lat).nest = s.nest := by cases r <;> simp [holdS]
@[simp] theorem holdS_hours (s : State) (q : Issuer) (r : Reg) (v : Dword) (lat : Nat) : (holdS s q r v lat).hours = s.hours := by cases r <;> simp [holdS]
@[simp] theorem holdS_answers (s : State) (q : Issuer) (r : Reg) (v : Dword) (lat : Nat) : (holdS s q r v lat).answers = s.answers := by cases r <;> simp [holdS]
@[simp] theorem holdS_clock (s : State) (q : Issuer) (r : Reg) (v : Dword) (lat : Nat) : (holdS s q r v lat).clock = s.clock := by cases r <;> simp [holdS]
@[simp] theorem holdS_cur (s : State) (q : Issuer) (r : Reg) (v : Dword) (lat : Nat) : (holdS s q r v lat).cur = s.cur := by cases r <;> simp [holdS]
@[simp] theorem holdS_fresh (s : State) (q : Issuer) (r : Reg) (v : Dword) (lat : Nat) : (holdS s q r v lat).fresh = s.fresh := by cases r <;> simp [holdS]
@[simp] theorem holdS_turns (s : State) (q : Issuer) (r : Reg) (v : Dword) (lat : Nat) : (holdS s q r v lat).turns = s.turns := by cases r <;> simp [holdS]
@[simp] theorem holdS_free (s : State) (q : Issuer) (r : Reg) (v : Dword) (lat : Nat) : (holdS s q r v lat).free = s.free := by cases r <;> simp [holdS]

/-! ## `holdP` -/

@[simp] theorem holdP_mem (s : State) (q : Issuer) (r : Reg) (m b : Word) (lat : Nat) : (holdP s q r m b lat).mem = s.mem := by
  unfold holdP
  split
  · split <;> simp
  · rfl
@[simp] theorem holdP_sets (s : State) (q : Issuer) (r : Reg) (m b : Word) (lat : Nat) : (holdP s q r m b lat).sets = s.sets := by
  unfold holdP
  split
  · split <;> simp
  · rfl
@[simp] theorem holdP_blocks (s : State) (q : Issuer) (r : Reg) (m b : Word) (lat : Nat) : (holdP s q r m b lat).blocks = s.blocks := by
  unfold holdP
  split
  · split <;> simp
  · rfl
@[simp] theorem holdP_launches (s : State) (q : Issuer) (r : Reg) (m b : Word) (lat : Nat) : (holdP s q r m b lat).launches = s.launches := by
  unfold holdP
  split
  · split <;> simp
  · rfl
@[simp] theorem holdP_queues (s : State) (q : Issuer) (r : Reg) (m b : Word) (lat : Nat) : (holdP s q r m b lat).queues = s.queues := by
  unfold holdP
  split
  · split <;> simp
  · rfl
@[simp] theorem holdP_kernels (s : State) (q : Issuer) (r : Reg) (m b : Word) (lat : Nat) : (holdP s q r m b lat).kernels = s.kernels := by
  unfold holdP
  split
  · split <;> simp
  · rfl
@[simp] theorem holdP_copies (s : State) (q : Issuer) (r : Reg) (m b : Word) (lat : Nat) : (holdP s q r m b lat).copies = s.copies := by
  unfold holdP
  split
  · split <;> simp
  · rfl
@[simp] theorem holdP_ises (s : State) (q : Issuer) (r : Reg) (m b : Word) (lat : Nat) : (holdP s q r m b lat).ises = s.ises := by
  unfold holdP
  split
  · split <;> simp
  · rfl
@[simp] theorem holdP_faults (s : State) (q : Issuer) (r : Reg) (m b : Word) (lat : Nat) : (holdP s q r m b lat).faults = s.faults := by
  unfold holdP
  split
  · split <;> simp
  · rfl
@[simp] theorem holdP_clusters (s : State) (q : Issuer) (r : Reg) (m b : Word) (lat : Nat) : (holdP s q r m b lat).clusters = s.clusters := by
  unfold holdP
  split
  · split <;> simp
  · rfl
@[simp] theorem holdP_bands (s : State) (q : Issuer) (r : Reg) (m b : Word) (lat : Nat) : (holdP s q r m b lat).bands = s.bands := by
  unfold holdP
  split
  · split <;> simp
  · rfl
@[simp] theorem holdP_equ (s : State) (q : Issuer) (r : Reg) (m b : Word) (lat : Nat) : (holdP s q r m b lat).equ = s.equ := by
  unfold holdP
  split
  · split <;> simp
  · rfl
@[simp] theorem holdP_parts (s : State) (q : Issuer) (r : Reg) (m b : Word) (lat : Nat) : (holdP s q r m b lat).parts = s.parts := by
  unfold holdP
  split
  · split <;> simp
  · rfl
@[simp] theorem holdP_tlb (s : State) (q : Issuer) (r : Reg) (m b : Word) (lat : Nat) : (holdP s q r m b lat).tlb = s.tlb := by
  unfold holdP
  split
  · split <;> simp
  · rfl
@[simp] theorem holdP_nest (s : State) (q : Issuer) (r : Reg) (m b : Word) (lat : Nat) : (holdP s q r m b lat).nest = s.nest := by
  unfold holdP
  split
  · split <;> simp
  · rfl
@[simp] theorem holdP_hours (s : State) (q : Issuer) (r : Reg) (m b : Word) (lat : Nat) : (holdP s q r m b lat).hours = s.hours := by
  unfold holdP
  split
  · split <;> simp
  · rfl
@[simp] theorem holdP_answers (s : State) (q : Issuer) (r : Reg) (m b : Word) (lat : Nat) : (holdP s q r m b lat).answers = s.answers := by
  unfold holdP
  split
  · split <;> simp
  · rfl
@[simp] theorem holdP_clock (s : State) (q : Issuer) (r : Reg) (m b : Word) (lat : Nat) : (holdP s q r m b lat).clock = s.clock := by
  unfold holdP
  split
  · split <;> simp
  · rfl
@[simp] theorem holdP_cur (s : State) (q : Issuer) (r : Reg) (m b : Word) (lat : Nat) : (holdP s q r m b lat).cur = s.cur := by
  unfold holdP
  split
  · split <;> simp
  · rfl
@[simp] theorem holdP_fresh (s : State) (q : Issuer) (r : Reg) (m b : Word) (lat : Nat) : (holdP s q r m b lat).fresh = s.fresh := by
  unfold holdP
  split
  · split <;> simp
  · rfl
@[simp] theorem holdP_turns (s : State) (q : Issuer) (r : Reg) (m b : Word) (lat : Nat) : (holdP s q r m b lat).turns = s.turns := by
  unfold holdP
  split
  · split <;> simp
  · rfl
@[simp] theorem holdP_free (s : State) (q : Issuer) (r : Reg) (m b : Word) (lat : Nat) : (holdP s q r m b lat).free = s.free := by
  unfold holdP
  split
  · split <;> simp
  · rfl

/-! ## `holdV` -/

@[simp] theorem holdV_mem (s : State) (q : Issuer) (r : Reg) (w : Bool) (m : Word) (vs : List Dword) (lat : Nat) : (holdV s q r w m vs lat).mem = s.mem := by cases r <;> cases w <;> simp [holdV]
@[simp] theorem holdV_sets (s : State) (q : Issuer) (r : Reg) (w : Bool) (m : Word) (vs : List Dword) (lat : Nat) : (holdV s q r w m vs lat).sets = s.sets := by cases r <;> cases w <;> simp [holdV]
@[simp] theorem holdV_blocks (s : State) (q : Issuer) (r : Reg) (w : Bool) (m : Word) (vs : List Dword) (lat : Nat) : (holdV s q r w m vs lat).blocks = s.blocks := by cases r <;> cases w <;> simp [holdV]
@[simp] theorem holdV_launches (s : State) (q : Issuer) (r : Reg) (w : Bool) (m : Word) (vs : List Dword) (lat : Nat) : (holdV s q r w m vs lat).launches = s.launches := by cases r <;> cases w <;> simp [holdV]
@[simp] theorem holdV_queues (s : State) (q : Issuer) (r : Reg) (w : Bool) (m : Word) (vs : List Dword) (lat : Nat) : (holdV s q r w m vs lat).queues = s.queues := by cases r <;> cases w <;> simp [holdV]
@[simp] theorem holdV_kernels (s : State) (q : Issuer) (r : Reg) (w : Bool) (m : Word) (vs : List Dword) (lat : Nat) : (holdV s q r w m vs lat).kernels = s.kernels := by cases r <;> cases w <;> simp [holdV]
@[simp] theorem holdV_copies (s : State) (q : Issuer) (r : Reg) (w : Bool) (m : Word) (vs : List Dword) (lat : Nat) : (holdV s q r w m vs lat).copies = s.copies := by cases r <;> cases w <;> simp [holdV]
@[simp] theorem holdV_ises (s : State) (q : Issuer) (r : Reg) (w : Bool) (m : Word) (vs : List Dword) (lat : Nat) : (holdV s q r w m vs lat).ises = s.ises := by cases r <;> cases w <;> simp [holdV]
@[simp] theorem holdV_faults (s : State) (q : Issuer) (r : Reg) (w : Bool) (m : Word) (vs : List Dword) (lat : Nat) : (holdV s q r w m vs lat).faults = s.faults := by cases r <;> cases w <;> simp [holdV]
@[simp] theorem holdV_clusters (s : State) (q : Issuer) (r : Reg) (w : Bool) (m : Word) (vs : List Dword) (lat : Nat) : (holdV s q r w m vs lat).clusters = s.clusters := by cases r <;> cases w <;> simp [holdV]
@[simp] theorem holdV_bands (s : State) (q : Issuer) (r : Reg) (w : Bool) (m : Word) (vs : List Dword) (lat : Nat) : (holdV s q r w m vs lat).bands = s.bands := by cases r <;> cases w <;> simp [holdV]
@[simp] theorem holdV_equ (s : State) (q : Issuer) (r : Reg) (w : Bool) (m : Word) (vs : List Dword) (lat : Nat) : (holdV s q r w m vs lat).equ = s.equ := by cases r <;> cases w <;> simp [holdV]
@[simp] theorem holdV_parts (s : State) (q : Issuer) (r : Reg) (w : Bool) (m : Word) (vs : List Dword) (lat : Nat) : (holdV s q r w m vs lat).parts = s.parts := by cases r <;> cases w <;> simp [holdV]
@[simp] theorem holdV_tlb (s : State) (q : Issuer) (r : Reg) (w : Bool) (m : Word) (vs : List Dword) (lat : Nat) : (holdV s q r w m vs lat).tlb = s.tlb := by cases r <;> cases w <;> simp [holdV]
@[simp] theorem holdV_nest (s : State) (q : Issuer) (r : Reg) (w : Bool) (m : Word) (vs : List Dword) (lat : Nat) : (holdV s q r w m vs lat).nest = s.nest := by cases r <;> cases w <;> simp [holdV]
@[simp] theorem holdV_hours (s : State) (q : Issuer) (r : Reg) (w : Bool) (m : Word) (vs : List Dword) (lat : Nat) : (holdV s q r w m vs lat).hours = s.hours := by cases r <;> cases w <;> simp [holdV]
@[simp] theorem holdV_answers (s : State) (q : Issuer) (r : Reg) (w : Bool) (m : Word) (vs : List Dword) (lat : Nat) : (holdV s q r w m vs lat).answers = s.answers := by cases r <;> cases w <;> simp [holdV]
@[simp] theorem holdV_clock (s : State) (q : Issuer) (r : Reg) (w : Bool) (m : Word) (vs : List Dword) (lat : Nat) : (holdV s q r w m vs lat).clock = s.clock := by cases r <;> cases w <;> simp [holdV]
@[simp] theorem holdV_cur (s : State) (q : Issuer) (r : Reg) (w : Bool) (m : Word) (vs : List Dword) (lat : Nat) : (holdV s q r w m vs lat).cur = s.cur := by cases r <;> cases w <;> simp [holdV]
@[simp] theorem holdV_fresh (s : State) (q : Issuer) (r : Reg) (w : Bool) (m : Word) (vs : List Dword) (lat : Nat) : (holdV s q r w m vs lat).fresh = s.fresh := by cases r <;> cases w <;> simp [holdV]
@[simp] theorem holdV_turns (s : State) (q : Issuer) (r : Reg) (w : Bool) (m : Word) (vs : List Dword) (lat : Nat) : (holdV s q r w m vs lat).turns = s.turns := by cases r <;> cases w <;> simp [holdV]
@[simp] theorem holdV_free (s : State) (q : Issuer) (r : Reg) (w : Bool) (m : Word) (vs : List Dword) (lat : Nat) : (holdV s q r w m vs lat).free = s.free := by cases r <;> cases w <;> simp [holdV]

/-! ## `addPending` -/

@[simp] theorem addPending_mem (s : State) (q : Issuer) (ds : List Dest) (w : Work) : (addPending s q ds w).mem = s.mem := by simp [addPending]
@[simp] theorem addPending_sets (s : State) (q : Issuer) (ds : List Dest) (w : Work) : (addPending s q ds w).sets = s.sets := by simp [addPending]
@[simp] theorem addPending_blocks (s : State) (q : Issuer) (ds : List Dest) (w : Work) : (addPending s q ds w).blocks = s.blocks := by simp [addPending]
@[simp] theorem addPending_launches (s : State) (q : Issuer) (ds : List Dest) (w : Work) : (addPending s q ds w).launches = s.launches := by simp [addPending]
@[simp] theorem addPending_queues (s : State) (q : Issuer) (ds : List Dest) (w : Work) : (addPending s q ds w).queues = s.queues := by simp [addPending]
@[simp] theorem addPending_kernels (s : State) (q : Issuer) (ds : List Dest) (w : Work) : (addPending s q ds w).kernels = s.kernels := by simp [addPending]
@[simp] theorem addPending_copies (s : State) (q : Issuer) (ds : List Dest) (w : Work) : (addPending s q ds w).copies = s.copies := by simp [addPending]
@[simp] theorem addPending_ises (s : State) (q : Issuer) (ds : List Dest) (w : Work) : (addPending s q ds w).ises = s.ises := by simp [addPending]
@[simp] theorem addPending_faults (s : State) (q : Issuer) (ds : List Dest) (w : Work) : (addPending s q ds w).faults = s.faults := by simp [addPending]
@[simp] theorem addPending_clusters (s : State) (q : Issuer) (ds : List Dest) (w : Work) : (addPending s q ds w).clusters = s.clusters := by simp [addPending]
@[simp] theorem addPending_bands (s : State) (q : Issuer) (ds : List Dest) (w : Work) : (addPending s q ds w).bands = s.bands := by simp [addPending]
@[simp] theorem addPending_equ (s : State) (q : Issuer) (ds : List Dest) (w : Work) : (addPending s q ds w).equ = s.equ := by simp [addPending]
@[simp] theorem addPending_parts (s : State) (q : Issuer) (ds : List Dest) (w : Work) : (addPending s q ds w).parts = s.parts := by simp [addPending]
@[simp] theorem addPending_tlb (s : State) (q : Issuer) (ds : List Dest) (w : Work) : (addPending s q ds w).tlb = s.tlb := by simp [addPending]
@[simp] theorem addPending_nest (s : State) (q : Issuer) (ds : List Dest) (w : Work) : (addPending s q ds w).nest = s.nest := by simp [addPending]
@[simp] theorem addPending_hours (s : State) (q : Issuer) (ds : List Dest) (w : Work) : (addPending s q ds w).hours = s.hours := by simp [addPending]
@[simp] theorem addPending_answers (s : State) (q : Issuer) (ds : List Dest) (w : Work) : (addPending s q ds w).answers = s.answers := by simp [addPending]
@[simp] theorem addPending_clock (s : State) (q : Issuer) (ds : List Dest) (w : Work) : (addPending s q ds w).clock = s.clock := by simp [addPending]
@[simp] theorem addPending_cur (s : State) (q : Issuer) (ds : List Dest) (w : Work) : (addPending s q ds w).cur = s.cur := by simp [addPending]
@[simp] theorem addPending_turns (s : State) (q : Issuer) (ds : List Dest) (w : Work) : (addPending s q ds w).turns = s.turns := by simp [addPending]
@[simp] theorem addPending_free (s : State) (q : Issuer) (ds : List Dest) (w : Work) : (addPending s q ds w).free = s.free := by simp [addPending]

/-! ## `countIssue` -/

@[simp] theorem countIssue_mem (s : State) (q : Issuer) (pc : Dword) : (countIssue s q pc).mem = s.mem := by simp [countIssue]
@[simp] theorem countIssue_sets (s : State) (q : Issuer) (pc : Dword) : (countIssue s q pc).sets = s.sets := by simp [countIssue]
@[simp] theorem countIssue_launches (s : State) (q : Issuer) (pc : Dword) : (countIssue s q pc).launches = s.launches := by simp [countIssue]
@[simp] theorem countIssue_queues (s : State) (q : Issuer) (pc : Dword) : (countIssue s q pc).queues = s.queues := by simp [countIssue]
@[simp] theorem countIssue_kernels (s : State) (q : Issuer) (pc : Dword) : (countIssue s q pc).kernels = s.kernels := by simp [countIssue]
@[simp] theorem countIssue_copies (s : State) (q : Issuer) (pc : Dword) : (countIssue s q pc).copies = s.copies := by simp [countIssue]
@[simp] theorem countIssue_ises (s : State) (q : Issuer) (pc : Dword) : (countIssue s q pc).ises = s.ises := by simp [countIssue]
@[simp] theorem countIssue_faults (s : State) (q : Issuer) (pc : Dword) : (countIssue s q pc).faults = s.faults := by simp [countIssue]
@[simp] theorem countIssue_clusters (s : State) (q : Issuer) (pc : Dword) : (countIssue s q pc).clusters = s.clusters := by simp [countIssue]
@[simp] theorem countIssue_bands (s : State) (q : Issuer) (pc : Dword) : (countIssue s q pc).bands = s.bands := by simp [countIssue]
@[simp] theorem countIssue_equ (s : State) (q : Issuer) (pc : Dword) : (countIssue s q pc).equ = s.equ := by simp [countIssue]
@[simp] theorem countIssue_parts (s : State) (q : Issuer) (pc : Dword) : (countIssue s q pc).parts = s.parts := by simp [countIssue]
@[simp] theorem countIssue_tlb (s : State) (q : Issuer) (pc : Dword) : (countIssue s q pc).tlb = s.tlb := by simp [countIssue]
@[simp] theorem countIssue_nest (s : State) (q : Issuer) (pc : Dword) : (countIssue s q pc).nest = s.nest := by simp [countIssue]
@[simp] theorem countIssue_hours (s : State) (q : Issuer) (pc : Dword) : (countIssue s q pc).hours = s.hours := by simp [countIssue]
@[simp] theorem countIssue_answers (s : State) (q : Issuer) (pc : Dword) : (countIssue s q pc).answers = s.answers := by simp [countIssue]
@[simp] theorem countIssue_clock (s : State) (q : Issuer) (pc : Dword) : (countIssue s q pc).clock = s.clock := by simp [countIssue]
@[simp] theorem countIssue_cur (s : State) (q : Issuer) (pc : Dword) : (countIssue s q pc).cur = s.cur := by simp [countIssue]
@[simp] theorem countIssue_fresh (s : State) (q : Issuer) (pc : Dword) : (countIssue s q pc).fresh = s.fresh := by simp [countIssue]
@[simp] theorem countIssue_turns (s : State) (q : Issuer) (pc : Dword) : (countIssue s q pc).turns = s.turns := by simp [countIssue]
@[simp] theorem countIssue_free (s : State) (q : Issuer) (pc : Dword) : (countIssue s q pc).free = s.free := by simp [countIssue]

/-! ## `applyOwn` -/

@[simp] theorem applyOwn_mem (gid : Nat) (s : State) (h : Held) : (applyOwn gid s h).mem = s.mem := by
  unfold applyOwn
  split <;> first | rfl | (split <;> rfl)
@[simp] theorem applyOwn_cores (gid : Nat) (s : State) (h : Held) : (applyOwn gid s h).cores = s.cores := by
  unfold applyOwn
  split <;> first | rfl | (split <;> rfl)
@[simp] theorem applyOwn_blocks (gid : Nat) (s : State) (h : Held) : (applyOwn gid s h).blocks = s.blocks := by
  unfold applyOwn
  split <;> first | rfl | (split <;> rfl)
@[simp] theorem applyOwn_launches (gid : Nat) (s : State) (h : Held) : (applyOwn gid s h).launches = s.launches := by
  unfold applyOwn
  split <;> first | rfl | (split <;> rfl)
@[simp] theorem applyOwn_queues (gid : Nat) (s : State) (h : Held) : (applyOwn gid s h).queues = s.queues := by
  unfold applyOwn
  split <;> first | rfl | (split <;> rfl)
@[simp] theorem applyOwn_kernels (gid : Nat) (s : State) (h : Held) : (applyOwn gid s h).kernels = s.kernels := by
  unfold applyOwn
  split <;> first | rfl | (split <;> rfl)
@[simp] theorem applyOwn_copies (gid : Nat) (s : State) (h : Held) : (applyOwn gid s h).copies = s.copies := by
  unfold applyOwn
  split <;> first | rfl | (split <;> rfl)
@[simp] theorem applyOwn_ises (gid : Nat) (s : State) (h : Held) : (applyOwn gid s h).ises = s.ises := by
  unfold applyOwn
  split <;> first | rfl | (split <;> rfl)
@[simp] theorem applyOwn_faults (gid : Nat) (s : State) (h : Held) : (applyOwn gid s h).faults = s.faults := by
  unfold applyOwn
  split <;> first | rfl | (split <;> rfl)
@[simp] theorem applyOwn_clusters (gid : Nat) (s : State) (h : Held) : (applyOwn gid s h).clusters = s.clusters := by
  unfold applyOwn
  split <;> first | rfl | (split <;> rfl)
@[simp] theorem applyOwn_bands (gid : Nat) (s : State) (h : Held) : (applyOwn gid s h).bands = s.bands := by
  unfold applyOwn
  split <;> first | rfl | (split <;> rfl)
@[simp] theorem applyOwn_equ (gid : Nat) (s : State) (h : Held) : (applyOwn gid s h).equ = s.equ := by
  unfold applyOwn
  split <;> first | rfl | (split <;> rfl)
@[simp] theorem applyOwn_parts (gid : Nat) (s : State) (h : Held) : (applyOwn gid s h).parts = s.parts := by
  unfold applyOwn
  split <;> first | rfl | (split <;> rfl)
@[simp] theorem applyOwn_tlb (gid : Nat) (s : State) (h : Held) : (applyOwn gid s h).tlb = s.tlb := by
  unfold applyOwn
  split <;> first | rfl | (split <;> rfl)
@[simp] theorem applyOwn_nest (gid : Nat) (s : State) (h : Held) : (applyOwn gid s h).nest = s.nest := by
  unfold applyOwn
  split <;> first | rfl | (split <;> rfl)
@[simp] theorem applyOwn_hours (gid : Nat) (s : State) (h : Held) : (applyOwn gid s h).hours = s.hours := by
  unfold applyOwn
  split <;> first | rfl | (split <;> rfl)
@[simp] theorem applyOwn_answers (gid : Nat) (s : State) (h : Held) : (applyOwn gid s h).answers = s.answers := by
  unfold applyOwn
  split <;> first | rfl | (split <;> rfl)
@[simp] theorem applyOwn_clock (gid : Nat) (s : State) (h : Held) : (applyOwn gid s h).clock = s.clock := by
  unfold applyOwn
  split <;> first | rfl | (split <;> rfl)
@[simp] theorem applyOwn_cur (gid : Nat) (s : State) (h : Held) : (applyOwn gid s h).cur = s.cur := by
  unfold applyOwn
  split <;> first | rfl | (split <;> rfl)
@[simp] theorem applyOwn_fresh (gid : Nat) (s : State) (h : Held) : (applyOwn gid s h).fresh = s.fresh := by
  unfold applyOwn
  split <;> first | rfl | (split <;> rfl)
@[simp] theorem applyOwn_turns (gid : Nat) (s : State) (h : Held) : (applyOwn gid s h).turns = s.turns := by
  unfold applyOwn
  split <;> first | rfl | (split <;> rfl)
@[simp] theorem applyOwn_free (gid : Nat) (s : State) (h : Held) : (applyOwn gid s h).free = s.free := by
  unfold applyOwn
  split <;> first | rfl | (split <;> rfl)

/-! ## `applyShadow` -/

@[simp] theorem applyShadow_mem (gid core : Nat) (s : State) (h : Held) : (applyShadow gid core s h).mem = s.mem := by
  unfold applyShadow
  dsimp only
  split <;> rfl
@[simp] theorem applyShadow_sets (gid core : Nat) (s : State) (h : Held) : (applyShadow gid core s h).sets = s.sets := by
  unfold applyShadow
  dsimp only
  split <;> rfl
@[simp] theorem applyShadow_blocks (gid core : Nat) (s : State) (h : Held) : (applyShadow gid core s h).blocks = s.blocks := by
  unfold applyShadow
  dsimp only
  split <;> rfl
@[simp] theorem applyShadow_launches (gid core : Nat) (s : State) (h : Held) : (applyShadow gid core s h).launches = s.launches := by
  unfold applyShadow
  dsimp only
  split <;> rfl
@[simp] theorem applyShadow_queues (gid core : Nat) (s : State) (h : Held) : (applyShadow gid core s h).queues = s.queues := by
  unfold applyShadow
  dsimp only
  split <;> rfl
@[simp] theorem applyShadow_kernels (gid core : Nat) (s : State) (h : Held) : (applyShadow gid core s h).kernels = s.kernels := by
  unfold applyShadow
  dsimp only
  split <;> rfl
@[simp] theorem applyShadow_copies (gid core : Nat) (s : State) (h : Held) : (applyShadow gid core s h).copies = s.copies := by
  unfold applyShadow
  dsimp only
  split <;> rfl
@[simp] theorem applyShadow_ises (gid core : Nat) (s : State) (h : Held) : (applyShadow gid core s h).ises = s.ises := by
  unfold applyShadow
  dsimp only
  split <;> rfl
@[simp] theorem applyShadow_faults (gid core : Nat) (s : State) (h : Held) : (applyShadow gid core s h).faults = s.faults := by
  unfold applyShadow
  dsimp only
  split <;> rfl
@[simp] theorem applyShadow_clusters (gid core : Nat) (s : State) (h : Held) : (applyShadow gid core s h).clusters = s.clusters := by
  unfold applyShadow
  dsimp only
  split <;> rfl
@[simp] theorem applyShadow_bands (gid core : Nat) (s : State) (h : Held) : (applyShadow gid core s h).bands = s.bands := by
  unfold applyShadow
  dsimp only
  split <;> rfl
@[simp] theorem applyShadow_equ (gid core : Nat) (s : State) (h : Held) : (applyShadow gid core s h).equ = s.equ := by
  unfold applyShadow
  dsimp only
  split <;> rfl
@[simp] theorem applyShadow_parts (gid core : Nat) (s : State) (h : Held) : (applyShadow gid core s h).parts = s.parts := by
  unfold applyShadow
  dsimp only
  split <;> rfl
@[simp] theorem applyShadow_tlb (gid core : Nat) (s : State) (h : Held) : (applyShadow gid core s h).tlb = s.tlb := by
  unfold applyShadow
  dsimp only
  split <;> rfl
@[simp] theorem applyShadow_nest (gid core : Nat) (s : State) (h : Held) : (applyShadow gid core s h).nest = s.nest := by
  unfold applyShadow
  dsimp only
  split <;> rfl
@[simp] theorem applyShadow_hours (gid core : Nat) (s : State) (h : Held) : (applyShadow gid core s h).hours = s.hours := by
  unfold applyShadow
  dsimp only
  split <;> rfl
@[simp] theorem applyShadow_answers (gid core : Nat) (s : State) (h : Held) : (applyShadow gid core s h).answers = s.answers := by
  unfold applyShadow
  dsimp only
  split <;> rfl
@[simp] theorem applyShadow_clock (gid core : Nat) (s : State) (h : Held) : (applyShadow gid core s h).clock = s.clock := by
  unfold applyShadow
  dsimp only
  split <;> rfl
@[simp] theorem applyShadow_cur (gid core : Nat) (s : State) (h : Held) : (applyShadow gid core s h).cur = s.cur := by
  unfold applyShadow
  dsimp only
  split <;> rfl
@[simp] theorem applyShadow_fresh (gid core : Nat) (s : State) (h : Held) : (applyShadow gid core s h).fresh = s.fresh := by
  unfold applyShadow
  dsimp only
  split <;> rfl
@[simp] theorem applyShadow_turns (gid core : Nat) (s : State) (h : Held) : (applyShadow gid core s h).turns = s.turns := by
  unfold applyShadow
  dsimp only
  split <;> rfl
@[simp] theorem applyShadow_free (gid core : Nat) (s : State) (h : Held) : (applyShadow gid core s h).free = s.free := by
  unfold applyShadow
  dsimp only
  split <;> rfl

theorem foldl_applyOwn_mem (gid : Nat) (hs : List Held) (s : State) : (hs.foldl (applyOwn gid) s).mem = s.mem := by
  induction hs generalizing s with
  | nil => rfl
  | cons h hs ih => rw [List.foldl_cons, ih, applyOwn_mem]
theorem foldl_applyOwn_cores (gid : Nat) (hs : List Held) (s : State) : (hs.foldl (applyOwn gid) s).cores = s.cores := by
  induction hs generalizing s with
  | nil => rfl
  | cons h hs ih => rw [List.foldl_cons, ih, applyOwn_cores]
theorem foldl_applyOwn_blocks (gid : Nat) (hs : List Held) (s : State) : (hs.foldl (applyOwn gid) s).blocks = s.blocks := by
  induction hs generalizing s with
  | nil => rfl
  | cons h hs ih => rw [List.foldl_cons, ih, applyOwn_blocks]
theorem foldl_applyOwn_launches (gid : Nat) (hs : List Held) (s : State) : (hs.foldl (applyOwn gid) s).launches = s.launches := by
  induction hs generalizing s with
  | nil => rfl
  | cons h hs ih => rw [List.foldl_cons, ih, applyOwn_launches]
theorem foldl_applyOwn_queues (gid : Nat) (hs : List Held) (s : State) : (hs.foldl (applyOwn gid) s).queues = s.queues := by
  induction hs generalizing s with
  | nil => rfl
  | cons h hs ih => rw [List.foldl_cons, ih, applyOwn_queues]
theorem foldl_applyOwn_kernels (gid : Nat) (hs : List Held) (s : State) : (hs.foldl (applyOwn gid) s).kernels = s.kernels := by
  induction hs generalizing s with
  | nil => rfl
  | cons h hs ih => rw [List.foldl_cons, ih, applyOwn_kernels]
theorem foldl_applyOwn_copies (gid : Nat) (hs : List Held) (s : State) : (hs.foldl (applyOwn gid) s).copies = s.copies := by
  induction hs generalizing s with
  | nil => rfl
  | cons h hs ih => rw [List.foldl_cons, ih, applyOwn_copies]
theorem foldl_applyOwn_ises (gid : Nat) (hs : List Held) (s : State) : (hs.foldl (applyOwn gid) s).ises = s.ises := by
  induction hs generalizing s with
  | nil => rfl
  | cons h hs ih => rw [List.foldl_cons, ih, applyOwn_ises]
theorem foldl_applyOwn_faults (gid : Nat) (hs : List Held) (s : State) : (hs.foldl (applyOwn gid) s).faults = s.faults := by
  induction hs generalizing s with
  | nil => rfl
  | cons h hs ih => rw [List.foldl_cons, ih, applyOwn_faults]
theorem foldl_applyOwn_clusters (gid : Nat) (hs : List Held) (s : State) : (hs.foldl (applyOwn gid) s).clusters = s.clusters := by
  induction hs generalizing s with
  | nil => rfl
  | cons h hs ih => rw [List.foldl_cons, ih, applyOwn_clusters]
theorem foldl_applyOwn_bands (gid : Nat) (hs : List Held) (s : State) : (hs.foldl (applyOwn gid) s).bands = s.bands := by
  induction hs generalizing s with
  | nil => rfl
  | cons h hs ih => rw [List.foldl_cons, ih, applyOwn_bands]
theorem foldl_applyOwn_equ (gid : Nat) (hs : List Held) (s : State) : (hs.foldl (applyOwn gid) s).equ = s.equ := by
  induction hs generalizing s with
  | nil => rfl
  | cons h hs ih => rw [List.foldl_cons, ih, applyOwn_equ]
theorem foldl_applyOwn_parts (gid : Nat) (hs : List Held) (s : State) : (hs.foldl (applyOwn gid) s).parts = s.parts := by
  induction hs generalizing s with
  | nil => rfl
  | cons h hs ih => rw [List.foldl_cons, ih, applyOwn_parts]
theorem foldl_applyOwn_tlb (gid : Nat) (hs : List Held) (s : State) : (hs.foldl (applyOwn gid) s).tlb = s.tlb := by
  induction hs generalizing s with
  | nil => rfl
  | cons h hs ih => rw [List.foldl_cons, ih, applyOwn_tlb]
theorem foldl_applyOwn_nest (gid : Nat) (hs : List Held) (s : State) : (hs.foldl (applyOwn gid) s).nest = s.nest := by
  induction hs generalizing s with
  | nil => rfl
  | cons h hs ih => rw [List.foldl_cons, ih, applyOwn_nest]
theorem foldl_applyOwn_hours (gid : Nat) (hs : List Held) (s : State) : (hs.foldl (applyOwn gid) s).hours = s.hours := by
  induction hs generalizing s with
  | nil => rfl
  | cons h hs ih => rw [List.foldl_cons, ih, applyOwn_hours]
theorem foldl_applyOwn_answers (gid : Nat) (hs : List Held) (s : State) : (hs.foldl (applyOwn gid) s).answers = s.answers := by
  induction hs generalizing s with
  | nil => rfl
  | cons h hs ih => rw [List.foldl_cons, ih, applyOwn_answers]
theorem foldl_applyOwn_clock (gid : Nat) (hs : List Held) (s : State) : (hs.foldl (applyOwn gid) s).clock = s.clock := by
  induction hs generalizing s with
  | nil => rfl
  | cons h hs ih => rw [List.foldl_cons, ih, applyOwn_clock]
theorem foldl_applyOwn_cur (gid : Nat) (hs : List Held) (s : State) : (hs.foldl (applyOwn gid) s).cur = s.cur := by
  induction hs generalizing s with
  | nil => rfl
  | cons h hs ih => rw [List.foldl_cons, ih, applyOwn_cur]
theorem foldl_applyOwn_fresh (gid : Nat) (hs : List Held) (s : State) : (hs.foldl (applyOwn gid) s).fresh = s.fresh := by
  induction hs generalizing s with
  | nil => rfl
  | cons h hs ih => rw [List.foldl_cons, ih, applyOwn_fresh]
theorem foldl_applyOwn_turns (gid : Nat) (hs : List Held) (s : State) : (hs.foldl (applyOwn gid) s).turns = s.turns := by
  induction hs generalizing s with
  | nil => rfl
  | cons h hs ih => rw [List.foldl_cons, ih, applyOwn_turns]
theorem foldl_applyOwn_free (gid : Nat) (hs : List Held) (s : State) : (hs.foldl (applyOwn gid) s).free = s.free := by
  induction hs generalizing s with
  | nil => rfl
  | cons h hs ih => rw [List.foldl_cons, ih, applyOwn_free]
theorem foldl_applyShadow_mem (gid core : Nat) (hs : List Held) (s : State) :
    (hs.foldl (applyShadow gid core) s).mem = s.mem := by
  induction hs generalizing s with
  | nil => rfl
  | cons h hs ih => rw [List.foldl_cons, ih, applyShadow_mem]
theorem foldl_applyShadow_sets (gid core : Nat) (hs : List Held) (s : State) :
    (hs.foldl (applyShadow gid core) s).sets = s.sets := by
  induction hs generalizing s with
  | nil => rfl
  | cons h hs ih => rw [List.foldl_cons, ih, applyShadow_sets]
theorem foldl_applyShadow_blocks (gid core : Nat) (hs : List Held) (s : State) :
    (hs.foldl (applyShadow gid core) s).blocks = s.blocks := by
  induction hs generalizing s with
  | nil => rfl
  | cons h hs ih => rw [List.foldl_cons, ih, applyShadow_blocks]
theorem foldl_applyShadow_launches (gid core : Nat) (hs : List Held) (s : State) :
    (hs.foldl (applyShadow gid core) s).launches = s.launches := by
  induction hs generalizing s with
  | nil => rfl
  | cons h hs ih => rw [List.foldl_cons, ih, applyShadow_launches]
theorem foldl_applyShadow_queues (gid core : Nat) (hs : List Held) (s : State) :
    (hs.foldl (applyShadow gid core) s).queues = s.queues := by
  induction hs generalizing s with
  | nil => rfl
  | cons h hs ih => rw [List.foldl_cons, ih, applyShadow_queues]
theorem foldl_applyShadow_kernels (gid core : Nat) (hs : List Held) (s : State) :
    (hs.foldl (applyShadow gid core) s).kernels = s.kernels := by
  induction hs generalizing s with
  | nil => rfl
  | cons h hs ih => rw [List.foldl_cons, ih, applyShadow_kernels]
theorem foldl_applyShadow_copies (gid core : Nat) (hs : List Held) (s : State) :
    (hs.foldl (applyShadow gid core) s).copies = s.copies := by
  induction hs generalizing s with
  | nil => rfl
  | cons h hs ih => rw [List.foldl_cons, ih, applyShadow_copies]
theorem foldl_applyShadow_ises (gid core : Nat) (hs : List Held) (s : State) :
    (hs.foldl (applyShadow gid core) s).ises = s.ises := by
  induction hs generalizing s with
  | nil => rfl
  | cons h hs ih => rw [List.foldl_cons, ih, applyShadow_ises]
theorem foldl_applyShadow_faults (gid core : Nat) (hs : List Held) (s : State) :
    (hs.foldl (applyShadow gid core) s).faults = s.faults := by
  induction hs generalizing s with
  | nil => rfl
  | cons h hs ih => rw [List.foldl_cons, ih, applyShadow_faults]
theorem foldl_applyShadow_clusters (gid core : Nat) (hs : List Held) (s : State) :
    (hs.foldl (applyShadow gid core) s).clusters = s.clusters := by
  induction hs generalizing s with
  | nil => rfl
  | cons h hs ih => rw [List.foldl_cons, ih, applyShadow_clusters]
theorem foldl_applyShadow_bands (gid core : Nat) (hs : List Held) (s : State) :
    (hs.foldl (applyShadow gid core) s).bands = s.bands := by
  induction hs generalizing s with
  | nil => rfl
  | cons h hs ih => rw [List.foldl_cons, ih, applyShadow_bands]
theorem foldl_applyShadow_equ (gid core : Nat) (hs : List Held) (s : State) :
    (hs.foldl (applyShadow gid core) s).equ = s.equ := by
  induction hs generalizing s with
  | nil => rfl
  | cons h hs ih => rw [List.foldl_cons, ih, applyShadow_equ]
theorem foldl_applyShadow_parts (gid core : Nat) (hs : List Held) (s : State) :
    (hs.foldl (applyShadow gid core) s).parts = s.parts := by
  induction hs generalizing s with
  | nil => rfl
  | cons h hs ih => rw [List.foldl_cons, ih, applyShadow_parts]
theorem foldl_applyShadow_tlb (gid core : Nat) (hs : List Held) (s : State) :
    (hs.foldl (applyShadow gid core) s).tlb = s.tlb := by
  induction hs generalizing s with
  | nil => rfl
  | cons h hs ih => rw [List.foldl_cons, ih, applyShadow_tlb]
theorem foldl_applyShadow_nest (gid core : Nat) (hs : List Held) (s : State) :
    (hs.foldl (applyShadow gid core) s).nest = s.nest := by
  induction hs generalizing s with
  | nil => rfl
  | cons h hs ih => rw [List.foldl_cons, ih, applyShadow_nest]
theorem foldl_applyShadow_hours (gid core : Nat) (hs : List Held) (s : State) :
    (hs.foldl (applyShadow gid core) s).hours = s.hours := by
  induction hs generalizing s with
  | nil => rfl
  | cons h hs ih => rw [List.foldl_cons, ih, applyShadow_hours]
theorem foldl_applyShadow_answers (gid core : Nat) (hs : List Held) (s : State) :
    (hs.foldl (applyShadow gid core) s).answers = s.answers := by
  induction hs generalizing s with
  | nil => rfl
  | cons h hs ih => rw [List.foldl_cons, ih, applyShadow_answers]
theorem foldl_applyShadow_clock (gid core : Nat) (hs : List Held) (s : State) :
    (hs.foldl (applyShadow gid core) s).clock = s.clock := by
  induction hs generalizing s with
  | nil => rfl
  | cons h hs ih => rw [List.foldl_cons, ih, applyShadow_clock]
theorem foldl_applyShadow_cur (gid core : Nat) (hs : List Held) (s : State) :
    (hs.foldl (applyShadow gid core) s).cur = s.cur := by
  induction hs generalizing s with
  | nil => rfl
  | cons h hs ih => rw [List.foldl_cons, ih, applyShadow_cur]
theorem foldl_applyShadow_fresh (gid core : Nat) (hs : List Held) (s : State) :
    (hs.foldl (applyShadow gid core) s).fresh = s.fresh := by
  induction hs generalizing s with
  | nil => rfl
  | cons h hs ih => rw [List.foldl_cons, ih, applyShadow_fresh]
theorem foldl_applyShadow_turns (gid core : Nat) (hs : List Held) (s : State) :
    (hs.foldl (applyShadow gid core) s).turns = s.turns := by
  induction hs generalizing s with
  | nil => rfl
  | cons h hs ih => rw [List.foldl_cons, ih, applyShadow_turns]
theorem foldl_applyShadow_free (gid core : Nat) (hs : List Held) (s : State) :
    (hs.foldl (applyShadow gid core) s).free = s.free := by
  induction hs generalizing s with
  | nil => rfl
  | cons h hs ih => rw [List.foldl_cons, ih, applyShadow_free]

/-! ## `passMarker` -/

@[simp] theorem passMarker_mem (s : State) (gid : Nat) : (passMarker s gid).mem = s.mem := by
  unfold passMarker
  split
  · rfl
  · split <;> simp [foldl_applyOwn_mem, foldl_applyShadow_mem]
@[simp] theorem passMarker_blocks (s : State) (gid : Nat) : (passMarker s gid).blocks = s.blocks := by
  unfold passMarker
  split
  · rfl
  · split <;> simp [foldl_applyOwn_blocks, foldl_applyShadow_blocks]
@[simp] theorem passMarker_launches (s : State) (gid : Nat) : (passMarker s gid).launches = s.launches := by
  unfold passMarker
  split
  · rfl
  · split <;> simp [foldl_applyOwn_launches, foldl_applyShadow_launches]
@[simp] theorem passMarker_queues (s : State) (gid : Nat) : (passMarker s gid).queues = s.queues := by
  unfold passMarker
  split
  · rfl
  · split <;> simp [foldl_applyOwn_queues, foldl_applyShadow_queues]
@[simp] theorem passMarker_kernels (s : State) (gid : Nat) : (passMarker s gid).kernels = s.kernels := by
  unfold passMarker
  split
  · rfl
  · split <;> simp [foldl_applyOwn_kernels, foldl_applyShadow_kernels]
@[simp] theorem passMarker_copies (s : State) (gid : Nat) : (passMarker s gid).copies = s.copies := by
  unfold passMarker
  split
  · rfl
  · split <;> simp [foldl_applyOwn_copies, foldl_applyShadow_copies]
@[simp] theorem passMarker_ises (s : State) (gid : Nat) : (passMarker s gid).ises = s.ises := by
  unfold passMarker
  split
  · rfl
  · split <;> simp [foldl_applyOwn_ises, foldl_applyShadow_ises]
@[simp] theorem passMarker_faults (s : State) (gid : Nat) : (passMarker s gid).faults = s.faults := by
  unfold passMarker
  split
  · rfl
  · split <;> simp [foldl_applyOwn_faults, foldl_applyShadow_faults]
@[simp] theorem passMarker_clusters (s : State) (gid : Nat) : (passMarker s gid).clusters = s.clusters := by
  unfold passMarker
  split
  · rfl
  · split <;> simp [foldl_applyOwn_clusters, foldl_applyShadow_clusters]
@[simp] theorem passMarker_bands (s : State) (gid : Nat) : (passMarker s gid).bands = s.bands := by
  unfold passMarker
  split
  · rfl
  · split <;> simp [foldl_applyOwn_bands, foldl_applyShadow_bands]
@[simp] theorem passMarker_equ (s : State) (gid : Nat) : (passMarker s gid).equ = s.equ := by
  unfold passMarker
  split
  · rfl
  · split <;> simp [foldl_applyOwn_equ, foldl_applyShadow_equ]
@[simp] theorem passMarker_parts (s : State) (gid : Nat) : (passMarker s gid).parts = s.parts := by
  unfold passMarker
  split
  · rfl
  · split <;> simp [foldl_applyOwn_parts, foldl_applyShadow_parts]
@[simp] theorem passMarker_tlb (s : State) (gid : Nat) : (passMarker s gid).tlb = s.tlb := by
  unfold passMarker
  split
  · rfl
  · split <;> simp [foldl_applyOwn_tlb, foldl_applyShadow_tlb]
@[simp] theorem passMarker_nest (s : State) (gid : Nat) : (passMarker s gid).nest = s.nest := by
  unfold passMarker
  split
  · rfl
  · split <;> simp [foldl_applyOwn_nest, foldl_applyShadow_nest]
@[simp] theorem passMarker_hours (s : State) (gid : Nat) : (passMarker s gid).hours = s.hours := by
  unfold passMarker
  split
  · rfl
  · split <;> simp [foldl_applyOwn_hours, foldl_applyShadow_hours]
@[simp] theorem passMarker_answers (s : State) (gid : Nat) : (passMarker s gid).answers = s.answers := by
  unfold passMarker
  split
  · rfl
  · split <;> simp [foldl_applyOwn_answers, foldl_applyShadow_answers]
@[simp] theorem passMarker_clock (s : State) (gid : Nat) : (passMarker s gid).clock = s.clock := by
  unfold passMarker
  split
  · rfl
  · split <;> simp [foldl_applyOwn_clock, foldl_applyShadow_clock]
@[simp] theorem passMarker_cur (s : State) (gid : Nat) : (passMarker s gid).cur = s.cur := by
  unfold passMarker
  split
  · rfl
  · split <;> simp [foldl_applyOwn_cur, foldl_applyShadow_cur]
@[simp] theorem passMarker_fresh (s : State) (gid : Nat) : (passMarker s gid).fresh = s.fresh := by
  unfold passMarker
  split
  · rfl
  · split <;> simp [foldl_applyOwn_fresh, foldl_applyShadow_fresh]
@[simp] theorem passMarker_turns (s : State) (gid : Nat) : (passMarker s gid).turns = s.turns := by
  unfold passMarker
  split
  · rfl
  · split <;> simp [foldl_applyOwn_turns, foldl_applyShadow_turns]
@[simp] theorem passMarker_free (s : State) (gid : Nat) : (passMarker s gid).free = s.free := by
  unfold passMarker
  split
  · rfl
  · split <;> simp [foldl_applyOwn_free, foldl_applyShadow_free]

/-! ## `atMarker` -/

@[simp] theorem atMarker_mem (s : State) (gid : Nat) : (atMarker s gid).mem = s.mem := by
  unfold atMarker
  split
  · rfl
  · split
    · dsimp only
      split <;> simp
    · simp
@[simp] theorem atMarker_blocks (s : State) (gid : Nat) : (atMarker s gid).blocks = s.blocks := by
  unfold atMarker
  split
  · rfl
  · split
    · dsimp only
      split <;> simp
    · simp
@[simp] theorem atMarker_launches (s : State) (gid : Nat) : (atMarker s gid).launches = s.launches := by
  unfold atMarker
  split
  · rfl
  · split
    · dsimp only
      split <;> simp
    · simp
@[simp] theorem atMarker_queues (s : State) (gid : Nat) : (atMarker s gid).queues = s.queues := by
  unfold atMarker
  split
  · rfl
  · split
    · dsimp only
      split <;> simp
    · simp
@[simp] theorem atMarker_kernels (s : State) (gid : Nat) : (atMarker s gid).kernels = s.kernels := by
  unfold atMarker
  split
  · rfl
  · split
    · dsimp only
      split <;> simp
    · simp
@[simp] theorem atMarker_copies (s : State) (gid : Nat) : (atMarker s gid).copies = s.copies := by
  unfold atMarker
  split
  · rfl
  · split
    · dsimp only
      split <;> simp
    · simp
@[simp] theorem atMarker_ises (s : State) (gid : Nat) : (atMarker s gid).ises = s.ises := by
  unfold atMarker
  split
  · rfl
  · split
    · dsimp only
      split <;> simp
    · simp
@[simp] theorem atMarker_faults (s : State) (gid : Nat) : (atMarker s gid).faults = s.faults := by
  unfold atMarker
  split
  · rfl
  · split
    · dsimp only
      split <;> simp
    · simp
@[simp] theorem atMarker_clusters (s : State) (gid : Nat) : (atMarker s gid).clusters = s.clusters := by
  unfold atMarker
  split
  · rfl
  · split
    · dsimp only
      split <;> simp
    · simp
@[simp] theorem atMarker_bands (s : State) (gid : Nat) : (atMarker s gid).bands = s.bands := by
  unfold atMarker
  split
  · rfl
  · split
    · dsimp only
      split <;> simp
    · simp
@[simp] theorem atMarker_equ (s : State) (gid : Nat) : (atMarker s gid).equ = s.equ := by
  unfold atMarker
  split
  · rfl
  · split
    · dsimp only
      split <;> simp
    · simp
@[simp] theorem atMarker_parts (s : State) (gid : Nat) : (atMarker s gid).parts = s.parts := by
  unfold atMarker
  split
  · rfl
  · split
    · dsimp only
      split <;> simp
    · simp
@[simp] theorem atMarker_tlb (s : State) (gid : Nat) : (atMarker s gid).tlb = s.tlb := by
  unfold atMarker
  split
  · rfl
  · split
    · dsimp only
      split <;> simp
    · simp
@[simp] theorem atMarker_nest (s : State) (gid : Nat) : (atMarker s gid).nest = s.nest := by
  unfold atMarker
  split
  · rfl
  · split
    · dsimp only
      split <;> simp
    · simp
@[simp] theorem atMarker_hours (s : State) (gid : Nat) : (atMarker s gid).hours = s.hours := by
  unfold atMarker
  split
  · rfl
  · split
    · dsimp only
      split <;> simp
    · simp
@[simp] theorem atMarker_answers (s : State) (gid : Nat) : (atMarker s gid).answers = s.answers := by
  unfold atMarker
  split
  · rfl
  · split
    · dsimp only
      split <;> simp
    · simp
@[simp] theorem atMarker_clock (s : State) (gid : Nat) : (atMarker s gid).clock = s.clock := by
  unfold atMarker
  split
  · rfl
  · split
    · dsimp only
      split <;> simp
    · simp
@[simp] theorem atMarker_cur (s : State) (gid : Nat) : (atMarker s gid).cur = s.cur := by
  unfold atMarker
  split
  · rfl
  · split
    · dsimp only
      split <;> simp
    · simp
@[simp] theorem atMarker_fresh (s : State) (gid : Nat) : (atMarker s gid).fresh = s.fresh := by
  unfold atMarker
  split
  · rfl
  · split
    · dsimp only
      split <;> simp
    · simp
@[simp] theorem atMarker_turns (s : State) (gid : Nat) : (atMarker s gid).turns = s.turns := by
  unfold atMarker
  split
  · rfl
  · split
    · dsimp only
      split <;> simp
    · simp
@[simp] theorem atMarker_free (s : State) (gid : Nat) : (atMarker s gid).free = s.free := by
  unfold atMarker
  split
  · rfl
  · split
    · dsimp only
      split <;> simp
    · simp

/-! ## `finishAt` -/

@[simp] theorem finishAt_mem (s : State) (q : Issuer) (pc : Dword) (m : Bool) : (finishAt s q pc m).mem = s.mem := by cases m <;> simp [finishAt]
@[simp] theorem finishAt_launches (s : State) (q : Issuer) (pc : Dword) (m : Bool) : (finishAt s q pc m).launches = s.launches := by cases m <;> simp [finishAt]
@[simp] theorem finishAt_queues (s : State) (q : Issuer) (pc : Dword) (m : Bool) : (finishAt s q pc m).queues = s.queues := by cases m <;> simp [finishAt]
@[simp] theorem finishAt_kernels (s : State) (q : Issuer) (pc : Dword) (m : Bool) : (finishAt s q pc m).kernels = s.kernels := by cases m <;> simp [finishAt]
@[simp] theorem finishAt_copies (s : State) (q : Issuer) (pc : Dword) (m : Bool) : (finishAt s q pc m).copies = s.copies := by cases m <;> simp [finishAt]
@[simp] theorem finishAt_ises (s : State) (q : Issuer) (pc : Dword) (m : Bool) : (finishAt s q pc m).ises = s.ises := by cases m <;> simp [finishAt]
@[simp] theorem finishAt_faults (s : State) (q : Issuer) (pc : Dword) (m : Bool) : (finishAt s q pc m).faults = s.faults := by cases m <;> simp [finishAt]
@[simp] theorem finishAt_clusters (s : State) (q : Issuer) (pc : Dword) (m : Bool) : (finishAt s q pc m).clusters = s.clusters := by cases m <;> simp [finishAt]
@[simp] theorem finishAt_bands (s : State) (q : Issuer) (pc : Dword) (m : Bool) : (finishAt s q pc m).bands = s.bands := by cases m <;> simp [finishAt]
@[simp] theorem finishAt_equ (s : State) (q : Issuer) (pc : Dword) (m : Bool) : (finishAt s q pc m).equ = s.equ := by cases m <;> simp [finishAt]
@[simp] theorem finishAt_parts (s : State) (q : Issuer) (pc : Dword) (m : Bool) : (finishAt s q pc m).parts = s.parts := by cases m <;> simp [finishAt]
@[simp] theorem finishAt_tlb (s : State) (q : Issuer) (pc : Dword) (m : Bool) : (finishAt s q pc m).tlb = s.tlb := by cases m <;> simp [finishAt]
@[simp] theorem finishAt_nest (s : State) (q : Issuer) (pc : Dword) (m : Bool) : (finishAt s q pc m).nest = s.nest := by cases m <;> simp [finishAt]
@[simp] theorem finishAt_hours (s : State) (q : Issuer) (pc : Dword) (m : Bool) : (finishAt s q pc m).hours = s.hours := by cases m <;> simp [finishAt]
@[simp] theorem finishAt_answers (s : State) (q : Issuer) (pc : Dword) (m : Bool) : (finishAt s q pc m).answers = s.answers := by cases m <;> simp [finishAt]
@[simp] theorem finishAt_clock (s : State) (q : Issuer) (pc : Dword) (m : Bool) : (finishAt s q pc m).clock = s.clock := by cases m <;> simp [finishAt]
@[simp] theorem finishAt_cur (s : State) (q : Issuer) (pc : Dword) (m : Bool) : (finishAt s q pc m).cur = s.cur := by cases m <;> simp [finishAt]
@[simp] theorem finishAt_fresh (s : State) (q : Issuer) (pc : Dword) (m : Bool) : (finishAt s q pc m).fresh = s.fresh := by cases m <;> simp [finishAt]
@[simp] theorem finishAt_turns (s : State) (q : Issuer) (pc : Dword) (m : Bool) : (finishAt s q pc m).turns = s.turns := by cases m <;> simp [finishAt]
@[simp] theorem finishAt_free (s : State) (q : Issuer) (pc : Dword) (m : Bool) : (finishAt s q pc m).free = s.free := by cases m <;> simp [finishAt]

/-! ## `finish` -/

@[simp] theorem finish_mem (s : State) (q : Issuer) (f : Fixed) : (finish s q f).mem = s.mem := finishAt_mem ..
@[simp] theorem finish_launches (s : State) (q : Issuer) (f : Fixed) : (finish s q f).launches = s.launches := finishAt_launches ..
@[simp] theorem finish_queues (s : State) (q : Issuer) (f : Fixed) : (finish s q f).queues = s.queues := finishAt_queues ..
@[simp] theorem finish_kernels (s : State) (q : Issuer) (f : Fixed) : (finish s q f).kernels = s.kernels := finishAt_kernels ..
@[simp] theorem finish_copies (s : State) (q : Issuer) (f : Fixed) : (finish s q f).copies = s.copies := finishAt_copies ..
@[simp] theorem finish_ises (s : State) (q : Issuer) (f : Fixed) : (finish s q f).ises = s.ises := finishAt_ises ..
@[simp] theorem finish_faults (s : State) (q : Issuer) (f : Fixed) : (finish s q f).faults = s.faults := finishAt_faults ..
@[simp] theorem finish_clusters (s : State) (q : Issuer) (f : Fixed) : (finish s q f).clusters = s.clusters := finishAt_clusters ..
@[simp] theorem finish_bands (s : State) (q : Issuer) (f : Fixed) : (finish s q f).bands = s.bands := finishAt_bands ..
@[simp] theorem finish_equ (s : State) (q : Issuer) (f : Fixed) : (finish s q f).equ = s.equ := finishAt_equ ..
@[simp] theorem finish_parts (s : State) (q : Issuer) (f : Fixed) : (finish s q f).parts = s.parts := finishAt_parts ..
@[simp] theorem finish_tlb (s : State) (q : Issuer) (f : Fixed) : (finish s q f).tlb = s.tlb := finishAt_tlb ..
@[simp] theorem finish_nest (s : State) (q : Issuer) (f : Fixed) : (finish s q f).nest = s.nest := finishAt_nest ..
@[simp] theorem finish_hours (s : State) (q : Issuer) (f : Fixed) : (finish s q f).hours = s.hours := finishAt_hours ..
@[simp] theorem finish_answers (s : State) (q : Issuer) (f : Fixed) : (finish s q f).answers = s.answers := finishAt_answers ..
@[simp] theorem finish_clock (s : State) (q : Issuer) (f : Fixed) : (finish s q f).clock = s.clock := finishAt_clock ..
@[simp] theorem finish_cur (s : State) (q : Issuer) (f : Fixed) : (finish s q f).cur = s.cur := finishAt_cur ..
@[simp] theorem finish_fresh (s : State) (q : Issuer) (f : Fixed) : (finish s q f).fresh = s.fresh := finishAt_fresh ..
@[simp] theorem finish_turns (s : State) (q : Issuer) (f : Fixed) : (finish s q f).turns = s.turns := finishAt_turns ..
@[simp] theorem finish_free (s : State) (q : Issuer) (f : Fixed) : (finish s q f).free = s.free := finishAt_free ..

end Sys2Proof.Machine
end

