-- ==== Sys2Proof/Laws/Table.lean ====
section
/-! SUPPORT. The laws of tables: what is found after a change, and that every change keeps the keys rising. -/

namespace Sys2Proof.Machine

variable {α : Type}

@[simp] theorem look_nil (k : Nat) : look ([] : Tab α) k = none := rfl

theorem look_cons (j : Nat) (v : α) (t : Tab α) (k : Nat) :
    look ((j, v) :: t) k = if j = k then some v else look t k := rfl

@[simp] theorem look_put_same (t : Tab α) (k : Nat) (v : α) : look (put t k v) k = some v := by
  induction t with
  | nil => simp [put, look]
  | cons e t ih =>
    obtain ⟨j, w⟩ := e
    simp only [put]
    split
    · simp [look]
    · split
      · simp [look]
      · rename_i h
        simp [look, ih, Ne.symm h]

theorem look_put_other (t : Tab α) {k j : Nat} (h : j ≠ k) (v : α) : look (put t k v) j = look t j := by
  induction t with
  | nil => simp [put, look, Ne.symm h]
  | cons e t ih =>
    obtain ⟨i, w⟩ := e
    simp only [put]
    split
    · simp [look, Ne.symm h]
    · split
      · rename_i h2
        subst h2
        simp [look, Ne.symm h]
      · simp only [look, ih]

theorem look_put (t : Tab α) (k j : Nat) (v : α) : look (put t k v) j = if j = k then some v else look t j := by
  by_cases h : j = k
  · subst h; simp
  · simp [h, look_put_other t h]

@[simp] theorem look_upd_same (t : Tab α) (k : Nat) (f : α → α) : look (upd t k f) k = (look t k).map f := by
  unfold upd
  split <;> simp_all

theorem look_upd_other (t : Tab α) {k j : Nat} (h : j ≠ k) (f : α → α) : look (upd t k f) j = look t j := by
  unfold upd
  split
  · rfl
  · exact look_put_other t h _

theorem upd_eq_put {t : Tab α} {k : Nat} {v : α} (h : look t k = some v) (f : α → α) : upd t k f = put t k (f v) := by
  simp [upd, h]

/-! ## Rising keys -/

theorem risingFrom_mono {lo hi : Nat} {t : Tab α} (h : risingFrom hi t = true) (le : lo ≤ hi) : risingFrom lo t = true := by
  cases t with
  | nil => rfl
  | cons e t =>
    simp only [risingFrom, Bool.and_eq_true, decide_eq_true_eq] at h ⊢
    exact ⟨le_trans le h.1, h.2⟩

theorem risingFrom_put {lo : Nat} {t : Tab α} {k : Nat} (v : α) (h : risingFrom lo t = true) (le : lo ≤ k) :
    risingFrom lo (put t k v) = true := by
  induction t generalizing lo with
  | nil => simp [put, risingFrom, le]
  | cons e t ih =>
    obtain ⟨j, w⟩ := e
    simp only [risingFrom, Bool.and_eq_true, decide_eq_true_eq] at h
    simp only [put]
    split
    · simp only [risingFrom, Bool.and_eq_true, decide_eq_true_eq]
      exact ⟨le, by omega, h.2⟩
    · split
      · rename_i h2
        subst h2
        simp [risingFrom, h]
      · simp only [risingFrom, Bool.and_eq_true, decide_eq_true_eq]
        exact ⟨h.1, ih h.2 (by omega)⟩

theorem risingFrom_drop {lo : Nat} {t : Tab α} (k : Nat) (h : risingFrom lo t = true) : risingFrom lo (drop t k) = true := by
  induction t generalizing lo with
  | nil => rfl
  | cons e t ih =>
    obtain ⟨j, w⟩ := e
    simp only [risingFrom, Bool.and_eq_true, decide_eq_true_eq] at h
    simp only [drop]
    split
    · exact risingFrom_mono h.2 (by omega)
    · simp only [risingFrom, Bool.and_eq_true, decide_eq_true_eq]
      exact ⟨h.1, ih h.2⟩

theorem risingFrom_filter {lo : Nat} {t : Tab α} (p : Nat × α → Bool) (h : risingFrom lo t = true) :
    risingFrom lo (t.filter p) = true := by
  induction t generalizing lo with
  | nil => rfl
  | cons e t ih =>
    obtain ⟨j, w⟩ := e
    simp only [risingFrom, Bool.and_eq_true, decide_eq_true_eq] at h
    simp only [List.filter]
    split
    · simp only [risingFrom, Bool.and_eq_true, decide_eq_true_eq]
      exact ⟨h.1, ih h.2⟩
    · exact risingFrom_mono (ih h.2) (by omega)

theorem rising_put {t : Tab α} (k : Nat) (v : α) (h : rising t = true) : rising (put t k v) = true :=
  risingFrom_put v h (Nat.zero_le k)

theorem rising_drop {t : Tab α} (k : Nat) (h : rising t = true) : rising (drop t k) = true := risingFrom_drop k h

theorem rising_filter {t : Tab α} (p : Nat × α → Bool) (h : rising t = true) : rising (t.filter p) = true :=
  risingFrom_filter p h

/-- A key below every key of a table is not in it. -/
theorem look_of_risingFrom {lo k : Nat} {t : Tab α} (h : risingFrom lo t = true) (lt : k < lo) : look t k = none := by
  induction t generalizing lo with
  | nil => rfl
  | cons e t ih =>
    obtain ⟨j, w⟩ := e
    simp only [risingFrom, Bool.and_eq_true, decide_eq_true_eq] at h
    simp only [look]
    rw [if_neg (by omega)]
    exact ih h.2 (by omega)

theorem look_drop_same {t : Tab α} {lo : Nat} (k : Nat) (h : risingFrom lo t = true) : look (drop t k) k = none := by
  induction t generalizing lo with
  | nil => rfl
  | cons e t ih =>
    obtain ⟨j, w⟩ := e
    simp only [risingFrom, Bool.and_eq_true, decide_eq_true_eq] at h
    simp only [drop]
    split
    · exact look_of_risingFrom h.2 (by omega)
    · rename_i h2
      simp only [look, if_neg h2]
      exact ih h.2

theorem look_drop_other (t : Tab α) {k j : Nat} (h : j ≠ k) : look (drop t k) j = look t j := by
  induction t with
  | nil => rfl
  | cons e t ih =>
    obtain ⟨i, w⟩ := e
    simp only [drop]
    split
    · rename_i h2
      subst h2
      simp [look, Ne.symm h]
    · simp only [look, ih]

/-! ## Tables that list nothing that is zero -/

variable {w : Nat}

theorem getZ_putZ_same {t : Tab (BitVec w)} (k : Nat) (v : BitVec w) (h : rising t = true) : getZ (putZ t k v) k = v := by
  unfold putZ getZ
  split
  · rename_i h2
    simp [look_drop_same k h, h2]
  · simp

theorem getZ_putZ_other (t : Tab (BitVec w)) {k j : Nat} (h : j ≠ k) (v : BitVec w) : getZ (putZ t k v) j = getZ t j := by
  unfold putZ getZ
  split
  · rw [look_drop_other t h]
  · rw [look_put_other t h]

theorem rising_putZ {t : Tab (BitVec w)} (k : Nat) (v : BitVec w) (h : rising t = true) : rising (putZ t k v) = true := by
  unfold putZ
  split
  · exact rising_drop k h
  · exact rising_put k v h

theorem all_drop {p : Nat × α → Bool} {t : Tab α} (k : Nat) (h : t.all p = true) : (drop t k).all p = true := by
  induction t with
  | nil => rfl
  | cons e t ih =>
    obtain ⟨j, x⟩ := e
    simp only [List.all_cons, Bool.and_eq_true] at h
    simp only [drop]
    split
    · exact h.2
    · simp only [List.all_cons, Bool.and_eq_true]
      exact ⟨h.1, ih h.2⟩

theorem all_put {p : Nat × α → Bool} {t : Tab α} {k : Nat} {v : α} (h : t.all p = true) (hv : p (k, v) = true) :
    (put t k v).all p = true := by
  induction t with
  | nil => simp [put, hv]
  | cons e t ih =>
    obtain ⟨j, x⟩ := e
    simp only [List.all_cons, Bool.and_eq_true] at h
    simp only [put]
    split
    · simp [hv, h]
    · split
      · simp [hv, h]
      · simp only [List.all_cons, Bool.and_eq_true]
        exact ⟨h.1, ih h.2⟩

/-! ## Members -/

theorem rising_upd {t : Tab α} (k : Nat) (f : α → α) (h : rising t = true) : rising (upd t k f) = true := by
  unfold upd
  split
  · exact h
  · exact rising_put _ _ h

theorem mem_put {t : Tab α} {k : Nat} {v : α} {e : Nat × α} (h : e ∈ put t k v) : e = (k, v) ∨ e ∈ t := by
  induction t with
  | nil => simpa [put] using h
  | cons x t ih =>
    obtain ⟨j, w⟩ := x
    simp only [put] at h
    split at h
    · rcases List.mem_cons.1 h with h | h
      · exact .inl h
      · exact .inr h
    · split at h
      · rcases List.mem_cons.1 h with h | h
        · exact .inl h
        · exact .inr (List.mem_cons_of_mem _ h)
      · rcases List.mem_cons.1 h with h | h
        · exact .inr (by simp [h])
        · rcases ih h with h | h
          · exact .inl h
          · exact .inr (List.mem_cons_of_mem _ h)

theorem mem_drop {t : Tab α} {k : Nat} {e : Nat × α} (h : e ∈ drop t k) : e ∈ t := by
  induction t with
  | nil => exact h
  | cons x t ih =>
    obtain ⟨j, w⟩ := x
    simp only [drop] at h
    split at h
    · exact List.mem_cons_of_mem _ h
    · rcases List.mem_cons.1 h with h | h
      · simp [h]
      · exact List.mem_cons_of_mem _ (ih h)

theorem mem_of_look {t : Tab α} {k : Nat} {v : α} (h : look t k = some v) : (k, v) ∈ t := by
  induction t with
  | nil => simp at h
  | cons x t ih =>
    obtain ⟨j, w⟩ := x
    rw [look_cons] at h
    split at h
    · cases h; simp_all
    · exact List.mem_cons_of_mem _ (ih h)

theorem mem_upd {t : Tab α} {k : Nat} {f : α → α} {e : Nat × α} (h : e ∈ upd t k f) :
    e ∈ t ∨ ∃ v, (k, v) ∈ t ∧ e = (k, f v) := by
  unfold upd at h
  split at h
  · exact .inl h
  · rename_i v hv
    rcases mem_put h with h | h
    · exact .inr ⟨v, mem_of_look hv, h⟩
    · exact .inl h

/-- A change of every value finds, at a key, what was there changed. -/
theorem look_map {t : Tab α} (f : Nat × α → Nat × α) (hf : ∀ e, (f e).1 = e.1) (k : Nat) :
    look (t.map f) k = (look t k).map (fun v => (f (k, v)).2) := by
  induction t with
  | nil => rfl
  | cons e t ih =>
    obtain ⟨j, v⟩ := e
    have h1 := hf (j, v)
    simp only [List.map_cons]
    rw [show f (j, v) = ((f (j, v)).1, (f (j, v)).2) from rfl, look_cons, look_cons, h1]
    by_cases hj : j = k
    · subst hj; simp
    · simp [hj, ih]

theorem risingFrom_map {lo : Nat} {t : Tab α} (f : Nat × α → Nat × α) (hf : ∀ e, (f e).1 = e.1) :
    risingFrom lo (t.map f) = risingFrom lo t := by
  induction t generalizing lo with
  | nil => rfl
  | cons e t ih =>
    obtain ⟨j, v⟩ := e
    have h1 := hf (j, v)
    simp only [List.map_cons]
    rw [show f (j, v) = ((f (j, v)).1, (f (j, v)).2) from rfl]
    simp only [risingFrom, h1, ih]

theorem rising_map {t : Tab α} (f : Nat × α → Nat × α) (hf : ∀ e, (f e).1 = e.1) : rising (t.map f) = rising t :=
  risingFrom_map f hf

/-- What `leastBy` answers is a member, and none has a lesser measure. -/
theorem leastBy_mem {f : α → Nat} {l : List α} {x : α} (h : leastBy f l = some x) : x ∈ l ∧ ∀ y ∈ l, f x ≤ f y := by
  induction l generalizing x with
  | nil => simp [leastBy] at h
  | cons a l ih =>
    simp only [leastBy] at h
    cases hl : leastBy f l with
    | none =>
      have : l = [] := by
        cases l with
        | nil => rfl
        | cons b l =>
          exfalso
          simp only [leastBy] at hl
          split at hl
          · cases hl
          · split at hl <;> cases hl
      subst this
      rw [hl] at h
      cases h
      simp
    | some y =>
      obtain ⟨h1, h2⟩ := ih hl
      rw [hl] at h
      simp only at h
      split at h
      · cases h
        refine ⟨List.mem_cons_of_mem _ h1, fun z hz => ?_⟩
        rcases List.mem_cons.1 hz with rfl | hz
        · omega
        · exact h2 z hz
      · cases h
        refine ⟨by simp, fun z hz => ?_⟩
        rcases List.mem_cons.1 hz with rfl | hz
        · omega
        · have := h2 z hz
          omega

end Sys2Proof.Machine
end

