-- ==== Sys2Proof/Laws/Issue.lean ====
section
/-! SUPPORT. The laws of issuing a word: who issues, what a change of the issuer's context comes to, what a held result makes
later words read, and that a ready word has exactly its own effect. -/

namespace Sys2Proof.Machine

/-! ## The issuer -/

/-- Everything `issuer` says. -/
theorem issuer_eq_some {s : State} {q : Issuer} : issuer s = some q ↔
    q.gid = s.cur ∧ look s.groups s.cur = some q.g ∧ look s.blocks q.g.block = some q.b ∧
      q.ctx = (if q.g.handler then (shadowOf s q.g.core).ctx else q.g.ctx) ∧ q.hv = (shadowOf s q.g.core).hv ∧
      q.hand = q.g.handler ∧ q.at_ = q.ctx.issued + 1 ∧
      q.lanes = (if q.g.handler || q.g.vec.isSome then BitVec.allOnes 32 else q.g.mask) := by
  unfold issuer
  split
  · simp_all
  · rename_i g hg
    split
    · rename_i hb
      constructor
      · simp
      · rintro ⟨-, h1, h2, -⟩
        rw [hg] at h1
        cases h1
        simp_all
    · rename_i b hb
      constructor
      · intro h
        cases h
        simp_all
      · rintro ⟨h1, h2, h3, h4, h5, h6, h7, h8⟩
        rw [hg] at h2
        cases h2
        rw [hb] at h3
        cases h3
        cases q
        simp_all

theorem coreOf_setCore (s : State) (core : Nat) (c : Core) (k : Nat) :
    coreOf (setCore s core c) k = if k = core then c else coreOf s k := by
  simp only [coreOf, setCore, look_put]
  split <;> simp

theorem shadowOf_eq (s : State) (k : Nat) : shadowOf s k = (coreOf s k).shadow := by
  unfold shadowOf coreOf
  split <;> simp_all [Core.init]

theorem put_put {α : Type} (t : Tab α) (k : Nat) (v w : α) : put (put t k v) k w = put t k w := by
  induction t with
  | nil => simp [put]
  | cons e t ih =>
    obtain ⟨j, x⟩ := e
    simp only [put]
    by_cases h1 : k < j
    · simp [h1, put]
    · by_cases h2 : k = j
      · simp [h2, put]
      · simp [h1, h2, put, ih]

theorem upd_upd {α : Type} (t : Tab α) (k : Nat) (f g : α → α) : upd (upd t k f) k g = upd t k (fun x => g (f x)) := by
  cases h : look t k with
  | none => simp [upd, h]
  | some v => simp [upd, h, put_put]

theorem setCore_setCore (s : State) (core : Nat) (c d : Core) : setCore (setCore s core c) core d = setCore s core d := by
  simp [setCore, put_put]

theorem modGroup_modGroup (s : State) (gid : Nat) (f g : Group → Group) :
    modGroup (modGroup s gid f) gid g = modGroup s gid (fun x => g (f x)) := by
  simp [modGroup, upd_upd]

/-- Two changes of the issuer's context are one. -/
theorem modCtx_modCtx (s : State) (q : Issuer) (f g : Ctx → Ctx) :
    modCtx (modCtx s q f) q g = modCtx s q (fun c => g (f c)) := by
  unfold modCtx
  split
  · simp [setCore_setCore, coreOf_setCore]
  · simp [modGroup_modGroup]

end Sys2Proof.Machine

namespace Sys2Proof.Safety

open Sys2Proof.Machine

/-! ## What an issue changes -/

/-- A word that changes the issuer's context and issues changes nothing else. -/
theorem only_countIssue {s : State} {q : Issuer} (h : issuer s = some q) (f : Ctx → Ctx) (pc : Dword) :
    Only s (countIssue (modCtx s q f) q pc) q (counted pc (f q.ctx)) := by
  obtain ⟨hgid, hg, hb, hctx, hhv, hhand, hat, hlanes⟩ := issuer_eq_some.mp h
  have key : countIssue (modCtx s q f) q pc =
      modBlock (modGroup (modCtx s q (fun c => counted pc (f c))) q.gid (fun g => { g with pass := false, strip := false })) q.g.block
        (fun b => { b with hangCount := 0, fired := if b.ver = 0 then b.fired + 1 else b.fired }) := by
    simp only [countIssue, modCtx_modCtx]
    rfl
  have gr : look (countIssue (modCtx s q f) q pc).groups q.gid =
      some { q.g with pass := false, strip := false, ctx := if q.hand then q.g.ctx else counted pc (f q.ctx) } := by
    rw [key]
    unfold modCtx
    cases hh : q.hand
    · have hc : q.ctx = q.g.ctx := by rw [hctx, ← hhand, hh]; rfl
      simp [hgid, hg, hc]
    · simp [hgid, hg]
  have bl : look (countIssue (modCtx s q f) q pc).blocks q.g.block =
      some { q.b with hangCount := 0, fired := if q.b.ver = 0 then q.b.fired + 1 else q.b.fired } := by
    rw [key]
    simp [hb]
  have co : ∀ k, coreOf (countIssue (modCtx s q f) q pc) k =
      if k = q.g.core ∧ q.hand = true then
        { coreOf s k with shadow := { (coreOf s k).shadow with ctx := counted pc (f q.ctx) } }
      else coreOf s k := by
    intro k
    rw [key]
    unfold modCtx
    cases hh : q.hand
    · simp [coreOf]
    · have hc : q.ctx = (coreOf s q.g.core).shadow.ctx := by
        rw [hctx, ← hhand, hh, shadowOf_eq]
        rfl
      have : ∀ t : State, coreOf (modBlock (modGroup t q.gid (fun g => { g with pass := false, strip := false })) q.g.block
          (fun b => { b with hangCount := 0, fired := if b.ver = 0 then b.fired + 1 else b.fired })) k = coreOf t k :=
        fun _ => rfl
      rw [this]
      simp only [if_true, coreOf_setCore]
      by_cases hk : k = q.g.core
      · subst hk; simp [hc]
      · simp [hk]
  refine ⟨⟨?_, ?_, ?_, ?_, ?_, ?_, ?_, ?_, ?_, ?_, ?_, ?_, ?_, ?_, ?_, ?_, ?_, ?_, ?_, ?_⟩,
    ⟨?_, gr, ?_, ?_, ?_, ?_⟩, by simp⟩
  · simp
  · simp
  · simp
  · simp
  · simp
  · simp
  · simp
  · simp
  · simp
  · simp
  · simp
  · simp
  · simp
  · simp
  · simp
  · simp
  · simp
  · simp
  · simp
  · simp
  · rw [issuer_eq_some]
    have hco := co q.g.core
    refine ⟨by simp [hgid], by rw [hgid] at gr; simpa using gr, bl, ?_, ?_, hhand, rfl, hlanes⟩
    · rw [shadowOf_eq, hco]
      cases hh : q.hand <;> simp [hh, ← hhand]
    · rw [shadowOf_eq, hco, hhv, shadowOf_eq]
      split <;> rfl
  · intro g hne
    rw [key]
    unfold modCtx
    cases hh : q.hand <;> simp [look_upd_other _ hne]
  · intro b hne
    rw [key]
    simp [look_upd_other _ hne]
  · rw [co]
    simp
  · intro k hne
    rw [co]
    simp [hne]

/-- The end of a word that changes the issuer's context and goes on. -/
theorem ends_finishAt {s : State} {q : Issuer} (h : issuer s = some q) (g : Ctx → Ctx) (f : Fixed) (pc : Dword) :
    Ends s (finishAt (modCtx s q g) q pc f.sw) q f pc (g q.ctx) :=
  ⟨_, only_countIssue h g pc, rfl⟩

/-- The same with nothing to hold. -/
theorem ends_finishAt_same {s : State} {q : Issuer} (h : issuer s = some q) (f : Fixed) (pc : Dword) :
    Ends s (finishAt s q pc f.sw) q f pc q.ctx := by
  refine ⟨countIssue s q pc, ?_, rfl⟩
  have := only_countIssue h id pc
  have e : countIssue (modCtx s q id) q pc = countIssue s q pc := by
    simp only [countIssue, modCtx_modCtx, id_eq]
  rwa [e] at this

end Sys2Proof.Safety

namespace Sys2Proof.Machine

open Sys2Proof.Safety

/-! ## Held results -/

/-- A result of the word about to issue is the youngest. -/
theorem insertHeld_append {x : Held} {hs : List Held} (h : ∀ y ∈ hs, y.seq ≤ x.seq) : insertHeld x hs = hs ++ [x] := by
  induction hs with
  | nil => rfl
  | cons y ys ih =>
    have hy := h y (by simp)
    have : ¬ x.seq < y.seq := by omega
    simp [insertHeld, this, ih (fun z hz => h z (by simp [hz]))]

theorem holdCtx_result {q : Issuer} {c : Ctx} (d : Dest) (m : Word) (vals : List Dword) (lat : Nat)
    (h : ∀ y ∈ c.held, y.seq ≤ q.at_) :
    holdCtx d m vals (.at (q.at_ + lat)) q.at_ c = { c with held := c.held ++ [result q d m vals lat] } := by
  simp only [holdCtx, result]
  rw [insertHeld_append]
  exact h

/-! ## A ready word -/

theorem clearRestart_ready {s : State} {q : Issuer} {i : Instr} (h : q.g.returned = false ∨ q.hand = true) :
    clearRestart s q i = s := by
  unfold clearRestart
  rcases h with h | h <;> simp [h]

/-- THE MEANING OF A READY WORD is its own effect. -/
theorem word_ready {s : State} {q : Issuer} {i : Instr} {act : State → Issuer → State} (h : Ready s q i) :
    word i s act =
      .next (if issued (act s q) q && clusterWord i then bindBlock q (act s q) else act s q) := by
  have hs : ((fixed i).stop && !q.hand) = false := by rcases h.noStop with h | h <;> simp [h]
  simp only [word, h.issues, h.noTrap, issueWord, hs, h.noToken, clearRestart_ready h.noRestart]
  simp [bindBlock, h.issues]

/-- A ready word of a class that binds no block. -/
theorem word_ready_free {s : State} {q : Issuer} {i : Instr} {act : State → Issuer → State} (h : Ready s q i)
    (hc : clusterWord i = false) : word i s act = .next (act s q) := by
  rw [word_ready h]
  simp [hc]

/-- What the absence of a static trap says of a word (R111 to R113). -/
theorem staticTrap_none {s : State} {q : Issuer} {i : Instr} (h : staticTrap s q i = none) :
    q.ctx.run < 48 ∧ assigned (classMinor i).1 (classMinor i).2 = true ∧
      classModel (classMinor i).1 (classMinor i).2 q.model = true ∧
      maskedBy s q (classMinor i).1 (classMinor i).2 = false ∧ i.wf = true ∧ legal q.where_ i = true ∧
      outOfView q i = false ∧ overwritesToken q i = false ∧ exposed q i = false ∧
      ((fixed i).stop = true → q.ctx.run = 0) := by
  unfold staticTrap at h
  repeat' split at h
  all_goals simp_all

theorem ready_wf {s : State} {q : Issuer} {i : Instr} (h : Ready s q i) : i.wf = true :=
  (staticTrap_none h.noTrap).2.2.2.2.1

theorem ready_legal {s : State} {q : Issuer} {i : Instr} (h : Ready s q i) : legal q.where_ i = true :=
  (staticTrap_none h.noTrap).2.2.2.2.2.1

end Sys2Proof.Machine
end

