-- ==== Sys2Proof/Laws/Memory.lean ====
section
/-! SUPPORT. The laws of memory: read after write, and that every operation keeps the canonical form. -/

namespace Sys2Proof.Machine

theorem Memory.wf_iff (m : List Host.Cell) : Memory.wf m = true ↔ rising m = true ∧ m.all (fun c => c.2 != 0) = true := by
  simp [Memory.wf]

theorem Memory.wf_nil : Memory.wf [] = true := rfl

theorem Memory.wf_putZ {m : List Host.Cell} (k : Nat) (b : Byte) (h : Memory.wf m = true) : Memory.wf (putZ m k b) = true := by
  rw [Memory.wf_iff] at h ⊢
  refine ⟨rising_putZ k b h.1, ?_⟩
  unfold putZ
  split
  · exact all_drop k h.2
  · rename_i hb
    exact all_put h.2 (by simpa using hb)

theorem Memory.wf_writeCells {m : List Host.Cell} (k : Nat) (bs : List Byte) (h : Memory.wf m = true) :
    Memory.wf (writeCells m k bs) = true := by
  induction bs generalizing m k with
  | nil => exact h
  | cons b bs ih => exact ih (k + 1) (Memory.wf_putZ k b h)

theorem Memory.wf_filter {m : List Host.Cell} (p : Host.Cell → Bool) (h : Memory.wf m = true) : Memory.wf (m.filter p) = true := by
  rw [Memory.wf_iff] at h ⊢
  refine ⟨rising_filter p h.1, ?_⟩
  rw [List.all_eq_true] at h ⊢
  exact fun x hx => h.2 x (List.mem_filter.mp hx).1

theorem Memory.wf_putAll {m : List Host.Cell} (cells : List Host.Cell) (h : Memory.wf m = true) :
    Memory.wf (cells.foldl (fun m c => putZ m c.1 c.2) m) = true := by
  induction cells generalizing m with
  | nil => exact h
  | cons c cs ih => exact ih (Memory.wf_putZ c.1 c.2 h)

/-- Writing bytes to the machine's memory keeps the canonical form. -/
theorem Memory.wf_writeBytes {s : State} (k : Nat) (bs : List Byte) (h : Memory.wf s.mem = true) :
    Memory.wf (writeBytes s k bs).mem = true := Memory.wf_writeCells k bs h

theorem Memory.wf_storeLE {s : State} (k n x : Nat) (h : Memory.wf s.mem = true) : Memory.wf (storeLE s k n x).mem = true :=
  Memory.wf_writeCells k _ h

/-- Memory right after reset is in canonical form. -/
theorem Memory.wf_reset : Memory.wf State.reset.mem = true := rfl

/-! ## Read after write -/

theorem getZ_writeCells_outside (m : List Host.Cell) (k : Nat) (bs : List Byte) {a : Nat} (h : a < k ∨ k + bs.length ≤ a) :
    getZ (writeCells m k bs) a = getZ m a := by
  induction bs generalizing m k with
  | nil => rfl
  | cons b bs ih =>
    simp only [List.length_cons] at h
    rw [writeCells, ih (putZ m k b) (k + 1) (by omega)]
    exact getZ_putZ_other m (by omega) b

theorem getZ_writeCells_inside {m : List Host.Cell} (k : Nat) (bs : List Byte) (h : Memory.wf m = true) (i : Nat)
    (hi : i < bs.length) : getZ (writeCells m k bs) (k + i) = bs[i] := by
  induction bs generalizing m k i with
  | nil => simp at hi
  | cons b bs ih =>
    rw [writeCells]
    cases i with
    | zero =>
      rw [Nat.add_zero, getZ_writeCells_outside _ _ _ (by omega)]
      exact getZ_putZ_same k b ((Memory.wf_iff m).mp h).1
    | succ i =>
      have e : k + (i + 1) = k + 1 + i := by omega
      rw [e, ih (k + 1) (Memory.wf_putZ k b h) i (by simpa using hi)]
      simp

/-- A byte outside the written ones reads as before. -/
theorem readByte_writeBytes_outside (s : State) (k : Nat) (bs : List Byte) {a : Nat} (h : a < k ∨ k + bs.length ≤ a) :
    readByte (writeBytes s k bs) a = readByte s a := getZ_writeCells_outside s.mem k bs h

/-- A written byte reads as written. -/
theorem readByte_writeBytes_inside {s : State} (k : Nat) (bs : List Byte) (h : Memory.wf s.mem = true) (i : Nat)
    (hi : i < bs.length) : readByte (writeBytes s k bs) (k + i) = bs[i] := getZ_writeCells_inside k bs h i hi

end Sys2Proof.Machine
end

