-- ==== Sys2Proof/Laws/Frames.lean ====
section
/-! SUPPORT. The frames of shared operations: what translation, hub accesses, records, meters and traps change, and that they
keep memory canonical and the tables in order. -/

namespace Sys2Proof.Machine

open Sys2Proof.Safety

/-! ## Accesses of the hub and translation -/

/-- Two states that differ at most in what a translation writes: memory and its poison, and cached leaves. -/
structure SameButMemory (s t : State) : Prop where
  groups : t.groups = s.groups
  sets : t.sets = s.sets
  cores : t.cores = s.cores
  blocks : t.blocks = s.blocks
  launches : t.launches = s.launches
  queues : t.queues = s.queues
  kernels : t.kernels = s.kernels
  copies : t.copies = s.copies
  ises : t.ises = s.ises
  faults : t.faults = s.faults
  clusters : t.clusters = s.clusters
  bands : t.bands = s.bands
  equ : t.equ = s.equ
  parts : t.parts = s.parts
  nest : t.nest = s.nest
  answers : t.answers = s.answers
  clock : t.clock = s.clock
  cur : t.cur = s.cur
  turns : t.turns = s.turns
  free : t.free = s.free
  fresh : t.fresh = s.fresh
  hours : t.hours = { s.hours with poison := t.hours.poison }
  wf : Memory.wf s.mem = true → Memory.wf t.mem = true

theorem SameButMemory.refl (s : State) : SameButMemory s s :=
  ⟨rfl, rfl, rfl, rfl, rfl, rfl, rfl, rfl, rfl, rfl, rfl, rfl, rfl, rfl, rfl, rfl, rfl, rfl, rfl, rfl, rfl, rfl, id⟩

theorem SameButMemory.trans {s t u : State} (h : SameButMemory s t) (k : SameButMemory t u) : SameButMemory s u := by
  constructor
  case wf => exact fun x => k.wf (h.wf x)
  case hours => rw [k.hours, h.hours]
  all_goals first
    | exact k.groups.trans h.groups | exact k.sets.trans h.sets | exact k.cores.trans h.cores | exact k.blocks.trans h.blocks
    | exact k.launches.trans h.launches | exact k.queues.trans h.queues | exact k.kernels.trans h.kernels
    | exact k.copies.trans h.copies | exact k.ises.trans h.ises | exact k.faults.trans h.faults | exact k.clusters.trans h.clusters
    | exact k.bands.trans h.bands | exact k.equ.trans h.equ | exact k.parts.trans h.parts | exact k.nest.trans h.nest
    | exact k.answers.trans h.answers | exact k.clock.trans h.clock | exact k.cur.trans h.cur | exact k.turns.trans h.turns
    | exact k.free.trans h.free | exact k.fresh.trans h.fresh

theorem same_writeBytes (s : State) (k : Nat) (bs : List Byte) : SameButMemory s (writeBytes s k bs) := by
  constructor
  case wf => exact Memory.wf_writeBytes k bs
  all_goals rfl

theorem same_tlb {s t : State} (h : SameButMemory s t) (x : List Tlb) : SameButMemory s { t with tlb := x } := by
  constructor
  case wf => exact h.wf
  case hours => exact h.hours
  all_goals first
    | exact h.groups | exact h.sets | exact h.cores | exact h.blocks | exact h.launches | exact h.queues | exact h.kernels
    | exact h.copies | exact h.ises | exact h.faults | exact h.clusters | exact h.bands | exact h.equ | exact h.parts | exact h.nest
    | exact h.answers | exact h.clock | exact h.cur | exact h.turns | exact h.free | exact h.fresh

theorem same_touchLeaf (s : State) (t : Tlb) (n : Need) : SameButMemory s (touchLeaf s t n) := by
  unfold touchLeaf
  simp only
  split
  · exact .refl s
  · split
    · exact same_tlb (same_writeBytes s _ _) _
    · exact same_tlb (.refl s) _

theorem same_stageOf (s : State) (part stage va root : Nat) (place : Nat → Option Nat) (n : Need) :
    SameButMemory s (stageOf s part stage va root place n).s := by
  unfold stageOf
  split
  · split
    · exact same_touchLeaf ..
    · exact .refl s
  · split
    · exact .refl s
    · simp only
      split
      · exact (same_tlb (.refl s) _).trans (same_touchLeaf ..)
      · exact .refl s

theorem same_stage2 (s : State) (part gpa : Nat) (n : Need) : SameButMemory s (stage2 s part gpa n).s := by
  unfold stage2
  split
  · exact .refl s
  · simp only
    have h := same_stageOf s part 2 gpa (field (partReg s part 0x217) 51 12 * 4096) (partPlace s part) n
    split
    · exact h
    · split <;> exact h

theorem same_gpaKey (s : State) (part gpa : Nat) (n : Need) : SameButMemory s (gpaKey s part gpa n).s := by
  unfold gpaKey
  split
  · exact same_stage2 s part gpa n
  · exact .refl s
  · split
    · split <;> exact .refl s
    · exact .refl s
  · simp only
    split <;> exact .refl s

theorem same_xlate (s : State) (part va : Nat) (n : Need) : SameButMemory s (xlate s part va n).s := by
  have touched (xs : List (Nat × Need)) : ∀ s, SameButMemory s (xs.foldl (fun s x => (gpaKey s part x.1 x.2).s) s) := by
    induction xs with
    | nil => exact fun s => .refl s
    | cons x xs ih => exact fun s => (same_gpaKey s part x.1 x.2).trans (ih _)
  unfold xlate
  split
  · exact .refl s
  · simp only
    split
    · exact (touched _ _).trans (same_stageOf ..)
    · exact ((touched _ _).trans (same_stageOf ..)).trans (same_gpaKey ..)

theorem same_placePieces (part : Nat) (ps : List (Nat × Nat)) : ∀ s, SameButMemory s (placePieces s part ps).1 := by
  induction ps with
  | nil => exact fun s => .refl s
  | cons p ps ih =>
    intro s
    simp only [placePieces]
    split
    · exact same_xlate ..
    · exact (same_xlate ..).trans (ih _)

theorem same_writePieces (ks : List (Nat × Nat)) : ∀ s bs, SameButMemory s (writePieces s ks bs) := by
  induction ks with
  | nil => exact fun s _ => .refl s
  | cons k ks ih => exact fun s bs => (same_writeBytes s _ _).trans (ih _ _)

/-! ## Records and meters -/

theorem SameButMemory.tables {s t : State} (h : SameButMemory s t) (k : Tables s) : Tables t where
  groups := h.groups ▸ k.groups
  blocks := h.blocks ▸ k.blocks
  launches := h.launches ▸ k.launches
  parts := h.parts ▸ k.parts
  eqQueues := h.equ ▸ k.eqQueues
  eqGroups := h.equ ▸ k.eqGroups
  points := by rw [h.hours]; exact k.points
  regs := h.parts ▸ k.regs
  files := h.groups ▸ k.files
  vectors := h.sets ▸ k.vectors
  shadows := h.cores ▸ k.shadows
  numbers := by rw [h.groups, h.fresh]; exact k.numbers
  saved := by rw [h.blocks, h.fresh]; exact k.saved

/-- Two states that differ at most in memory and its poison, cached leaves, the banks and units of Crow's Nest, and what a
partition's registers and lost records are. -/
structure SameButRecords (s t : State) : Prop where
  groups : t.groups = s.groups
  sets : t.sets = s.sets
  cores : t.cores = s.cores
  blocks : t.blocks = s.blocks
  launches : t.launches = s.launches
  queues : t.queues = s.queues
  kernels : t.kernels = s.kernels
  copies : t.copies = s.copies
  ises : t.ises = s.ises
  faults : t.faults = s.faults
  clusters : t.clusters = s.clusters
  bands : t.bands = s.bands
  equ : t.equ = s.equ
  answers : t.answers = s.answers
  clock : t.clock = s.clock
  cur : t.cur = s.cur
  turns : t.turns = s.turns
  fresh : t.fresh = s.fresh
  wf : Memory.wf s.mem = true → Memory.wf t.mem = true
  tables : Tables s → Tables t

theorem SameButMemory.records {s t : State} (h : SameButMemory s t) : SameButRecords s t :=
  ⟨h.groups, h.sets, h.cores, h.blocks, h.launches, h.queues, h.kernels, h.copies, h.ises, h.faults, h.clusters, h.bands, h.equ,
    h.answers, h.clock, h.cur, h.turns, h.fresh, h.wf, h.tables⟩

theorem SameButRecords.refl (s : State) : SameButRecords s s := (SameButMemory.refl s).records

theorem SameButRecords.trans {s t u : State} (h : SameButRecords s t) (k : SameButRecords t u) : SameButRecords s u :=
  ⟨k.groups.trans h.groups, k.sets.trans h.sets, k.cores.trans h.cores, k.blocks.trans h.blocks, k.launches.trans h.launches,
    k.queues.trans h.queues, k.kernels.trans h.kernels, k.copies.trans h.copies, k.ises.trans h.ises, k.faults.trans h.faults,
    k.clusters.trans h.clusters, k.bands.trans h.bands, k.equ.trans h.equ, k.answers.trans h.answers, k.clock.trans h.clock,
    k.cur.trans h.cur, k.turns.trans h.turns, k.fresh.trans h.fresh, fun x => k.wf (h.wf x), fun x => k.tables (h.tables x)⟩

theorem same_updParts (s : State) (part : Nat) (f : Partition → Partition)
    (h : ∀ p, rising p.regs = true → rising (f p).regs = true) : SameButRecords s { s with parts := upd s.parts part f } := by
  constructor
  case wf => exact id
  case tables =>
    exact fun k =>
      { groups := k.groups, blocks := k.blocks, launches := k.launches, parts := rising_upd _ _ k.parts, eqQueues := k.eqQueues,
        eqGroups := k.eqGroups, points := k.points, files := k.files, vectors := k.vectors, shadows := k.shadows,
        numbers := k.numbers, saved := k.saved
        regs := by
          intro e he
          rcases mem_upd he with he | ⟨v, hv, rfl⟩
          · exact k.regs e he
          · exact h v (k.regs _ hv) }
  all_goals rfl

theorem same_setPartReg (s : State) (part n : Nat) (v : Dword) : SameButRecords s (setPartReg s part n v) :=
  same_updParts s part _ (fun _ h => rising_putZ _ _ h)

theorem same_addMeter (s : State) (part n k : Nat) : SameButRecords s (addMeter s part n k) := by
  unfold addMeter
  split
  · exact .refl s
  · split
    · exact .refl s
    · exact same_setPartReg ..

theorem same_meterHost (s : State) (part k n : Nat) : SameButRecords s (meterHost s part k n) := by
  unfold meterHost
  split
  · exact same_addMeter ..
  · exact .refl s

/-! ## Accesses of the hub -/

theorem same_readPieces (part : Nat) (ps : List (Nat × Nat)) : ∀ s, SameButRecords s (readPieces s part ps).s := by
  induction ps with
  | nil => exact fun s => .refl s
  | cons p ps ih =>
    intro s
    simp only [readPieces]
    split
    · exact (same_xlate ..).records
    · exact ((same_xlate ..).records.trans (same_meterHost ..)).trans (ih _)

theorem same_readVirtual (s : State) (part va n : Nat) : SameButRecords s (readVirtual s part va n).s := same_readPieces ..

theorem same_meters (part : Nat) (ks : List (Nat × Nat)) : ∀ s,
    SameButRecords s (ks.foldl (fun s k => meterHost s part k.1 k.2) s) := by
  induction ks with
  | nil => exact fun s => .refl s
  | cons k ks ih => exact fun s => (same_meterHost ..).trans (ih _)

theorem same_writeVirtual (s : State) (part va : Nat) (bs : List Byte) : SameButRecords s (writeVirtual s part va bs).s := by
  have h := same_placePieces part (pieces va bs.length (bs.length / 4096 + 2)) s
  unfold writeVirtual
  split
  · rename_i e; rw [e] at h; exact h.records
  · rename_i e; rw [e] at h; exact (h.trans (same_writePieces ..)).records.trans (same_meters ..)

theorem SameButRecords.kernelsBut {s t : State} (h : SameButRecords s t) (x : Tab Kernel) :
    SameButRecords s { { t with kernels := x } with kernels := s.kernels } :=
  ⟨h.groups, h.sets, h.cores, h.blocks, h.launches, h.queues, rfl, h.copies, h.ises, h.faults, h.clusters, h.bands, h.equ, h.answers,
    h.clock, h.cur, h.turns, h.fresh, h.wf, fun k => { h.tables k with }⟩

/-- R339: a copied granule changes memory and what translation and meters hold, and of the kernels' table what is copied. -/
theorem same_copyGranule {s t : State} {h g : Nat} (e : copyGranule s h g = some t) :
    SameButRecords s { t with kernels := s.kernels } := by
  unfold copyGranule at e
  split at e
  · cases e
  · next k _ =>
    simp only at e
    split at e
    · cases e; exact .refl s
    · split at e
      · cases e
      · split at e
        · cases e
        · cases e
          exact ((same_readVirtual ..).trans (same_writeVirtual ..)).kernelsBut _

/-! ## Accesses of a word -/

theorem same_accessKey (s : State) (blk : Nat) (b : Block) (sp : Space) (need : Need) (addr : Nat) :
    SameButMemory s (accessKey s blk b sp need addr).s := by
  unfold accessKey
  split
  · exact .refl s
  · exact same_xlate ..
  · exact same_xlate ..

theorem same_accessKeys (blk : Nat) (b : Block) (sp : Space) (need : Need) (hostOk : Bool) (as : List LaneAddr) :
    ∀ s, SameButMemory s (accessKeys s blk b sp need hostOk as).s := by
  induction as with
  | nil => exact fun s => .refl s
  | cons a as ih =>
    intro s
    simp only [accessKeys]
    split
    · exact same_accessKey ..
    · split
      · exact same_accessKey ..
      · exact (same_accessKey ..).trans (ih _)

theorem same_loadKeys (s : State) (blk : Nat) (b : Block) (sp : Space) (n : Nat) (as : List LaneAddr) :
    SameButMemory s (loadKeys s blk b sp n as).1.s := by
  unfold loadKeys
  simp only
  split <;> exact same_accessKeys ..

/-! ## The vector of a hub cycle's traps (R390) -/

theorem same_settleTrapvec (s : State) (part : Nat) : SameButRecords s (settleTrapvec s part) := by
  unfold settleTrapvec
  simp only
  split
  · next p h =>
    split
    · exact .refl s
    · have := same_updParts s part (fun p => { p with trapvec := partReg s part 0x21A }) (fun _ h => h)
      simpa only [upd, h] using this
  · exact .refl s

/-- Once it has settled, traps find the register's value. -/
theorem settleTrapvec_vec (s : State) (part : Nat) {p : Partition} (h : look s.parts part = some p) :
    ∃ x, look (settleTrapvec s part).parts part = some x ∧ x.trapvec = partReg s part 0x21A ∧ x.regs = p.regs := by
  unfold settleTrapvec
  simp only [h]
  split
  · next e => exact ⟨p, h, e, rfl⟩
  · exact ⟨_, look_put_same .., rfl, rfl⟩

/-! ## Registers that a hub access leaves: all but the host meter (R384) -/

/-- No partition register but 0x23C differs, and traps find the same handler (R390). -/
structure SameRegs (s t : State) : Prop where
  regs : ∀ p n, n ≠ 0x23C → partReg t p n = partReg s p n
  vecs : ∀ p, (look t.parts p).map (·.trapvec) = (look s.parts p).map (·.trapvec)

theorem SameRegs.refl (s : State) : SameRegs s s := ⟨fun _ _ _ => rfl, fun _ => rfl⟩

theorem SameRegs.trans {s t u : State} (h : SameRegs s t) (k : SameRegs t u) : SameRegs s u :=
  ⟨fun p n x => (k.regs p n x).trans (h.regs p n x), fun p => (k.vecs p).trans (h.vecs p)⟩

theorem SameButMemory.sameRegs {s t : State} (h : SameButMemory s t) : SameRegs s t := by
  refine ⟨fun p n _ => ?_, fun p => by rw [h.parts]⟩
  unfold partReg
  rw [h.parts]

theorem regs_meterHost (s : State) (part k n : Nat) : SameRegs s (meterHost s part k n) := by
  unfold meterHost addMeter
  split
  · split
    · exact .refl s
    · split
      · exact .refl s
      · refine ⟨fun p m hm => ?_, fun p => ?_⟩ <;> by_cases hp : p = part
        · subst hp
          simp only [partReg, setPartReg, look_upd_same]
          cases look s.parts p with
          | none => rfl
          | some x => exact getZ_putZ_other _ (by omega) _
        · simp only [partReg, setPartReg, look_upd_other _ hp]
        · subst hp
          simp only [setPartReg, look_upd_same]
          cases look s.parts p <;> rfl
        · simp only [setPartReg, look_upd_other _ hp]
  · exact .refl s

theorem regs_writeVirtual (s : State) (part va : Nat) (bs : List Byte) : SameRegs s (writeVirtual s part va bs).s := by
  have meters (ks : List (Nat × Nat)) : ∀ s, SameRegs s (ks.foldl (fun s k => meterHost s part k.1 k.2) s) := by
    induction ks with
    | nil => exact fun s => .refl s
    | cons k ks ih => exact fun s => (regs_meterHost ..).trans (ih _)
  have h := same_placePieces part (pieces va bs.length (bs.length / 4096 + 2)) s
  unfold writeVirtual
  split
  · rename_i e; rw [e] at h; exact h.sameRegs
  · rename_i e; rw [e] at h; exact (h.trans (same_writePieces ..)).sameRegs.trans (meters ..)

theorem same_nest {s t : State} (h : SameButRecords s t) (x : Tab Nest) : SameButRecords s { t with nest := x } :=
  ⟨h.groups, h.sets, h.cores, h.blocks, h.launches, h.queues, h.kernels, h.copies, h.ises, h.faults, h.clusters, h.bands, h.equ,
    h.answers, h.clock, h.cur, h.turns, h.fresh, h.wf, fun k =>
      have t := h.tables k
      { groups := t.groups, blocks := t.blocks, launches := t.launches, parts := t.parts, eqQueues := t.eqQueues,
        eqGroups := t.eqGroups, points := t.points, regs := t.regs, files := t.files, vectors := t.vectors, shadows := t.shadows,
        numbers := t.numbers, saved := t.saved }⟩

theorem same_countEvent (s : State) (part : Nat) (core : Option Nat) (code : Nat) : SameButRecords s (countEvent s part core code) :=
  same_nest (.refl s) _

theorem same_traceUnit (s : State) (part u : Nat) (bs : List Byte) : SameButRecords s (traceUnit s part u bs) := by
  unfold traceUnit
  split
  · exact .refl s
  · exact same_nest (same_writeVirtual ..) _

theorem same_traceEvent (s : State) (part : Nat) (core : Option Nat) (sel type blk info ord : Nat) :
    SameButRecords s (traceEvent s part core sel type blk info ord) := by
  unfold traceEvent
  generalize [16, 17, 18, 19] = us
  induction us generalizing s with
  | nil => exact .refl s
  | cons u us ih =>
    simp only [List.foldl_cons]
    refine SameButRecords.trans ?_ (ih _)
    split
    · split
      · exact same_traceUnit ..
      · exact .refl s
    · exact .refl s

theorem same_faultRecord (s : State) (part type tag : Nat) (blk : Option Nat) (addr info : Dword) :
    SameButRecords s (faultRecord s part type tag blk addr info) := by
  have lose : ∀ p, look s.parts part = some p → SameButRecords s { s with parts := put s.parts part { p with lost := p.lost + 1 } } := by
    intro p hp
    have := same_updParts s part (fun p => { p with lost := p.lost + 1 }) (fun _ h => h)
    rwa [upd_eq_put hp] at this
  unfold faultRecord
  split
  · exact .refl s
  · rename_i p hp
    simp only
    split
    · split
      · exact lose p hp
      · exact ((same_writeVirtual ..).trans (same_setPartReg ..)).trans (same_updParts _ _ _ (fun _ h => h))
    · exact lose p hp

/-! ## Traps -/

theorem look_modGroup (s : State) (gid k : Nat) (f : Group → Group) :
    look (modGroup s gid f).groups k = if k = gid then (look s.groups gid).map f else look s.groups k := by
  split
  · subst_vars; exact look_upd_same ..
  · rename_i h; exact look_upd_other _ h f

theorem look_modBlock (s : State) (b k : Nat) (f : Block → Block) :
    look (modBlock s b f).blocks k = if k = b then (look s.blocks b).map f else look s.blocks k := by
  split
  · subst_vars; exact look_upd_same ..
  · rename_i h; exact look_upd_other _ h f

theorem regs_traceEvent (s : State) (part : Nat) (core : Option Nat) (sel type blk info ord : Nat) :
    SameRegs s (traceEvent s part core sel type blk info ord) := by
  have unit (s : State) (u : Nat) (bs : List Byte) : SameRegs s (traceUnit s part u bs) := by
    unfold traceUnit
    split
    · exact .refl _
    · exact ⟨(regs_writeVirtual s part _ bs).regs, (regs_writeVirtual s part _ bs).vecs⟩
  unfold traceEvent
  generalize [16, 17, 18, 19] = us
  induction us generalizing s with
  | nil => exact .refl _
  | cons u us ih =>
    simp only [List.foldl_cons]
    refine SameRegs.trans ?_ (ih _)
    split
    · split
      · exact unit ..
      · exact .refl _
    · exact .refl _

theorem handlerEntry_same {s t : State} (hp : SameRegs s t) (hk : t.kernels = s.kernels) (part : Nat) :
    handlerEntry t part = handlerEntry s part := by
  have v := hp.vecs part
  unfold handlerEntry
  rw [hk]
  cases ht : look t.parts part <;> cases hs : look s.parts part <;> rw [ht, hs] at v <;> simp only [Option.map_some,
    Option.map_none, Option.some.injEq, reduceCtorEq] at v <;> simp only [v]

/-- R270: what disarming a hop leaves. -/
theorem disarmHop_rest (s : State) (blk : Nat) : (disarmHop s blk).parts = s.parts ∧ (disarmHop s blk).kernels = s.kernels ∧
    (disarmHop s blk).cores = s.cores ∧ (disarmHop s blk).sets = s.sets ∧ (disarmHop s blk).mem = s.mem ∧
    (disarmHop s blk).free = s.free ∧ (disarmHop s blk).clock = s.clock := by
  unfold disarmHop
  split
  · simp
  · split
    · simp
    · simp [countEvent, unholdBands, modBlock]

theorem disarmHop_group (s : State) (blk gid : Nat) : ∀ g, look s.groups gid = some g →
    ∃ t, look (disarmHop s blk).groups gid = some t ∧ (t = g ∨ t = { g with park := none, readyAt := some s.clock }) := by
  intro g hg
  unfold disarmHop
  split
  · exact ⟨g, hg, .inl rfl⟩
  · split
    · exact ⟨g, hg, .inl rfl⟩
    · simp only [countEvent, unholdBands, modBlock]
      rw [look_map _ (by intro e; split <;> (try split) <;> rfl), hg]
      simp only [Option.map_some]
      refine ⟨_, rfl, ?_⟩
      split
      · split
        · exact .inr rfl
        · exact .inl rfl
      · exact .inl rfl

theorem disarmHop_block (s : State) (blk k : Nat) (b : Block) (h : look s.blocks k = some b) : 
    ∃ t, look (disarmHop s blk).blocks k = some t ∧ (t = b ∨ t = { b with hop := none }) := by
  unfold disarmHop
  split
  · exact ⟨b, h, .inl rfl⟩
  · split
    · exact ⟨b, h, .inl rfl⟩
    · simp only [countEvent, unholdBands, modBlock]
      by_cases hk : k = blk
      · subst hk; simp [h]
      · rw [look_upd_other _ hk]; exact ⟨b, h, .inl rfl⟩

/-- A change of one group that keeps its register files in order keeps the tables in order. -/
theorem tables_modGroup {s : State} (gid : Nat) (f : Group → Group) (h : ∀ g, Files g → Files (f g))
    (k : Tables s) : Tables (modGroup s gid f) where
  groups := rising_upd _ _ k.groups
  blocks := k.blocks
  launches := k.launches
  parts := k.parts
  eqQueues := k.eqQueues
  eqGroups := k.eqGroups
  points := k.points
  regs := k.regs
  files := by
    intro e he
    rcases mem_upd he with he | ⟨v, hv, rfl⟩
    · exact k.files e he
    · exact h v (k.files _ hv)
  vectors := k.vectors
  shadows := k.shadows
  numbers := by
    intro e he
    rcases mem_upd he with he | ⟨v, hv, rfl⟩
    · exact k.numbers e he
    · have := k.numbers _ hv
      exact this
  saved := k.saved

/-- A change of one block that keeps what it has saved keeps the tables in order. -/
theorem tables_modBlock {s : State} (blk : Nat) (f : Block → Block)
    (h : ∀ b x, (f b).saved = some x → ∃ y, b.saved = some y ∧ x.groups = y.groups) (k : Tables s) : Tables (modBlock s blk f) where
  groups := k.groups
  blocks := rising_upd _ _ k.blocks
  launches := k.launches
  parts := k.parts
  eqQueues := k.eqQueues
  eqGroups := k.eqGroups
  points := k.points
  regs := k.regs
  files := k.files
  vectors := k.vectors
  shadows := k.shadows
  numbers := k.numbers
  saved := by
    intro e he x hx g hg
    rcases mem_upd he with he | ⟨v, hv, rfl⟩
    · exact k.saved e he x hx g hg
    · obtain ⟨y, hy, hyx⟩ := h v x hx
      exact k.saved _ hv y hy g (hyx ▸ hg)

theorem tables_setCore {s : State} (core : Nat) (c : Core) (h : rising c.shadow.ctx.tl = true) (k : Tables s) :
    Tables (setCore s core c) where
  groups := k.groups
  blocks := k.blocks
  launches := k.launches
  parts := k.parts
  eqQueues := k.eqQueues
  eqGroups := k.eqGroups
  points := k.points
  regs := k.regs
  files := k.files
  vectors := k.vectors
  shadows := by
    intro e he
    rcases mem_put he with rfl | he
    · exact h
    · exact k.shadows e he
  numbers := k.numbers
  saved := k.saved

theorem disarmHop_tables {s : State} (blk : Nat) (k : Tables s) : Tables (disarmHop s blk) := by
  unfold disarmHop
  split
  · exact k
  · split
    · exact k
    · have k1 : Tables (modBlock s blk (fun b => { b with hop := none })) := tables_modBlock blk _ (fun b x h => ⟨x, h, rfl⟩) k
      generalize modBlock s blk (fun b => { b with hop := none }) = s1 at k1
      refine (same_countEvent ..).tables ?_
      exact
        { groups := by
            show rising (List.map _ s1.groups) = true
            rw [rising_map]
            · exact k1.groups
            · intro e
              split <;> (try split) <;> rfl
          blocks := k1.blocks
          launches := k1.launches
          parts := k1.parts
          eqQueues := k1.eqQueues
          eqGroups := k1.eqGroups
          points := k1.points
          regs := k1.regs
          files := by
            intro e he
            obtain ⟨x, hx, rfl⟩ := List.mem_map.1 he
            have y := k1.files x hx
            split <;> (try split) <;> exact ⟨y.scalars, y.predicates, y.bindings, y.accumulators⟩
          vectors := k1.vectors
          shadows := k1.shadows
          numbers := by
            intro e he
            obtain ⟨x, hx, rfl⟩ := List.mem_map.1 he
            split <;> (try split) <;> exact k1.numbers x hx
          saved := k1.saved }

theorem disarmHop_same (s : State) (blk : Nat) : (disarmHop s blk).turns = s.turns ∧ (disarmHop s blk).cur = s.cur ∧
    (disarmHop s blk).fresh = s.fresh ∧ (disarmHop s blk).launches = s.launches ∧ (disarmHop s blk).queues = s.queues ∧
    (disarmHop s blk).faults = s.faults ∧ (disarmHop s blk).clusters = s.clusters ∧ (disarmHop s blk).hours = s.hours := by
  unfold disarmHop
  split
  · simp
  · split
    · simp
    · simp [countEvent, unholdBands, modBlock]

/-- R391, R392: what delivering a trap keeps: memory canonical and the tables in order. -/
theorem deliverTrap_keeps (s : State) (gid : Nat) (x : Trap) :
    (Tables s → Tables (deliverTrap s gid x)) ∧ (Memory.wf s.mem = true → Memory.wf (deliverTrap s gid x).mem = true) := by
  unfold deliverTrap
  split
  · exact ⟨id, id⟩
  · rename_i g hg
    split
    · exact ⟨id, id⟩
    · rename_i b hb
      simp only
      have k2 : Tables s → Tables (disarmHop (modGroup s gid (fun g => { g with trap := none })) g.block) :=
        fun k => disarmHop_tables _ (tables_modGroup gid _ (fun _ h => ⟨h.scalars, h.predicates, h.bindings, h.accumulators⟩) k)
      have m2 : (disarmHop (modGroup s gid (fun g => { g with trap := none })) g.block).mem = s.mem := (disarmHop_rest _ _).2.2.2.2.1
      generalize disarmHop (modGroup s gid (fun g => { g with trap := none })) g.block = s2 at k2 m2
      have r3 := (same_countEvent s2 b.part (some g.core) 0x12).trans
        (same_traceEvent _ b.part (some g.core) 1 2 b.index x.cause g.lastSafe)
      generalize traceEvent (countEvent s2 b.part (some g.core) 0x12) b.part (some g.core) 1 2 b.index x.cause g.lastSafe = s3 at r3
      split
      · have r4 := same_faultRecord (freezeBlock s3 g.block .unhandled) b.part 0x09 0 (some g.block) x.word (BitVec.ofNat 64 x.cause)
        refine ⟨fun k => r4.tables (tables_modBlock _ _ (fun b x h => ⟨x, h, rfl⟩) (r3.tables (k2 k))), fun m => r4.wf (r3.wf ?_)⟩
        rw [m2]
        exact m
      · refine ⟨fun k => ?_, fun m => r3.wf (m2 ▸ m)⟩
        refine tables_modGroup gid _ (fun _ h => ⟨h.scalars, h.predicates, h.bindings, h.accumulators⟩) ?_
        have := tables_setCore g.core { coreOf s3 g.core with shadow := entryBank s3 g x ‹_›, serving := some gid } rfl (r3.tables (k2 k))
        exact ⟨this.groups, this.blocks, this.launches, this.parts, this.eqQueues, this.eqGroups, this.points, this.regs, this.files,
          this.vectors, this.shadows, this.numbers, this.saved⟩

end Sys2Proof.Machine
end

