-- ==== Sys2Proof/Laws/PerInstr.lean ====
section
/-! SUPPORT. The family `Encoding`, instruction by instruction: the word of an instruction carries its fixed fields where R89
puts them, and its class by R100. -/

namespace Sys2Proof.Laws

open Sys2Proof Sys2Proof.Machine

/-! ## Fields of a packed word -/

/-- R89: SW, STOP, PRED and SENSE. -/
theorem fixedOf_packWord (cls minor : Nat) (f : Fixed) (hi : BitVec 32) (lo : BitVec 12) :
    fixedOf (packWord cls minor f hi lo) = f := by
  obtain ⟨sw, stop, pred, sense⟩ := f
  have h1 : (packWord cls minor ⟨sw, stop, pred, sense⟩ hi lo).extractLsb' 63 1 = ofBit sw := by
    unfold packWord
    ext i hi'
    obtain rfl : i = 0 := by omega
    simp only [BitVec.getElem_extractLsb', BitVec.getLsbD_append]
    rw [← BitVec.getLsbD_eq_getElem]
    simp
  have h2 : (packWord cls minor ⟨sw, stop, pred, sense⟩ hi lo).extractLsb' 62 1 = ofBit stop := by
    unfold packWord
    ext i hi'
    obtain rfl : i = 0 := by omega
    simp only [BitVec.getElem_extractLsb', BitVec.getLsbD_append]
    rw [← BitVec.getLsbD_eq_getElem]
    simp
  have h3 : (packWord cls minor ⟨sw, stop, pred, sense⟩ hi lo).extractLsb' 13 3 = pred := by
    unfold packWord
    ext i hi'
    simp only [BitVec.getElem_extractLsb', BitVec.getLsbD_append]
    rw [← BitVec.getLsbD_eq_getElem]
    have : i = 0 ∨ i = 1 ∨ i = 2 := by omega
    rcases this with h | h | h <;> subst h <;> simp
  have h4 : (packWord cls minor ⟨sw, stop, pred, sense⟩ hi lo).extractLsb' 12 1 = ofBit sense := by
    unfold packWord
    ext i hi'
    obtain rfl : i = 0 := by omega
    simp only [BitVec.getElem_extractLsb', BitVec.getLsbD_append]
    rw [← BitVec.getLsbD_eq_getElem]
    simp
  simp only [fixedOf, h1, h2, h3, h4]
  cases sw <;> cases stop <;> cases sense <;> rfl

/-- R89: the class. -/
theorem classOf_packWord (cls minor : Nat) (f : Fixed) (hi : BitVec 32) (lo : BitVec 12) :
    classOf (packWord cls minor f hi lo) = cls % 64 := by
  have h : (packWord cls minor f hi lo).extractLsb' 56 6 = BitVec.ofNat 6 cls := by
    unfold packWord
    ext i hi'
    simp only [BitVec.getElem_extractLsb', BitVec.getLsbD_append]
    rw [← BitVec.getLsbD_eq_getElem]
    have : i = 0 ∨ i = 1 ∨ i = 2 ∨ i = 3 ∨ i = 4 ∨ i = 5 := by omega
    rcases this with h | h | h | h | h | h <;> subst h <;> simp
  simp only [classOf, h, BitVec.toNat_ofNat]

/-- R89: the minor. -/
theorem minorOf_packWord (cls minor : Nat) (f : Fixed) (hi : BitVec 32) (lo : BitVec 12) :
    minorOf (packWord cls minor f hi lo) = minor % 256 := by
  have h : (packWord cls minor f hi lo).extractLsb' 48 8 = BitVec.ofNat 8 minor := by
    unfold packWord
    ext i hi'
    simp only [BitVec.getElem_extractLsb', BitVec.getLsbD_append]
    rw [← BitVec.getLsbD_eq_getElem]
    have : i = 0 ∨ i = 1 ∨ i = 2 ∨ i = 3 ∨ i = 4 ∨ i = 5 ∨ i = 6 ∨ i = 7 := by omega
    rcases this with h | h | h | h | h | h | h | h <;> subst h <;> simp
  simp only [minorOf, h, BitVec.toNat_ofNat]

/-! ## The fields of each instruction -/

/-- R100: the class of an integer word. -/
def intClass : IntForm → Nat
  | .salu .. => 0x01
  | .salui .. => 0x02
  | .valu .. => 0x03
  | .valui .. => 0x04

/-- The fixed fields and the class of a word; none for a step that is no word. -/
def fieldsOf : Instr → Option (Fixed × Nat)
  | .nop f => some (f, 0x00)
  | .addInteger f o => some (f, intClass o)
  | .subInteger f o => some (f, intClass o)
  | .mulInteger f o => some (f, intClass o)
  | .mulhi f o => some (f, intClass o)
  | .madInteger f o => some (f, intClass o)
  | .andInteger f o => some (f, intClass o)
  | .orInteger f o => some (f, intClass o)
  | .xorInteger f o => some (f, intClass o)
  | .shl f o => some (f, intClass o)
  | .shr f o => some (f, intClass o)
  | .sar f o => some (f, intClass o)
  | .minInteger f o => some (f, intClass o)
  | .maxInteger f o => some (f, intClass o)
  | .absInteger f o => some (f, intClass o)
  | .movInteger f o => some (f, intClass o)
  | .negInteger f o => some (f, intClass o)
  | .popc f _ => some (f, 0x05)
  | .clz f _ => some (f, 0x05)
  | .brev f _ => some (f, 0x05)
  | .bfe f _ => some (f, 0x05)
  | .bfi f _ => some (f, 0x05)
  | .cmp f _ _ => some (f, 0x06)
  | .sel f _ => some (f, 0x06)
  | .pand f _ => some (f, 0x06)
  | .por f _ => some (f, 0x06)
  | .pxor f _ => some (f, 0x06)
  | .pnot f _ => some (f, 0x06)
  | .addFloat f _ => some (f, 0x07)
  | .subFloat f _ => some (f, 0x07)
  | .mulFloat f _ => some (f, 0x07)
  | .fma f _ => some (f, 0x07)
  | .fnma f _ => some (f, 0x07)
  | .minFloat f _ => some (f, 0x07)
  | .maxFloat f _ => some (f, 0x07)
  | .absFloat f _ => some (f, 0x07)
  | .negFloat f _ => some (f, 0x07)
  | .rcp f _ => some (f, 0x08)
  | .rsqrt f _ => some (f, 0x08)
  | .sqrt f _ => some (f, 0x08)
  | .exp2 f _ => some (f, 0x08)
  | .log2 f _ => some (f, 0x08)
  | .sinpi f _ => some (f, 0x08)
  | .cospi f _ => some (f, 0x08)
  | .tanh f _ => some (f, 0x08)
  | .cvt f _ => some (f, 0x09)
  | .pack f _ => some (f, 0x09)
  | .unpack f _ => some (f, 0x09)
  | .dxenc f _ => some (f, 0x0A)
  | .dxdec f _ => some (f, 0x0A)
  | .mxenc f _ => some (f, 0x0A)
  | .mxdec f _ => some (f, 0x0A)
  | .crd f _ _ => some (f, 0x0B)
  | .cwr f _ _ => some (f, 0x0B)
  | .li f _ _ => some (f, 0x0C)
  | .lih f _ _ => some (f, 0x0C)
  | .liPair f _ _ => some (f, 0x0C)
  | .ld f _ => some (f, 0x10)
  | .st f _ => some (f, 0x11)
  | .atomAdd f _ => some (f, 0x12)
  | .atomMin f _ => some (f, 0x12)
  | .atomMax f _ => some (f, 0x12)
  | .atomAnd f _ => some (f, 0x12)
  | .atomOr f _ => some (f, 0x12)
  | .atomXor f _ => some (f, 0x12)
  | .atomXchg f _ => some (f, 0x12)
  | .atomCas f _ => some (f, 0x12)
  | .atomLd f _ => some (f, 0x12)
  | .atomSt f _ => some (f, 0x12)
  | .fence f _ _ => some (f, 0x13)
  | .cstore f _ _ => some (f, 0x14)
  | .xload f _ _ => some (f, 0x14)
  | .acopy f _ => some (f, 0x15)
  | .acopyPull f _ => some (f, 0x15)
  | .gath f _ => some (f, 0x16)
  | .scat f _ => some (f, 0x16)
  | .tlwait f _ _ _ => some (f, 0x17)
  | .tlbind f _ _ _ => some (f, 0x17)
  | .tlread f _ _ _ => some (f, 0x17)
  | .tbarInit f _ => some (f, 0x18)
  | .tbarArrive f _ => some (f, 0x18)
  | .tbarExpect f _ => some (f, 0x18)
  | .tbarWait f _ => some (f, 0x18)
  | .predhint f => some (f, 0x19)
  | .waitpred f => some (f, 0x19)
  | .br f _ => some (f, 0x20)
  | .call f _ => some (f, 0x20)
  | .brind f _ => some (f, 0x21)
  | .callind f _ _ => some (f, 0x21)
  | .ret f _ => some (f, 0x21)
  | .gjoin f _ _ => some (f, 0x22)
  | .gleave f => some (f, 0x22)
  | .elect f _ => some (f, 0x22)
  | .ballot f _ => some (f, 0x22)
  | .shfl f _ => some (f, 0x23)
  | .shflX f _ => some (f, 0x23)
  | .grow f _ => some (f, 0x24)
  | .shrink f _ => some (f, 0x24)
  | .spawn f _ => some (f, 0x25)
  | .klaunch f _ => some (f, 0x25)
  | .eqenq f _ => some (f, 0x26)
  | .eqstat f _ => some (f, 0x26)
  | .hopReq f _ => some (f, 0x27)
  | .mwait f _ _ _ _ => some (f, 0x28)
  | .trap f _ => some (f, 0x29)
  | .tret f => some (f, 0x29)
  | .cnclaim f _ => some (f, 0x29)
  | .cnfree f _ => some (f, 0x29)
  | .xrd f _ => some (f, 0x29)
  | .xwr f _ => some (f, 0x29)
  | .tcfg f _ => some (f, 0x30)
  | .mma f _ _ _ => some (f, 0x31)
  | .mmaPair f _ _ _ => some (f, 0x31)
  | .aalloc f _ => some (f, 0x32)
  | .afree f _ => some (f, 0x32)
  | .aclaim f _ => some (f, 0x32)
  | .ard f _ _ => some (f, 0x32)
  | .azero f _ => some (f, 0x32)
  | .vstrip f _ => some (f, 0x33)
  | .vsrc f _ => some (f, 0x33)
  | .vsnk f _ => some (f, 0x33)
  | .vaccReset f _ => some (f, 0x33)
  | .vdrain f _ => some (f, 0x33)
  | .fload f _ => some (f, 0x34)
  | .frun f _ => some (f, 0x34)
  | .fdrain f _ => some (f, 0x34)
  | .fsave f _ => some (f, 0x34)
  | .fpush f _ _ _ => some (f, 0x34)
  | .fpop f _ _ => some (f, 0x34)
  | .shflXMatch .. | .rowGrant .. | .groupSwapIn .. | .allocationSetReturn .. | .mwaitRecheck ..
  | .matrixPassGrant .. | .matrixPassAgeing .. | .matrixPassRetire .. | .bandOpCompletion .. | .stageFiring ..
  | .rareEventGroup .. | .rowWakeDone .. | .rowInstallDone .. | .rowLower .. | .rowHoist .. | .configStoreReload ..
  | .portSpillRetry .. | .longLatencyResult .. | .groupUnpark .. | .activeSetEntry .. | .groupStarvation ..
  | .trapDelivery .. | .copyExecute .. | .iseExecute .. | .iseSpillRetry .. | .engineOpCompletion ..
  | .translationFaultRecord .. | .translationFaultTimeout .. | .xlresRetry .. | .xlresFail .. | .tlbInvalidate ..
  | .invalidationComplete .. | .hopCommit .. | .hopDisarm .. | .codeObjectLoad .. | .coldGranuleCopy ..
  | .icacheFill .. | .queueNotify .. | .queueSlotMap .. | .launchBegin .. | .blockPlacement .. | .blockEnd ..
  | .launchCompletion .. | .hangFreeze .. | .eqLoadQueue .. | .eqLoadGroup .. | .eqUnloadQueue .. | .eqUnloadGroup ..
  | .queueUnloadComplete .. | .equDispatchDecision | .combineMark .. | .preemption .. | .blockRestore ..
  | .partitionCreate .. | .partitionDestroy .. | .secondStageEdit .. | .partitionSwapOut .. | .partitionSwapIn ..
  | .getMeasurements .. | .epochClose .. | .ideStreamViolation .. | .hypervisorRegisterWrite .. | .halt .. | .save ..
  | .restore .. | .resume .. | .kill .. | .release .. | .detach .. | .counterIntervalRecord .. | .traceSample ..
  | .uncorrectableError .. | .hbmScrub .. | .operatingPointChange .. | .deviceReset .. | .enterTest | .leaveTest
  | .leaveRecovery | .checkpoint | .checkpointRestore | .linkPortDown .. | .linkPortTrained .. | .storeQueueDrain ..
  | .memoryPortElement .. | .tdispRequest .. | .hostBarRequest .. | .peerWindowAccess .. | .startRecordClear
  | .repairMapAdd .. => none

namespace Encoding

/-- The word of `i` has its fixed fields and its class where R89 puts them. -/
def Statement (i : Instr) : Prop :=
  match fieldsOf i with
  | some (f, cls) => fixed i = f ∧ (classMinor i).1 = cls
  | none => i.isWord = false

theorem of_packWord {i : Instr} {cls minor : Nat} {f : Fixed} {hi : BitVec 32} {lo : BitVec 12}
    (h : i.encode = packWord cls minor f hi lo) (hc : cls < 64) : fixed i = f ∧ (classMinor i).1 = cls := by
  simp only [fixed, classMinor, h, fixedOf_packWord, classOf_packWord, Nat.mod_eq_of_lt hc, and_self]

theorem of_encInt {i : Instr} {op : Nat} {f : Fixed} {o : IntForm} (h : i.encode = encInt op f o) :
    fixed i = f ∧ (classMinor i).1 = intClass o := by
  cases o <;> exact of_packWord h (by simp [intClass])

theorem nop (f : Fixed) : Statement (.nop f) := of_packWord rfl (by decide)
theorem addInteger (f : Fixed) (o : IntForm) : Statement (.addInteger f o) := of_encInt rfl
theorem subInteger (f : Fixed) (o : IntForm) : Statement (.subInteger f o) := of_encInt rfl
theorem mulInteger (f : Fixed) (o : IntForm) : Statement (.mulInteger f o) := of_encInt rfl
theorem mulhi (f : Fixed) (o : IntForm) : Statement (.mulhi f o) := of_encInt rfl
theorem madInteger (f : Fixed) (o : IntForm) : Statement (.madInteger f o) := of_encInt rfl
theorem andInteger (f : Fixed) (o : IntForm) : Statement (.andInteger f o) := of_encInt rfl
theorem orInteger (f : Fixed) (o : IntForm) : Statement (.orInteger f o) := of_encInt rfl
theorem xorInteger (f : Fixed) (o : IntForm) : Statement (.xorInteger f o) := of_encInt rfl
theorem shl (f : Fixed) (o : IntForm) : Statement (.shl f o) := of_encInt rfl
theorem shr (f : Fixed) (o : IntForm) : Statement (.shr f o) := of_encInt rfl
theorem sar (f : Fixed) (o : IntForm) : Statement (.sar f o) := of_encInt rfl
theorem minInteger (f : Fixed) (o : IntForm) : Statement (.minInteger f o) := of_encInt rfl
theorem maxInteger (f : Fixed) (o : IntForm) : Statement (.maxInteger f o) := of_encInt rfl
theorem absInteger (f : Fixed) (o : IntForm) : Statement (.absInteger f o) := of_encInt rfl
theorem movInteger (f : Fixed) (o : IntForm) : Statement (.movInteger f o) := of_encInt rfl
theorem negInteger (f : Fixed) (o : IntForm) : Statement (.negInteger f o) := of_encInt rfl
theorem popc (f : Fixed) (o : BitForm) : Statement (.popc f o) := of_packWord rfl (by decide)
theorem clz (f : Fixed) (o : BitForm) : Statement (.clz f o) := of_packWord rfl (by decide)
theorem brev (f : Fixed) (o : BitForm) : Statement (.brev f o) := of_packWord rfl (by decide)
theorem bfe (f : Fixed) (o : BitForm) : Statement (.bfe f o) := of_packWord rfl (by decide)
theorem bfi (f : Fixed) (o : BitForm) : Statement (.bfi f o) := of_packWord rfl (by decide)
theorem cmp (f : Fixed) (cond : Cond) (o : BitForm) : Statement (.cmp f cond o) := of_packWord rfl (by decide)
theorem sel (f : Fixed) (o : BitForm) : Statement (.sel f o) := of_packWord rfl (by decide)
theorem pand (f : Fixed) (o : Ops4) : Statement (.pand f o) := of_packWord rfl (by decide)
theorem por (f : Fixed) (o : Ops4) : Statement (.por f o) := of_packWord rfl (by decide)
theorem pxor (f : Fixed) (o : Ops4) : Statement (.pxor f o) := of_packWord rfl (by decide)
theorem pnot (f : Fixed) (o : Ops4) : Statement (.pnot f o) := of_packWord rfl (by decide)
theorem addFloat (f : Fixed) (o : FaluForm) : Statement (.addFloat f o) := of_packWord rfl (by decide)
theorem subFloat (f : Fixed) (o : FaluForm) : Statement (.subFloat f o) := of_packWord rfl (by decide)
theorem mulFloat (f : Fixed) (o : FaluForm) : Statement (.mulFloat f o) := of_packWord rfl (by decide)
theorem fma (f : Fixed) (o : FaluForm) : Statement (.fma f o) := of_packWord rfl (by decide)
theorem fnma (f : Fixed) (o : FaluForm) : Statement (.fnma f o) := of_packWord rfl (by decide)
theorem minFloat (f : Fixed) (o : FaluForm) : Statement (.minFloat f o) := of_packWord rfl (by decide)
theorem maxFloat (f : Fixed) (o : FaluForm) : Statement (.maxFloat f o) := of_packWord rfl (by decide)
theorem absFloat (f : Fixed) (o : FaluForm) : Statement (.absFloat f o) := of_packWord rfl (by decide)
theorem negFloat (f : Fixed) (o : FaluForm) : Statement (.negFloat f o) := of_packWord rfl (by decide)
theorem rcp (f : Fixed) (o : TrnForm) : Statement (.rcp f o) := of_packWord rfl (by decide)
theorem rsqrt (f : Fixed) (o : TrnForm) : Statement (.rsqrt f o) := of_packWord rfl (by decide)
theorem sqrt (f : Fixed) (o : TrnForm) : Statement (.sqrt f o) := of_packWord rfl (by decide)
theorem exp2 (f : Fixed) (o : TrnForm) : Statement (.exp2 f o) := of_packWord rfl (by decide)
theorem log2 (f : Fixed) (o : TrnForm) : Statement (.log2 f o) := of_packWord rfl (by decide)
theorem sinpi (f : Fixed) (o : TrnForm) : Statement (.sinpi f o) := of_packWord rfl (by decide)
theorem cospi (f : Fixed) (o : TrnForm) : Statement (.cospi f o) := of_packWord rfl (by decide)
theorem tanh (f : Fixed) (o : TrnForm) : Statement (.tanh f o) := of_packWord rfl (by decide)
theorem cvt (f : Fixed) (o : CvtForm) : Statement (.cvt f o) := of_packWord rfl (by decide)
theorem pack (f : Fixed) (o : CvtForm) : Statement (.pack f o) := of_packWord rfl (by decide)
theorem unpack (f : Fixed) (o : CvtForm) : Statement (.unpack f o) := of_packWord rfl (by decide)
theorem dxenc (f : Fixed) (o : BlkForm) : Statement (.dxenc f o) := of_packWord rfl (by decide)
theorem dxdec (f : Fixed) (o : BlkForm) : Statement (.dxdec f o) := of_packWord rfl (by decide)
theorem mxenc (f : Fixed) (o : BlkForm) : Statement (.mxenc f o) := of_packWord rfl (by decide)
theorem mxdec (f : Fixed) (o : BlkForm) : Statement (.mxdec f o) := of_packWord rfl (by decide)
theorem crd (f : Fixed) (d : Reg) (num : BitVec 25) : Statement (.crd f d num) := of_packWord rfl (by decide)
theorem cwr (f : Fixed) (a : Reg) (num : BitVec 25) : Statement (.cwr f a num) := of_packWord rfl (by decide)
theorem li (f : Fixed) (d : Reg) (imm : BitVec 35) : Statement (.li f d imm) := of_packWord rfl (by decide)
theorem lih (f : Fixed) (d : Reg) (imm : BitVec 35) : Statement (.lih f d imm) := of_packWord rfl (by decide)
theorem liPair (f : Fixed) (d : Reg) (imm : BitVec 35) : Statement (.liPair f d imm) := of_packWord rfl (by decide)
theorem ld (f : Fixed) (o : MemForm) : Statement (.ld f o) := of_packWord rfl (by decide)
theorem st (f : Fixed) (o : MemForm) : Statement (.st f o) := of_packWord rfl (by decide)
theorem atomAdd (f : Fixed) (o : AtomForm) : Statement (.atomAdd f o) := of_packWord rfl (by decide)
theorem atomMin (f : Fixed) (o : AtomForm) : Statement (.atomMin f o) := of_packWord rfl (by decide)
theorem atomMax (f : Fixed) (o : AtomForm) : Statement (.atomMax f o) := of_packWord rfl (by decide)
theorem atomAnd (f : Fixed) (o : AtomForm) : Statement (.atomAnd f o) := of_packWord rfl (by decide)
theorem atomOr (f : Fixed) (o : AtomForm) : Statement (.atomOr f o) := of_packWord rfl (by decide)
theorem atomXor (f : Fixed) (o : AtomForm) : Statement (.atomXor f o) := of_packWord rfl (by decide)
theorem atomXchg (f : Fixed) (o : AtomForm) : Statement (.atomXchg f o) := of_packWord rfl (by decide)
theorem atomCas (f : Fixed) (o : AtomForm) : Statement (.atomCas f o) := of_packWord rfl (by decide)
theorem atomLd (f : Fixed) (o : AtomForm) : Statement (.atomLd f o) := of_packWord rfl (by decide)
theorem atomSt (f : Fixed) (o : AtomForm) : Statement (.atomSt f o) := of_packWord rfl (by decide)
theorem fence (f : Fixed) (scope : Scope) (ord : Order) :
    Statement (.fence f scope ord) := of_packWord rfl (by decide)
theorem cstore (f : Fixed) (w64 : Bool) (o : AddrForm) : Statement (.cstore f w64 o) := of_packWord rfl (by decide)
theorem xload (f : Fixed) (w64 : Bool) (o : AddrForm) : Statement (.xload f w64 o) := of_packWord rfl (by decide)
theorem acopy (f : Fixed) (o : Ops4) : Statement (.acopy f o) := of_packWord rfl (by decide)
theorem acopyPull (f : Fixed) (o : Ops4) : Statement (.acopyPull f o) := of_packWord rfl (by decide)
theorem gath (f : Fixed) (o : Ops4) : Statement (.gath f o) := of_packWord rfl (by decide)
theorem scat (f : Fixed) (o : Ops4) : Statement (.scat f o) := of_packWord rfl (by decide)
theorem tlwait (f : Fixed) (d : Reg) (a : Reg) (imm : BitVec 25) :
    Statement (.tlwait f d a imm) := of_packWord rfl (by decide)
theorem tlbind (f : Fixed) (d : Reg) (a : Reg) (imm : BitVec 25) :
    Statement (.tlbind f d a imm) := of_packWord rfl (by decide)
theorem tlread (f : Fixed) (d : Reg) (a : Reg) (imm : BitVec 25) :
    Statement (.tlread f d a imm) := of_packWord rfl (by decide)
theorem tbarInit (f : Fixed) (o : AddrForm) : Statement (.tbarInit f o) := of_packWord rfl (by decide)
theorem tbarArrive (f : Fixed) (o : AddrForm) : Statement (.tbarArrive f o) := of_packWord rfl (by decide)
theorem tbarExpect (f : Fixed) (o : AddrForm) : Statement (.tbarExpect f o) := of_packWord rfl (by decide)
theorem tbarWait (f : Fixed) (o : AddrForm) : Statement (.tbarWait f o) := of_packWord rfl (by decide)
theorem predhint (f : Fixed) : Statement (.predhint f) := of_packWord rfl (by decide)
theorem waitpred (f : Fixed) : Statement (.waitpred f) := of_packWord rfl (by decide)
theorem br (f : Fixed) (off : BitVec 32) : Statement (.br f off) := of_packWord rfl (by decide)
theorem call (f : Fixed) (off : BitVec 32) : Statement (.call f off) := of_packWord rfl (by decide)
theorem brind (f : Fixed) (a : Reg) : Statement (.brind f a) := of_packWord rfl (by decide)
theorem callind (f : Fixed) (d : Reg) (a : Reg) : Statement (.callind f d a) := of_packWord rfl (by decide)
theorem ret (f : Fixed) (a : Reg) : Statement (.ret f a) := of_packWord rfl (by decide)
theorem gjoin (f : Fixed) (a : Reg) (tag : BitVec 25) : Statement (.gjoin f a tag) := of_packWord rfl (by decide)
theorem gleave (f : Fixed) : Statement (.gleave f) := of_packWord rfl (by decide)
theorem elect (f : Fixed) (d : Reg) : Statement (.elect f d) := of_packWord rfl (by decide)
theorem ballot (f : Fixed) (d : Reg) : Statement (.ballot f d) := of_packWord rfl (by decide)
theorem shfl (f : Fixed) (o : ShflForm) : Statement (.shfl f o) := of_packWord rfl (by decide)
theorem shflX (f : Fixed) (o : ShflForm) : Statement (.shflX f o) := of_packWord rfl (by decide)
theorem grow (f : Fixed) (n : BitVec 25) : Statement (.grow f n) := of_packWord rfl (by decide)
theorem shrink (f : Fixed) (n : BitVec 25) : Statement (.shrink f n) := of_packWord rfl (by decide)
theorem spawn (f : Fixed) (o : Ops4) : Statement (.spawn f o) := of_packWord rfl (by decide)
theorem klaunch (f : Fixed) (o : Ops4) : Statement (.klaunch f o) := of_packWord rfl (by decide)
theorem eqenq (f : Fixed) (o : Ops4) : Statement (.eqenq f o) := of_packWord rfl (by decide)
theorem eqstat (f : Fixed) (o : Ops4) : Statement (.eqstat f o) := of_packWord rfl (by decide)
theorem hopReq (f : Fixed) (n : BitVec 25) : Statement (.hopReq f n) := of_packWord rfl (by decide)
theorem mwait (f : Fixed) (cond : WaitCond) (o : AddrForm) (scope : Scope) (ord : Order) :
    Statement (.mwait f cond o scope ord) := of_packWord rfl (by decide)
theorem trap (f : Fixed) (n : BitVec 4) : Statement (.trap f n) := of_packWord rfl (by decide)
theorem tret (f : Fixed) : Statement (.tret f) := of_packWord rfl (by decide)
theorem cnclaim (f : Fixed) (o : Ops4) : Statement (.cnclaim f o) := of_packWord rfl (by decide)
theorem cnfree (f : Fixed) (o : Ops4) : Statement (.cnfree f o) := of_packWord rfl (by decide)
theorem xrd (f : Fixed) (o : Ops4) : Statement (.xrd f o) := of_packWord rfl (by decide)
theorem xwr (f : Fixed) (o : Ops4) : Statement (.xwr f o) := of_packWord rfl (by decide)
theorem tcfg (f : Fixed) (o : Ops4) : Statement (.tcfg f o) := of_packWord rfl (by decide)
theorem mma (f : Fixed) (sat : Bool) (tl : BitVec 3) (o : Ops4) :
    Statement (.mma f sat tl o) := of_packWord rfl (by decide)
theorem mmaPair (f : Fixed) (sat : Bool) (tl : BitVec 3) (o : Ops4) :
    Statement (.mmaPair f sat tl o) := of_packWord rfl (by decide)
theorem aalloc (f : Fixed) (o : Ops4) : Statement (.aalloc f o) := of_packWord rfl (by decide)
theorem afree (f : Fixed) (o : Ops4) : Statement (.afree f o) := of_packWord rfl (by decide)
theorem aclaim (f : Fixed) (o : Ops4) : Statement (.aclaim f o) := of_packWord rfl (by decide)
theorem ard (f : Fixed) (w64 : Bool) (o : Ops4) : Statement (.ard f w64 o) := of_packWord rfl (by decide)
theorem azero (f : Fixed) (o : Ops4) : Statement (.azero f o) := of_packWord rfl (by decide)
theorem vstrip (f : Fixed) (o : Ops4) : Statement (.vstrip f o) := of_packWord rfl (by decide)
theorem vsrc (f : Fixed) (o : Ops4) : Statement (.vsrc f o) := of_packWord rfl (by decide)
theorem vsnk (f : Fixed) (o : Ops4) : Statement (.vsnk f o) := of_packWord rfl (by decide)
theorem vaccReset (f : Fixed) (o : Ops4) : Statement (.vaccReset f o) := of_packWord rfl (by decide)
theorem vdrain (f : Fixed) (o : Ops4) : Statement (.vdrain f o) := of_packWord rfl (by decide)
theorem fload (f : Fixed) (o : Ops4) : Statement (.fload f o) := of_packWord rfl (by decide)
theorem frun (f : Fixed) (o : Ops4) : Statement (.frun f o) := of_packWord rfl (by decide)
theorem fdrain (f : Fixed) (o : Ops4) : Statement (.fdrain f o) := of_packWord rfl (by decide)
theorem fsave (f : Fixed) (o : Ops4) : Statement (.fsave f o) := of_packWord rfl (by decide)
theorem fpush (f : Fixed) (half : Bool) (null : Bool) (o : Ops4) :
    Statement (.fpush f half null o) := of_packWord rfl (by decide)
theorem fpop (f : Fixed) (half : Bool) (o : Ops4) : Statement (.fpop f half o) := of_packWord rfl (by decide)
theorem shflXMatch (g₁ : Nat) (g₂ : Nat) : Statement (.shflXMatch g₁ g₂) := rfl
theorem rowGrant (core : Nat) : Statement (.rowGrant core) := rfl
theorem groupSwapIn (core : Nat) : Statement (.groupSwapIn core) := rfl
theorem allocationSetReturn (core : Nat) : Statement (.allocationSetReturn core) := rfl
theorem mwaitRecheck (g : Nat) : Statement (.mwaitRecheck g) := rfl
theorem matrixPassGrant (cluster : Nat) : Statement (.matrixPassGrant cluster) := rfl
theorem matrixPassAgeing (cluster : Nat) : Statement (.matrixPassAgeing cluster) := rfl
theorem matrixPassRetire (cluster : Nat) (index : Nat) : Statement (.matrixPassRetire cluster index) := rfl
theorem bandOpCompletion (first : Nat) : Statement (.bandOpCompletion first) := rfl
theorem stageFiring (first : Nat) (stage : Nat) : Statement (.stageFiring first stage) := rfl
theorem rareEventGroup (first : Nat) : Statement (.rareEventGroup first) := rfl
theorem rowWakeDone (first : Nat) (row : Nat) : Statement (.rowWakeDone first row) := rfl
theorem rowInstallDone (first : Nat) (row : Nat) : Statement (.rowInstallDone first row) := rfl
theorem rowLower (first : Nat) (row : Nat) : Statement (.rowLower first row) := rfl
theorem rowHoist (first : Nat) (row : Nat) : Statement (.rowHoist first row) := rfl
theorem configStoreReload (first : Nat) (row : Nat) : Statement (.configStoreReload first row) := rfl
theorem portSpillRetry (first : Nat) (port : Nat) : Statement (.portSpillRetry first port) := rfl
theorem longLatencyResult (g : Nat) : Statement (.longLatencyResult g) := rfl
theorem groupUnpark (g : Nat) : Statement (.groupUnpark g) := rfl
theorem activeSetEntry (core : Nat) : Statement (.activeSetEntry core) := rfl
theorem groupStarvation (g : Nat) : Statement (.groupStarvation g) := rfl
theorem trapDelivery (g : Nat) : Statement (.trapDelivery g) := rfl
theorem copyExecute (sector : Nat) (ctx : Nat) : Statement (.copyExecute sector ctx) := rfl
theorem iseExecute (die : Nat) (ctx : Nat) : Statement (.iseExecute die ctx) := rfl
theorem iseSpillRetry (die : Nat) (ctx : Nat) (elem : Nat) : Statement (.iseSpillRetry die ctx elem) := rfl
theorem engineOpCompletion (kind : Nat) (unit : Nat) (ctx : Nat) :
    Statement (.engineOpCompletion kind unit ctx) := rfl
theorem translationFaultRecord (tag : Nat) : Statement (.translationFaultRecord tag) := rfl
theorem translationFaultTimeout (tag : Nat) : Statement (.translationFaultTimeout tag) := rfl
theorem xlresRetry (part : Nat) (tag : Nat) : Statement (.xlresRetry part tag) := rfl
theorem xlresFail (part : Nat) (tag : Nat) : Statement (.xlresFail part tag) := rfl
theorem tlbInvalidate (part : Nat) : Statement (.tlbInvalidate part) := rfl
theorem invalidationComplete (part : Nat) : Statement (.invalidationComplete part) := rfl
theorem hopCommit (block : Nat) : Statement (.hopCommit block) := rfl
theorem hopDisarm (block : Nat) : Statement (.hopDisarm block) := rfl
theorem codeObjectLoad (part : Nat) (addr : Nat) (places : List KernelPlace) :
    Statement (.codeObjectLoad part addr places) := rfl
theorem coldGranuleCopy (handle : Nat) (granule : Nat) : Statement (.coldGranuleCopy handle granule) := rfl
theorem icacheFill (cluster : Nat) (line : Nat) : Statement (.icacheFill cluster line) := rfl
theorem queueNotify (part : Nat) (queue : Nat) (value : Nat) : Statement (.queueNotify part queue value) := rfl
theorem queueSlotMap (part : Nat) (queue : Nat) : Statement (.queueSlotMap part queue) := rfl
theorem launchBegin (part : Nat) (queue : Nat) : Statement (.launchBegin part queue) := rfl
theorem blockPlacement (launch : Nat) (core : Nat) : Statement (.blockPlacement launch core) := rfl
theorem blockEnd (block : Nat) : Statement (.blockEnd block) := rfl
theorem launchCompletion (launch : Nat) : Statement (.launchCompletion launch) := rfl
theorem hangFreeze (block : Nat) : Statement (.hangFreeze block) := rfl
theorem eqLoadQueue (part : Nat) (id : Nat) : Statement (.eqLoadQueue part id) := rfl
theorem eqLoadGroup (part : Nat) (id : Nat) : Statement (.eqLoadGroup part id) := rfl
theorem eqUnloadQueue (part : Nat) (id : Nat) : Statement (.eqUnloadQueue part id) := rfl
theorem eqUnloadGroup (part : Nat) (id : Nat) : Statement (.eqUnloadGroup part id) := rfl
theorem queueUnloadComplete (queue : Nat) : Statement (.queueUnloadComplete queue) := rfl
theorem equDispatchDecision : Statement .equDispatchDecision := rfl
theorem combineMark (launch : Nat) : Statement (.combineMark launch) := rfl
theorem preemption (block : Nat) : Statement (.preemption block) := rfl
theorem blockRestore (block : Nat) (core : Nat) : Statement (.blockRestore block core) := rfl
theorem partitionCreate (part : Nat) (sectors : List Nat) (groups : List Nat) (nonce : BitVec 256) :
    Statement (.partitionCreate part sectors groups nonce) := rfl
theorem partitionDestroy (part : Nat) : Statement (.partitionDestroy part) := rfl
theorem secondStageEdit (part : Nat) (addr : Nat) (entry : Dword) (command : List Byte) :
    Statement (.secondStageEdit part addr entry command) := rfl
theorem partitionSwapOut (part : Nat) : Statement (.partitionSwapOut part) := rfl
theorem partitionSwapIn (part : Nat) : Statement (.partitionSwapIn part) := rfl
theorem getMeasurements (index : Nat) (signed : Bool) : Statement (.getMeasurements index signed) := rfl
theorem epochClose (part : Nat) : Statement (.epochClose part) := rfl
theorem ideStreamViolation (part : Nat) : Statement (.ideStreamViolation part) := rfl
theorem hypervisorRegisterWrite (part : Nat) (num : Nat) (high : Bool) (value : Dword) :
    Statement (.hypervisorRegisterWrite part num high value) := rfl
theorem halt (part : Nat) (addr : Nat) : Statement (.halt part addr) := rfl
theorem save (part : Nat) (addr : Nat) : Statement (.save part addr) := rfl
theorem restore (part : Nat) (addr : Nat) : Statement (.restore part addr) := rfl
theorem resume (part : Nat) (addr : Nat) : Statement (.resume part addr) := rfl
theorem kill (part : Nat) (addr : Nat) : Statement (.kill part addr) := rfl
theorem release (part : Nat) (addr : Nat) : Statement (.release part addr) := rfl
theorem detach (part : Nat) (addr : Nat) : Statement (.detach part addr) := rfl
theorem counterIntervalRecord (bank : Nat) : Statement (.counterIntervalRecord bank) := rfl
theorem traceSample (unit : Nat) : Statement (.traceSample unit) := rfl
theorem uncorrectableError (site : ErrorSite) : Statement (.uncorrectableError site) := rfl
theorem hbmScrub (pseudoChannel : Nat) : Statement (.hbmScrub pseudoChannel) := rfl
theorem operatingPointChange (island : Nat) (point : Nat) : Statement (.operatingPointChange island point) := rfl
theorem deviceReset (steps : List StepOutcome) : Statement (.deviceReset steps) := rfl
theorem enterTest : Statement .enterTest := rfl
theorem leaveTest : Statement .leaveTest := rfl
theorem leaveRecovery : Statement .leaveRecovery := rfl
theorem checkpoint : Statement .checkpoint := rfl
theorem checkpointRestore : Statement .checkpointRestore := rfl
theorem linkPortDown (port : Nat) : Statement (.linkPortDown port) := rfl
theorem linkPortTrained (port : Nat) : Statement (.linkPortTrained port) := rfl
theorem storeQueueDrain (core : Nat) (index : Nat) : Statement (.storeQueueDrain core index) := rfl
theorem memoryPortElement (first : Nat) (port : Nat) : Statement (.memoryPortElement first port) := rfl
theorem tdispRequest (part : Nat) (wanted : Tdisp) : Statement (.tdispRequest part wanted) := rfl
theorem hostBarRequest (part : Nat) (addr : Nat) (write : Option (List Byte)) (bytes : Nat) :
    Statement (.hostBarRequest part addr write bytes) := rfl
theorem peerWindowAccess (part : Nat) (gpa : Nat) (write : Option (List Byte)) (bytes : Nat) :
    Statement (.peerWindowAccess part gpa write bytes) := rfl
theorem startRecordClear : Statement .startRecordClear := rfl
theorem repairMapAdd (clusters : List Nat) (rows : RowsAndColumns) : Statement (.repairMapAdd clusters rows) := rfl

end Encoding

end Sys2Proof.Laws
end

