-- ==== Sys2Proof/Laws/Results.lean ====
section
/-! SUPPORT. The laws of results: what holding a scalar, predicate or vector result, flags, or a long-latency result leaves,
once the word has gone on. -/

namespace Sys2Proof.Machine

open Sys2Proof.Safety

/-- A word that changes its issuer's context to one with the held results `hs`, and goes on. -/
theorem goes_modCtx {s : State} {q : Issuer} (h : issuer s = some q) {g : Ctx → Ctx} {hs : List Held} (f : Fixed)
    (hg : g q.ctx = { q.ctx with held := hs }) : Goes s (finish (modCtx s q g) q f) q f hs := by
  unfold Goes
  rw [← hg]
  exact ends_finishAt h g f _

/-- A word that changes nothing goes on with the results it has. -/
theorem goes_same {s : State} {q : Issuer} (h : issuer s = some q) (f : Fixed) :
    Goes s (finish s q f) q f q.ctx.held := ends_finishAt_same h f _

/-- A result beside a change of the context is one change of the context. -/
theorem hold_modCtx (s : State) (q : Issuer) (g : Ctx → Ctx) (d : Dest) (m : Word) (vals : List Dword) (lat : Nat) :
    hold (modCtx s q g) q d m vals lat = modCtx s q (fun c => holdCtx d m vals (.at (q.at_ + lat)) q.at_ (g c)) :=
  modCtx_modCtx s q g _

/-- A scalar operand's result. -/
theorem holdS_eq {w : Where} {d : Reg} (s : State) (q : Issuer) (v : Dword) (lat : Nat) (h : isS w d = true) :
    holdS s q d v lat = hold s q (.s (regNum d)) (BitVec.allOnes 32) [v] lat := by
  cases d <;> simp_all [isS, holdS, regNum]

/-- One result. -/
theorem goes_hold {s : State} {q : Issuer} (h : issuer s = some q) (ho : Ordered q) (d : Dest) (m : Word) (vals : List Dword)
    (lat : Nat) (f : Fixed) :
    Goes s (finish (hold s q d m vals lat) q f) q f (q.ctx.held ++ [result q d m vals lat]) :=
  goes_modCtx h f (holdCtx_result d m vals lat ho)

/-- A scalar result. -/
theorem goes_holdS {s : State} {q : Issuer} (h : issuer s = some q) (ho : Ordered q) {w : Where} {d : Reg}
    (hd : isS w d = true) (v : Dword) (lat : Nat) (f : Fixed) :
    Goes s (finish (holdS s q d v lat) q f) q f (q.ctx.held ++ [scalarResult q d v lat]) := by
  rw [holdS_eq s q v lat hd]
  exact goes_hold h ho _ _ _ _ f

/-- Results held one after the other are the last of the context, in their order. -/
def holdAll (q : Issuer) : List (Dest × Word × List Dword × Nat) → Ctx → Ctx
  | [], c => c
  | (d, m, vals, lat) :: rs, c => holdAll q rs (holdCtx d m vals (.at (q.at_ + lat)) q.at_ c)

theorem holdAll_eq {q : Issuer} {rs : List (Dest × Word × List Dword × Nat)} {c : Ctx} (h : ∀ y ∈ c.held, y.seq ≤ q.at_) :
    holdAll q rs c = { c with held := c.held ++ rs.map (fun r => result q r.1 r.2.1 r.2.2.1 r.2.2.2) } := by
  induction rs generalizing c with
  | nil => simp [holdAll]
  | cons r rs ih =>
    obtain ⟨d, m, vals, lat⟩ := r
    simp only [holdAll]
    rw [holdCtx_result d m vals lat h, ih]
    · simp
    · intro y hy
      simp only [List.mem_append, List.mem_singleton] at hy
      rcases hy with hy | rfl
      · exact h y hy
      · simp [result]

/-- The results of a vector operand. -/
def vectorHolds (d : Reg) (wide : Bool) (m : Word) (vals : List Dword) (lat : Nat) : List (Dest × Word × List Dword × Nat) :=
  (Dest.v (regNum d), m, vals.map (fun x => (x.setWidth 32).setWidth 64), lat) ::
    (if wide then [(Dest.v (regNum d + 1), m, vals.map (fun (x : Dword) => x >>> 32), lat)] else [])

/-- A vector operand's result. -/
theorem holdV_eq {w : Where} {d : Reg} (s : State) (q : Issuer) (wide : Bool) (m : Word) (vals : List Dword) (lat : Nat)
    (h : isV w d = true) : holdV s q d wide m vals lat = modCtx s q (holdAll q (vectorHolds d wide m vals lat)) := by
  cases d <;> simp_all only [isV, holdV, regNum, reduceCtorEq, vectorHolds] <;> cases wide <;>
    simp [hold, modCtx_modCtx, holdAll]

/-- Flags beside other results. -/
theorem holdFlags_holdAll (s : State) (q : Issuer) (rs : List (Dest × Word × List Dword × Nat)) (fl : Flags) (lat : Nat) :
    holdFlags (modCtx s q (holdAll q rs)) q fl lat =
      modCtx s q (holdAll q (rs ++ [(Dest.flagsSet, BitVec.allOnes 32, [fl.setWidth 64], lat)])) := by
  have : ∀ (rs : List (Dest × Word × List Dword × Nat)) (r : Dest × Word × List Dword × Nat) (c : Ctx),
      holdAll q (rs ++ [r]) c = holdAll q [r] (holdAll q rs c) := by
    intro rs r
    induction rs with
    | nil => intro c; rfl
    | cons x xs ih => intro c; simp only [List.cons_append, holdAll]; rw [ih]; rfl
  simp only [holdFlags, hold_modCtx]
  congr 1
  funext c
  rw [this]
  rfl

/-- The results of a context that goes on. -/
theorem goes_holdAll {s : State} {q : Issuer} (h : issuer s = some q) (ho : Ordered q)
    (rs : List (Dest × Word × List Dword × Nat)) (f : Fixed) :
    Goes s (finish (modCtx s q (holdAll q rs)) q f) q f
      (q.ctx.held ++ rs.map (fun r => result q r.1 r.2.1 r.2.2.1 r.2.2.2)) :=
  goes_modCtx h f (holdAll_eq ho)

theorem vectorHolds_results (q : Issuer) (d : Reg) (wide : Bool) (m : Word) (vals : List Dword) (lat : Nat) :
    (vectorHolds d wide m vals lat).map (fun r => result q r.1 r.2.1 r.2.2.1 r.2.2.2) = laneResults q d wide m vals lat := by
  cases wide <;> simp [laneResults, vectorHolds]

/-- A vector result. -/
theorem goes_holdV {s : State} {q : Issuer} (h : issuer s = some q) (ho : Ordered q) {w : Where} {d : Reg}
    (hd : isV w d = true) (wide : Bool) (m : Word) (vals : List Dword) (lat : Nat) (f : Fixed) :
    Goes s (finish (holdV s q d wide m vals lat) q f) q f (q.ctx.held ++ laneResults q d wide m vals lat) := by
  rw [holdV_eq s q wide m vals lat hd, ← vectorHolds_results]
  exact goes_holdAll h ho _ f

end Sys2Proof.Machine
end

