-- ==== Sys2Proof/Laws/Words.lean ====
section
/-! SUPPORT. The laws of words that change other tables of the device before they go on: `Still` says that they are the same
word, and the end of the word is then that of the changed state. -/

namespace Sys2Proof.Machine

open Sys2Proof.Safety

/-- A change of the context, in either view of the word. -/
theorem still_modCtx {u : State} {q r : Issuer} (h : Still u q r) (s : State) (g : Ctx → Ctx) : modCtx s q g = modCtx s r g := by
  simp only [modCtx, h.hand, h.core, h.gid]

/-- The count of the issue. -/
theorem still_countIssue {u : State} {q r : Issuer} (h : Still u q r) (s : State) (pc : Dword) : countIssue s q pc = countIssue s r pc := by
  simp only [countIssue, still_modCtx h, h.gid, h.block]

/-- The end of the word. -/
theorem still_finishAt {u : State} {q r : Issuer} (h : Still u q r) (s : State) (pc : Dword) (m : Bool) :
    finishAt s q pc m = finishAt s r pc m := by
  simp only [finishAt, still_countIssue h, h.gid]

/-- The end of a word that goes on at the next. -/
theorem still_finish {u : State} {q r : Issuer} (h : Still u q r) (s : State) (f : Fixed) : finish s q f = finish s r f := by
  simp only [finish, still_finishAt h, h.pc]

/-- A long-latency result. -/
theorem still_addPending {u : State} {q r : Issuer} (h : Still u q r) (s : State) (ds : List Dest) (w : Work) :
    addPending s q ds w = addPending s r ds w := by
  simp only [addPending, still_modCtx h, h.place]

/-- A settled scalar result. -/
theorem still_pendS {u : State} {q r : Issuer} (h : Still u q r) (s : State) (d : Reg) (v : Dword) : pendS s q d v = pendS s r d v := by
  simp only [pendS]
  split <;> simp [still_addPending h]

/-- A word that has changed other tables goes on with the results it has. -/
theorem still_goes {u : State} {q r : Issuer} (h : Still u q r) (f : Fixed) : Goes u (finish u q f) r f r.ctx.held := by
  rw [still_finish h]
  exact goes_same h.issues f

/-- The issuer is not looked for among the numbers given out. -/
theorem issuer_fresh (s : State) (n : Nat) : issuer { s with fresh := n } = issuer s := rfl

/-- A word with a long-latency result under way goes on. -/
theorem waits_addPending {s : State} {q : Issuer} (h : issuer s = some q) (ds : List Dest) (w : Work) (f : Fixed) :
    Waits s (finish (addPending s q ds w) q f) q f (underWay s q ds w) :=
  ends_finishAt (s := { s with fresh := s.fresh + 1 }) (by exact h) _ f _

/-- A word with a settled scalar result, or none where the destination is absent. -/
theorem waitsFor_pendS {s : State} {q : Issuer} {w : Where} (h : issuer s = some q) (d : Reg) (v : Dword) (f : Fixed)
    (hd : isS w d = true ∨ d = .none) : WaitsFor s (finish (pendS s q d v) q f) q f d v := by
  unfold WaitsFor
  rcases hd with hd | hd
  · have : d.absent = false := by cases d <;> simp_all [isS, Reg.absent]
    rw [this]
    have e : pendS s q d v = addPending s q (destsOf d 1) (.value (BitVec.allOnes 32) [[v]]) := by
      cases d <;> simp_all [isS, pendS, destsOf]
    simp only [e, Bool.false_eq_true, if_false]
    exact waits_addPending h _ _ f
  · subst hd
    simpa [Reg.absent, pendS, destsOf] using goes_same h f

/-- The same for a word that has changed other tables. -/
theorem still_waitsFor {u : State} {q r : Issuer} {w : Where} (h : Still u q r) (d : Reg) (v : Dword) (f : Fixed)
    (hd : isS w d = true ∨ d = .none) : WaitsFor u (finish (pendS u q d v) q f) r f d v := by
  rw [still_pendS h, still_finish h]
  exact waitsFor_pendS h.issues d v f hd

/-- A long-latency result of a word that has changed other tables. -/
theorem still_waits {u : State} {q r : Issuer} (h : Still u q r) (ds : List Dest) (w : Work) (f : Fixed) :
    Waits u (finish (addPending u q ds w) q f) r f (underWay u r ds w) := by
  rw [still_addPending h, still_finish h]
  exact waits_addPending h.issues ds w f

/-- R398: a word of no class 0x30 to 0x32 binds no block. -/
theorem free_of_fields {i : Instr} {f : Fixed} {c : Nat} (h : fixed i = f ∧ (classMinor i).1 = c)
    (hc : c < 0x30 ∨ 0x32 < c) : clusterWord i = false := by
  unfold clusterWord
  rw [h.2]
  rcases hc with h | h <;> simp <;> omega

/-! ## Words that issue, and words of the clusters -/

/-- Every instruction word is `word` of its own effect. -/
theorem exec_word (i : Instr) (h : i.isWord = true) : ∃ act, ∀ s, exec i s = word i s act := by
  cases i <;> first | exact ⟨_, fun _ => rfl⟩ | cases h

/-- Group `gid` has issued `n` words, and the handler of core `k` has issued `m k`. -/
def IssuedAs (s : State) (gid n : Nat) (m : Nat → Nat) : Prop :=
  (look s.groups gid).map (·.ctx.issued) = some n ∧ ∀ k, (coreOf s k).shadow.ctx.issued = m k

theorem issuedAs_mod {s : State} {gid n : Nat} {m : Nat → Nat} (h : IssuedAs s gid n m) (f : Group → Group)
    (hf : ∀ g, (f g).ctx.issued = g.ctx.issued) :
    IssuedAs (modGroup s gid f) gid n m := by
  refine ⟨?_, h.2⟩
  have := h.1
  simp only [modGroup, look_upd_same, Option.map_map]
  rw [← this]
  congr 1
  funext g
  exact hf g

theorem issuedAs_own {s : State} {gid n : Nat} {m : Nat → Nat} (h : IssuedAs s gid n m) (x : Held) :
    IssuedAs (applyOwn gid s x) gid n m := by
  unfold applyOwn
  split
  · split
    · exact h
    · exact h
  all_goals first | exact h | exact issuedAs_mod h _ (fun g => rfl)

theorem issuedAs_core {s : State} {gid n core : Nat} {m : Nat → Nat} (h : IssuedAs s gid n m) (c : Core)
    (hc : c.shadow.ctx.issued = m core) :
    IssuedAs (setCore s core c) gid n m := by
  refine ⟨h.1, fun k => ?_⟩
  rw [coreOf_setCore]
  split
  · subst_vars; exact hc
  · exact h.2 k

theorem issuedAs_shadow {s : State} {gid n : Nat} {m : Nat → Nat} (h : IssuedAs s gid n m) (core : Nat) (x : Held) :
    IssuedAs (applyShadow gid core s x) gid n m := by
  unfold applyShadow
  simp only
  split
  all_goals first | exact h | exact issuedAs_mod h _ (fun g => rfl) | exact issuedAs_core h _ (h.2 core)

theorem issuedAs_foldOwn {gid n : Nat} {m : Nat → Nat} (l : List Held) :
    ∀ {s}, IssuedAs s gid n m → IssuedAs (l.foldl (applyOwn gid) s) gid n m := by
  induction l with
  | nil => exact fun h => h
  | cons x l ih => exact fun h => ih (issuedAs_own h x)

theorem issuedAs_foldShadow {gid n : Nat} {m : Nat → Nat} (core : Nat) (l : List Held) :
    ∀ {s}, IssuedAs s gid n m → IssuedAs (l.foldl (applyShadow gid core) s) gid n m := by
  induction l with
  | nil => exact fun h => h
  | cons x l ih => exact fun h => ih (issuedAs_shadow h core x)

theorem issuedAs_pass {s : State} {gid n : Nat} {m : Nat → Nat} (h : IssuedAs s gid n m) : IssuedAs (passMarker s gid) gid n m := by
  unfold passMarker
  split
  · exact h
  · split
    · exact issuedAs_core (issuedAs_foldShadow _ _ h) _ ((issuedAs_foldShadow _ _ h).2 _)
    · exact issuedAs_mod (issuedAs_foldOwn _ h) _ (fun g => rfl)

theorem issuedAs_marker {s : State} {gid n : Nat} {m : Nat → Nat} (h : IssuedAs s gid n m) : IssuedAs (atMarker s gid) gid n m := by
  unfold atMarker
  split
  · exact h
  · split
    · simp only
      split
      · exact issuedAs_mod (issuedAs_pass h) _ (fun g => rfl)
      · exact issuedAs_pass h
    · exact issuedAs_mod h _ (fun g => rfl)

theorem issued_of_ia {s : State} {q : Issuer} {n : Nat} {m : Nat → Nat} (h : IssuedAs s q.gid n m)
    (hn : q.hand = false → q.ctx.issued < n) (hm : q.hand = true → q.ctx.issued < m q.g.core) : issued s q = true := by
  unfold issued
  split
  · rename_i g hg
    have h1 := h.1
    simp only [hg, Option.map_some, Option.some.injEq] at h1
    have h2 := h.2 q.g.core
    rw [shadowOf_eq]
    cases hq : q.hand
    · simp [h1, hn hq]
    · simp [h2, hm hq]
  · rfl

/-- A word that has gone on has issued. -/
theorem issued_ends {u t : State} {r : Issuer} {f : Fixed} {pc : Dword} {c : Ctx}
    (h : Ends u t r f pc c) (hc : c.issued = r.ctx.issued) : issued t r = true := by
  obtain ⟨v, hv, rfl⟩ := h
  have hg := hv.2.1.group
  have hk := hv.2.1.core
  have ia : IssuedAs v r.gid (if r.hand then r.g.ctx.issued else c.issued + 1) (fun k => (coreOf v k).shadow.ctx.issued) := by
    refine ⟨?_, fun _ => rfl⟩
    rw [hg]
    simp only [Option.map_some]
    split <;> rfl
  have key : ∀ t, IssuedAs t r.gid (if r.hand then r.g.ctx.issued else c.issued + 1)
      (fun k => (coreOf v k).shadow.ctx.issued) → issued t r = true := by
    intro t ht
    refine issued_of_ia ht ?_ ?_
    · intro h; simp [h, hc]
    · intro h; simp only [hk, h, if_true]; simp [counted, hc]
  split
  · exact key _ (issuedAs_marker ia)
  · exact key _ ia

theorem issued_still {u t : State} {q r : Issuer} (h : Still u q r) (hq : q.at_ = q.ctx.issued + 1) (ht : issued t r = true) :
    issued t q = true := by
  have hr := (issuer_eq_some.1 h.issues).2.2.2.2.2.2.1
  have : r.ctx.issued = q.ctx.issued := by have := h.place; omega
  unfold issued at *
  rw [h.gid, h.hand, h.core, this] at ht
  exact ht

theorem ready_at {s : State} {q : Issuer} {i : Instr} (h : Ready s q i) : q.at_ = q.ctx.issued + 1 :=
  (issuer_eq_some.1 h.issues).2.2.2.2.2.2.1

theorem still_refl {s : State} {q : Issuer} (h : issuer s = some q) : Still s q q := ⟨h, rfl, rfl, rfl, rfl, rfl, rfl⟩
/-- A word that does not issue binds no block. -/
theorem word_unissued {s : State} {q : Issuer} {i : Instr} {act : State → Issuer → State} (h : Ready s q i)
    (hn : issued (act s q) q = false) :
    word i s act = .next (act s q) := by
  rw [word_ready h, hn]
  rfl

theorem issued_goes {u t : State} {r : Issuer} {f : Fixed} {hs : List Held} (h : Goes u t r f hs) : issued t r = true :=
  issued_ends h rfl
theorem issued_waits {u t : State} {r : Issuer} {f : Fixed} {p : Pending} (h : Waits u t r f p) : issued t r = true :=
  issued_ends (u := { u with fresh := u.fresh + 1 }) h rfl
theorem issued_waitsFor {u t : State} {r : Issuer} {f : Fixed} {d : Reg} {v : Dword} (h : WaitsFor u t r f d v) : issued t r = true := by
  unfold WaitsFor at h
  split at h
  · exact issued_goes h
  · exact issued_waits h
/-- R398: a word of classes 0x30 to 0x32 that issues binds its block. -/
theorem word_bound {s u : State} {q r : Issuer} {i : Instr} {act : State → Issuer → State} (h : Ready s q i) (hst : Still u q r)
    (hc : clusterWord i = true) (he : issued (act s q) r = true) :
    word i s act = .next (bindBlock q (act s q)) := by
  rw [word_ready h, issued_still hst (ready_at h) he, hc]
  rfl
/-- R398: a word of classes 0x30 to 0x32. -/
theorem cluster_of_fields {i : Instr} {f : Fixed} {c : Nat} (h : fixed i = f ∧ (classMinor i).1 = c)
    (hc : 0x30 ≤ c ∧ c ≤ 0x32) : clusterWord i = true := by
  unfold clusterWord
  rw [h.2]
  simp; omega

/-- R253: a group that parks before its word has not issued it. -/
theorem issued_parkGroup {s : State} {q : Issuer} (hi : issuer s = some q) (p : Park) : issued (parkGroup s q.gid p) q = false := by
  obtain ⟨i1, i2, -, i4, -, i6, -, -⟩ := issuer_eq_some.1 hi
  unfold issued
  rw [show look (parkGroup s q.gid p).groups q.gid = some _ from by
    show look (upd s.groups q.gid _) q.gid = _
    rw [look_upd_same, i1, i2]; rfl]
  simp only
  cases hq : q.hand
  · rw [i4, ← i6, hq]; simp
  · rw [i4, ← i6, hq]; simp [parkGroup, modGroup, shadowOf]

/-- R391, R392: the context of a group that a trap is delivered to stands. -/
theorem deliverTrap_ctx {s : State} {gid : Nat} {g : Machine.Group} (hg : look s.groups gid = some g) (x : Trap) :
    ∃ t, look (deliverTrap s gid x).groups gid = some t ∧ t.ctx = g.ctx := by
  unfold deliverTrap
  rw [hg]
  simp only
  split
  · exact ⟨g, hg, rfl⟩
  · rename_i b hb
    have hg1 : look (modGroup s gid (fun g => { g with trap := none })).groups gid = some { g with trap := none } := by
      rw [look_modGroup]; simp [hg]
    obtain ⟨g2, hg2, hc⟩ := disarmHop_group _ g.block gid _ hg1
    have hc' : g2.ctx = g.ctx := by rcases hc with rfl | rfl <;> rfl
    generalize disarmHop (modGroup s gid (fun g => { g with trap := none })) g.block = s2 at *
    have r3 := (same_countEvent s2 b.part (some g.core) 0x12).trans
      (same_traceEvent _ b.part (some g.core) 1 2 b.index x.cause g.lastSafe)
    generalize traceEvent (countEvent s2 b.part (some g.core) 0x12) b.part (some g.core) 1 2 b.index x.cause g.lastSafe = s3 at *
    have hg3 : look s3.groups gid = some g2 := (congrArg (look · gid) r3.groups).trans hg2
    split
    · refine ⟨g2, ?_, hc'⟩
      exact (congrArg (look · gid) (same_faultRecord (freezeBlock s3 g.block .unhandled) _ _ _ _ _ _).groups).trans hg3
    · exact ⟨_, (look_modGroup _ _ _ _).trans ((if_pos rfl).trans (congrArg (Option.map _) hg3)), hc'⟩

/-- R63: a double trap changes no group and no shadow bank. -/
theorem doubleTrap_ctx (s : State) (q : Issuer) (x : Trap) : (doubleTrap s q x).groups = s.groups ∧
    ∀ k, (coreOf (doubleTrap s q x) k).shadow = (coreOf s k).shadow := by
  have fold : ∀ (l : List Nat) (s : State), (l.foldl (fun s b => freezeBlock s b .double) s).groups = s.groups ∧
      (l.foldl (fun s b => freezeBlock s b .double) s).cores = s.cores := by
    intro l
    induction l with
    | nil => exact fun s => ⟨rfl, rfl⟩
    | cons y l ih => exact fun s => ih (freezeBlock s y .double)
  have cores : ∀ t u : State, t.cores = u.cores → ∀ k, coreOf t k = coreOf u k := by
    intro t u h k
    unfold coreOf
    rw [h]
  unfold doubleTrap
  simp only
  refine ⟨?_, fun k => ?_⟩
  · rw [(same_faultRecord ..).groups, (fold ..).1]
    rfl
  · rw [cores _ _ ((same_faultRecord ..).cores.trans (fold ..).2), coreOf_setCore]
    split
    · subst_vars; rfl
    · rfl

/-- A word that traps before it issues has not issued. -/
theorem issued_trapBefore {s : State} {q : Issuer} (hi : issuer s = some q) (cause : Nat) (a : Dword) (w : Bool) :
    issued (trapBefore s q cause a w) q = false := by
  obtain ⟨i1, i2, -, i4, -, i6, -, -⟩ := issuer_eq_some.1 hi
  rw [← i1] at i2
  unfold trapBefore takeTrap
  cases hq : q.hand
  · rw [← i6, hq] at i4
    simp only [Bool.false_eq_true, if_false] at i4 ⊢
    split
    · obtain ⟨t, ht, hc⟩ := deliverTrap_ctx i2 { cause, write := w, addr := a, word := q.ctx.pc }
      unfold issued
      rw [ht]
      simp [hq, hc, i4]
    · unfold issued
      rw [look_modGroup, if_pos rfl, i2]
      simp [hq, i4]
  · rw [← i6, hq] at i4
    simp only [if_true] at i4 ⊢
    obtain ⟨h1, h2⟩ := doubleTrap_ctx s q { cause, write := w, addr := a, word := q.ctx.pc }
    unfold issued
    rw [h1, i2]
    simp only [hq, if_true]
    rw [shadowOf_eq, h2, ← shadowOf_eq, ← i4]
    simp

end Sys2Proof.Machine
end

