-- ==== Sys2Proof/Tests/Slice0.lean ====
section
/-! SUPPORT. Tests: ill-formed words are refused; words written out from the encodings of R89 to R103 decode to what they stand
for; every hypothesis of every obligation is met somewhere; single steps give what the manual's tables say. -/

namespace Sys2Proof.Tests

open Sys2Proof Sys2Proof.Machine Sys2Proof.Safety

/-! ## Ill-formed words (R90 to R102, R111) -/

/-- Unmarked, no stop, p7 true. -/
def f0 : Fixed := { sw := false, stop := false, pred := 7, sense := false }
/-- Governed by p1. -/
def f1 : Fixed := { f0 with pred := 1 }
/-- A stop word. -/
def fs : Fixed := { f0 with stop := true }

def ops (d a b c : Reg) : Ops4 := { d, a, b, c }

/-- R90, R120 to R124: a predicate on a group word, a missing or superfluous operand, a type of no such class, `.sat` or an
immediate where the operation has none. -/
theorem test_ill_formed_integer_words : [
    Instr.addInteger f1 (.salu .i32 (.s 1) (.s 2) (.s 3) .none false),
    .addInteger f0 (.salu .i16x2 (.s 1) (.s 2) (.s 3) .none false),
    .addInteger f0 (.salu .i32 .none (.s 2) (.s 3) .none false),
    .addInteger f0 (.salu .i32 (.s 1) .none (.s 3) .none false),
    .addInteger f0 (.salu .i32 (.s 1) (.s 2) .none .none false),
    .absInteger f0 (.salu .i32 (.s 1) (.s 2) (.s 3) .none false),
    .addInteger f0 (.salu .i32 (.s 1) (.s 2) (.s 3) (.s 4) false),
    .madInteger f0 (.salu .i32 (.s 1) (.s 2) (.s 3) .none false),
    .andInteger f0 (.salu .i32 (.s 1) (.s 2) (.s 3) .none true),
    .addInteger f0 (.valu .f32 (.v 1) (.v 2) (.v 3) .none false),
    .addInteger f0 (.valu .i32 .none (.v 2) (.v 3) .none false),
    .addInteger f0 (.valu .i32 (.v 1) .none (.v 3) .none false),
    .negInteger f0 (.valu .i32 (.v 1) (.v 2) (.v 3) .none false),
    .shl f0 (.valu .i32 (.v 1) (.v 2) (.v 3) (.v 4) false),
    .shl f0 (.valu .i32 (.v 1) (.v 2) (.v 3) .none true),
    .addInteger f1 (.salui .i32 (.s 1) (.s 2) 3 false),
    .addInteger f0 (.salui .f32 (.s 1) (.s 2) 3 false),
    .addInteger f0 (.salui .i32 .none (.s 2) 3 false),
    .movInteger f0 (.salui .i32 (.s 1) (.s 2) 3 false),
    .addInteger f0 (.salui .i32 (.s 1) .none 3 false),
    .madInteger f0 (.salui .i32 (.s 1) (.s 2) 3 false),
    .minInteger f0 (.salui .i32 (.s 1) (.s 2) 3 true),
    .addInteger f0 (.valui .f32 (.v 1) (.v 2) 3 false),
    .addInteger f0 (.valui .i32 .none (.v 2) 3 false),
    .movInteger f0 (.valui .i32 (.v 1) (.v 2) 3 false),
    .negInteger f0 (.valui .i32 (.v 1) (.v 2) 3 false),
    .maxInteger f0 (.valui .i32 (.v 1) (.v 2) 3 true),
    .li f0 .none 1, .li f1 (.s 1) 1, .lih f0 .none 1, .lih f1 (.s 1) 1, .lih f0 (.s 1) 536870912, .liPair f0 .none 1,
    .liPair f0 (.s 2) 1, .crd f0 .none 4, .crd f1 (.s 1) 4, .cwr f0 .none 1, .cwr f1 (.s 1) 1].all (fun i => !i.wf) = true := by
  decide

/-- R128 to R131: bit, compare, select and predicate words. -/
theorem test_ill_formed_bit_words : [
    Instr.popc f0 { ty := .f32, d := .v 1, a := .v 2, b := .none, c := .none },
    .popc f0 { ty := .i32, d := .none, a := .v 2, b := .none, c := .none },
    .clz f0 { ty := .i32, d := .v 1, a := .none, b := .none, c := .none },
    .brev f0 { ty := .i32, d := .v 1, a := .v 2, b := .v 3, c := .none },
    .bfe f0 { ty := .i32, d := .v 1, a := .v 2, b := .none, c := .none },
    .bfe f0 { ty := .i32, d := .v 1, a := .v 2, b := .v 3, c := .v 4 },
    .bfi f0 { ty := .i32, d := .v 1, a := .v 2, b := .v 3, c := .none },
    .cmp f0 .eq { ty := .i32, d := .none, a := .v 2, b := .v 3, c := .none },
    .cmp f0 .eq { ty := .i32, d := .p 1, a := .none, b := .v 3, c := .none },
    .cmp f0 .eq { ty := .i32, d := .p 1, a := .v 2, b := .none, c := .none },
    .cmp f0 .eq { ty := .i32, d := .p 1, a := .v 2, b := .v 3, c := .v 4 },
    .cmp f0 .un { ty := .i32, d := .p 1, a := .v 2, b := .v 3, c := .none },
    .cmp f0 .or { ty := .n64, d := .p 1, a := .v 2, b := .v 4, c := .none },
    .sel f0 { ty := .i32, d := .v 1, a := .v 2, b := .v 3, c := .none },
    .sel f0 { ty := .i32, d := .v 1, a := .v 2, b := .none, c := .p 1 },
    .sel f0 { ty := .i32, d := .v 1, a := .none, b := .v 3, c := .p 1 },
    .sel f0 { ty := .i32, d := .none, a := .v 2, b := .v 3, c := .p 1 },
    .pand f0 (ops (.p 1) (.p 2) .none .none), .por f0 (ops .none (.p 2) (.p 3) .none), .pxor f0 (ops (.p 1) .none (.p 3) .none),
    .pnot f0 (ops (.p 1) (.p 2) (.p 3) .none), .pnot f0 (ops (.p 1) (.p 2) .none (.p 3))].all (fun i => !i.wf) = true := by
  decide

/-- R133 to R140: floating, transcendental, conversion and block words. -/
theorem test_ill_formed_float_words : [
    Instr.addFloat f0 { ty := .i32, d := .v 1, a := .v 2, b := .v 3, c := .none, sat := false, rnd := .rne },
    .addFloat f0 { ty := .f32, d := .none, a := .v 2, b := .v 3, c := .none, sat := false, rnd := .rne },
    .addFloat f0 { ty := .f32, d := .v 1, a := .none, b := .v 3, c := .none, sat := false, rnd := .rne },
    .addFloat f0 { ty := .f32, d := .v 1, a := .v 2, b := .none, c := .none, sat := false, rnd := .rne },
    .absFloat f0 { ty := .f32, d := .v 1, a := .v 2, b := .v 3, c := .none, sat := false, rnd := .rne },
    .addFloat f0 { ty := .f32, d := .v 1, a := .v 2, b := .v 3, c := .v 4, sat := false, rnd := .rne },
    .fma f0 { ty := .f32, d := .v 1, a := .v 2, b := .v 3, c := .none, sat := false, rnd := .rne },
    .minFloat f0 { ty := .f32, d := .v 1, a := .v 2, b := .v 3, c := .none, sat := true, rnd := .rne },
    .maxFloat f0 { ty := .f32, d := .v 1, a := .v 2, b := .v 3, c := .none, sat := false, rnd := .rz },
    .rcp f0 { ty := .f64, d := .v 1, a := .v 2, rnd := .rne }, .rcp f0 { ty := .f32, d := .none, a := .v 2, rnd := .rne },
    .rcp f0 { ty := .f32, d := .v 1, a := .none, rnd := .rne }, .exp2 f0 { ty := .f32, d := .v 1, a := .v 2, rnd := .rz },
    .cvt f0 { dst := .f32, src := .e4m3, d := .none, a := .v 1, b := .none, sat := false, j := 0, rnd := .rne },
    .cvt f0 { dst := .f32, src := .e4m3, d := .v 1, a := .none, b := .none, sat := false, j := 0, rnd := .rne },
    .cvt f0 { dst := .f32, src := .mxf4, d := .v 1, a := .v 2, b := .none, sat := false, j := 0, rnd := .rne },
    .cvt f0 { dst := .dx4, src := .f32, d := .v 1, a := .v 2, b := .none, sat := false, j := 0, rnd := .rne },
    .cvt f0 { dst := .f32, src := .e4m3, d := .v 1, a := .v 2, b := .v 3, sat := false, j := 0, rnd := .rne },
    .cvt f0 { dst := .f32, src := .e4m3, d := .v 1, a := .v 2, b := .none, sat := false, j := 1, rnd := .rne },
    .pack f0 { dst := .e4m3, src := .f64, d := .v 1, a := .v 2, b := .none, sat := false, j := 0, rnd := .rne },
    .pack f0 { dst := .e4m3, src := .f32, d := .v 1, a := .v 2, b := .none, sat := false, j := 4, rnd := .rne },
    .pack f0 { dst := .mxf4, src := .f32, d := .v 1, a := .v 2, b := .none, sat := false, j := 0, rnd := .rne },
    .pack f0 { dst := .dx4, src := .f32, d := .v 1, a := .v 2, b := .v 3, sat := true, j := 0, rnd := .rne },
    .pack f0 { dst := .dx4, src := .f32, d := .v 1, a := .v 2, b := .v 3, sat := false, j := 0, rnd := .rz },
    .unpack f0 { dst := .f64, src := .e4m3, d := .v 1, a := .v 2, b := .none, sat := false, j := 0, rnd := .rne },
    .unpack f0 { dst := .f32, src := .bf16, d := .v 1, a := .v 2, b := .none, sat := false, j := 2, rnd := .rne },
    .unpack f0 { dst := .f32, src := .mxf4, d := .v 1, a := .v 2, b := .none, sat := false, j := 0, rnd := .rne },
    .unpack f0 { dst := .f32, src := .dx4, d := .v 1, a := .v 2, b := .v 3, sat := false, j := 0, rnd := .rz },
    .dxenc f0 { fmt := .mxf4, d := .v 1, a := .v 2, sat := false, rnd := .rne },
    .dxenc f0 { fmt := .dx4, d := .v 1, a := .v 2, sat := false, rnd := .rz },
    .dxdec f0 { fmt := .dx4, d := .v 1, a := .v 2, sat := true, rnd := .rne },
    .dxdec f0 { fmt := .dx4, d := .v 1, a := .v 2, sat := false, rnd := .rz },
    .mxenc f0 { fmt := .mxf4, d := .v 1, a := .v 2, sat := true, rnd := .rne },
    .mxdec f0 { fmt := .dx4, d := .v 1, a := .v 2, sat := false, rnd := .rne },
    .mxdec f0 { fmt := .mxf4, d := .none, a := .v 2, sat := false, rnd := .rne }].all (fun i => !i.wf) = true := by
  decide

/-- R148 to R176: memory, atomic, barrier, engine and timeline words. -/
theorem test_ill_formed_memory_words : [
    Instr.ld f0 { space := .g, ty := .i32, mode := .scalar, data := .none, base := .s 1, off := 0 },
    .ld f0 { space := .g, ty := .i32, mode := .scalar, data := .v 1, base := .none, off := 0 },
    .ld f0 { space := .l, ty := .i32, mode := .absolute, data := .v 1, base := .s 1, off := 0 },
    .ld f1 { space := .g, ty := .i32, mode := .scalar, data := .s 2, base := .s 1, off := 0 },
    .ld f0 { space := .k, ty := .i32, mode := .lane, data := .v 1, base := .v 2, off := 0 },
    .ld f0 { space := .g, ty := .i32, mode := .absolute, data := .v 1, base := .none, off := 0 },
    .st f0 { space := .k, ty := .i32, mode := .scalar, data := .v 1, base := .s 1, off := 0 },
    .st f0 { space := .g, ty := .n8, mode := .scalar, data := .v 1, base := .s 1, off := 0 },
    .st f0 { space := .g, ty := .n16, mode := .scalar, data := .v 1, base := .s 1, off := 0 },
    .atomAdd f0 { w64 := false, uns := false, loc := false, lane := false, data := .none, base := .s 1, off := 0, scope := .dev, ord := .rlx },
    .atomAdd f1 { w64 := false, uns := false, loc := false, lane := false, data := .s 2, base := .s 1, off := 0, scope := .dev, ord := .rlx },
    .atomAdd f0 { w64 := false, uns := false, loc := false, lane := false, data := .v 2, base := .none, off := 0, scope := .dev, ord := .rlx },
    .atomAdd f0 { w64 := false, uns := false, loc := true, lane := true, data := .v 2, base := .none, off := 0, scope := .grp, ord := .rlx },
    .atomAdd f0 { w64 := false, uns := false, loc := true, lane := false, data := .v 2, base := .s 1, off := 0, scope := .dev, ord := .rlx },
    .atomLd f0 { w64 := false, uns := true, loc := false, lane := false, data := .v 2, base := .s 1, off := 0, scope := .dev, ord := .rlx },
    .atomLd f0 { w64 := false, uns := false, loc := false, lane := false, data := .v 2, base := .s 1, off := 0, scope := .dev, ord := .rel },
    .atomSt f0 { w64 := false, uns := false, loc := false, lane := false, data := .v 2, base := .s 1, off := 0, scope := .dev, ord := .acq },
    .fence f1 .dev .acq, .fence f0 .dev .rlx,
    .cstore fs false { data := .v 1, base := .s 1, off := 0 }, .cstore f0 false { data := .none, base := .s 1, off := 0 },
    .xload f0 false { data := .v 1, base := .none, off := 0 },
    .tbarInit f1 { data := .s 1, base := .none, off := 0 }, .tbarInit f0 { data := .none, base := .none, off := 0 },
    .tbarArrive f1 { data := .none, base := .none, off := 0 }, .tbarExpect f0 { data := .none, base := .none, off := 0 },
    .tbarWait f0 { data := .none, base := .none, off := 0 },
    .acopy f1 (ops (.s 5) (.s 4) (.tl 0) .none), .acopy f0 (ops .none (.s 4) (.tl 0) .none), .acopyPull f0 (ops (.s 5) (.s 4) .none .none),
    .gath f0 (ops (.s 5) (.s 4) (.tl 0) (.s 1)), .scat f0 (ops (.s 5) .none (.tl 0) .none),
    .tlwait f1 .none (.tl 0) 1, .tlwait f0 .none .none 1, .tlbind f0 .none (.s 1) 0, .tlbind f0 (.tl 0) (.s 1) 1,
    .tlread f0 (.s 1) .none 0, .tlread f0 (.s 1) (.tl 0) 1, .predhint f1, .waitpred f1].all (fun i => !i.wf) = true := by
  decide

/-- R183 to R248: control, system, matrix, stream and fabric words. -/
theorem test_ill_formed_control_words : [
    Instr.brind f1 (.s 1), .brind f0 .none, .callind f0 .none (.s 1), .callind f0 (.s 2) .none, .ret f0 .none, .ret f1 (.s 1),
    .gjoin f1 (.s 1) 0, .gjoin f0 .none 0, .elect f0 .none, .ballot f0 .none,
    .shfl f0 { mode := .idx, w64 := false, d := .none, a := .v 2, b := .v 3, c := .none },
    .shfl f0 { mode := .idx, w64 := false, d := .v 1, a := .v 2, b := .v 3, c := .s 1 },
    .shflX f0 { mode := .idx, w64 := false, d := .v 1, a := .v 2, b := .v 3, c := .none },
    .grow f0 12, .grow f0 0, .grow f0 264, .grow f1 16, .shrink f0 4, .shrink f1 16,
    .spawn f0 (ops .none (.v 1) (.s 2) .none), .klaunch f1 (ops (.s 1) (.s 2) (.s 3) .none), .klaunch f0 (ops (.s 1) (.s 2) .none .none),
    .eqenq f0 (ops (.v 1) (.v 4) .none .none), .eqstat f0 (ops (.s 1) (.s 2) (.s 3) .none), .hopReq f1 0, .hopReq f0 4,
    .mwait f1 .eq { data := .s 1, base := .s 2, off := 0 } .dev .acq, .mwait f0 .eq { data := .none, base := .s 2, off := 0 } .dev .acq,
    .mwait f0 .eq { data := .s 1, base := .none, off := 0 } .dev .acq, .mwait f0 .eq { data := .s 1, base := .s 2, off := 0 } .dev .rel,
    .trap fs 1, .trap f1 1, .tret fs, .cnclaim f0 (ops (.s 1) .none .none .none), .cnfree f0 (ops (.s 1) (.s 2) .none .none),
    .xrd fs (ops (.h 1) (.s 1) .none .none), .xwr f0 (ops (.s 1) .none .none .none),
    .tcfg f1 (ops (.t 1) (.s 4) .none .none), .tcfg f0 (ops (.t 1) .none .none .none), .mma f0 false 2 (ops (.s 6) (.t 0) .none (.s 5)),
    .mmaPair f1 false 2 (ops (.s 6) (.t 0) (.t 1) (.s 5)), .aalloc f0 (ops .none (.s 1) .none .none), .afree f0 (ops (.s 1) (.s 2) .none .none),
    .aclaim f1 (ops (.s 1) (.s 2) .none .none), .ard f1 false (ops (.s 1) (.s 2) .none .none), .ard f0 false (ops .none (.s 2) .none .none),
    .azero f0 (ops .none .none .none .none), .vstrip f1 (ops .none (.s 1) .none .none), .vstrip f0 (ops .none .none .none .none),
    .vsrc f0 (ops .none (.s 1) .none .none), .vsnk f0 (ops (.outp 0) .none .none .none), .vaccReset f0 (ops .none (.s 1) .none .none),
    .vdrain f0 (ops (.s 1) .none .none .none), .fload f0 (ops (.s 1) .none (.tl 0) .none), .frun f1 (ops (.s 1) (.s 2) (.tl 0) .none),
    .fdrain f0 (ops (.s 1) (.s 2) (.tl 0) .none), .fsave f0 (ops (.s 1) (.s 2) .none .none),
    .fpush f0 false false (ops (.s 1) (.v 2) .none .none), .fpop f0 false (ops (.v 1) (.s 2) .none .none)].all (fun i => !i.wf) = true := by
  decide

/-! ## Words written out from their encodings (R89 to R102) -/

/-- R92, with PRED = 7 and C and RND last. -/
def wX (cls minor d a b sat aux c rnd : Nat) : Nat :=
  cls * 2 ^ 56 + minor * 2 ^ 48 + d * 2 ^ 39 + a * 2 ^ 30 + b * 2 ^ 21 + sat * 2 ^ 20 + aux * 2 ^ 16 + 7 * 2 ^ 13 + c * 2 ^ 3 + rnd

/-- R93. -/
def wI (cls minor d a imm sat : Nat) : Nat :=
  cls * 2 ^ 56 + minor * 2 ^ 48 + d * 2 ^ 39 + a * 2 ^ 30 + imm / 2 ^ 11 * 2 ^ 16 + 7 * 2 ^ 13 + sat * 2 ^ 11 + imm % 2 ^ 11

/-- R94. -/
def wM (cls minor data base off scope ord : Nat) : Nat :=
  cls * 2 ^ 56 + minor * 2 ^ 48 + data * 2 ^ 39 + base * 2 ^ 30 + off / 2 ^ 7 * 2 ^ 16 + 7 * 2 ^ 13 + off % 2 ^ 7 * 2 ^ 5 + scope * 2 ^ 2 + ord

/-- R95. -/
def wL (cls minor d imm : Nat) : Nat :=
  cls * 2 ^ 56 + minor * 2 ^ 48 + d * 2 ^ 39 + imm / 2 ^ 12 * 2 ^ 16 + 7 * 2 ^ 13 + imm % 2 ^ 12

/-- R96. -/
def wB (cls minor off : Nat) : Nat := cls * 2 ^ 56 + minor * 2 ^ 48 + off * 2 ^ 16 + 7 * 2 ^ 13

/-- R120: the integer operations in the order of OP. -/
def intOps : List (Fixed → IntForm → Instr) :=
  [.addInteger, .subInteger, .mulInteger, .mulhi, .madInteger, .andInteger, .orInteger, .xorInteger, .shl, .shr, .sar, .minInteger,
   .maxInteger, .absInteger, .movInteger, .negInteger]

/-- Classes 0x01 to 0x04: OP 4 has C, OP 13 to 15 no B, and 4, 13 and 15 no immediate form. -/
def intWords : List (Nat × Instr) :=
  intOps.zipIdx.flatMap (fun (mk, op) =>
    let one := decide (13 ≤ op)
    let mad := decide (op = 4)
    [(wX 0x01 (16 * op + 1) 0x101 0x102 (if one then 0x1FF else 0x103) 0 0 (if mad then 0x104 else 0x1FF) 0,
        mk f0 (.salu .n32 (.s 1) (.s 2) (if one then .none else .s 3) (if mad then .s 4 else .none) false)),
     (wX 0x03 (16 * op + 4) 5 6 (if one then 0x1FF else 7) 0 0 (if mad then 8 else 0x1FF) 0,
        mk f0 (.valu .i16x2 (.v 5) (.v 6) (if one then .none else .v 7) (if mad then .v 8 else .none) false))] ++
    (if mad || op == 13 || op == 15 then [] else
      [(wI 0x02 (16 * op + 2) 0x101 (if op = 14 then 0x1FF else 0x102) 0x1000801 0,
          mk f0 (.salui .i64 (.s 1) (if op = 14 then .none else .s 2) 0x1000801 false)),
       (wI 0x04 (16 * op + 6) 5 (if op = 14 then 0x1FF else 6) 300 0,
          mk f0 (.valui .i8x4 (.v 5) (if op = 14 then .none else .v 6) 300 false))]))

/-- Classes 0x00, 0x05, 0x06 and 0x0B, 0x0C. -/
def bitWords : List (Nat × Instr) := [
  (wX 0x00 0 0x1FF 0x1FF 0x1FF 0 0 0x1FF 0, .nop f0),
  (wX 0x05 0x00 1 2 0x1FF 0 0 0x1FF 0, .popc f0 { ty := .i32, d := .v 1, a := .v 2, b := .none, c := .none }),
  (wX 0x05 0x13 2 4 0x1FF 0 0 0x1FF 0, .clz f0 { ty := .n64, d := .v 2, a := .v 4, b := .none, c := .none }),
  (wX 0x05 0x25 1 2 0x1FF 0 0 0x1FF 0, .brev f0 { ty := .n16x2, d := .v 1, a := .v 2, b := .none, c := .none }),
  (wX 0x05 0x31 1 2 0x103 0 0 0x1FF 0, .bfe f0 { ty := .n32, d := .v 1, a := .v 2, b := .s 3, c := .none }),
  (wX 0x05 0x47 1 2 3 0 0 4 0, .bfi f0 { ty := .n8x4, d := .v 1, a := .v 2, b := .v 3, c := .v 4 }),
  (wX 0x06 0x00 0x141 2 3 0 4 0x1FF 0, .cmp f0 .gt { ty := .i32, d := .p 1, a := .v 2, b := .v 3, c := .none }),
  (wX 0x06 0x0C 0x147 2 4 0 6 0x1FF 0, .cmp f0 .un { ty := .f64, d := .p 7, a := .v 2, b := .v 4, c := .none }),
  (wX 0x06 0x1A 1 2 3 0 0 0x142 0, .sel f0 { ty := .bf16x2, d := .v 1, a := .v 2, b := .v 3, c := .p 2 }),
  (wX 0x06 0x20 0x141 0x142 0x143 0 0 0x1FF 0, .pand f0 (ops (.p 1) (.p 2) (.p 3) .none)),
  (wX 0x06 0x30 0x141 0x142 0x143 0 0 0x1FF 0, .por f0 (ops (.p 1) (.p 2) (.p 3) .none)),
  (wX 0x06 0x40 0x141 0x142 0x143 0 0 0x1FF 0, .pxor f0 (ops (.p 1) (.p 2) (.p 3) .none)),
  (wX 0x06 0x50 0x141 0x147 0x1FF 0 0 0x1FF 0, .pnot f0 (ops (.p 1) (.p 7) .none .none)),
  (wI 0x0B 0x00 0x101 0x1FF 0x001 0, .crd f0 (.s 1) 0x001), (wI 0x0B 0x00 0x102 0x1FF 0x012 0, .crd f0 (.s 2) 0x012),
  (wI 0x0B 0x00 3 0x1FF 0x002 0, .crd f0 (.v 3) 0x002), (wI 0x0B 0x00 4 0x1FF 0x003 0, .crd f0 (.v 4) 0x003),
  (wI 0x0B 0x01 0x1FF 0x101 0x001 0, .cwr f0 (.s 1) 0x001), (wI 0x0B 0x01 0x1FF 3 0x002 0, .cwr f0 (.v 3) 0x002),
  (wI 0x0B 0x01 0x1FF 4 0x003 0, .cwr f0 (.v 4) 0x003),
  (wL 0x0C 0x00 0x104 0x56789ABC0, .li f0 (.s 4) 0x56789ABC0), (wL 0x0C 0x00 5 7, .li f0 (.v 5) 7),
  (wL 0x0C 0x01 0x104 0x2468, .lih f0 (.s 4) 0x2468), (wL 0x0C 0x01 6 1, .lih f0 (.v 6) 1),
  (wL 0x0C 0x02 6 0x400000000, .liPair f0 (.v 6) 0x400000000)]

/-- Classes 0x07 to 0x0A. -/
def floatWords : List (Nat × Instr) :=
  ([(.addFloat, 0, true, false), (.subFloat, 1, true, false), (.mulFloat, 2, true, false), (.fma, 3, true, true), (.fnma, 4, true, true),
    (.minFloat, 5, true, false), (.maxFloat, 6, true, false), (.absFloat, 7, false, false), (.negFloat, 8, false, false)] :
      List ((Fixed → FaluForm → Instr) × Nat × Bool × Bool)).map (fun (mk, op, b, c) =>
    (wX 0x07 (16 * op + 8) 1 2 (if b then 3 else 0x1FF) (if op < 5 then 1 else 0) 0 (if c then 4 else 0x1FF) (if op < 5 then 4 else 0),
      mk f0 { ty := .f32, d := .v 1, a := .v 2, b := if b then .v 3 else .none, c := if c then .v 4 else .none, sat := decide (op < 5),
              rnd := if op < 5 then .rs else .rne })) ++
  ([(.rcp, 0), (.rsqrt, 1), (.sqrt, 2), (.exp2, 3), (.log2, 4), (.sinpi, 5), (.cospi, 6), (.tanh, 7)] :
      List ((Fixed → TrnForm → Instr) × Nat)).map (fun (mk, op) =>
    (wX 0x08 (16 * op + 10) 1 2 0x1FF 0 0 0x1FF 0, mk f0 { ty := .bf16x2, d := .v 1, a := .v 2, rnd := .rne })) ++ [
  (wX 0x09 0x06 2 1 0x1FF 1 0 0x010 0, .cvt f0 { dst := .e4m3, src := .f32, d := .v 2, a := .v 1, b := .none, sat := true, j := 0, rnd := .rne }),
  (wX 0x09 0x2F 3 2 4 0 7 0x010 1, .pack f0 { dst := .mxf4, src := .f32, d := .v 3, a := .v 2, b := .v 4, sat := false, j := 7, rnd := .rz }),
  (wX 0x09 0x41 3 2 4 0 3 0x130 0, .unpack f0 { dst := .f32, src := .dx4, d := .v 3, a := .v 2, b := .v 4, sat := false, j := 3, rnd := .rne }),
  (wX 0x0A 0x13 3 2 0x1FF 1 0 0x1FF 0, .dxenc f0 { fmt := .dx4, d := .v 3, a := .v 2, sat := true, rnd := .rne }),
  (wX 0x0A 0x34 3 2 0x1FF 0 0 0x1FF 0, .dxdec f0 { fmt := .dx3, d := .v 3, a := .v 2, sat := false, rnd := .rne }),
  (wX 0x0A 0x4B 3 2 0x1FF 0 0 0x1FF 4, .mxenc f0 { fmt := .mxf8e5, d := .v 3, a := .v 2, sat := false, rnd := .rs }),
  (wX 0x0A 0x70 3 2 0x1FF 1 0 0x1FF 2, .mxdec f0 { fmt := .mxi8, d := .v 3, a := .v 2, sat := true, rnd := .rp })]

def atomForm (w64 uns loc lane : Bool) (data base : Reg) (off : BitVec 21) (scope : Scope) (ord : Order) : AtomForm :=
  { w64, uns, loc, lane, data, base, off, scope, ord }

/-- Classes 0x10 to 0x19. -/
def memWords : List (Nat × Instr) := [
  (wM 0x10 0x10 0x101 0x102 64 0 0, .ld f0 { space := .g, ty := .i32, mode := .scalar, data := .s 1, base := .s 2, off := 64 }),
  (wM 0x10 0x55 4 8 0x1FFFFC 0 0, .ld f0 { space := .l, ty := .i64, mode := .lane, data := .v 4, base := .v 8, off := 0x1FFFFC }),
  (wM 0x10 0x86 3 0x1FF 16 0 0, .ld f0 { space := .k, ty := .n8, mode := .absolute, data := .v 3, base := .none, off := 16 }),
  (wM 0x11 0x09 5 12 0 0 0, .st f0 { space := .g, ty := .i16, mode := .lane, data := .v 5, base := .v 12, off := 0 }),
  (wM 0x11 0x5A 0x104 0x1FF 0x30 0 0, .st f0 { space := .l, ty := .i128, mode := .absolute, data := .s 4, base := .none, off := 0x30 }),
  (wM 0x12 0x00 1 0x102 0 4 0, .atomAdd f0 (atomForm false false false false (.v 1) (.s 2) 0 .dev .rlx)),
  (wM 0x12 0x14 1 0x102 4 4 1, .atomMin f0 (atomForm false true false false (.v 1) (.s 2) 4 .dev .acq)),
  (wM 0x12 0x28 2 0x102 8 4 2, .atomMax f0 (atomForm true false false false (.v 2) (.s 2) 8 .dev .rel)),
  (wM 0x12 0x32 1 0x1FF 4 1 0, .atomAnd f0 (atomForm false false true false (.v 1) .none 4 .core .rlx)),
  (wM 0x12 0x43 1 8 0 0 3, .atomOr f0 (atomForm false false true true (.v 1) (.v 8) 0 .grp .acqrel)),
  (wM 0x12 0x50 0x101 0x102 0 5 0, .atomXor f0 (atomForm false false false false (.s 1) (.s 2) 0 .sys .rlx)),
  (wM 0x12 0x61 1 8 0 3 0, .atomXchg f0 (atomForm false false false true (.v 1) (.v 8) 0 .die .rlx)),
  (wM 0x12 0x78 2 0x102 0 2 3, .atomCas f0 (atomForm true false false false (.v 2) (.s 2) 0 .clu .acqrel)),
  (wM 0x12 0x88 0x101 0x102 0 4 1, .atomLd f0 (atomForm true false false false (.s 1) (.s 2) 0 .dev .acq)),
  (wM 0x12 0x90 1 0x102 0 4 2, .atomSt f0 (atomForm false false false false (.v 1) (.s 2) 0 .dev .rel)),
  (wM 0x13 0x00 0x1FF 0x1FF 0 2 2, .fence f0 .clu .rel),
  (wM 0x14 0x01 2 0x104 8 0 0, .cstore f0 true { data := .v 2, base := .s 4, off := 8 }),
  (wM 0x14 0x02 2 0x104 8 0 0, .xload f0 false { data := .v 2, base := .s 4, off := 8 }),
  (wX 0x15 0x00 0x105 0x104 0x158 0 0 0x107 0, .acopy f0 (ops (.s 5) (.s 4) (.tl 0) (.s 7))),
  (wX 0x15 0x01 0x105 0x104 0x15F 0 0 0x1FF 0, .acopyPull f0 (ops (.s 5) (.s 4) (.tl 7) .none)),
  (wX 0x16 0x00 0x105 0x104 0x158 0 0 0x1FF 0, .gath f0 (ops (.s 5) (.s 4) (.tl 0) .none)),
  (wX 0x16 0x01 0x105 0x104 0x158 0 0 0x1FF 0, .scat f0 (ops (.s 5) (.s 4) (.tl 0) .none)),
  (wI 0x17 0x00 0x1FF 0x159 0x1FFFFFF 0, .tlwait f0 .none (.tl 1) 0x1FFFFFF), (wI 0x17 0x00 0x103 0x159 2 0, .tlwait f0 (.s 3) (.tl 1) 2),
  (wI 0x17 0x01 0x159 0x103 0 0, .tlbind f0 (.tl 1) (.s 3) 0), (wI 0x17 0x02 0x103 0x159 0 0, .tlread f0 (.s 3) (.tl 1) 0),
  (wM 0x18 0x00 0x101 0x1FF 0x80 0 0, .tbarInit f0 { data := .s 1, base := .none, off := 0x80 }),
  (wM 0x18 0x01 0x1FF 0x102 0 0 0, .tbarArrive f0 { data := .none, base := .s 2, off := 0 }),
  (wM 0x18 0x02 0x101 0x1FF 0x80 0 0, .tbarExpect f0 { data := .s 1, base := .none, off := 0x80 }),
  (wM 0x18 0x03 0x101 0x1FF 0x80 0 0, .tbarWait f0 { data := .s 1, base := .none, off := 0x80 }),
  (wX 0x19 0x00 0x1FF 0x1FF 0x1FF 0 0 0x1FF 0, .predhint f0), (wX 0x19 0x01 0x1FF 0x1FF 0x1FF 0 0 0x1FF 0, .waitpred f0)]

/-- Classes 0x20 to 0x29. -/
def controlWords : List (Nat × Instr) := [
  (wB 0x20 0x00 0xFFFFFFFE, .br f0 (-2)), (wB 0x20 0x01 5, .call f0 5),
  (wX 0x21 0x00 0x1FF 0x104 0x1FF 0 0 0x1FF 0, .brind f0 (.s 4)), (wX 0x21 0x01 0x105 8 0x1FF 0 0 0x1FF 0, .callind f0 (.s 5) (.v 8)),
  (wX 0x21 0x02 0x1FF 0x13F 0x1FF 0 0 0x1FF 0, .ret f0 (.s 63)),
  (wI 0x22 0x00 0x1FF 0x102 7 0, .gjoin f0 (.s 2) 7), (wX 0x22 0x01 0x1FF 0x1FF 0x1FF 0 0 0x1FF 0, .gleave f0),
  (wX 0x22 0x02 0x142 0x1FF 0x1FF 0 0 0x1FF 0, .elect f0 (.p 2)), (wX 0x22 0x03 0x105 0x1FF 0x1FF 0 0 0x1FF 0, .ballot f0 (.s 5)),
  (wX 0x23 0x00 6 4 5 0 0 0x1FF 0, .shfl f0 { mode := .idx, w64 := false, d := .v 6, a := .v 4, b := .v 5, c := .none }),
  (wX 0x23 0x07 6 4 0x105 0 1 0x103 0, .shflX f0 { mode := .xor, w64 := true, d := .v 6, a := .v 4, b := .s 5, c := .s 3 }),
  (wI 0x24 0x00 0x1FF 0x1FF 256 0, .grow f0 256), (wI 0x24 0x01 0x1FF 0x1FF 8 0, .shrink f0 8),
  (wX 0x25 0x00 1 2 0x103 0 0 0x1FF 0, .spawn f0 (ops (.v 1) (.v 2) (.s 3) .none)),
  (wX 0x25 0x01 0x101 0x102 0x103 0 0 0x1FF 0, .klaunch f0 (ops (.s 1) (.s 2) (.s 3) .none)),
  (wX 0x26 0x00 1 4 9 0 0 0x1FF 0, .eqenq f0 (ops (.v 1) (.v 4) (.v 9) .none)),
  (wX 0x26 0x01 0x101 0x102 0x1FF 0 0 0x1FF 0, .eqstat f0 (ops (.s 1) (.s 2) .none .none)),
  (wI 0x27 0x00 0x1FF 0x1FF 3 0, .hopReq f0 3),
  (wM 0x28 0x02 0x101 0x104 8 4 1, .mwait f0 .ge { data := .s 1, base := .s 4, off := 8 } .dev .acq),
  (wM 0x28 0x00 0x101 0x104 8 5 0, .mwait f0 .eq { data := .s 1, base := .s 4, off := 8 } .sys .rlx),
  (wM 0x28 0x01 0x101 0x104 8 5 0, .mwait f0 .ne { data := .s 1, base := .s 4, off := 8 } .sys .rlx),
  (wX 0x29 0x00 0x1FF 0x1FF 0x1FF 0 15 0x1FF 0, .trap f0 15), (wX 0x29 0x02 0x101 0x102 0x1FF 0 0 0x1FF 0, .cnclaim f0 (ops (.s 1) (.s 2) .none .none)),
  (wX 0x29 0x03 0x1FF 0x102 0x1FF 0 0 0x1FF 0, .cnfree f0 (ops .none (.s 2) .none .none))]

/-- Class 0x29, the words of handlers. -/
def handlerWords : List (Nat × Instr) := [
  (wX 0x29 0x01 0x1FF 0x1FF 0x1FF 0 0 0x1FF 0, .tret f0),
  (wX 0x29 0x04 0x185 0x13F 0x1FF 0 0 0x1FF 0, .xrd f0 (ops (.h 5) (.s 63) .none .none)),
  (wX 0x29 0x04 0x185 0x147 0x1FF 0 0 0x1FF 0, .xrd f0 (ops (.h 5) (.p 7) .none .none)),
  (wX 0x29 0x04 0x185 0x15A 0x1FF 0 0 0x1FF 0, .xrd f0 (ops (.h 5) (.tl 2) .none .none)),
  (wX 0x29 0x04 0x1A1 0x0FF 0x1FF 0 0 0x1FF 0, .xrd f0 (ops (.hv 1) (.v 255) .none .none)),
  (wX 0x29 0x05 0x100 0x19F 0x1FF 0 0 0x1FF 0, .xwr f0 (ops (.s 0) (.h 31) .none .none)),
  (wX 0x29 0x05 0x146 0x181 0x1FF 0 0 0x1FF 0, .xwr f0 (ops (.p 6) (.h 1) .none .none)),
  (wX 0x29 0x05 0x158 0x181 0x1FF 0 0 0x1FF 0, .xwr f0 (ops (.tl 0) (.h 1) .none .none)),
  (wX 0x29 0x05 0x000 0x1AF 0x1FF 0 0 0x1FF 0, .xwr f0 (ops (.v 0) (.hv 15) .none .none))]

/-- Classes 0x30 to 0x32 and 0x34, as a threaded group may issue them. -/
def engineWords : List (Nat × Instr) := [
  (wX 0x30 0x00 0x149 0x104 0x1FF 0 0 0x1FF 0, .tcfg f0 (ops (.t 1) (.s 4) .none .none)),
  (wX 0x31 0x00 0x106 0x148 0x149 0 2 0x105 0, .mma f0 false 2 (ops (.s 6) (.t 0) (.t 1) (.s 5))),
  (wX 0x31 0x01 0x106 0x148 0x149 1 7 0x105 0, .mmaPair f0 true 7 (ops (.s 6) (.t 0) (.t 1) (.s 5))),
  (wX 0x32 0x00 0x101 0x102 0x1FF 0 0 0x1FF 0, .aalloc f0 (ops (.s 1) (.s 2) .none .none)),
  (wX 0x32 0x01 0x1FF 0x102 0x1FF 0 0 0x1FF 0, .afree f0 (ops .none (.s 2) .none .none)),
  (wX 0x32 0x02 0x101 0x102 0x1FF 0 0 0x1FF 0, .aclaim f0 (ops (.s 1) (.s 2) .none .none)),
  (wX 0x32 0x03 2 0x102 0x1FF 0 1 0x1FF 0, .ard f0 true (ops (.v 2) (.s 2) .none .none)),
  (wX 0x32 0x04 0x1FF 0x102 0x1FF 0 0 0x1FF 0, .azero f0 (ops .none (.s 2) .none .none)),
  (wX 0x34 0x00 0x101 0x102 0x158 0 0 0x103 0, .fload f0 (ops (.s 1) (.s 2) (.tl 0) (.s 3))),
  (wX 0x34 0x01 0x101 0x102 0x158 0 0 0x1FF 0, .frun f0 (ops (.s 1) (.s 2) (.tl 0) .none)),
  (wX 0x34 0x02 0x101 0x1FF 0x158 0 0 0x103 0, .fdrain f0 (ops (.s 1) .none (.tl 0) (.s 3))),
  (wX 0x34 0x03 0x101 0x102 0x158 0 0 0x1FF 0, .fsave f0 (ops (.s 1) (.s 2) (.tl 0) .none)),
  (wX 0x34 0x04 0x101 2 0x103 0 1 0x1FF 0, .fpush f0 true false (ops (.s 1) (.v 2) (.s 3) .none)),
  (wX 0x34 0x04 0x101 2 0x103 0 2 0x1FF 0, .fpush f0 false true (ops (.s 1) (.v 2) (.s 3) .none)),
  (wX 0x34 0x05 2 0x103 0x1FF 0 1 0x104 0, .fpop f0 true (ops (.v 2) (.s 3) .none (.s 4)))]

/-- Class 0x33 and other words of a vector control thread. -/
def vectorWords : List (Nat × Instr) := [
  (wX 0x33 0x00 0x1FF 0x103 0x1FF 0 0 0x1FF 0, .vstrip f0 (ops .none (.s 3) .none .none)),
  (wX 0x33 0x01 0x167 0x103 0x1FF 0 0 0x1FF 0, .vsrc f0 (ops (.inp 7) (.s 3) .none .none)),
  (wX 0x33 0x02 0x16B 0x103 0x1FF 0 0 0x1FF 0, .vsnk f0 (ops (.outp 3) (.s 3) .none .none)),
  (wX 0x33 0x03 0x177 0x1FF 0x1FF 0 0 0x1FF 0, .vaccReset f0 (ops (.ac 7) .none .none .none)),
  (wX 0x33 0x04 0x1FF 0x1FF 0x1FF 0 0 0x1FF 0, .vdrain f0 (ops .none .none .none .none)),
  (wX 0x32 0x03 0x101 0x102 0x1FF 0 1 0x1FF 0, .ard f0 true (ops (.s 1) (.s 2) .none .none)),
  (wI 0x0B 0x00 0x171 0x1FF 0x003 0, .crd f0 (.ac 1) 0x003), (wI 0x0B 0x00 0x171 0x1FF 0x002 0, .crd f0 (.ac 1) 0x002),
  (wX 0x34 0x04 0x101 0x172 0x103 0 1 0x1FF 0, .fpush f0 true false (ops (.s 1) (.ac 2) (.s 3) .none)),
  (wX 0x34 0x05 0x172 0x103 0x1FF 0 0 0x104 0, .fpop f0 false (ops (.ac 2) (.s 3) .none (.s 4)))]

/-- Every word of the list decodes to its instruction, which is well formed. -/
def decodesTo (ws : List (Nat × Instr)) : Bool := ws.all (fun w => decide (decode (BitVec.ofNat 64 w.1) = some w.2) && w.2.wf)

theorem test_decode_integer_words : decodesTo intWords = true := by decide
theorem test_decode_bit_words : decodesTo bitWords = true := by decide
theorem test_decode_float_words : decodesTo floatWords = true := by decide
theorem test_decode_memory_words : decodesTo memWords = true := by decide
theorem test_decode_control_words : decodesTo controlWords = true := by decide
theorem test_decode_handler_words : decodesTo handlerWords = true := by decide
theorem test_decode_engine_words : decodesTo engineWords = true := by decide
theorem test_decode_vector_words : decodesTo vectorWords = true := by decide

/-- R89: SW, STOP, PRED and SENSE in their places. -/
theorem test_decode_fixed_fields : decode (BitVec.ofNat 64 (2 ^ 63 + 2 ^ 62 + wB 0x20 0 3 - 4 * 2 ^ 13 + 2 ^ 12)) =
    some (.br { sw := true, stop := true, pred := 3, sense := true } 3) := by decide

/-- R97, R100, R111: reserved codes and fields, and unassigned classes, decode to nothing. -/
theorem test_undecodable_words : [
    0xFFFFFFFFFFFFFFFF, wX 0x0D 0 0x1FF 0x1FF 0x1FF 0 0 0x1FF 0, wX 0x00 1 0x1FF 0x1FF 0x1FF 0 0 0x1FF 0,
    wX 0x00 0 0x1FF 0x1FF 0x1FF 0 1 0x1FF 0, wX 0x03 0x0D 1 2 3 0 0 0x1FF 0, wX 0x07 0x08 1 2 3 0 0 0x1FF 5,
    wX 0x05 0x00 1 2 0x16C 0 0 0x1FF 0, wX 0x05 0x50 1 2 0x1FF 0 0 0x1FF 0, wX 0x06 0x00 0x141 2 3 0 8 0x1FF 0,
    wM 0x10 0x1C 1 0x102 0 0 0, wM 0x10 0x13 1 0x102 0 0 0, wM 0x12 0x00 1 0x102 0 6 0, wM 0x12 0xA0 1 0x102 0 0 0,
    wB 0x20 0x00 3 + 1, wX 0x38 0 0x1FF 0x1FF 0x1FF 0 0 0x1FF 0].all (fun w => decide (decode (BitVec.ofNat 64 w) = none)) = true := by
  decide

/-! ## States that meet hypotheses -/

/-- Partition 0 in normal mode, with one group of 32 threads: group 3, of block 1, on core 0 (log 34). -/
def bed : State := boot State.reset

/-- The same group as a vector control thread. -/
def bedVec : State :=
  modBlock (modGroup bed 3 (fun g => { g with vec := some { ac := [], ins := [], outs := [] } })) 1 (fun b => { b with ver := 1 })

/-- The same group in its core's trap handler. -/
def bedHand : State :=
  let s := modGroup bed 3 (fun g => { g with handler := true })
  setCore s 0 { coreOf s 0 with serving := some 3, shadow := { ctx := Ctx.start 0x1000, hv := [] } }

/-- `Ready` and `Ordered`, evaluated, and a condition on the issuer. -/
def meets (s : State) (i : Instr) (p : Issuer → Bool) : Bool :=
  match issuer s with
  | some q => decide (staticTrap s q i = none) && (!(fixed i).stop || q.hand) && decide (awaitsToken q i = none) &&
      (!q.g.returned || q.hand) && q.ctx.held.all (fun h => decide (h.seq ≤ q.at_)) && p q
  | none => false

/-- What `meets` says. -/
theorem witness {s : State} {i : Instr} {p : Issuer → Bool} (h : meets s i p = true) :
    ∃ q, Ready s q i ∧ Ordered q ∧ p q = true := by
  unfold meets at h
  split at h
  · next q hq =>
    simp only [Bool.and_eq_true, decide_eq_true_eq, Bool.or_eq_true, Bool.not_eq_true', List.all_eq_true] at h
    obtain ⟨⟨⟨⟨⟨h1, h2⟩, h3⟩, h4⟩, h5⟩, h6⟩ := h
    exact ⟨q, ⟨hq, h1, h2, h3, h4⟩, h5, h6⟩
  · cases h

/-- The issuer of `u`, if it is still the word of `q`. -/
def stillB (u : State) (q : Issuer) (p : Issuer → Bool) : Bool :=
  match issuer u with
  | some r => decide (r.gid = q.gid) && decide (r.hand = q.hand) && decide (r.at_ = q.at_) && decide (r.ctx.pc = q.ctx.pc) &&
      decide (r.g.core = q.g.core) && decide (r.g.block = q.g.block) && p r
  | none => false

/-- What `stillB` says. -/
theorem still {u : State} {q : Issuer} {p : Issuer → Bool} (h : stillB u q p = true) : ∃ r, Still u q r ∧ p r = true := by
  unfold stillB at h
  split at h
  · next r hr =>
    simp only [Bool.and_eq_true, decide_eq_true_eq] at h
    obtain ⟨⟨⟨⟨⟨⟨h1, h2⟩, h3⟩, h4⟩, h5⟩, h6⟩, h7⟩ := h
    exact ⟨r, ⟨hr, h1, h2, h3, h4, h5, h6⟩, h7⟩
  · cases h

/-- The words of a list have their own effect in `s`. -/
def allReady (s : State) (ws : List (Nat × Instr)) : Bool := ws.all (fun w => meets s w.2 (fun _ => true))

theorem test_integer_words_ready : allReady bed intWords = true := by decide
theorem test_bit_words_ready : allReady bed bitWords = true := by decide
theorem test_float_words_ready : allReady bed floatWords = true := by decide
theorem test_memory_words_ready : allReady bed memWords = true := by decide
theorem test_control_words_ready : allReady bed controlWords = true := by decide
theorem test_handler_words_ready : allReady bedHand handlerWords = true := by decide
theorem test_engine_words_ready : allReady bed engineWords = true := by decide
theorem test_vector_words_ready : allReady bedVec vectorWords = true := by decide

/-! ## The hypotheses of statements about words -/

def withS (s : State) (n : Nat) (v : Dword) : State := modGroup s 3 (fun g => { g with ctx := { g.ctx with s := put g.ctx.s n v } })
def withP (s : State) (n : Nat) (v : Word) : State := modGroup s 3 (fun g => { g with ctx := { g.ctx with p := put g.ctx.p n v } })
def withTl (s : State) (n : Nat) (v : Dword) : State := modGroup s 3 (fun g => { g with ctx := { g.ctx with tl := put g.ctx.tl n v } })
def withPend (s : State) (work : Work) : State := modGroup s 3 (fun g => { g with ctx := { g.ctx with
  pend := [{ id := 0, seq := 1, dests := [.s 9], work, stale := false }] } })
def withReg (s : State) (n : Nat) (v : Dword) : State := setPartReg s 0 n v
/-- Dwords in the block's local window. -/
def withLocal (s : State) (a : Nat) (xs : List Dword) : State :=
  xs.zipIdx.foldl (fun s x => storeLE s (localKey 1 a + 8 * x.2) 8 x.1.toNat) s
/-- A long-latency result under way. -/
def busy (s : State) : State := withPend s (.value 1 [[7]])

def placedB (s : State) (q : Issuer) (sp : Space) (n : Nat) (need : Need) (hostOk : Bool) (as : List LaneAddr) : Bool :=
  decide (badAddr s q.b sp n need.w as = none) && decide ((accessKeys s q.g.block q.b sp need hostOk as).bad = none)

/-- `Files`, evaluated. -/
def filesB (g : Group) : Bool :=
  rising g.ctx.s && rising g.ctx.p && rising g.ctx.tl && (match g.vec with
    | some v => rising v.ac
    | none => true)

/-- What `filesB` says. -/
theorem files {g : Group} (h : filesB g = true) : Files g := by
  simp only [filesB, Bool.and_eq_true] at h
  obtain ⟨⟨⟨h1, h2⟩, h3⟩, h4⟩ := h
  exact ⟨h1, h2, h3, fun v hv => by simpa only [hv] using h4⟩

/-- The invariant `Tables`, evaluated. -/
def tablesB (s : State) : Bool :=
  rising s.groups && rising s.blocks && rising s.launches && rising s.parts && rising s.equ.queues && rising s.equ.groups &&
    rising s.hours.points && s.parts.all (fun e => rising e.2.regs) && s.groups.all (fun e => filesB e.2) &&
    s.sets.all (fun e => rising e.2.v) && s.cores.all (fun e => rising e.2.shadow.ctx.tl) &&
    s.groups.all (fun e => decide (e.1 < s.fresh)) &&
    s.blocks.all (fun b => match b.2.saved with
      | some x => x.groups.all (fun g => decide (g.gid < s.fresh) && (match g.hand with
        | some c => rising c.tl
        | none => true))
      | none => true)

/-- What `tablesB` says. -/
theorem tables {s : State} (h : tablesB s = true) : Tables s := by
  simp only [tablesB, Bool.and_eq_true, List.all_eq_true, decide_eq_true_eq] at h
  obtain ⟨⟨⟨⟨⟨⟨⟨⟨⟨⟨⟨⟨h1, h2⟩, h3⟩, h4⟩, h5⟩, h6⟩, h7⟩, h8⟩, h9⟩, h10⟩, h11⟩, h12⟩, h13⟩ := h
  refine ⟨h1, h2, h3, h4, h5, h6, h7, h8, fun e he => files (h9 e he), h10, h11, h12, fun b hb x hx g hg => ?_⟩
  have := h13 b hb
  simp only [hx, List.all_eq_true, Bool.and_eq_true, decide_eq_true_eq] at this
  exact ⟨(this g hg).1, fun c hc => by simpa only [hc] using (this g hg).2⟩

theorem test_tables_meet : Tables bed := tables (by decide)
theorem test_memory_meets : Memory.wf bed.mem = true := by decide

/-- ControlRegisterWrites, its last clause, for a register of one and of two dwords, and for each command. -/
theorem test_cwr_meets : [(Reg.s 2, (0x006 : BitVec 25)), (.s 2, 0x240), (.s 2, 0x010), (.s 1, 0x214), (.s 1, 0x215), (.s 2, 0x215), (.s 2, 0x216),
    (.s 2, 0x21B)].all (fun e =>
    let s := withS bed 1 1
    let command (q : Issuer) : Bool := e.2 == 0x214 || e.2 == 0x215 && bitAt (scalarVal q e.1) 0 || e.2 == 0x216 || e.2 == 0x21B
    meets s (.cwr f0 e.1 e.2) (fun q => stillB (cregWrite (if command q then releaseNow s q.gid else s) q e.2.toNat (scalarVal q e.1)
      (scalarNext q e.1)) q (fun r => r.ctx.held.all (fun h => decide (h.seq ≤ r.at_))))) = true := by decide

/-- ControlRegisterWrites, the access codes: a partition with no command, a resource of its own with EN clear and set;
`test_debug_commands_meet` has each debug command. -/
theorem test_cwr_access_codes_meet :
    (let nest (en : Dword) : State := { bed with nest := [(0, { Nest.fresh 0 0 with lo := en })] }
     (issuer bed).any (fun q => (look bed.parts q.part).any (fun p => p.command == none) &&
       ([0, 0x8000000000000000] : List Dword).all (fun en => (look (nest en).nest 0).any (fun e => e.owner == some q.part)) &&
       (look bed.nest 0).bind (·.owner) != some q.part)) = true := by decide

def ldG : MemForm := { space := .g, ty := .i32, mode := .scalar, data := .v 1, base := .s 2, off := 0 }
def ldL : MemForm := { space := .l, ty := .i32, mode := .absolute, data := .v 1, base := .none, off := 0 }
def ldK : MemForm := { space := .k, ty := .i8, mode := .absolute, data := .v 1, base := .none, off := 0 }

/-- LoadsAndStoresIssue: with lanes that access memory, and with none. -/
theorem test_loads_and_stores_meet : [f0, f1].all (fun f =>
    meets bed (.ld f ldG) (fun q => badAddr bed q.b .g 4 false (memAccs ldG f bed q) == none &&
      (loadKeys bed 1 q.b .g 4 (memAccs ldG f bed q)).1.bad == none) &&
    meets bed (.st f ldL) (fun q => placedB bed q .l 4 needW true (memAccs ldL f bed q) &&
      decide (typedTrap q.b .l 4 (memAccs ldL f bed q) = none))) = true := by decide

/-- LoadsAndStoresIssue: a dword of a constant window that starts 4 bytes below a page, and one that does not cross it. -/
theorem test_constant_load_crosses_page :
    (let s : State := { bed with launches := upd bed.launches 0 (fun l => { l with const := 0x1FFC, csize := 64 }) }
     let a : LaneAddr := { lane := 3, addr := 0 }
     (issuer s).any (fun q =>
       let k := accessKeys s 1 q.b .k needR true [a, { a with addr := 4 }]
       (constWindow s q.b).1 == 0x1FFC && k.bad == none && k.keys == [(3, 0x1FFC), (3, 0x2000)] && farAccs s q.b .k 8 [{ a with addr := 8 }] == [] &&
         farAccs s q.b .k 8 [a] == [{ a with addr := 4 }])) = true := by decide

/-- AtomicsUpdateInLaneOrder: every atomic, on 32 lanes. -/
theorem test_atomics_meet : ([(.atomAdd, .add), (.atomMin, .min), (.atomMax, .max), (.atomAnd, .and), (.atomOr, .or), (.atomXor, .xor),
    (.atomXchg, .xchg), (.atomCas, .cas), (.atomLd, .ld), (.atomSt, .st)] : List ((Fixed → AtomForm → Instr) × AtomOp)).all (fun e =>
    let o := atomForm false false true false (.v 1) .none 0 .core .rlx
    meets bed (e.1 f0 o) (fun q => placedB bed q .l 4 (atomNeed e.2) (hostAtomic e.2) (laneAddrs bed q f0 o.data o.base o.lane false o.off 0) &&
      decide (typedTrap q.b .l 4 (laneAddrs bed q f0 o.data o.base o.lane false o.off 0) = none))) = true := by decide

/-- DenseWords: every element in reach, and the first one out of it. -/
theorem test_dense_words_meet :
    (let o : AddrForm := { data := .v 2, base := .s 4, off := 0 }
     let d (s : State) (q : Issuer) (w : Bool) := denseKeys s q 4 (cxpDone q.g.cxp) (addrOf (scalarVal q o.base) (offsetOf o.base o.off)) w 0
       (laneList (active q f0))
     let far := withS bed 4 (2 ^ 40)
     meets bed (.cstore f0 false o) (fun q => decide ((d bed q true).bad = none) && stillB (modGroup (pushStores (d bed q true).s q false
         ((d bed q true).keys.map (fun e => (e.2, leBytes (storedNat (d bed q true).s q o.data 4 e.1) 4)))) 3 (fun g => { g with cxp := 0 })) q
         (fun _ => true)) &&
       meets far (.cstore f0 false o) (fun q => decide ((d far q true).bad.isSome)) &&
       meets bed (.xload f0 false o) (fun q => decide ((d bed q false).bad = none) &&
         stillB (modGroup (d bed q false).s 3 (fun g => { g with cxp := 0 })) q (fun _ => true))) = true := by decide

/-- MemoryWordsTrapInOrder: a first lane for each of the four causes, the address just out of reach. -/
theorem test_memory_traps_meet :
    (let first (s : State) (q : Issuer) (o : MemForm) (p : Nat → Bool) : Bool := match memAccs o f0 s q with
       | x :: _ => p x.addr
       | [] => false
     let odd := withS bed 2 2
     let high := withS bed 2 (2 ^ 56)
     let edge : MemForm := { ldL with off := 65536 }
     meets odd (.ld f0 ldG) (fun q => first odd q ldG (fun a => a % 4 != 0)) && meets odd (.st f0 ldG) (fun q => first odd q ldG (fun a => a % 4 != 0)) &&
       meets bed (.ld f0 edge) (fun q => first bed q edge (fun a => decide (blockLocal bed q.b < a + 4)) &&
         (memAccs edge f0 bed q).all (fun a => a.addr % 4 == 0)) &&
       meets bed (.st f0 edge) (fun q => first bed q edge (fun a => decide (blockLocal bed q.b < a + 4))) &&
       meets bed (.ld f0 ldK) (fun q => first bed q ldK (fun a => decide ((constWindow bed q.b).2 < a + 1))) &&
       meets high (.ld f0 ldG) (fun q => first high q ldG (fun a => !canonical a) && (memAccs ldG f0 high q).all (fun a => a.addr % 4 == 0))) =
      true := by decide

/-- FencesAndPredecessors. -/
theorem test_fences_meet : (meets bed (.fence f0 .dev .acqrel) (fun q => stillB (releaseNow bed 3) q (fun _ => true)) &&
    meets bed (.predhint f0) (fun q => stillB (modBlock bed q.g.block (fun b => { b with hinted := true })) q (fun _ => true))) = true := by decide

/-- TransactionBarriers: each word at a barrier of count 1, strict mode off and on. -/
theorem test_barrier_words_meet :
    (let o : AddrForm := { data := .s 1, base := .none, off := 0x80 }
     let strict := setTyped (modBlock bed 1 (fun b => { b with strict := true })) 1 0x80 true
     let fine (s : State) (q : Issuer) (i : Instr) (typed write : Bool) (u : State) : Bool :=
       decide (barrierTrap s q (barrierAddr q o) typed write = none) && decide (i.isWord = true) && stillB u q (fun _ => true)
     [bed, strict].all (fun s =>
       let u := releaseNow s 3
       let b := readBarrier u (localKey 1 0x80)
       meets s (.tbarInit f0 o) (fun q => fine s q (.tbarInit f0 o) false true (setTyped (writeBarrier u (localKey 1 0x80)
           { gen := 0, parr := 0, psec := 0, exp := 0 }) 1 0x80 false)) &&
         meets s (.tbarArrive f0 o) (fun q => fine s q (.tbarArrive f0 o) true true (writeBarrier u (localKey 1 0x80)
           (BarrierWord.check { b with parr := b.parr - 1 }))) &&
         meets s (.tbarExpect f0 o) (fun q => fine s q (.tbarExpect f0 o) true true (writeBarrier u (localKey 1 0x80)
           (BarrierWord.check { b with psec := b.psec + (scalarVal q o.data).setWidth 32 }))) &&
         meets s (.tbarWait f0 o) (fun q => fine s q (.tbarWait f0 o) true false u))) = true := by decide

/-- BranchesAndCalls: no taker, a target that is no text, every member, some members. -/
theorem test_branches_meet :
    (let half := withP bed 1 0xFFFF
     [fun (f : Fixed) (n : BitVec 32) => Instr.br f n, fun f n => Instr.call f n].all (fun mk =>
       meets bed (mk f1 1) (fun q => takers q f1 == 0) &&
         meets bed (mk f0 (-1)) (fun q => takers q f0 != 0 && badTarget bed q (q.ctx.pc - 8)) &&
         meets bed (mk f0 511) (fun q => takers q f0 != 0 && !badTarget bed q (q.ctx.pc + 8 * 511) && q.lanes &&& ~~~takers q f0 == 0) &&
         meets half (mk f1 1) (fun q => takers q f1 != 0 && !badTarget half q (q.ctx.pc + 8) && q.lanes &&& ~~~takers q f1 != 0 &&
           decide ((coreGroups half q.g.core).length + 2 ≤ 65) && decide (q.gid < half.fresh) && rising half.groups))) = true := by decide

/-- IndirectJumps: a target that is no multiple of 8, one target, two targets. -/
theorem test_indirect_jumps_meet :
    (let odd := withS bed 4 0x1001
     let one := withS bed 4 0x1008
     let two : State := { bed with sets := upd bed.sets 2 (fun a => { a with v := (List.range 32).map (fun l => (32 * 8 + l, BitVec.ofNat 32 (0x1000 + l % 2 * 8))) }) }
     [Instr.brind f0 (.s 4), .callind f0 (.s 5) (.s 4), .ret f0 (.s 4)].all (fun i =>
       meets odd i (fun q => (jumpTargets odd q (.s 4)).any (fun x => badTarget odd q x.2)) &&
         meets one i (fun q => jumpTargets one q (.s 4) != [] && (jumpTargets one q (.s 4)).all (fun x => x.2 == 0x1008 && !badTarget one q x.2) &&
           scalarVal q (.s 4) != 0)) &&
       [Instr.brind f0 (.v 8), .callind f0 (.s 5) (.v 8)].all (fun i => meets two i (fun q =>
         (jumpTargets two q (.v 8)).any (fun x => x.2 == 0x1000) && (jumpTargets two q (.v 8)).any (fun x => x.2 == 0x1008) &&
           (jumpTargets two q (.v 8)).all (fun x => !badTarget two q x.2) &&
           decide ((coreGroups two 0).length + (jumpTargets two q (.v 8)).length ≤ 65)))) = true := by decide

/-- A second group of the block, parked at tag 5 with the other 16 members. -/
def twoGroups : State :=
  let s := modGroup bed 3 (fun g => { g with mask := 0xFFFF })
  match look s.groups 3 with
  | some g => { s with
      groups := s.groups ++ [(4, { g with mask := 0xFFFF0000, active := false, park := some (.join 5 0xFFFFFFFF 0x1000) })]
      fresh := 5
      cores := upd s.cores 0 (fun c => { c with order := [3, 4] }) }
  | none => s

/-- GroupsEndJoinAndLeave: every clause. -/
theorem test_group_words_meet :
    (let ws := joinWaiters bed 1 7
     let all := withS twoGroups 2 0xFFFFFFFF
     let xs := joinWaiters all 1 5
     let part := withS bed 2 0xF
     let early := modGroup (withS bed 2 0xFFFFFFFF) 3 (fun g => { g with mask := 0xF })
     meets bedHand (.ret f0 (.h 5)) (fun q => q.hand && scalarVal q (.h 5) == 0) && meets (busy bed) (.ret f0 (.s 1)) (fun q => !q.hand && q.ctx.pend != []) &&
       meets bed (.ret f0 (.s 1)) (fun q => !q.hand && q.ctx.pend == [] && q.g.vec == none && scalarVal q (.s 1) == 0 && tablesB bed) &&
       meets part (.gjoin f0 (.s 2) 7) (fun q => joinConflict q 0xF ws) &&
       meets (withS bed 2 0xFFFFFFFF) (.gjoin f0 (.s 2) 7) (fun q => !joinConflict q 0xFFFFFFFF ws && q.g.mask == 0xFFFFFFFF) &&
       meets early (.gjoin f0 (.s 2) 7) (fun q => !joinConflict q 0xFFFFFFFF ws && q.g.mask != 0xFFFFFFFF && q.ctx.toks == [] && q.ctx.pend == [] &&
         ws.foldl (fun u w => u ||| w.2.1.mask) q.g.mask != 0xFFFFFFFF) &&
       meets all (.gjoin f0 (.s 2) 5) (fun q => !joinConflict q 0xFFFFFFFF xs && q.g.mask != 0xFFFFFFFF && q.ctx.toks == [] && q.ctx.pend == [] &&
         xs.foldl (fun u w => u ||| w.2.1.mask) q.g.mask == 0xFFFFFFFF && tablesB all) &&
       meets bed (.gleave f1) (fun q => active q f1 == 0) &&
       meets bed (.gleave f0) (fun q => active q f0 != 0 && decide ((coreGroups bed 0).length + 32 ≤ 65) && decide (q.gid < bed.fresh))) = true := by
  decide

/-- ShufflesWithinAndAcross: with an offer of the group, and with none. -/
theorem test_offers_meet :
    (let o : ShflForm := { mode := .up, w64 := false, d := .v 6, a := .v 4, b := .v 5, c := .s 3 }
     let mine : ShflOffer := { sc := 0, mode := .idx, n16 := false, members := 1, vals := [], ops := [], lanes := 1 }
     meets (withPend bed (.offer mine)) (.shflX f0 o) (fun q => groupOffer q.g != none) &&
       meets bed (.shflX f0 o) (fun q => groupOffer q.g == none)) = true := by decide

/-- RegisterGrowth: a view large enough, rows free, rows not free; a smaller view. -/
theorem test_growth_meets :
    (let small := modGroup bed 3 (fun g => { g with view := 8 })
     let low : State := { small with sets := upd small.sets 2 (fun a => { a with rows := 8 }) }
     let full : State := { low with sets := low.sets ++ [(9, { block := 1, core := 0, rows := 2040, v := [], rng := [], threads := [] })] }
     let more (s : State) (q : Issuer) := grantsNow (countIssue s q (q.ctx.pc + 8)) 0 (16 - setRows (countIssue s q (q.ctx.pc + 8)) 2)
     meets bed (.grow f0 256) (fun q => decide (256 ≤ q.g.view)) && meets low (.grow f0 16) (fun q => decide (q.g.view < 16) && more low q) &&
       meets full (.grow f0 16) (fun q => decide (q.g.view < 16) && !more full q) && meets bed (.shrink f0 256) (fun q => decide (q.g.view ≤ 256)) &&
       meets bed (.shrink f0 8) (fun q => decide (8 < q.g.view))) = true := by decide

/-- A lane that finds a free pool index spawns, whichever index it takes (log 45). -/
theorem spawn_lanes {s : State} {q : Issuer} {f : Fixed} {a : Reg} (l : Nat) (hl : l ∈ laneList (active q f))
    (h : poolSpare s q.g.core l ≠ []) : spawnLanes s q f a ≠ [] := by
  intro hn
  simp only [spawnLanes, List.filterMap_eq_nil_iff, Option.map_eq_none_iff] at hn
  have := hn l hl
  rw [poolOrder, freeOrder] at this
  have hp : 0 < (poolSpare s q.g.core l).length := List.length_pos_iff.mpr h
  have hk : Config.freeNat (s.free + 32 * l) % max 1 (poolSpare s q.g.core l).length < (poolSpare s q.g.core l).length := by
    have := Nat.mod_lt (Config.freeNat (s.free + 32 * l)) (show 0 < max 1 (poolSpare s q.g.core l).length by omega)
    omega
  rw [List.getElem?_eq_getElem hk] at this
  simp at this

/-- SpawnWords: no lane, no rows, a group made. -/
theorem test_spawn_meets :
    (let s := withS bed 3 0x1000
     let full : State := { s with sets := s.sets ++ [(9, { block := 1, core := 0, rows := 1800, v := [], rng := [], threads := [] })] }
     let o := ops (.v 1) (.v 2) (.s 3) .none
     let v (s : State) (q : Issuer) (f : Fixed) := if active q f = 0 then releaseNow (drawn s 1024) q.gid
       else addPending (releaseNow (drawn s 1024) q.gid) q (destsOf o.d 1) (.value (active q f) [(List.range 32).map (spawnResult (spawnLanes s q f o.a))])
     let good (s : State) (q : Issuer) (f : Fixed) := !badTarget (drawn s 1024) q (scalarVal q o.b) && stillB (v s q f) q (fun _ => true)
     let lane (s : State) (q : Issuer) := (laneList (active q f0)).contains 31 && (poolSpare s q.g.core 31) != []
     let fm : Fixed := { f0 with sw := true }
     let odd := withS bed 3 0x1001
     meets odd (.spawn f0 o) (fun q => badTarget (drawn odd 1024) q (scalarVal q o.b)) &&
       meets s (.spawn f1 o) (fun q => good s q f1 && spawnLanes s q f1 o.a == []) &&
       meets s (.spawn fm o) (fun q => good s q fm && lane s q && grantsNow (v s q fm) 0 q.g.view) &&
       meets full (.spawn f0 o) (fun q => good full q f0 && lane full q && !grantsNow (v full q f0) 0 q.g.view) &&
       meets s (.spawn f0 o) (fun q => good s q f0 && lane s q && grantsNow (v s q f0) 0 q.g.view &&
         decide ((coreGroups (v s q f0) 0).length + 2 ≤ 65) && decide (q.gid < (v s q f0).fresh) && rising (v s q f0).groups)) = true := by decide

/-- An `afree` of group 3 that waits for a pass. -/
def withFree (s : State) : State :=
  setCluster s 0 { clusterOf s 0 with bankOps := [{ zero := false, range := 0, owners := [3], launch := 0, set := 2, seq := 0, passes := [(0, 1)] }] }

/-- ExpertQueueAndLaunchWords. -/
theorem test_queue_words_meet :
    (let o := ops (.v 1) (.v 4) (.v 9) .none
     let p := ops (.ac 1) (.inp 0) (.inp 1) .none
     let lanes (s : State) (q : Issuer) := (memLanes q f0).map (fun l => (l, readV s q 9 l, BitVec.ofNat 128 (laneNat s q o.a 4 l)))
     let port : Port := { spec := some { base := 0, space := 1, signed := false, esz := 8, dims := [{ cnt := 4, shift := 0, sstr := 8, dstr := 0 }] }, pos := 0 }
     let am : Port := { spec := some { base := 0, space := 2, signed := false, esz := 4, dims := [{ cnt := 4, shift := 0, sstr := 4, dstr := 0 }] }, pos := 0 }
     let ports (a b : Port) := modGroup bedVec 3 (fun g => { g with vec := some { ac := [], ins := [(0, a), (1, b)], outs := [] } })
     let vec := ports port port
     let k := ops (.s 1) (.s 2) (.s 3) .none
     let as : List LaneAddr := [{ lane := 32, addr := 0 }]
     meets bed (.eqenq f0 o) (fun q => !q.vec && stillB (enqueueLanes (releaseNow bed 3) q (lanes bed q)).1 q (fun _ => true)) &&
       meets vec (.eqenq f0 p) (fun q =>
         let a := portOperand vec q p.a
         let b := portOperand a.s q p.b
         let u := releaseNow (setAmerr b.s [3] (a.err ||| b.err)) 3
         q.vec && !readsAm vec 3 [0, 1] && a.bad == none && b.bad == none && !a.poisoned && !b.poisoned &&
           stillB (enqueueLanes u q ((laneList (active q f0)).map (fun l => (l, b.v.setWidth 32, a.v.setWidth 128)))).1 q (fun _ => true)) &&
       (let s := withFree (ports port am)
        let v := performOwn s 3
        meets s (.eqenq f0 p) (fun q => q.vec && readsAm s 3 [regNum p.a, regNum p.b] && amBlocked v (coreCluster 0) 3 v.fresh)) &&
       meets bed (.hopReq f0 3) (fun q => stillB (modBlock bed q.g.block (fun b => { b with hopReq := some 3 })) q (fun _ => true)) &&
       meets bed (.klaunch f0 k) (fun q => placedB bed q .g 128 needR true as &&
         !poisonedAt (releaseNow (accessKeys bed 1 q.b .g needR true as).s 3) 0 128 &&
         stillB (appendRecord (meterHost (releaseNow (accessKeys bed 1 q.b .g needR true as).s 3) 0 0 128) 0 0 (zeroBytes 128)).1 q (fun _ => true))) = true := by decide

/-- MemoryWaitsAndClaims: each condition met and not met; a malformed number, a free resource, one's own, another's. -/
theorem test_waits_and_claims_meet :
    (let o : AddrForm := { data := .s 1, base := .s 4, off := 0 }
     let as : List LaneAddr := [{ lane := 32, addr := 0 }]
     let one := withS bed 1 1
     let c := ops (.s 1) (.s 2) .none .none
     let held (p : Nat) : State := { withS bed 2 3 with nest := [(3, Nest.fresh p 0)] }
     [WaitCond.eq, .ne, .ge].all (fun w => meets bed (.mwait f0 w o .dev .acq) (fun q => placedB bed q .g 8 needR true as &&
         !poisonedAt (performMem (accessKeys bed 1 q.b .g needR true as).s 3) 0 8 && stillB (performMem (accessKeys bed 1 q.b .g needR true as).s 3) q (fun _ => true) && scalarVal q o.data == 0) && meets one (.mwait f0 w o .dev .acq) (fun q => placedB one q .g 8 needR true as &&
         scalarVal q o.data == 1)) &&
       meets (withS bed 2 0x200) (.cnclaim f0 c) (fun q => nestKey (scalarVal q c.a) == none) &&
       meets (withS bed 2 3) (.cnclaim f0 c) (fun q => nestKey (scalarVal q c.a) == some 3 && nestOwner bed 3 == none) &&
       meets (held 0) (.cnclaim f0 c) (fun _ => nestOwner (held 0) 3 == some 0) && meets (held 1) (.cnclaim f0 c) (fun _ => nestOwner (held 1) 3 == some 1) &&
       meets (held 0) (.cnfree f0 (ops .none (.s 2) .none .none)) (fun q => nestOwner (held 0) 3 == some q.part) &&
       meets (held 1) (.cnfree f0 (ops .none (.s 2) .none .none)) (fun q => nestOwner (held 1) 3 != some q.part)) = true := by decide

/-- MemoryWaitsAndClaims: an undecided claim of the group; claims of two partitions, the first of which gives the resource up again. -/
theorem test_claims_meet :
    (let claim (id : Nat) (freed : Bool) : Claim := { core := 0, group := 3, key := 3, id, freed }
     let s : State := { withS bed 2 3 with parts := [(0, { bootPartition 0 with claims := [claim 7 true] }), (1, { bootPartition 0 with claims := [claim 8 false] })] }
     let all : List (Nat × Claim) := s.parts.flatMap (fun e => e.2.claims.map (fun c => (e.1, c)))
     meets s (.cnfree f0 (ops .none (.s 2) .none .none)) (fun q => (look s.parts q.part).any (fun p => p.claims.any (fun c => c.group == q.gid && c.key == 3))) &&
       decide (all.Pairwise (fun x y => x.2.id ≠ y.2.id)) && (look s.groups 3).isSome && rising s.nest && nestOwner s 3 == none &&
       all.any (fun x => x.1 == 0 && x.2.freed) && (all.find? (fun x => x.2.key == 3)).map (·.1) == some 0 && all.all (fun x => x.2.key != 4)) = true := by decide

/-- A handler at the text's second word. -/
def handled : State :=
  let s := withReg bed 0x21A 0x1009
  { s with parts := upd s.parts 0 (fun p => { p with trapvec := 0x1009 }) }

/-- SoftwareTrapsAndReturns, TrapsEnterTheHandler. -/
theorem test_traps_and_returns_meet :
    (let fm : Fixed := { f0 with sw := true }
     let busyHand := setCore bedHand 0 { coreOf bedHand 0 with shadow := { ctx := { Ctx.start 0x1000 with
       pend := [{ id := 0, seq := 0, dests := [.s 9], work := .value 1 [[7]], stale := false }] }, hv := [] } }
     meets bed (.trap f0 0) (fun _ => true) && meets bed (.trap fm 15) (fun q => q.ctx.pend == []) && meets (busy bed) (.trap fm 15) (fun q => q.ctx.pend != []) &&
       meets handled (.trap fm 15) (fun q => !q.hand && (coreOf handled 0).serving == none && handlerEntry handled q.part == some 0x1008 && q.ctx.pend == []) &&
       meets busyHand (.tret f0) (fun q => q.ctx.pend != []) &&
       meets bedHand (.tret f0) (fun q => q.ctx.pend == [] && (coreOf bedHand q.g.core).order.all (fun o =>
         match look bedHand.groups o with
         | some x => x.trap == none
         | none => true)) &&
       handlerEntry bed 0 == none && (coreOf bedHand 0).serving != none) = true := by decide

/-- CrossBankMoves: every family that `xwr` writes. -/
theorem test_cross_bank_moves_meet : ([(.s 0, Dest.s 0), (.p 6, .p 6), (.tl 0, .tl 0), (.v 0, .v 0)] : List (Reg × Dest)).all (fun e =>
    meets bedHand (.xwr f0 (ops e.1 (if e.1 = .v 0 then .hv 1 else .h 1) .none .none)) (fun q =>
      stillB (modGroup bedHand q.gid (fun g => { g with ctx := { g.ctx with
        pend := g.ctx.pend.map (fun p => { p with dests := p.dests.map (fun x => if x = e.2 then .gone else x) })
        held := insertHeld { dest := e.2, mask := 1, vals := [0], vis := .at 0, seq := g.ctx.issued }
          (g.ctx.held.filter (fun h => h.dest != e.2)) } })) q (fun _ => true))) = true := by decide

/-! ### Engines, tiles, banks, streams, bands -/

/-- A binding (R52). -/
def binds (kind unit ctx : Nat) : Dword := BitVec.ofNat 64 (2 ^ 63 + kind * 2 ^ 59 + unit * 2 ^ 32 + ctx)

/-- An operation of a copy engine that is under way. -/
def anOp (no : Nat) (work : EngWork) : EngOp :=
  { no, part := 0, block := 1, core := 0, work, token := false, next := 0, wait := none, spill := [], zero := [], covered := [], decs := 0, code := 0, fails := 0,
    first := none, ended := none, reported := false }

/-- Copy of `n` words of 4 bytes from 0x4000 to 0x8000, no status record. -/
def aCopy (n : Nat) : CopyDesc :=
  { src := 0x4000, dst := 0x8000, srcLocal := false, dstLocal := false, barrier := none, periodic := 0, esz := 4,
    dims := [{ cnt := n, shift := 0, sstr := 4, dstr := 4 }], status := none }

/-- Context 0 of sector 0's copy engine: `issued` operations, `count` of them done, and `ops` under way. -/
def withCtx (s : State) (e : EngRef) (issued count : Nat) (ops : List EngOp) : State := setEngCtx s e { issued, count, ops, done := [] }

def copyRef : EngRef := { kind := 0, unit := 0, ctx := 0 }

/-- TimelineWords: not bound, bound elsewhere, reached, never issued, under way; for `tlbind` a bad kind, another's context, none. -/
theorem test_timeline_words_meet :
    (let w := Instr.tlwait f0 .none (.tl 1) 2
     let own (issued count : Nat) := withTl (withCtx bed copyRef issued count []) 1 (binds 0 0 0)
     let other := withTl bed 1 (binds 0 1 0)
     let owned (s : State) (q : Issuer) := engOwned s q.part (bindRef (readTl q 1))
     let bit (q : Issuer) := bitAt (readTl q 1) 63
     let tb : Instr := .tlbind f0 (.tl 1) (.s 3) 0
     meets bed w (fun q => !bit q) && meets other w (fun q => bit q && !owned other q) &&
       meets (own 2 2) w (fun q => bit q && owned (own 2 2) q && decide (2 ≤ engCount (own 2 2) q.part copyRef)) &&
       meets (own 1 1) w (fun q => bit q && owned (own 1 1) q && decide (engCount (own 1 1) q.part copyRef < 2) && decide (engIssued (own 1 1) q.part copyRef < 2)) &&
       meets (own 2 1) w (fun q => bit q && owned (own 2 1) q && decide (engCount (own 2 1) q.part copyRef < 2) && decide (2 ≤ engIssued (own 2 1) q.part copyRef)) &&
       meets (withS bed 3 (BitVec.ofNat 64 (5 * 2 ^ 59))) tb (fun q => decide (4 < field (scalarVal q (.s 3) &&& 0xF800FFFF000000FF) 62 59)) &&
       meets (withS bed 3 (binds 0 1 0)) tb (fun q => bitAt (scalarVal q (.s 3)) 63 && !engOwned bed q.part (bindRef (scalarVal q (.s 3)))) &&
       meets bed tb (fun q => !bitAt (scalarVal q (.s 3)) 63 && decide (field (scalarVal q (.s 3)) 62 59 ≤ 4)) &&
       meets bed (.tlread f0 (.s 3) (.tl 1) 0) (fun q => !bit q) && meets (own 2 2) (.tlread f0 (.s 3) (.tl 1) 0) (fun q => bit q && owned (own 2 2) q)) =
      true := by decide

/-- A descriptor at local address 0: 4 words from 0x4000 to local 0x200. -/
def copyWords : List Dword := [0x4000, 0x200, 0x82, 0, 3, 0x400000004]
/-- A parameter block at local address 0: 4 words with indices at 0x4000, a table at 0x5000 and local 0x200. -/
def iseWords : List Dword := [0x4000, 0x5000, 0x200, 0x40042, 4, 0]

/-- EngineCommands: each command accepted; then every way in which one is not. -/
theorem test_engine_commands_meet :
    (let o := ops (.s 5) (.s 4) (.tl 0) (.s 7)
     let c := withLocal (withTl bed 0 (binds 0 0 0)) 0 copyWords
     let g := withLocal (withTl bed 0 (binds 1 0 0)) 0 iseWords
     let copies (s : State) (q : Issuer) (pull : Bool) : Option EngWork := (parseCopy (ownLocal (releaseNow s 3) q 0 128)).bind
       (fun d => if copyFits (blockLocal s q.b) 0 0 d then some (.copy pull d) else none)
     let ises (s : State) (q : Issuer) (scat : Bool) : Option EngWork := (parseIse scat (ownLocal (releaseNow s 3) q 0 64)).bind
       (fun d => if iseFits (blockLocal s q.b) d then some (if scat then .scat d else .gath d) else none)
     let bound (s : State) (q : Issuer) (kind : Nat) := bitAt (readTl q 0) 63 && (bindRef (readTl q 0)).kind == kind && engOwned s q.part (bindRef (readTl q 0))
     let enters (s : State) (q : Issuer) (e : EngRef) (w : Option EngWork) : Bool := match w with
       | some w => !engFull (releaseNow s 3) e && stillB (withOp (releaseNow s 3) q e w true) q (fun _ => true)
       | none => false
     let full := withCtx c copyRef 64 0 ((List.range 64).map (fun n => anOp (n + 1) (.copy false (aCopy 1))))
     let i := Instr.acopy f0 o
     meets c i (fun q => bound c q 0 && enters c q copyRef (copies c q false)) &&
       meets c (.acopyPull f0 o) (fun q => bound c q 0 && enters c q copyRef (copies c q true)) &&
       meets g (.gath f0 (ops (.s 5) (.s 4) (.tl 0) .none)) (fun q => bound g q 1 && enters g q { kind := 1, unit := 0, ctx := 0 } (ises g q false)) &&
       meets g (.scat f0 (ops (.s 5) (.s 4) (.tl 0) .none)) (fun q => bound g q 1 && enters g q { kind := 1, unit := 0, ctx := 0 } (ises g q true)) &&
       meets bed i (fun q => !bound bed q 0) && meets (withS c 4 64) i (fun q => bound c q 0 && scalarVal q (.s 4) == 64) &&
       meets (withS c 4 65536) i (fun q => decide (blockLocal c q.b < (scalarVal q (.s 4)).toNat + 128)) &&
       meets (withLocal c 0x70 [1]) i (fun q => bound c q 0 && copies (withLocal c 0x70 [1]) q false == none) &&
       meets full i (fun q => bound full q 0 && engFull (releaseNow full 3) copyRef && (copies full q false).isSome)) = true := by decide

/-- A pass of a cluster's table, its tiles as reset leaves them. -/
def aPass (no : Nat) : Pass :=
  { no, ctx := 0, block := 1, launch := 0, set := 2, part := 0, core := 0, tileA := { lo := 0, hi := 0x8000000000000000 },
    tileB := { lo := 0, hi := 0x8000000000000000 }, target := 0x10000, sat := false, pair := false, pri := 0, entered := 0, aged := false, array := 2,
    wrote := false, words := [], events := 0 }

/-- MatrixWords: a good and a bad tile; a pass without a binding, with a bad target, into a full table, and entered. -/
theorem test_matrix_words_meet :
    (let t := ops (.t 1) (.s 4) .none .none
     let good := withS bed 5 0x8000000000000000
     let o := ops (.s 6) (.t 0) (.t 1) (.s 5)
     let me := withTl (withS bed 5 0x10000) 2 (binds 2 0 0)
     let bound (q : Issuer) := bitAt (readTl q 2) 63 && decide (bindRef (readTl q 2) = { kind := 2, unit := 0, ctx := 0 })
     let pass (s : State) (q : Issuer) : Pass := { aPass 1 with tileA := readTile s q 0, tileB := readTile s q 1, target := scalarVal q (.s 5) }
     let full := setCluster me 0 { clusterOf me 0 with table := (List.range 16).map aPass }
     let n := (engCtx (releaseNow me 3) { kind := 2, unit := 0, ctx := 0 }).issued + 1
     let u := setEngCtx (releaseNow me 3) { kind := 2, unit := 0, ctx := 0 } { engCtx me { kind := 2, unit := 0, ctx := 0 } with issued := n }
     let v := setCluster u 0 { clusterOf u 0 with table := (clusterOf u 0).table ++ [aPass n] }
     meets bed (.tcfg f0 t) (fun q => !Tile.ok { lo := scalarVal q (.s 4), hi := scalarNext q (.s 4) }) &&
       meets good (.tcfg f0 t) (fun q => Tile.ok { lo := scalarVal q (.s 4), hi := scalarNext q (.s 4) }) &&
       [fun (s : Bool) => Instr.mma f0 s 2 o, fun s => Instr.mmaPair f0 s 2 o].all (fun mk =>
         meets bed (mk false) (fun q => !bound q) && meets (withS me 5 (2 ^ 32)) (mk false) (fun q => bound q && Pass.bad (pass me q)) &&
           meets full (mk false) (fun q => bound q && !Pass.bad (pass full q) && decide ((clusterOf full 0).table.length = 16)) &&
           meets me (mk true) (fun q => bound q && !Pass.bad (pass me q) && decide ((clusterOf me 0).table.length < 16) && stillB v q (fun _ => true)))) =
      true := by decide

/-- AccumulatorWords: `azero` and `afree`; a count of 0 and of 129, no free run, and 128 free banks. -/
theorem test_accumulator_words_meet :
    (let r := fun (zero : Bool) => settleBanks (setCluster { bed with fresh := bed.fresh + 1 } 0 { clusterOf bed 0 with
       bankOps := [{ zero, range := 0, owners := [3], launch := 0, set := 2, seq := bed.fresh, passes := [] }] }) 0 1
     let taken := setCluster bed 0 { clusterOf bed 0 with banks := [(64, { launch := 0, claim := none })] }
     meets bed (.azero f0 (ops .none (.s 2) .none .none)) (fun q => stillB (r true) q (fun _ => true)) &&
       meets bed (.afree f0 (ops .none (.s 2) .none .none)) (fun q => stillB (r false) q (fun _ => true)) &&
       field (0 : Dword) 7 0 == 0 && decide (128 < field (129 : Dword) 7 0) && field (129 : Dword) 63 8 == 0 &&
       (List.range 64).all (fun k => (List.range 65).any (fun i => (look (clusterOf taken 0).banks (k + i)).isSome)) &&
       (List.range 128).all (fun i => look (clusterOf bed 0).banks (0 + i) == none)) = true := by decide

/-- A stream of 4 words of 4 bytes at 0x4000, and how it stands in local memory (R236). -/
def aStream : StreamSpec := { base := 0x4000, space := 0, signed := false, esz := 4, dims := [{ cnt := 4, shift := 0, sstr := 4, dstr := 0 }] }
def streamWords : List Dword := [0x4000, 2, 0x400000003]

/-- StreamWords: a specification out of place, past the window, malformed, and good, for a source and a sink. -/
theorem test_stream_words_meet :
    (let good := withLocal bedVec 0 streamWords
     let bad := withLocal bedVec 0 [0x4000, 0xC0]
     let edge (n : Dword) := withS bedVec 3 n
     [(false, Instr.vsrc f0 (ops (.inp 7) (.s 3) .none .none)), (true, Instr.vsnk f0 (ops (.outp 3) (.s 3) .none .none))].all (fun e =>
       let spec (s : State) (q : Issuer) := parseSpec e.1 (ownLocal (performOwn s 3) q 0 64)
       meets (edge 32) e.2 (fun q => scalarVal q (.s 3) == 32) && meets (edge 65536) e.2 (fun q => decide (blockLocal bedVec q.b < 65536 + 64)) &&
         meets bad e.2 (fun q => spec bad q == none) &&
         meets good e.2 (fun q => match spec good q with
           | some sp => stillB (setPort (performOwn good 3) 3 e.1 7 { spec := some sp, pos := 0 }) q (fun _ => true)
           | none => false))) = true := by decide

/-- The word at `n` words past the group's pc. -/
def withText (s : State) (n w : Nat) : State :=
  match (xlate s 0 (0x1000 + 8 * n) needX).res with
  | .ok k => storeLE s k 8 w
  | .bad _ => s

/-- `^add.i32 out0, in0, in0`: a body of one word. -/
def bodyWord : Nat := 2 ^ 63 + wX 0x03 0x00 0x168 0x160 0x160 0 0 0x1FF 0

/-- A vector group with a source of 4 elements, a sink of 4, and a body of one word. -/
def stripBed : State :=
  let v : VecRegs := { ac := [], ins := [(0, ⟨some aStream, 0⟩)], outs := [(0, ⟨some { aStream with base := 0x8000 }, 0⟩)] }
  modGroup (withText (withS bedVec 3 2) 1 bodyWord) 3 (fun g => { g with vec := some v })

/-- `^add.i32 out0, s1, s1`, and a vector group with that body. -/
def scalarBody : State := withText bedVec 1 (2 ^ 63 + wX 0x03 0x00 0x168 0x101 0x101 0 0 0x1FF 0)

/-- StripsRunTheirBody: a body that is none, one that is exposed, one that reads a pending token, one whose source in AM waits,
one that waits for its marker's results, one that runs over two elements, with and without a marker, and one whose second
element is out of reach. -/
theorem test_strips_meet :
    (let i : Instr := .vstrip f0 (ops .none (.s 3) .none .none)
     let check (s : State) (q : Issuer) := checkBody s q.part ((q.ctx.pc.toNat + 8) % 2 ^ 64) [] (bodyRoom q false)
     let marked : Instr := .vstrip { f0 with sw := true } (ops .none (.s 3) .none .none)
     let far := modGroup stripBed 3 (fun g => { g with vec := some { ac := [], ins := [(0, ⟨some { aStream with dims := [{ cnt := 4, shift := 0, sstr := 2 ^ 34, dstr := 0 }] }, 0⟩)],
                                                                     outs := [(0, ⟨some { aStream with base := 0x8000 }, 0⟩)] } })
     let runs (s : State) (q : Issuer) (sw : Bool) : Bool :=
         let c := checkBody s q.part ((q.ctx.pc.toNat + 8) % 2 ^ 64) [] (bodyRoom q sw)
         let u := if sw then performOwn c.s q.gid else performMem c.s q.gid
         let ins := (bodyIns c.words).map (fun n => (n, portOf u q.gid false n))
         let outs := (bodyOuts c.words).map (fun n => (n, portOf u q.gid true n))
         let n := (stripCount 2 0 ((ins ++ outs).map (fun p => p.2.left))).1
         let src := readElements q ins { s := u, els := [], err := 0, poisoned := false, bad := none } n
         let run := runBody src.s q src.els c.words 0 n false
         let snk := run.emits.foldl (placeEmit q outs) { s := src.s, stores := [], bad := none }
         !c.poisoned && c.trap == none && !bodyExposed q c.words && bodyToken q c.words == none && !readsAm c.s 3 (bodyIns c.words) &&
           stillB u q (fun r => !sw || r.ctx.pend == []) && n == 2 && ins.length == 1 && outs.length == 1 && src.bad == none && !src.poisoned && snk.bad == none
     let offers := withPend stripBed (.offer { sc := 0, mode := .idx, n16 := false, members := 1, vals := [], ops := [], lanes := 1 })
     let early := modBlock (modGroup scalarBody 3 (fun g => { g with ctx := { g.ctx with
       held := [{ dest := .s 1, mask := 1, vals := [5], vis := .marker, seq := 1 }] } })) 1 (fun b => { b with dbg := true, hzd := true })
     let tok := modGroup scalarBody 3 (fun g => { g with ctx := { g.ctx with toks := [{ reg := 1, eng := { kind := 0, unit := 0, ctx := 0 }, op := 1 }] } })
     let am := withFree (modGroup stripBed 3 (fun g => { g with vec := some { ac := [], ins := [(0, ⟨some { aStream with space := 2 }, 0⟩)], outs := [] } }))
     meets bedVec i (fun q => !(check bedVec q).poisoned && (check bedVec q).trap.isSome) &&
       meets early i (fun q => !(check early q).poisoned && (check early q).trap == none && bodyExposed q (check early q).words) &&
       meets tok i (fun q => !(check tok q).poisoned && (check tok q).trap == none && !bodyExposed q (check tok q).words &&
         bodyToken q (check tok q).words == some 1) &&
       meets am i (fun q => !(check am q).poisoned && (check am q).trap == none && bodyToken q (check am q).words == none &&
         readsAm (check am q).s 3 (bodyIns (check am q).words) && amBlocked (performOwn (check am q).s 3) 0 3 (performOwn (check am q).s 3).fresh) &&
       meets offers marked (fun q => stillB (performOwn (checkBody offers 0 ((q.ctx.pc.toNat + 8) % 2 ^ 64) [] 48).s 3) q (fun r => r.ctx.pend != [])) &&
       meets stripBed i (fun q => runs stripBed q false) && meets stripBed marked (fun q => runs stripBed q true) &&
       meets far i (fun q =>
         let c := check far q
         let u := performMem c.s q.gid
         let src := readElements q ((bodyIns c.words).map (fun n => (n, portOf u q.gid false n))) { s := u, els := [], err := 0, poisoned := false, bad := none } 2
         c.trap == none && src.bad.isSome && src.els.length == 1)) = true := by decide

/-- A stage program without words, with the numbers of tokens its ports take and give. -/
def aProg (i o : List Nat) : StageProg :=
  { keep := false, spord := 65535, incnt := i, outcnt := o, comm := 0, nullok := 0, rdout := 0, words := [], bytes := 16 }

def aPort (kind stg port : Nat) : PortCfg := { kind, stg, port, cmpl := none, param := 0, spec := { aStream with dims := [{ cnt := 32, shift := 0, sstr := 4, dstr := 0 }] }, rentry := 0, rregs := 0 }

/-- One stage in one row, fed by a core input at port 0 and a load at port 1, feeding a core output at port 0 and a store at port 1. -/
def aConfig : Machine.Config :=
  { image := 0x2000, sig := 0, v := 1, p := 1, scrsz := 0, rdch := 0,
    stages := [{ vrow := 0, pek := 0, fpb := 16, prog := aProg [1, 0, 0, 0] [1, 0, 0, 0] }], chans := [],
    ports := [aPort 2 0 0, aPort 0 0 1, aPort 3 0 0, aPort 1 0 1] }

def aBand : Band :=
  { first := 0, p := 1, part := 0, block := 1, issued := 0, count := 0, ops := [], cfg := some aConfig, run := none, anew := false, stages := [], chans := [], ports := [],
    rows := [(0, { st := .live, hoist := 0, since := 0 })], frozenRows := false }

/-- Block 1 with a band. -/
def withBand (b : Band) : State := { modBlock bed 1 (fun x => { x with band := some 0 }) with bands := [(0, b)] }

def bandOp (kind : Nat) : BandOp :=
  { no := 1, kind, addr := 0, record := none, block := 1, started := false, code := none, info := 0, flags := 0, wait := none }

/-- BandCommands: no band, a misaligned address, a full queue, room in it. -/
theorem test_band_commands_meet :
    (let o := ops (.s 1) (.s 2) (.tl 0) (.s 3)
     let own := withTl (withBand aBand) 0 (binds 3 0 0)
     let full := withTl (withBand { aBand with issued := 8, ops := (List.range 8).map (fun n => { bandOp 1 with no := n + 1 }) }) 0 (binds 3 0 0)
     let odd := withS own 2 1
     ([(.fload, 0), (.frun, 1), (.fdrain, 2), (.fsave, 3)] : List ((Fixed → Ops4 → Instr) × Nat)).all (fun e =>
       let x := if e.2 = 2 then { o with a := .none } else o
       let i := e.1 f0 x
       meets bed i (fun q => ownBand bed q (readTl q 0) == none) && meets own i (fun q => (ownBand own q (readTl q 0)).isSome && scalarVal q x.a == 0 &&
           stillB (setBand (releaseNow own 3) 0 { aBand with issued := 1, ops := [{ bandOp e.2 with record := some 0 }] }) q (fun _ => true)) &&
         meets full i (fun q => (ownBand full q (readTl q 0)).isSome && scalarVal q x.a == 0) &&
         (e.2 == 2 || meets odd i (fun q => (ownBand odd q (readTl q 0)).isSome && scalarVal q x.a == 1)))) = true := by decide

/-- A token of ones. -/
def aTok : Tok := { null := false, lanes := List.replicate 16 1 }

/-- PortWords: pushes and pops at a port, at no port, at a full and at an empty one. -/
theorem test_port_words_meet :
    (let s := withBand aBand
     let holds := aBand.setChan (aConfig.portPath 2) { q := [aTok], landed := [] }
     let full := aBand.setChan (aConfig.portPath 0) { q := List.replicate 8 aTok, landed := List.replicate 16 aTok }
     let nulls := aBand.setChan (aConfig.portPath 2) { q := [nullTok], landed := [] }
     meets s (.fpush f0 false false (ops (.s 1) (.v 2) (.s 3) .none)) (fun q => q.b.band == some 0 && (look s.bands 0).isSome) &&
       meets (withS (withBand holds) 3 8) (.fpop f0 false (ops (.v 2) (.s 3) .none (.s 4))) (fun q => q.b.band == some 0 &&
         (popBand holds (scalarVal q (.s 3)) 0).2.1 == some aTok) &&
       (corePort aBand 0 2).isSome && !aConfig.reinjects 0 && pushRoom full aConfig (aConfig.portPath 0) == 0 && corePort aBand 0x7 2 == none &&
       (popBand holds 8 0).2.1 == some aTok && (popBand nulls 8 0).2.1 == some nullTok && (popBand aBand 8 0).2.1 == none && corePort aBand 0xF 3 == none) =
      true := by decide

/-! ## The hypotheses of statements about the machine and about its other agents -/

/-- The device's answer is a next state. -/
def goesOn (x : Host.Outcome State Fault Refusal) : Bool :=
  match x with
  | .next _ => true
  | _ => false

/-- Group 3 parked, or changed otherwise. -/
def withGroup (f : Group → Group) : State := modGroup bed 3 f
def parked (p : Park) : State := withGroup (fun g => { g with park := some p, active := false })
def group3 (s : State) : Option Group := look s.groups 3

/-- StepsKeepMemoryCanonical, StepsKeepTablesInOrder, EveryStepAnswers: a step from a state with both invariants. -/
theorem test_invariants_meet : (Memory.wf bed.mem && tablesB bed && tablesB State.reset && goesOn (step bed) &&
    (issuer bed).isSome && (issuer State.reset).isNone) = true := by decide

/-- StepRunsTheDecodedWord: a turn that issues a word, one that is none, one of poisoned text, one that cannot be fetched; a turn
that is an event; no turn. -/
theorem test_turns_meet :
    (let issue (s : State) : State := { s with turns := [.issue 3] }
     let o (s : State) := xlate { s with turns := [] } 0 0x1000 needX
     let key := match (o bed).res with
       | .ok k => k
       | .bad _ => 0
     let nop := issue (withText bed 0 0x0000FFFFFFE0EFF8)
     let bad : State := { nop with hours := { nop.hours with poison := [key / 32 * 32] } }
     let far := issue (withGroup (fun g => { g with ctx := { g.ctx with pc := 0x100000000000 } }))
     let ready (s : State) := canIssue s 3 && (issuer s).isSome && s.kernels.all (fun e => !(e.2.part == 0 && e.2.coldHolds 0x1000))
     ready nop && (o bed).res == .ok key && !poisonedAt (o nop).s key 8 && decide (decode (BitVec.ofNat 64 (loadLE (o nop).s key 8)) = some (.nop f0)) &&
       ready (issue bed) && decide (decode (BitVec.ofNat 64 (loadLE (o bed).s key 8)) = none) && ready bad && poisonedAt (o bad).s key 8 &&
       ready far && (xlate { far with turns := [] } 0 0x100000000000 needX).res != .ok 0 &&
       decide (State.turns { bed with turns := [.event .checkpoint] } = [.event .checkpoint]) && !(Instr.checkpoint).isWord && decide (bed.turns = [])) = true := by decide

/-- Bed with its text cold, two words of it, and the cold cache at `cache`. -/
def coldBed (cache : Nat) : State := { bed with
  turns := [.issue 3]
  kernels := upd bed.kernels 0 (fun k => { k with text := [], coldText := [(0, { base := 0x1000, size := 16 })], coldHost := 0x1000, cache }) }

/-- StepRunsTheDecodedWord: cold text whose granule can be copied, and whose cache is out of reach. -/
theorem test_cold_text_meets :
    (let cold (s : State) : Bool := canIssue s 3 && (issuer s).any (fun q => q.part == 0 && q.ctx.pc.toNat == 0x1000) &&
       (s.kernels.find? (fun e => e.2.part == 0 && e.2.coldHolds 0x1000)).any (fun e => e.1 == 0)
     let key (s : State) (a : Nat) : Bool := (xlate s 0 a needX).res == .ok a
     cold (coldBed 0x8000) && (copyGranule (coldBed 0x8000) 0 0).any (fun x => key x 0x8000) &&
       cold (coldBed 0x100000000000) && (copyGranule (coldBed 0x100000000000) 0 0).isNone) = true := by decide

/-- ResultsShowAtTheirDistance: a marker with and without results outstanding, of a threaded group, a control thread and a handler. -/
theorem test_markers_meet : ((group3 (busy bed)).any (fun g => (ctxOf (busy bed) g).pend != []) &&
    (group3 bed).any (fun g => !g.handler && g.ctx.undef == none && g.ctx.pend == [] && (look bed.sets g.set).isSome) && tablesB bed &&
    (group3 bedVec).any (fun g => !g.handler && g.ctx.undef == none && g.ctx.pend == [] && g.vec.isSome) && tablesB bedVec &&
    (group3 bedHand).any (fun g => g.handler && (shadowOf bedHand g.core).ctx.pend == []) && tablesB bedHand) = true := by decide

/-- TrapsComeInTheirOrder: for each trap a word that raises it and none before it. -/
theorem test_trap_order_meets :
    (let first (s : State) (i : Instr) (c : Nat) : Bool := (issuer s).any (fun q => staticTrap s q i == some c)
     let i := Instr.addInteger f0 (.valu .i32 (.v 1) (.v 2) (.v 3) .none false)
     let masked := withReg bed 0x218 (BitVec.allOnes 64)
     let narrow := withGroup (fun g => { g with view := 8 })
     let tok := withGroup (fun g => { g with ctx := { g.ctx with toks := [{ reg := 1, eng := copyRef, op := 1 }] } })
     let early := modBlock (withPend bed (.value 1 [[7]])) 1 (fun b => { b with dbg := true, hzd := true })
     first (withGroup (fun g => { g with ctx := { g.ctx with run := 48 } })) i 0x03 && !first (withGroup (fun g => { g with ctx := { g.ctx with run := 47 } })) i 0x03 &&
       first bedVec (.gleave f0) 0x01 && first bed (.vdrain f0 (ops .none .none .none .none)) 0x01 &&
       first masked (.cnfree f0 (ops .none (.s 2) .none .none)) 0x02 && first bed (.trap fs 1) 0x01 && first bed (.addInteger f0 (.valu .i64 (.v 1) (.v 2) (.v 4) .none false)) 0x01 &&
       first bed (.sel f0 { ty := .i32, d := .v 1, a := .s 2, b := .v 3, c := .p 0 }) 0x01 &&
       first narrow (.addInteger f0 (.valu .i32 (.v 8) (.v 2) (.v 3) .none false)) 0x04 && first tok (.li f0 (.s 1) 0) 0x05 &&
       first early (.addInteger f0 (.salu .i32 (.s 1) (.s 9) (.s 2) .none false)) 0x06 &&
       first (withGroup (fun g => { g with ctx := { g.ctx with run := 1 } })) (.nop fs) 0x07) = true := by decide

/-- EventsBeforeAWord: a pending token, a return from a handler, and a halt at ordinal 4. -/
theorem test_events_before_a_word_meet :
    (let free (s : State) (i : Instr) (p : Issuer → Bool) : Bool := (issuer s).any (fun q => staticTrap s q i == none && p q)
     let add := Instr.addInteger f0 (.salu .i32 (.s 2) (.s 1) (.s 3) .none false)
     let tok := withGroup (fun g => { g with ctx := { g.ctx with toks := [{ reg := 1, eng := copyRef, op := 1 }] } })
     let xrd := Instr.xrd f0 (ops (.h 5) (.s 1) .none .none)
     let own := modGroup bedHand 3 (fun g => { g with ctx := { g.ctx with toks := [{ reg := 1, eng := copyRef, op := 1 }] } })
     let back := withGroup (fun g => { g with returned := true })
     let safe : State := { modBlock bed 1 (fun b => { b with halt := some { ord := some 4, command := none, reached := false } }) with
       kernels := upd bed.kernels 0 (fun k => { k with safe := [{ ord := 4, ver := 0, ep := false, addr := 0x1000, map := none, locs := [] }] }) }
     free tok add (fun q => awaitsToken q add == some (.token 1)) && (issuer own).any (fun q => q.hand && awaitsToken q xrd == some (.ownToken 1)) &&
        free back add (fun q => awaitsToken q add == none && q.g.returned && !q.hand) &&
       free safe (.nop fs) (fun q => !q.hand && (kernelOf safe q.b).any (fun k => (safePointAt k q.b.ver q.ctx.pc).any (fun e => e.ord == 4)) &&
         q.b.halt.any (fun h => h.ord == some 4) && !q.g.pass)) = true := by decide

/-- Ordinal 4 at the group's word, with a map to the vector version, which the kernel has too. -/
def stopBed : State :=
  { bed with kernels := upd bed.kernels 0 (fun k => { k with
      header := k.header ||| BitVec.ofNat 64 (2 ^ 56)
      safe := [{ ord := 4, ver := 0, ep := true, addr := 0x1000, map := none, locs := [] },
        { ord := 4, ver := 0, ep := true, addr := 0x1000, map := some 1, locs := [] }] }) }

/-- EventsBeforeAWord, stop words at which the group does not halt: a hop armed there, none, a halt at another ordinal and one that the
group has passed; and a pending token. -/
theorem test_stop_words_meet :
    ((∀ x, exec (.nop fs) x = word (.nop fs) x (fun s q => finish s q fs)) ∧
     (let hop : Hop := { ord := 4, target := 1, armedAt := 0, place := 0, rows := 0, met := false }
      let on (f : Block → Block) : State := modBlock stopBed 1 f
      let armed := on (fun b => { b with hop := some hop })
      let halts (ord : Option Nat) : Block → Block := fun b => { b with halt := some { ord, command := none, reached := false } }
      let past := modGroup (on (halts none)) 3 (fun g => { g with pass := true })
      let add := Instr.addInteger fs (.salu .i32 (.s 2) (.s 1) (.s 3) .none false)
      let tok := modGroup stopBed 3 (fun g => { g with ctx := { g.ctx with toks := [{ reg := 1, eng := copyRef, op := 1 }] } })
      let at_ (s : State) (i : Instr) (p : Issuer → State → Bool) : Bool := (issuer s).any (fun q =>
        staticTrap s q i == none && !q.hand && (kernelOf s q.b).any (fun k => (safePointAt k q.b.ver q.ctx.pc).any (fun e => e.ep && e.ord == 4)) &&
          q.b.halt.all (fun h => q.g.pass || h.ord.any (fun n => n != 4)) && ofTheT s q.g && p q (arrive (modGroup s 3 (fun g => { g with lastSafe := 4 })) 3 4))
      let waits (u : State) : Bool := (look u.blocks 1).any (fun b => b.hop.any (fun h => h.ord == 4))
      at_ armed (.nop fs) (fun _ u => waits u) &&
        [stopBed, on (halts (some 5)), past].all (fun s => at_ s (.nop fs) (fun q u => !waits u && awaitsToken q (.nop fs) == none &&
          (issuer (clearRestart u q (.nop fs))).isSome)) &&
        at_ tok add (fun q u => !waits u && awaitsToken q add == some (.token 1))) = true) := by
  refine ⟨fun _ => rfl, ?_⟩
  decide +kernel

/-- EventsBeforeAWord, arrivals: one that is none of the block's, the one after a hop, one while a hop is armed; and decisions: nothing
wanted, a version that is asked for and fits, one that is asked for and has no map, a debugged block. -/
theorem test_arrivals_meet :
    (let on (f : Block → Block) : State := modBlock stopBed 1 f
     let keys (s : State) : List Nat := ((group3 s).map (fun g => countKeys s g 4)).getD []
     let count (s : State) (j : Nat) : Nat := (((look s.blocks 1).bind (fun b => look b.threadArrivals j)).getD 0) + (keys s).count j
     let w (s : State) : State := modBlock s 1 (fun b => { b with arrivals := put b.arrivals 4 1, spanFrom := s.clock, hopReq := none })
     let fits (s : State) (c : Nat) : Bool := (look s.blocks 1).any (fun b => (kernelOf s b).any (fun k => b.ver != c && (mapOf k 4 b.ver c).isSome &&
       !holdsClaim (w s) 1 && (hopPlace (w s) 1 b k 32 c).isSome))
     let due (s : State) : Bool := keys s != [] && (keys s).all (fun j => count s j == 1)
     let is (s : State) (p : Block → Bool) : Bool := due s && (look s.blocks 1).any (fun b => (look s.launches b.launch).any (fun l => l.tm1 == 31) && p b)
     let asks (n : Nat) : State := on (fun b => { b with hopReq := some n })
     let back := on (fun b => { b with arrivals := [(4, 1)] })
     is back (fun b => (look b.arrivals 4).getD 0 == 1) && is (on (fun b => { b with skipArrival := some 4 })) (fun b => b.skipArrival == some 4) &&
       is (on (fun b => { b with hop := some { ord := 5, target := 1, armedAt := 0, place := 0, rows := 0, met := false } })) (fun b => b.hop.isSome) &&
       is stopBed (fun b => b.hopReq == none && !inefficient (partReg stopBed 0 0x200) b && !b.dbg && b.ver == 0) &&
       is (asks 1) (fun b => b.hopReq == some 1) && fits (asks 1) 1 && is (asks 2) (fun b => b.hopReq == some 2) && !fits (asks 2) 2 &&
       is (modBlock (asks 1) 1 (fun b => { b with dbg := true })) (fun b => b.dbg)) = true := by decide

/-- Eight groups in core 0's active set. -/
def eightActive : State :=
  match group3 bed with
  | some g => { bed with groups := (List.range 8).map (fun n => (3 + n, g)) }
  | none => bed

/-- GroupEvents. -/
theorem test_group_events_meet :
    (let at_ (p : Park) (t : List Token) (l : Option Leave) : Bool :=
       let s := modGroup (parked p) 3 (fun g => { g with ctx := { g.ctx with toks := t } })
       (group3 s).any (fun g => blockMoves s g && decide (leaves s 3 g = l))
     let idle (since now : Nat) : State := { withGroup (fun g => { g with active := false, readyAt := some since }) with clock := now }
     let trapped := withGroup (fun g => { g with trap := some { cause := 0x10, write := false, addr := 0, word := 0x1000 } })
     at_ .marker [] (some .past) && at_ (.token 1) [] (some .again) && at_ (.token 1) [{ reg := 1, eng := copyRef, op := 1 }] none &&
       at_ (.tbar (localKey 1 0x80) 0xFFFFFFFF) [] (some .past) && at_ (.tbar (localKey 1 0x80) 0) [] none && at_ (.tlwait copyRef 0) [] (some .again) &&
       at_ .waitpred [] (some .past) && activeCount (idle 0 0) 0 == 0 && nextEntry (idle 0 0) 0 == some 3 && activeCount eightActive 0 == 8 &&
       (group3 (idle 0 511)).any (fun g => readyGroup (idle 0 511) g && !g.starving && decide (islandCycles (idle 0 511) 0 0 < 512)) &&
       decide (512 ≤ islandCycles (idle 0 512) 0 0) && (coreOf (idle 0 512) 0).serving == none &&
       nextTrap trapped 0 == some (3, { cause := 0x10, write := false, addr := 0, word := 0x1000 }) && (group3 trapped).any (blockMoves trapped) &&
       (coreOf bedHand 0).serving != none && (group3 bedHand).any (blockMoves bedHand)) = true := by decide

/-- WaitersGoOn: offers that match, rows that are free, no waiter; a lone swapped group, a swapped set. -/
theorem test_waiters_meet :
    (let offer : ShflOffer := { sc := 0x70000, mode := .idx, n16 := false, members := 0xFFFF, vals := List.replicate 32 1, ops := List.replicate 32 0, lanes := 0xFFFF }
     let pend (n : Nat) : Pending := { id := n, seq := 0, dests := [.v 6], work := .offer offer, stale := false }
     let two : State := { twoGroups with groups := twoGroups.groups.map (fun e => (e.1, { e.2 with park := none, ctx := { e.2.ctx with pend := [pend e.1] } })) }
     let low (p : Park) : State :=
       let s := modGroup (parked p) 3 (fun g => { g with view := 8 })
       { s with sets := upd s.sets 2 (fun a => { a with rows := 8 }) }
     let grow := low (.grow 16)
     let spawn := low (.spawn 0x1000 [(0, 32, 0)] false)
     let away := modGroup twoGroups 4 (fun g => { g with swapped := true })
     let swappedSet := withGroup (fun g => { g with swapped := true, active := false })
     let free : State := { swappedSet with sets := upd swappedSet.sets 2 (fun a => { a with rows := 0 }) }
     (look two.groups 3).any (fun g => groupOffer g == some (pend 3, offer)) && (look two.groups 4).any (fun g => groupOffer g == some (pend 4, offer)) &&
       oldestOffer two 0 (pend 3, offer) 4 && oldestOffer two 0 (pend 4, offer) 3 && offer.sc.toNat % 4 == 0 &&
       decide (waiters grow 0 = [.request 3 8]) && decide (8 ≤ rowsFree grow 0) && decide ((waiters spawn 0).map (fun _ => 0) = [0]) && decide (8 ≤ rowsFree spawn 0) &&
       decide (waiters bed 0 = []) && decide ((coreGroups away 0).length < 64) &&
       (coreOf away 0).order.find? (fun k => match look away.groups k with
         | some x => x.swapped && !setSwapped away x.set
         | none => false) == some 4 &&
       decide (waiters swappedSet 0 = [.returning 2 256 1]) && decide (256 ≤ rowsFree swappedSet 0) && decide (waiters free 0 = [.returning 2 0 1])) = true := by decide

/-- A core whose oldest group's set of 256 rows is swapped out, with the groups of two sets parked in growth, of which the older asks
for `n` registers and 4 rows are free. -/
def deadlocked (n : Nat) : State :=
  match group3 bed with
  | some g =>
    let grows (set n : Nat) : Group := { g with set, active := false, park := some (.grow n) }
    let rows (n : Nat) : AllocSet := { block := 1, core := 0, rows := n, v := [], rng := [], threads := [] }
    { bed with
      groups := [(3, { g with swapped := true, active := false }), (4, grows 5 n), (6, grows 7 2048)]
      sets := bed.sets ++ [(5, rows 1024), (7, rows 1020)]
      cores := upd bed.cores 0 (fun c => { c with order := [3, 4, 6] }), fresh := 8 }
  | none => bed

/-- WaitersGoOn: a core with no free place. -/
theorem test_full_core_meets :
    (let full : State := { bed with groups := (List.range 64).filterMap (fun n => (group3 bed).map (fun g => (3 + n, g))) }
     !placesFree full 0 1 && placesFree bed 0 1) = true := by decide

/-- WaitersGoOn, a deadlock in growth: the oldest resident group's rows are free, and are not. -/
theorem test_deadlock_meets : [1028, 1032].all (fun n =>
    let s := deadlocked n
    (match waiters s 0 with
      | .returning set rows places :: _ => set == 2 && decide (rowsFree s 0 < rows) && places == 1
      | _ => false) &&
      growDeadlock s 0 && (coreOf s 0).order.find? (fun k => ((coreGroups s 0).map (·.1)).contains k) == some 4 && rowsFree s 0 == 4 &&
      (look s.groups 4).any (fun g => (rowsWanted s g).getD 0 == n - 1024 && youngestSet s 0 g.set == some 7)) = true := by decide

/-- WaitersGoOn, its last clause: each condition holding and not holding. -/
theorem test_memory_waits_meet :
    ([(.eq, 0), (.eq, 1), (.ne, 1), (.ne, 0), (.ge, 0), (.ge, 1)] : List (WaitCond × Dword)).all (fun e =>
      let s := parked (.mwait e.1 0 0 e.2 true 0 false)
      match look s.groups 3, look s.blocks 1 with
      | some g, some b =>
        let k := accessKeys s 1 b .g needR true [{ lane := 32, addr := 0 }]
        blockMoves s g && isHbm 0 && k.bad == none && !poisonedAt (meterHost k.s 0 0 8) ((k.keys.map (·.2)).headD 0) 8
      | _, _ => false) = true := by decide

/-! ### Engines, faults and bands at work -/

/-- QueuedAccessesArePerformed: a store that may leave the queue, one that may not, one to a host cut off; a load that makes an access,
one across two pages, one that arrives. -/
theorem test_queued_accesses_meet :
    (let e (owner : Nat) (k : Nat) : StoreEnt := { block := 1, owners := [owner], key := k, bytes := [1, 2], sink := false, seq := 0, stale := false }
     let s := setCore bed 0 { coreOf bed 0 with storeQ := [e 3 16, e 3 20] }
     let ld := withPend bed (.load 4 true [(0, 16), (1, 20)] [] [])
     let last := withPend bed (.load 4 true [(1, 20)] [(0, 7)] [])
     let far := withPend bed (.load 8 false [(3, 0x1FFC)] [] [(3, 0x2000)])
     let cut : State := { setCore bed 0 { coreOf bed 0 with storeQ := [e 3 (2 ^ 50)] } with parts := upd bed.parts 0 (fun p => { p with tdisp := .error }) }
     accParts 8 [(3, 0x2000)] (3, 0x1FFC) == [(0x1FFC, 4), (0x2000, 4)] && (group3 far).any (fun g => !g.handler && g.ctx.pend.length == 1) &&
       mayDrain cut 0 0 && hostCut cut 0 (2 ^ 50) && (look cut.blocks 1).any (fun b => b.part == 0) &&
     Memory.wf s.mem && decide ((coreOf s 0).storeQ[0]? = some (e 3 16)) && mayDrain s 0 0 && !mayDrain s 0 1 && !mayDrain s 0 2 &&
       (group3 ld).any (fun g => !g.handler && g.ctx.pend.length == 1) && !poisonedAt ld 16 4 && (group3 last).any (fun g => !g.handler && g.ctx.pend.length == 1) &&
       !poisonedAt last 20 4) = true := by decide

/-- Banks 0 to 63 of cluster 0, of a launch, with a claim. -/
def withBanks (s : State) (launch : Nat) (claim : Option Nat) : State :=
  setCluster s 0 { clusterOf s 0 with banks := (List.range 64).map (fun n => (n, { launch, claim })) }

def withPasses (s : State) (table running : List Pass) : State := setCluster s 0 { clusterOf s 0 with table, running }

/-- EngineEvents, the matrix engine: no pass; a pass whose banks are another launch's, claimed by another set, and its own;
one that retires. -/
theorem test_matrix_events_meet :
    (let p := aPass 1
     let late : State := { withPasses bed [p] [] with clock := 65536 }
     let next (s : State) (own claimed : Bool) : Bool :=
       let c := clusterOf (agePasses s 0) 0
       decide (nextPass c = some p) && p.banks != [] && p.banks.all (bankOwned c p.launch) == own && p.banks.any (bankClaimed c p.set) == claimed
     let fine := withPasses (withBanks bed 0 none) [p] []
     let runs := withPasses bed [] [{ p with wrote := true, words := [(0, [1])] }]
     decide (nextPass (clusterOf (agePasses bed 0) 0) = none) && decide (65536 ≤ islandCycles late 0 p.entered) && decide (islandCycles { late with clock := 65535 } 0 p.entered < 65536) &&
       next (withPasses (withBanks bed 7 none) [p] []) false false && next (withPasses (withBanks bed 0 (some 9)) [p] []) true true &&
       next fine true false && !p.uncorrectable (clusterOf fine 0) &&
       decide ((clusterOf runs 0).running[0]?.isSome) && decide ((clusterOf runs 0).bankOps = []) && decide ((clusterOf bed 0).running[0]? = none)) = true := by decide

def iseRef : EngRef := { kind := 1, unit := 0, ctx := 0 }

/-- Four words of 4 bytes, with indices at 0x4000, a table at 0x5000 and a dense array at 0x6000. -/
def anIse : IseDesc :=
  { idx := 0x4000, tbl := 0x5000, dense := 0x6000, denseLocal := false, count := 4, op := 0, wide := false, esz := 4, stride := 4, status := none }

/-- EngineEvents, copies: an operation that waits, one of the wrong direction before its first element and later, one at its end, one
whose bound side does not translate, one with an element to go. -/
theorem test_copy_events_meet :
    (let o := anOp 1 (.copy false (aCopy 2))
     let head (x : EngOp) : Bool := decide ((engCtx (withCtx bed copyRef 1 0 [x]) copyRef).ops.find? (fun o => o.ended.isNone) = some x)
     let rd := engineRead bed 0 ((aCopy 2).srcAt 1) 4
     let host : State := { bed with tlb := [{ bootLeaf 1 with out := 2 ^ 51 }] }
     let blind : State := { bed with tlb := [] }
     head { o with wait := some 5 } && head o && wrongDirection host 0 false (aCopy 2) 0 && wrongDirection host 0 false (aCopy 2) 1 &&
       !wrongDirection bed 0 false (aCopy 2) 0 && !wrongDirection bed 0 false (aCopy 2) 1 && !wrongDirection blind 0 false (aCopy 2) 0 &&
       (unknownSide blind 0 false (aCopy 2)).isSome && unknownSide bed 0 false (aCopy 2) == none && head { o with next := 2 } && decide (dimsCount (aCopy 2).dims = 2) && head { o with next := 1 } &&
       decide (rd.met = .done) && decide ((engineWrite rd.s 0 ((aCopy 2).dstAt 1) rd.bytes).met = .done)) = true := by decide

/-- EngineEvents, copies: into local memory, with a barrier at an element that ends 64 bytes; a source and a destination that do not
translate; a completion that owes its barrier decrements. -/
theorem test_barrier_copies_meet :
    (let d : CopyDesc := { aCopy 32 with dst := 0x200, dstLocal := true, barrier := some 0x100 }
     let o : EngOp := { anOp 1 (.copy false d) with next := 15 }
     let s := withCtx bed copyRef 1 0 [o]
     let far : CopyDesc := { aCopy 32 with dst := 2 ^ 40 }
     let blind : CopyDesc := { aCopy 32 with src := 2 ^ 40 }
     decide ((engCtx s copyRef).ops.find? (fun o => o.ended.isNone) = some o) && !wrongDirection s 0 false d 15 && decide (15 < dimsCount d.dims) &&
       decide ((15 + 1) * d.esz % 64 = 0) && decide ((engineRead s 0 (d.srcAt 15) 4).met = .done) &&
       !wrongDirection bed 0 false far 1 && decide ((engineRead bed 0 (far.srcAt 1) 4).met = .done) && decide ((engineWrite bed 0 (far.dstAt 1) [0, 0, 0, 0]).met ≠ .done) &&
       !wrongDirection bed 0 false blind 1 && decide ((engineRead bed 0 (blind.srcAt 1) 4).met ≠ .done) &&
       decide ({ o with ended := some 0 }.decrements = some (0x100, 2)) && !o.token && (look bed.blocks 1).any (fun b => b.saved == none) && !obAperture 0x200) =
      true := by decide

/-- EngineEvents, gathers and scatters, and completions: every element tried, the next one, a spilled one; no record, a local
one, one in global memory, and one there that meets an uncorrectable error. -/
theorem test_stream_and_completion_events_meet :
    (let g := anOp 1 (.gath anIse)
     let c := anOp 1 (.scat anIse)
     let head (x : EngOp) : Bool := decide ((engCtx (withCtx bed iseRef 1 0 [x]) iseRef).ops.find? (fun o => o.ended.isNone) = some x)
     let done (st : Option (Bool × Nat)) : EngOp := { anOp 1 (.copy false { aCopy 1 with status := st }) with ended := some 0 }
     let ends (st : Option (Bool × Nat)) : Bool :=
       let s := withCtx bed copyRef 1 0 [done st]
       decide ((engCtx s copyRef).ops.find? (fun o => o.ended.isSome) = some (done st)) && decide ((done st).status = st) && (done st).decrements == none
     head { g with next := 4 } && head { c with next := 4 } && g.elements == 4 &&
       [g, c].all (fun o => !waitsBehind bed { o with next := 3 } 3 && decide ((iseElement bed { o with next := 3 } 3).met = .done) &&
         head { o with spill := [(1, none)] } && !waitsBehind bed { o with next := 4, spill := [(1, none)] } 1 &&
         decide ((iseElement bed { o with spill := [(1, none)] } 1).met = .done)) &&
       (let z := { g with spill := [(1, none)], zero := [1] }
        head z && z.spill.contains (1, none) && z.zero.contains 1 && decide ((denseWrite bed z anIse 1 (zeroBytes 4)).met = .done)) &&
       ends none && ends (some (true, 0x40)) && ends (some (false, 0x8100)) &&
       (let w (s : State) := recordWrite s 0 0x8108 (done (some (false, 0x8108))).record
        ends (some (false, 0x8108)) && decide ((w bed).met = .done) &&
          decide ((w { bed with hours := { bed.hours with poison := [0x8100] } }).met = .fail 4))) = true := by decide

/-- FaultEvents: a ring that takes records and none; the moments before and at the time-out; an answer to a fault that has no
record and to one that has; an invalidation that may end and one that may not. -/
theorem test_fault_events_meet :
    (let f : XFault := { part := 0, eng := copyRef, op := 1, elem := 0, addr := 0x4000, write := false, since := 0, recorded := false, block := 1 }
     let at_ (clock : Nat) (x : XFault) : State :=
       { withCtx bed copyRef 1 0 [{ anOp 1 (.copy false (aCopy 1)) with wait := some 9 }] with faults := [(9, x)], clock }
     let ring : State := { at_ 0 f with parts := upd bed.parts 0 (fun p => { p with regs := put p.regs (2 * 0x21C + 1) 1 }) }
     let inv (left : Bool) : State :=
       let s := execTlbInvalidate 0 (if left then withPend bed (.load 4 true [(0, 16)] [] []) else bed)
       match s with
       | .next t => t
       | _ => bed
     let waits (s : State) : Bool := (look s.faults 9).isSome && !stashedPart s 0
     waits (at_ 0 f) && !ringReady (at_ 0 f) 0 && hubCycle (at_ (2 ^ 27) f) == 2 ^ 26 && decide (hubCycle (at_ (2 ^ 27 - 1) f) < 2 ^ 26) &&
       waits (at_ 0 { f with recorded := true }) && (engCtx (at_ 0 f) copyRef).ops.any (fun o => o.no == f.op) &&
       (look (inv false).parts 0).any (·.invalidating) && !agedLeft (inv false) 0 && (look (inv true).parts 0).any (·.invalidating) && agedLeft (inv true) 0 &&
       (look bed.parts 0).any (fun p => !p.invalidating) && waits ring && ringReady ring 0) = true := by decide

/-- FaultEvents: an answer to a fault of an indirect-stream engine and of a band, of an operation and of an element; a failure of each. -/
theorem test_other_faults_meet :
    (let f (kind elem : Nat) : XFault := { part := 0, eng := { kind, unit := 0, ctx := 0 }, op := 1, elem, addr := 0x4000, write := false, since := 0, recorded := true, block := 1 }
     let ise (w : EngWork) : State := { withCtx bed iseRef 1 0 [{ anOp 1 w with spill := [(1, some 9)] }] with faults := [(9, f 1 1)] }
     let band : State := { withBand aBand with faults := [(9, f 3 (2 ^ 65 * (1 + 1)))] }
     [EngWork.gath anIse, .scat anIse].all (fun w => (look (ise w).faults 9).any (fun f => f.recorded && f.eng.kind == 1 && f.elem != 2 ^ 64) && !stashedPart (ise w) 0 &&
         (engCtx (ise w) iseRef).ops.any (fun o => o.no == 1 && !o.zero.contains 1)) &&
       decide ((denseWrite (ise (.gath anIse)) (anOp 1 (.gath anIse)) anIse 1 (zeroBytes 4)).met = .done) &&
       (look band.faults 9).any (fun f => f.recorded && f.eng.kind == 3 && f.elem != 2 ^ 64 && f.elem / 2 ^ 65 - 1 == 1 && aConfig.ports[1]?.isSome) &&
       (look band.bands 0).isSome && !stashedPart band 0) = true := by decide

/-- A run of band 0 that reads 0x4000 and writes 0x4000 (R318). -/
def aRun : Run := { params := [0x4000], stopped := false, code := none }
def running : Band := { aBand with run := some aRun }

/-- BandEvents, operations: none in a frozen band; a head with its record, without one, and each kind under way. -/
theorem test_band_operations_meet :
    (let frozen := modBlock (withBand running) 1 (fun b => { b with frozen := some .hang })
     let op (kind : Nat) (started : Bool) (code : Option Nat) : BandOp := { bandOp kind with started, code }
     let idle := withBand { running with ops := [op 1 true none] }
     let noLoad : Machine.Config := { aConfig with ports := [aPort 3 0 0] }
     let ended : Band := { running with cfg := some noLoad, ops := [op 1 true none] }
     let rec1 : BandOp := { op 1 true (some 0) with record := some 0x9000 }
     bandFrozen frozen aBand && !bandFrozen idle aBand && op 1 true (some 0) != op 0 true none &&
       decide ((recordWrite (withBand { running with ops := [rec1] }) 0 0x9000 rec1.recordBytes).met = .done) && decide (rec1.wait = none) &&
       running.rows.all (fun r => r.2.st != .waking && r.2.st != .install) && runEnded ended noLoad && !runEnded running aConfig &&
       runStill { running with frozenRows := true } aConfig && !runEnded { running with run := some { aRun with stopped := true } } aConfig &&
       runStill { running with run := some { aRun with stopped := true } } aConfig && !aRun.stopped && [op 2 false none].any (fun x => x.kind == 2)) = true := by decide

/-- BandEvents, firings and ports: a stage that may fire and one that may not, with no safe point; a load, a store and a
spilled element that go through. -/
theorem test_band_moves_meet :
    (let full := running.setChan (aConfig.portPath 0) { q := [aTok], landed := [] }
     let stored := running.setChan (aConfig.portPath 3) { q := [aTok], landed := [] }
     let spilled := running.setPort 3 { PortSt.init with pos := 3, spill := [(2, none), (1, none), (0, some 7)], part := [(1, 5), (2, 6)] }
     let port (n : Nat) : PortCfg := portAt aConfig n
     !running.canFire aConfig 0 && full.canFire aConfig 0 && (look (withBand full).kernels 0).all (fun k => safePointOf k 2 65535 == none) &&
       mayLoad running aConfig 1 (port 1) (aRun.stopped || sourcesHeld (withBand running) running) && !sourcesHeld (withBand running) running && (port 1).kind == 0 &&
       decide ((movePort (withBand running) 0 aRun (port 1) 0 0).met = .done) &&
       (port 3).kind == 1 && decide (0 < (port 3).spec.length) && !behindSpilled aRun (port 3) (stored.port 3) 0 &&
       decide ((movePort (withBand stored) 0 aRun (port 3) 0 1).met = .done) &&
       decide (((spilled.port 3).spill.filter (fun x => x.2.isNone)).map (·.1) = [2, 1]) &&
       decide ((movePort (withBand spilled) 0 aRun (port 3) 1 5).met = .done)) = true := by decide

/-- BandEvents, a retry at a commutative input whose channel has no slot, and one whose channel has. -/
theorem test_commutative_retry_meets :
    (let c : Machine.Config := { aConfig with stages := aConfig.stages.map (fun k => { k with prog := { k.prog with comm := 2 } }) }
     let e := portAt c 1
     let waits : Band := { running with cfg := some c }.setPort 1 { PortSt.init with pos := 32, spill := [(1, none)] }
     let full := waits.setChan (c.portPath 1) { q := List.replicate 32 aTok, landed := [] }
     e.kind == 0 && commutes c e && slotFree waits c 1 e && !slotFree full c 1 e && !bandFrozen (withBand full) full && full.run.isSome &&
       decide (((full.port 1).spill.filter (fun x => x.2.isNone)).map (·.1) = [1]) && decide ((movePort (withBand waits) 0 aRun e 1 0).met = .done)) = true := by decide

/-- BandEvents: a port whose 32 spilled elements keep it in place. -/
theorem test_full_port_meets :
    (let full := running.setPort 1 { PortSt.init with pos := 32, spill := (List.range 32).map (fun n => (n, some 7)) }
     !((full.port 1).spill.length < 32) && (portAt aConfig 1).kind == 0 && !bandFrozen (withBand full) full && full.run.isSome &&
       decide (aConfig.ports[1]? = some (portAt aConfig 1))) = true := by decide

/-- An `srare` word that re-injects at port table entry 0. -/
def rareWord : StageWord :=
  { stop := false, cls := 0x38, minor := 3, conA := 0, conB := 0, ib := false, imm := 0, port := 0, sat := false, rnd := 0, pes := 0, k := 0 }

/-- A configuration with a rare event's port, and an image of 256 bytes and signature 0 in memory. -/
def rareConfig : Machine.Config :=
  { aConfig with stages := aConfig.stages.map (fun k => { k with prog := { k.prog with words := [rareWord] } }) }

/-- BandEvents, rows, rare groups and reloads: a row in each state; an event and the core for it; an image that is the
installed one, and one that is not. -/
theorem test_band_rows_meet :
    (let r (st : RowState) : Row := { st, hoist := 0, since := 0 }
     let rows (st : RowState) : Band := { running with rows := [(0, r st)] }
     let ev : Rare := { b := aTok, a := aTok, stage := 0, word := 0, ordinal := 0, seq := 0, group := none }
     let rare : Band := { running with cfg := some rareConfig }.setPort 0 { PortSt.init with rare := [ev], slots := [none] }
     let held := storeLE (withBand aBand) 0x2028 8 (2 ^ 32 * 256)
     let head (s : State) := bandRead s 0 0x2000 256
     let same (s : State) : Bool := decide ((head s).met = .done) && decide (256 ≤ (imgHead (head s).bytes).imgsz) &&
       (imgHead (head s).bytes).sig == aConfig.sig && decide ((bandRead (head s).s 0 0x2000 (imgHead (head s).bytes).imgsz).met = .done) &&
       crc32c ((bandRead (head s).s 0 0x2000 (imgHead (head s).bytes).imgsz).bytes.drop 256) == aConfig.sig
     [RowState.waking, .install, .done, .lower, .hoist].all (fun st => decide (look (rows st).rows 0 = some (r st))) &&
       (let at_ (st : RowState) : State := withBand (rows st)
        let island := rowIsland 0 0
        halyardFree (at_ .done) island && !halyardFree (at_ .lower) island && nextDone (at_ .done) island == some 0 && nextDone (at_ .live) island == none) &&
       !(rows .done).frozenRows && (rows .done).run.isSome &&
       waitingRare rare rareConfig == some (0, ev) && !blockFrozen (withBand rare) rare && !bandFrozen (withBand rare) rare && rareCore (withBand rare) 0 (portAt rareConfig 0).rregs == some 0 &&
       same held && !same (withBand aBand)) = true := by decide

/-- A kernel with a state map at point 4 from the threaded to the vector version. -/
def mapped (s : State) : State :=
  { s with kernels := upd s.kernels 0 (fun k => { k with safe := [{ ord := 4, ver := 0, ep := true, addr := 0x1000, map := some 1, locs := [] }] }) }

/-- HopsAndPreemption, hops: one that is ready, one that is not; the moments before and at the time-out, and a run that
has failed. -/
theorem test_hops_meet :
    (let h : Hop := { ord := 4, target := 1, armedAt := 0, place := 0, rows := 0, met := false }
     let armed (s : State) : State := mapped (modBlock s 1 (fun b => { b with hop := some h }))
     let there := armed (parked (.hop 4))
     let away := armed bed
     let ready (s : State) : Bool := match look s.blocks 1 with
       | some b => hopReady (drainBlock s 1) 1 b h && !storesLeft (drainBlock s 1) 1 && (look (drainBlock s 1).blocks 1).isSome &&
           (kernelOf s b).any (fun k => (mapOf k 4 0 1).isSome) && (look s.launches b.launch).isSome
       | none => false
     ready there && !ready away && (look bed.blocks 1).any (fun b => b.hop == none) && decide (h.armedAt + 65536 ≤ State.clock { there with clock := 65536 }) &&
       ((look there.blocks 1).any (fun b => !b.threadEnded) &&
        (blockGroups there 1).all (fun e => e.2.park == some (.hop 4) && ofTheT there e.2) && blockGroups there 1 != []) &&
       (look away.blocks 1).any (fun b => b.ver != 2) &&
       (let failed := modBlock (withBand { running with run := some { aRun with code := some 3 } }) 1 (fun b => { b with ver := 2, hop := some h })
        (look failed.blocks 1).any (fun b => b.ver == 2 && drainFailed failed b))) = true := by decide

/-- A second launch of eight sets of 256 rows, which outranks the first; every core but core 0 is halted. -/
def rival : State :=
  { bed with
    launches := put bed.launches 9 { bootLaunch with pri := 3, tm1 := 255 }
    cores := put ((List.range 11).foldl (fun t n => put t (n + 1) { Core.init with halted := true }) bed.cores) 0 (coreOf bed 0) }

/-- The block of `rival`, of a kernel without local memory and with an operation of an engine left alone, once it has been pre-empted. -/
def preempted : State :=
  let s := withCtx rival copyRef 1 0 [anOp 1 (.copy false (aCopy 1))]
  let s : State := { s with groups := [], sets := [], cores := upd s.cores 0 (fun c => { c with order := [] }) }
  let s : State := { s with kernels := upd s.kernels 0 (fun k => { k with header := BitVec.ofNat 64 (3 * 2 ^ 60 + 3 * 2 ^ 58 + 2 ^ 55 + 31 * 2 ^ 36) }) }
  match exec (.preemption 1) { s with launches := upd s.launches 9 (fun l => { l with tm1 := 511 }) } with
  | .next t => t
  | _ => s

/-- HopsAndPreemption, pre-emption: a block that may be saved, and one that is not outranked. -/
theorem test_preemption_meets :
    (let may (s : State) : Bool := (look s.blocks 1).any (fun b => savable s 1 b && b.frozen == none && !b.halted && outranked s b)
     may rival && !may bed && tablesB rival) = true := by decide

/-- HopsAndPreemption, restores: a block that may return, one that a launch still outranks, one whose saved state is poisoned. -/
theorem test_restore_meets :
    (let s : State := { preempted with launches := drop preempted.launches 9 }
     let outranked : State := { preempted with launches := upd preempted.launches 9 (fun l => { l with tm1 := 31 }) }
     (look outranked.blocks 1).any (fun b => !blockReturns outranked b && b.saved.isSome) && (look s.parts 0).any (fun p => !p.swappedOut) &&
     match look s.blocks 1 with
     | some b => (match b.saved with
       | some x =>
         let r := readImage s b.part x.image
         let bad := modBlock s 1 (fun b => { b with saved := some { x with poisoned := true } })
         blockReturns s b && !x.poisoned && x.band == none && imageStatus (kernelOf s b) r.2 == 0 && x.groups.length == 0 &&
           (look bad.blocks 1).any (fun b => blockReturns bad b && b.saved.any (·.poisoned)) &&
           (match r.2 with
             | some img => kernelKey b.part img.kern == b.kern && img.groups.length == 0 &&
                 imageFits r.1 b.part 0 1 img (if b.clusterBound then some (b.core / 4) else none)
             | none => false)
       | none => false)
     | none => false) = true := by decide +kernel

/-! ### The hub at work -/

/-- Dwords of memory through the identity map. -/
def withMem (s : State) (a : Nat) (xs : List Dword) : State := xs.zipIdx.foldl (fun s x => storeLE s (a + 8 * x.2) 8 x.1.toNat) s

/-- LaunchEvents: a granule that is there, one that cannot be read, one that is copied. -/
theorem test_cold_granules_meet :
    (let k : Kernel := { bootKernel with coldText := [(0, { base := 0xB000, size := 4096 })], coldHost := 0xB000, cache := 0xD000, granules := [3] }
     let size := k.coldText.foldl (fun m t => max m (t.2.base + t.2.size)) k.coldHost - k.coldHost
     let r := readVirtual bed 0 0xB000 4096
     k.granules.contains 3 && !k.granules.contains 0 && size == 4096 && r.bad == none && decide ((readVirtual bed 0 (2 ^ 40) 4096).bad ≠ none) &&
       (placePieces r.s 0 (pieces 0xD000 4096 3)).2.1 == none && (look bed.parts 0).isSome) = true := by decide

/-- A queue at 0x9000 of a ring of two records at 0xA000, its head 0 and a tail; `w`: its control dword. -/
def withQueue (s : State) (w tail : Dword) : State := withMem (withReg (withReg s 0x211 0x9000) 0x210 (BitVec.ofNat 64 (2 ^ 56))) 0x9000 [0xA000, w, 0, tail]
/-- A record: the kernel of handle 0, one block of 32 threads, its first predecessor. -/
def withRecord (s : State) (pred : Dword) : State := withMem s 0xA000 [0, 0x100000001, BitVec.ofNat 64 (1 + 31 * 2 ^ 32), 0, 0, 0, 0, 0, pred]

/-- LaunchEvents, notifies: past the partition's queues, a queue not enabled, past its ring, not past its tail, mapped, unmapped. -/
theorem test_notifies_meet :
    (let off := withQueue bed 0x100 0
     let on (tail : Dword) := withQueue bed 0x180 tail
     let d (s : State) := (readQueue (addMeter s 0 12 8) 0 0).2
     let mapped : State := { on 0 with queues := [(0, { HubQueue.init with mapped := true })] }
     decide (queueCount (addMeter bed 0 12 8) 0 ≤ 1) && decide (0 < queueCount (addMeter off 0 12 8) 0) && !(d off).en && (d (on 0)).en && decide ((d (on 0)).head + 2 ^ (d (on 0)).lsz < 3) &&
       decide (2 ≤ (d (on 0)).head + 2 ^ (d (on 0)).lsz) && decide ((d (on 0)).tail < 2) && decide (1 ≤ (d (on 1)).tail) && (hubQueue mapped 0 0).mapped && !(hubQueue (on 0) 0 0).mapped &&
       decide ((d mapped).tail < 2) && decide (2 ≤ (d mapped).head + 2 ^ (d mapped).lsz) && (d mapped).en) = true := by decide

/-- LaunchEvents, slots: a queue with nothing to take, a slot to take; the partition's one slot taken by a queue with nothing to do and
by one with a record to take. -/
theorem test_slots_meet :
    (let u (s : State) (q : Nat) := noteRunnable (readQueue s 0 q).1 0 q
     let goes (s : State) (q : Nat) : Bool := !(hubQueue (u s q) 0 q).mapped && runnable (u s q) 0 q && firstWaiting (u s q) 0 q (queuePri (u s q) 0 q)
     let room (s : State) (q : Nat) : Bool := decide ((slotsHeld (u s q) 0).length < field (partReg (u s q) 0 0x210) 63 56) && decide (slotsTaken (u s q) < 64)
     let on (tail : Dword) := withQueue bed 0x180 tail
     let two (tail : Nat) : State := { withMem (withReg (on 0) 0x211 0x9001) 0x9040 [0xA100, 0x180, 0, 1] with
       queues := [(0, { HubQueue.init with mapped := true, tail })] }
     decide (0 < queueCount (on 1) 0) && decide (1 < queueCount (two 0) 0) && !swappedPart (on 1) 0 && !goes (on 0) 0 && goes (on 1) 0 && room (on 1) 0 &&
       [0, 1].all (fun n => goes (two n) 1 && !room (two n) 1) && slotVictim (u (two 0) 1) 0 (queuePri (u (two 0) 1) 0 1) == some 0 &&
       slotVictim (u (two 1) 1) 0 (queuePri (u (two 1) 1) 0 1) == none) = true := by decide +kernel

/-- LaunchEvents, beginnings: an unmapped queue, nothing to take, a record whose predecessor has not ended, one whose has, and a
record that is refused. -/
theorem test_launch_begins_meet :
    (let s (tail pred : Dword) : State :=
       let t := withRecord (withQueue bed 0x180 tail) pred
       { t with queues := [(0, { HubQueue.init with mapped := true, tail := tail.toNat })] }
     let d (t : State) := (readQueue t 0 0).2
     let o (t : State) := readVirtual (readQueue t 0 0).1 0 ((d t).record (d t).head) 128
     let l (t : State) := launchOfRecord (o t).s 0 0 (d t).head (notifyOrder (o t).s (hubQueue t 0 0) (d t).head) (d t) (o t).bytes
     let able (t : State) : Bool := (hubQueue t 0 0).mapped && !placing t 0 0 && (look t.parts 0).any (fun p => !p.swappedOut)
     let waits := s 1 (BitVec.ofNat 64 (2 ^ 63 + 9))
     let refused := withMem (s 1 0) 0xA008 [0]
     !(hubQueue bed 0 0).mapped && able (s 0 0) && !(d (s 0 0)).pending &&
       [waits, s 1 0, refused].all (fun t => able t && (d t).pending && (o t).bytes.length == 128) &&
       !(l waits).refused && !(l waits).preds.all (predMet (o waits).s 0) && !(l (s 1 0)).refused && (l (s 1 0)).preds.all (predMet (o (s 1 0)).s 0) && (l refused).refused) = true := by decide +kernel

/-- LaunchEvents, blocks and launches: a place for a block and none; a block with groups and one without; a launch that is over,
without a completion record, with one, and with one that meets an uncorrectable error, and one that is not; a hang that is due and one
that is not. -/
theorem test_block_and_launch_events_meet :
    (let s : State := { rival with launches := upd rival.launches 9 (fun l => { l with tm1 := 31 }), queues := [(0, { HubQueue.init with mapped := true })] }
     let may (place : Nat) : Bool := match look s.launches 9, look s.kernels 0, look s.parts 0 with
       | some l, some k, some p => nextVersion s l == some 0 && !p.swappedOut && l.waiting && placesNext s 9 l && fitsAt s l.part k 0 (l.tm1 + 1) place s.fresh
       | _, _, _ => false
     let gone : State := { bed with groups := [], sets := [], cores := [] }
     let ended (done : Dword) : State := { gone with blocks := [], launches := upd gone.launches 0 (fun l => { l with done }) }
     let is (t : State) (p : Launch → Bool) : Bool := (look t.launches 0).any p
     let hang (hangCount : Nat) : State := modBlock (withReg (parked (.mwait .eq 0 0 1 true 0 false)) 0x210 0x10000) 1 (fun b => { b with hangCount })
     let record (s : State) := recordWrite s 0 0x8108 (leBytes 0 8 ++ zeroBytes 8)
     may 0 && !may 1 && (look bed.blocks 1).any (fun b => !blockOver bed 1 b) && (look gone.blocks 1).any (blockOver gone 1) && tablesB gone &&
       is bed (fun l => !launchOver bed 0 l) && [0, 0x8108].all (fun done => is (ended done) (fun l => launchOver (ended done) 0 l && !doneWaits (ended done) 0 &&
         l.firing == none && l.done == done && l.code == 0 && l.lost == 0) && tablesB (ended done)) &&
       decide ((record (ended 0x8108)).met = .done) && decide ((record { ended 0x8108 with hours := { bed.hours with poison := [0x8100] } }).met = .fail 4) &&
       (look (hang 65535).blocks 1).any (fun b => !hangDue (hang 65535) 1 b) && (look (hang 65536).blocks 1).any (hangDue (hang 65536) 1) &&
       bed.parts.all (fun e => e.2.hyper == [] && e.2.claims == []) && bed.blocks.all (fun e => e.2.halt == none)) = true := by decide

/-- One expert queue and one combine group for partition 0, their tables at 0x20000. -/
def withEqu (s : State) : State := withMem (withReg (withReg s 0x213 (BitVec.ofNat 64 (2 ^ 43 + 2 ^ 30))) 0x212 0x20000) 0x20010 [0x10001, 0, 4]
def aGroup : EqGroup := { part := 0, id := 0, cbase := 0, dst := 0, mbase := 0, pbase := 0, dim := 1, k := 1, npos := 1, nseq := 1, tokens := [], released := 0 }
def aQueue : EqQueue :=
  { part := 0, id := 0, kern := 0, args := 0, gm1 := 0, pri := 0, cgrp := 0, tm1 := 31, tmr := 1, thr := 1, ring := 0, bbase := 0x30000, nbuf := 1,
    rlsz := 4, seed := 0, save := 0, chip := [], spill := [], ringHead := 0, born := 0, buffers := [], freed := [], draining := false, hold := [], fullAt := none }
def equState (queues : Tab EqQueue) (groups : Tab EqGroup) (clock : Nat) : State :=
  let s := withEqu bed
  { s with equ := { queues, groups, nextDecision := 4, last := none }, clock }

/-- ExpertQueueEvents: loads and unloads that are done, refused and pending; a decision too early, one with no eligible queue and one
with one; a firing that has ended, and a launch that is none. -/
theorem test_expert_queue_events_meet :
    (let s := equState [] [(0, aGroup)] 0
     let o := readVirtual s 0 (equTable s 0) 64
     let a := readVirtual s 0 (equTable s 0 + 0x10000) 64
     let one : EqQueue := { aQueue with chip := [{ bits := 0, arrived := 0, core := 0, group := 3 }] }
     let early := equState [(0, one)] [(0, aGroup)] 6
     let late := equState [(0, one)] [(0, aGroup)] 8
     let none_ := equState [(0, { one with buffers := [0] })] [(0, aGroup)] 8
     let fr : Firing := { queue := 0, phys := 0, born := 0, group := 0, buffer := 0, addr := 0x30000, count := 1 }
     let fired (e : Option Nat) : State := { late with launches := [(5, { bootLaunch with firing := some fr, ended := e })] }
     physQueue s 0 0 == some 0 && physQueue s 0 1 == none && look s.equ.queues 0 == none && (parseQueue o.s 0 0 o.bytes).isSome && tablesB s &&
       physGroup s 0 0 == some 0 && physGroup s 0 1 == none && (look (equState [] [] 0).equ.groups 0).isNone && (parseEqGroup 0 0 a.bytes).isSome &&
       (look (equState [(0, aQueue)] [] 0).equ.queues 0).any (fun q => !q.draining && q.chip.isEmpty && q.spill.isEmpty && q.part == 0 && q.id == 0) &&
       (look late.equ.queues 0).any (fun q => !q.draining && !q.chip.isEmpty) && late.equ.queues.any (fun e => e.2.part == 0 && e.2.cgrp == 0) &&
       s.equ.queues.all (fun e => !(e.2.part == 0 && e.2.cgrp == 0)) && (look (equState [(0, { aQueue with draining := true })] [] 0).equ.queues 0).any (·.draining) &&
       decide (hubCycle early < early.equ.nextDecision) && decide (late.equ.nextDecision ≤ hubCycle late) &&
       (dropHolds none_ 4).equ.queues.all (fun e => !EqQueue.eligible (dropHolds none_ 4) e.2 4) && nextFiring (dropHolds late 4) 4 == some (0, one) &&
       (look (fired none).launches 5).any (fun l => l.ended == none) && (look (fired (some 0)).launches 5).any (fun l => l.firing == some fr && l.ended == some 0) &&
       (look (fired (some 0)).equ.queues 0).any (fun q => q.born == fr.born) && aQueue.born != { fr with born := 1 }.born &&
       tablesB (fired (some 0)) && (look bed.launches 0).any (fun l => l.firing == none)) = true := by decide

/-- ExpertQueueEvents, combining: an entry that is marked and one that is bad; a token that is complete and one that is not; a firing
that ended with a code. -/
theorem test_combining_meets :
    (let g : EqGroup := { aGroup with cbase := 0x40000, dst := 0x50000, mbase := 0x60000, pbase := 0x70000 }
     let bad (e : Nat) : Bool := decide (g.nseq ≤ e / 2 ^ 108 % 2 ^ 20) || decide (g.npos ≤ e / 2 ^ 88 % 2 ^ 20) || decide (g.k ≤ e / 2 ^ 81 % 2 ^ 3) ||
       decide (leNat (readVirtual bed 0 g.mbase 1).bytes / 2 ^ (e / 2 ^ 81 % 2 ^ 3) % 2 = 1)
     let marked := storeLE bed g.mbase 1 1
     let fr : Firing := { queue := 0, phys := 0, born := 0, group := 0, buffer := 0, addr := 0x30000, count := 1 }
     let fired (code : Nat) : State := { equState [(0, aQueue)] [(0, g)] 8 with launches := [(5, { bootLaunch with firing := some fr, ended := some code })] }
     !bad 0 && bad (2 ^ 108) && (readDword bed 0 g.pbase).toNat == 0 && leNat (readVirtual bed 0 g.mbase 1).bytes == 0 &&
       leNat (readVirtual marked 0 g.mbase 1).bytes == 1 && (readDword marked 0 g.pbase).toNat == 0 && decide (0 < g.k) &&
       [0, 2].all (fun c => tablesB (fired c) && (look (fired c).launches 5).any (fun l => l.ended == some c && l.part == g.part)) &&
       (look (fired 0).equ.groups 0).any (fun x => x == g)) = true := by decide

/-- PartitionEvents, writes of the host and of peers: one that goes through and one that the second stage refuses. -/
theorem test_outside_writes_meet :
    (let meter := addMeter bed 0 12 8
     [bed, meter].all (fun v => (stage2 v 0 0x4000 needW).res == .ok 0x4000 &&
       (match (stage2 { v with tlb := [] } 0 (2 ^ 40) needW).res with
         | .bad _ => true
         | .ok _ => false)) && 0x4000 % 4096 + 8 == 8 && Memory.wf bed.mem && (look bed.parts 0).isSome) = true := by decide

/-- PartitionEvents: creation on free and on taken sectors; a destruction that waits and one that ends; an edit out of place and in
place; swaps. -/
theorem test_partition_events_meet :
    (let held (s : State) (n : Nat) : Bool := s.parts.any (fun e => e.2.sectors.contains n && e.2.stash == none)
     let may (s : State) (part : Nat) (ss gs : List Nat) : Bool := decide (s.hours.mode = .normal) && decide (part < 16) && look s.parts part == none &&
       ss.all (fun n => sectorOn s n && !held s n) && gs.all (fun n => s.parts.all (fun e => !e.2.groups.contains n))
     let working := withCtx bed copyRef 1 0 [anOp 1 (.copy false (aCopy 1))]
     let away : State := { bed with parts := upd bed.parts 0 (fun p => { p with swappedOut := true }) }
     let empty : State := { bed with groups := [], sets := [], blocks := [] }
     let stash : Stash := { since := 0, cores := [], clusters := [], copies := [], ises := [], cells := [] }
     let out : State := { empty with parts := upd bed.parts 0 (fun p => { p with swappedOut := true, stash := some stash }) }
     let both : State := { out with parts := put out.parts 1 (bootPartition 0) }
     may bed 1 [1] [1] && !may bed 0 [1] [1] && !may bed 1 [0] [1] && !may bed 1 [1] [0] && tablesB bed &&
       partBusy (stopPartition working 0) 0 && !partBusy (stopPartition bed 0) 0 && partPlace bed 0 12 == some 12 && (partPlace bed 0 16).isSome && Memory.wf bed.mem &&
       (look away.parts 0).any (·.swappedOut) && (look (busy bed).blocks 1).any (fun b => b.part == 0 && !savable (busy bed) 1 b && b.saved == none) &&
       (look empty.parts 0).any (fun p => !p.swappedOut) && empty.blocks.isEmpty && (look out.parts 0).any (fun p => p.stash == some stash) &&
       [0].all (fun n => !sectorHeld out n) && [0].any (fun n => sectorHeld both n)) = true := by decide

/-- PartitionEvents, the outside: each interface state, an epoch that closes and one that does not, measurements, register
writes, and accesses of the host and of peers. -/
theorem test_outside_events_meet :
    (let epoch (clock : Nat) : State := { bed with clock }
     let tdisp (t : Tdisp) : State := { bed with parts := upd bed.parts 0 (fun p => { p with tdisp := t }) }
     let snap : Snapshot := { epoch := 1, counters := [], chain := 0, final := true }
     let reported (lost : List Nat) : State := { bed with hours := { bed.hours with reports := [(0, snap)], reportsLost := lost } }
     [Tdisp.unlocked, .locked, .run, .error].all (fun t => (look (tdisp t).parts 0).any (fun p => decide (p.tdisp = t))) &&
       (look bed.parts 0).any (fun p => decide (p.epochFrom + 2 ^ 24 ≤ hubCycle (epoch (2 ^ 25))) && decide (hubCycle (epoch (2 ^ 25 - 1)) < p.epochFrom + 2 ^ 24)) &&
       decide (State.reset.hours.mode = .startUp) && decide (bed.hours.mode = .normal) && (16 : Nat) / 16 == 1 && (32 : Nat) / 16 == 2 && (96 : Nat) / 16 == 6 &&
       !(reported []).hours.reportsLost.contains 0 && (reported [0]).hours.reportsLost.contains 0 && look (reported []).hours.reports 0 == some snap && cregForm 0x2FF == none && tablesB bed &&
       decide (cregForm 0x218 = some .scalar) && decide (cregForm 0x240 = some .pair128) &&
       (let s : State := { bed with parts := upd bed.parts 0 (fun p => { p with hyper := [(0x218, 1, 0)] }) }
        let t (n : Nat) : State := match step { s with turns := [.tick n] } with
          | .next t => t
          | _ => s
        tablesB s && s.parts.all (fun e => e.1 == 0) && hubCycle (t 1) == hubCycle s && decide (hubCycle s < hubCycle (t 2))) &&
       (stage2 bed 0 0x4000 needR).res == .ok 0x4000 && !poisonedAt (stage2 bed 0 0x4000 needR).s 0x4000 8 && !swappedPart bed 0 &&
       (match (stage2 { bed with tlb := [] } 0 (2 ^ 40) needR).res with
         | .bad _ => true
         | .ok _ => false) && look bed.parts 1 == none) = true := by decide

/-- DebugCommands: the partition away, an address out of place, no such block, and a block, for each operation; the register busy; a
halted block resumed. -/
theorem test_debug_commands_meet :
    (let s (op : Dword) := withMem bed 0x40000 [op]
     let part (t : State) (f : Partition → Partition) : State := { t with parts := upd t.parts 0 f }
     let away := part (s 1) (fun p => { p with swappedOut := true })
     let other := withMem (s 1) 0x40018 [7]
     let halted := modBlock (parked .halted) 1 (fun b => { b with halted := true })
     [1, 2, 3, 4, 5, 6, 7].all (fun op => (debugCmd (s op) 0 0x40000).2.op == op.toNat && (look (s op).parts 0).any (fun p => p.command == none && !p.swappedOut) &&
         (debugBlock (started (s op) 0 0x40000) 0 (debugCmd (s op) 0 0x40000).2).any (fun e => e.1 == 1)) &&
       (debugCmd away 0 0x40000).2.op == 1 && (look away.parts 0).any (·.swappedOut) && (debugCmd (withMem bed 0x40008 [1]) 0 0x40008).2.op == 1 && 0x40008 % 64 == 8 &&
       (debugBlock (started other 0 0x40000) 0 (debugCmd other 0 0x40000).2).isNone && (look (part bed (fun p => { p with command := some 64 })).parts 0).any (fun p => p.command == some 64) &&
       (look halted.blocks 1).any (·.halted) && (group3 halted).any (fun g => g.park == some .halted && g.block == 1)) = true := by decide

/-- DebugCommands, landings: a block whose groups have halted, one whose group has not, a spatial block whose band is drained and one
that has not reached its point; halts of commands. -/
theorem test_landings_meet :
    (let ask (command : Option Nat) (reached : Bool) (s : State) : State := modBlock s 1 (fun b => { b with halt := some { ord := none, command, reached } })
     let spatial (reached : Bool) : State :=
       let s := ask none reached (modBlock (withBand { aBand with frozenRows := true }) 1 (fun b => { b with ver := 2 }))
       { s with groups := [], cores := [] }
     let due (s : State) : Bool := (look s.blocks 1).any (fun b => b.saved == none && b.halt.any (fun h =>
       if b.ver = 2 then h.reached && (blockGroups s 1).isEmpty && bandDrained s b else (blockGroups s 1).all (fun e => e.2.park == some .halted)))
     due (ask none false (parked .halted)) && !due (ask none false bed) && due (spatial true) && !due (spatial false) &&
       (ask (some 64) false bed).blocks.all (fun e => e.2.halt.all (fun h => h.command.isSome))) = true := by decide

/-- DeviceEvents, errors of the shadow store: a saved block and a stash of a partition that is away, and a saved block of one that is not. -/
theorem test_shadow_errors_meet :
    (let stash : Stash := { since := 0, cores := [], clusters := [], copies := [], ises := [], cells := [] }
     let away : State := { preempted with parts := upd preempted.parts 0 (fun p => { p with swappedOut := true, stash := some stash }) }
     let saved (s : State) (out : Bool) : Bool := (look s.blocks 1).any (fun b => b.saved.isSome && stashedPart s b.part == out)
     saved away true && saved preempted false && (look away.parts 0).any (fun p => p.stash.isSome && p.sectors.contains (0 / 3))) = true := by decide +kernel

/-- DeviceEvents, link ports: an engine whose next element reaches a peer behind port 0. -/
theorem test_port_down_meets :
    (let o := anOp 1 (.copy false (aCopy 2))
     let s : State := { withReg (withCtx bed copyRef 1 0 [o]) 0x220 0x8000000000000000 with tlb := [{ bootLeaf 1 with out := 3 * 2 ^ 50 }] }
     decide ((engCtx s copyRef).ops.find? (fun o => o.ended.isNone) = some o) && decide (o.next < o.elements) && o.wait == none &&
       reachesPort s 0 0 (elementAddrs s o 0)) = true := by decide

/-- DeviceEvents, start-up: a step that an earlier start began and never ended, and step 4 before it begins and once it has. -/
theorem test_start_up_meets :
    (let at4 (b : Byte) : State := { State.reset with hours := { State.reset.hours with
       startStep := 4, start := { fails := 0, steps := [3, 3, 3, b, 0, 0, 0, 0, 0, 0] } } }
     decide ((at4 1).hours.start.steps[3]? = some 1) && (1 : Byte) &&& 1 != 0 && (1 : Byte) &&& 2 == 0 &&
       [0, 1].all (fun b => decide ((at4 b).hours.mode = .startUp) && (at4 b).hours.startStep == 4 && decide ((at4 b).hours.start.steps[3]? = some b))) = true := by
  decide

/-- DeviceEvents: intervals and samples that are due and not; modes; a checkpoint to take and to restore. -/
theorem test_device_events_meet :
    (let nest (clock : Nat) (n : Nat) : State := { bed with nest := [(n, { Nest.fresh 0 0 with lo := 0x8001000000000000 })], clock }
     let mode (m : DeviceMode) : State := { State.reset with hours := { State.reset.hours with mode := m } }
     let quiet : State := { mode .normal with mem := [] }
     let saved : Checkpoint := { mem := [], digests := [], poisoned := [] }
     nestDue bed 0 == none && nestDue (nest 1023 0) 0 == none && (nestDue (nest 1024 0) 0).isSome && nestDue bed 16 == none && (nestDue (nest 1024 16) 16).isSome && (look bed.blocks 1).any (fun b => b.saved == none) && tablesB bed &&
       decide (State.reset.hours.start.fails < 3) && State.reset.hours.start.steps.all (· == 0) &&
       decide (3 ≤ ({ fails := 3, steps := [] } : StartRecord).fails) && [0, 1, 2].all (fun i => pointAllowed bed i 1) && !pointAllowed (withReg bed 0x21D 0x40) 0 1 &&
       [DeviceMode.normal, .test, .recovery].all (fun m => (mode m).parts.isEmpty && decide ((mode m).hours.mode = m)) && bed.parts != [] &&
       quiet.hours.poison == [] && quiet.parts.all (fun e => e.2.stash != none) && Memory.wf quiet.mem && Memory.wf saved.mem && saved.mem.all (fun e => isHbm e.1) &&
       State.reset.hours.checkpoint == none) = true := by decide

/-! ## Single steps, against the manual's worked examples and its tables -/

/-- Marked words: their results show at once when no other is outstanding (R57). -/
def fm : Fixed := { f0 with sw := true }
/-- The state one word later. -/
def after (s : State) (i : Instr) : State :=
  match exec i s with
  | .next t => t
  | _ => State.reset
/-- Vector register `n` with the value `f l` in lane `l`. -/
def withV (s : State) (n : Nat) (f : Nat → Word) : State :=
  { s with sets := upd s.sets 2 (fun a => { a with v := (List.range 32).foldl (fun t l => putZ t (32 * n + l) (f l)) a.v }) }
def vOf (s : State) (n l : Nat) : Option Word := (issuer s).map (fun q => readV s q n l)
def sOf (s : State) (n : Nat) : Option Dword := (issuer s).map (fun q => readS q n)
def pOf (s : State) (n : Nat) : Option Word := (issuer s).map (fun q => readP q n)
def flagsOf (s : State) : Option Dword := (issuer s).map (fun q => flagsAt q q.at_)
/-- Lanes 0 to n − 1 of a register. -/
def lanesOf (s : State) (n k : Nat) : List (Option Word) := (List.range k).map (vOf s n)

/-- The word laid at the next fetch, and the step that runs it, from reset (log 34). -/
theorem test_fetch_word : (match step (State.reset.withFetchWord 64 0x040002813FFFE7FD) with
    | .next t => (issuer t).any (fun q => q.ctx.pc == 0x1008 && readV t { q with at_ := q.at_ + 1 } 5 0 == 0xFFFFFFFD && q.ctx.issued == 1)
    | _ => false) = true := by decide +kernel

/-- "A run worked through": v4 is 10.0 at distance 2 of an `fma` that writes 6.0, and 6.0 at distance 4. -/
theorem test_run_worked :
    (let s := withV (withV bed 1 (fun _ => 0x40000000)) 4 (fun _ => 0x41200000)
     let t := after s (.fma f0 { ty := .f32, d := .v 4, a := .v 1, b := .v 1, c := .v 1, sat := false, rnd := .rne })
     (issuer t).any (fun q => readV t { q with at_ := q.at_ + 1 } 4 0 == 0x41200000 && readV t { q with at_ := q.at_ + 3 } 4 0 == 0x40C00000)) =
      true := by decide +kernel

/-- Its slots 2 and 4: 10.0 + 2.0 and 6.0 + 2.0. -/
theorem test_add_f32 :
    (let s (x : Word) := withV (withV bed 1 (fun _ => 0x40000000)) 4 (fun _ => x)
     let add : Instr := .addFloat fm { ty := .f32, d := .v 5, a := .v 4, b := .v 1, c := .none, sat := false, rnd := .rne }
     vOf (after (s 0x41200000) add) 5 0 == some 0x41400000 && vOf (after (s 0x40C00000) add) 5 0 == some 0x41000000) = true := by decide +kernel

/-- "Conversions to e4m3 at the edge of the range": result and flags; OF is bit 2 and NX bit 4 of `c.fstat` (R36). -/
theorem test_cvt_e4m3 :
    (let c (x : Word) (sat : Bool) (rnd : Rnd) : Option Word × Option Dword :=
       let t := after (withV bed 1 (fun _ => x)) (.cvt fm { dst := .e4m3, src := .f32, d := .v 2, a := .v 1, b := .none, sat, j := 0, rnd })
       (vOf t 2 0, flagsOf t)
     let nx := (flagNX : Flags).setWidth 64
     let ofnx := (flagOF ||| flagNX : Flags).setWidth 64
     c 0x43E60000 false .rne == (some 0x7E, some nx) && c 0x43EB0000 false .rne == (some 0x7F, some ofnx) &&
       c 0x43EB0000 true .rne == (some 0x7E, some ofnx) && c 0x43EB0000 false .rz == (some 0x7E, some nx) &&
       c 0xC3EB0000 false .rne == (some 0xFF, some ofnx)) = true := by decide +kernel

/-- "Building a packed pair": the second element joins the first. -/
theorem test_pack_bf16 :
    (let s := withV (withV bed 2 (fun _ => 0xC0200000)) 3 (fun _ => 0x3F80)
     vOf (after s (.pack fm { dst := .bf16, src := .f32, d := .v 3, a := .v 2, b := .none, sat := false, j := 1, rnd := .rne })) 3 0) =
      some 0xC0203F80 := by decide +kernel

/-- "A dx4 block worked through": the header and the first seven elements. -/
theorem test_dx4_block :
    (let x (n : Nat) : Val := valOf .f32 n
     let e := dxEncode .dx4 false ([x 0x40400000, x 0x3F000000, x 0x3E4CCCCD, x 0xBF800000, x 0x3F200000, x 0x3F600000] ++ List.replicate 26 (x 0))
     e.header == 0x817F && e.elems.take 7 == [0x3, 0xA, 0x9, 0x5, 0xA, 0x1, 0x8]) = true := by decide +kernel

/-- The example of R194 and R344: `shfl.down` by 2 of the home slot, in a native group and in the halves of an N16 block. -/
theorem test_shfl_down :
    (let w : ShflForm := { mode := .down, w64 := false, d := .v 6, a := .v 4, b := .s 5, c := .none }
     let s (n16 : Bool) (m : Word) := modGroup (modBlock (withS (withV bed 4 (fun l => BitVec.ofNat 32 l)) 5 2) 1 (fun b => { b with n16 })) 3
       (fun g => { g with mask := m })
     let r (t : State) (ls : List Nat) := ls.map (vOf (after t (.shfl fm w)) 6)
     r (s false 0xFFFFFFFF) [13, 14, 15, 16, 17, 29, 30, 31] == [15, 16, 17, 18, 19, 31, 30, 31].map some &&
       r (s true 0xFFFF) [13, 14, 15] == [15, 14, 15].map some && r (s true 0xFFFF0000) [16, 17, 29, 30, 31] == [18, 19, 31, 30, 31].map some) = true := by
  decide +kernel

/-- The same example's other modes: `shfl.idx` by 17 and `shfl.xor` by 20 in the halves. -/
theorem test_shfl_idx_xor : ([shflSource .idx true 3 17, shflSource .idx true 20 17, shflSource .xor true 27 20, shflSource .up false 1 2,
    shflSource .down false 30 2] : List (Option Nat)) = [some 1, some 17, some 31, none, none] := by decide +kernel

/-- The mask of the stream compaction program: `ballot` and `popc`. -/
theorem test_ballot_popc :
    (let t := after (withP bed 1 0x4432325A) (.ballot { fm with pred := 1 } (.s 7))
     sOf t 7 == some 0x4432325A &&
       vOf (after (withS bed 7 0x4432325A) (.popc fm { ty := .n32, d := .v 8, a := .s 7, b := .none, c := .none })) 8 9 == some 12) = true := by decide +kernel

/-- Its `cstore`: element k of the active lanes goes to BASE + 4k, and c.cxp is zero afterwards. -/
theorem test_cstore :
    (let s := withS (withV (withP bed 1 0x4432325A) 0 (fun l => BitVec.ofNat 32 (l + 1))) 4 0x8000
     let t := after s (.cstore f1 false { data := .v 0, base := .s 4, off := 0 })
     (coreOf t 0).storeQ.map (fun e => (e.key, leNat e.bytes)) == [2, 4, 5, 7, 10, 13, 14, 18, 21, 22, 27, 31].zipIdx.map (fun x => (0x8000 + 4 * x.2, x.1)) &&
       (group3 t).any (fun g => g.cxp == 0)) = true := by decide +kernel

/-- "A firing order worked through": D0 fires queue 42; with 42 empty, D1 fires 41, the lower of two equal deadlines. -/
theorem test_firing_order :
    (let es (n at_ : Nat) : List EqEntry := List.replicate n { bits := 0, arrived := at_, core := 0, group := 3 }
     let q (thr tmr n at_ : Nat) : EqQueue := { aQueue with thr, tmr, chip := es n at_ }
     let s (n : Nat) : State := { bed with equ := { Equ.init with queues := [(40, q 64 4 10 1000), (41, q 16 2 20 2000), (42, q 256 1 n 2976), (43, q 16 2 16 2000)] } }
     (nextFiring (s 3) 4096).map (·.1) == some 42 && (nextFiring (s 0) 4224).map (·.1) == some 41 && (q 64 4 10 1000).deadline 4096 == 5096 &&
       !(q 64 4 10 1000).due bed 4096 && (q 256 1 3 2976).due bed 4096 && !(q 256 1 3 2976).due bed 3999) = true := by decide +kernel

/-- The check values of CRC-32C and SHA-384 that their standards give (R15). -/
theorem test_crc32c : crc32c [0x31, 0x32, 0x33, 0x34, 0x35, 0x36, 0x37, 0x38, 0x39] = 0xE3069283 := by decide +kernel

/-! Below, values worked out by hand from the tables of R120 to R131. -/

/-- Scalar words: a wrap of i32 that sign-extends, a saturating sum, a high product, an arithmetic shift, the least of two signed values. -/
theorem test_scalar_integer_words :
    (let s := withS (withS bed 2 0x7FFFFFFF) 3 1
     let m := withS (withS bed 2 0xFFFFFFFFFFFFFFF8) 3 1
     let r (s : State) (i : Instr) := sOf (after s i) 4
     r s (.addInteger fm (.salu .i32 (.s 4) (.s 2) (.s 3) .none false)) == some 0xFFFFFFFF80000000 &&
       r s (.addInteger fm (.salu .i32 (.s 4) (.s 2) (.s 3) .none true)) == some 0x7FFFFFFF &&
       r s (.addInteger fm (.salu .n32 (.s 4) (.s 2) (.s 3) .none false)) == some 0x80000000 &&
       r s (.subInteger fm (.salu .n32 (.s 4) (.s 3) (.s 2) .none true)) == some 0 &&
       r m (.mulhi fm (.salu .i64 (.s 4) (.s 2) (.s 2) .none false)) == some 0 && r m (.sar fm (.salu .i64 (.s 4) (.s 2) (.s 3) .none false)) == some 0xFFFFFFFFFFFFFFFC &&
       r m (.minInteger fm (.salu .i64 (.s 4) (.s 2) (.s 3) .none false)) == some 0xFFFFFFFFFFFFFFF8 &&
       r m (.minInteger fm (.salu .n64 (.s 4) (.s 2) (.s 3) .none false)) == some 1 && r m (.absInteger fm (.salu .i64 (.s 4) (.s 2) .none .none false)) == some 8) =
      true := by decide +kernel

/-- Lane words of two elements: each half wraps or saturates alone. -/
theorem test_packed_integer_words :
    (let s := withV (withV bed 1 (fun _ => 0x7FFF8000)) 2 (fun _ => 0x0001FFFF)
     let r (i : Instr) := vOf (after s i) 3 7
     r (.addInteger fm (.valu .i16x2 (.v 3) (.v 1) (.v 2) .none false)) == some 0x80007FFF &&
       r (.addInteger fm (.valu .i16x2 (.v 3) (.v 1) (.v 2) .none true)) == some 0x7FFF8000 &&
       r (.xorInteger fm (.valu .i32 (.v 3) (.v 1) (.v 2) .none false)) == some 0x7FFE7FFF) = true := by decide +kernel

/-- Bit words, a compare and a select. -/
theorem test_bit_and_compare_words :
    (let s := withS (withV (withV bed 1 (fun l => BitVec.ofNat 32 l)) 2 (fun _ => 5)) 3 0x0804
     let b (i : Instr) := vOf (after s i) 4 16
     b (.clz fm { ty := .n32, d := .v 4, a := .v 1, b := .none, c := .none }) == some 27 &&
       b (.brev fm { ty := .n32, d := .v 4, a := .v 1, b := .none, c := .none }) == some 0x08000000 &&
       b (.bfe fm { ty := .n32, d := .v 4, a := .v 1, b := .s 3, c := .none }) == some 1 &&
       b (.bfe fm { ty := .i32, d := .v 4, a := .v 1, b := .s 3, c := .none }) == some 1 &&
       pOf (after s (.cmp fm .lt { ty := .i32, d := .p 1, a := .v 1, b := .v 2, c := .none })) 1 == some 0x1F &&
       pOf (after s (.cmp fm .ge { ty := .n32, d := .p 1, a := .v 1, b := .v 2, c := .none })) 1 == some 0xFFFFFFE0 &&
       vOf (after (withP s 2 1) (.sel fm { ty := .i32, d := .v 4, a := .v 1, b := .v 2, c := .p 2 })) 4 16 == some 5) = true := by decide +kernel

/-- R127: a `crd` of `c.rng` right behind a `cwr` of it delivers what was written; a `crd` of `c.fstat` behind a clear does not yet (R126). -/
theorem test_control_registers :
    (let s := after (withV bed 1 (fun l => BitVec.ofNat 32 (7 * l))) (.cwr f0 (.v 1) 0x002)
     vOf (after s (.crd fm (.v 2) 0x002)) 2 3 == some 21 &&
       (let t := after (modGroup (withS bed 1 0x3F) 3 (fun g => { g with fstat := 0x10 })) (.cwr f0 (.s 1) 0x001)
        sOf (after t (.crd fm (.s 2) 0x001)) 2 == some 0x10 && sOf (after (after t (.nop f0)) (.crd fm (.s 2) 0x001)) 2 == some 0)) = true := by decide +kernel

/-- Predicate words and immediates. -/
theorem test_predicate_and_immediate_words :
    (let s := withP (withP bed 1 0xF0) 2 0x3C
     let r (i : Instr) := pOf (after s i) 3
     r (.pand fm (ops (.p 3) (.p 1) (.p 2) .none)) == some 0x30 && r (.por fm (ops (.p 3) (.p 1) (.p 2) .none)) == some 0xFC &&
       r (.pxor fm (ops (.p 3) (.p 1) (.p 2) .none)) == some 0xCC && r (.pnot fm (ops (.p 3) (.p 1) .none .none)) == some 0xFFFFFF0F &&
       sOf (after bed (.li fm (.s 1) (-1))) 1 == some 0xFFFFFFFFFFFFFFFF && sOf (after (withS bed 1 0xFFFFFFFFFFFFFFFF) (.lih fm (.s 1) 1)) 1 == some 0xFFFFFFFFF) = true := by decide +kernel
end Sys2Proof.Tests
end

section
/-! PROOFS. `elect`, `ballot` and the shuffles (R191 to R195). -/

namespace Sys2Proof.Machine

open Sys2Proof.Safety

/-! ## elect and ballot -/

/-- R191: the lowest set lane of a mask is the one with none set below it. -/
theorem getLsbD_lowestLane (m : Word) {l : Nat} (hl : l < 32) :
    (lowestLane m).getLsbD l = true ↔ m.getLsbD l = true ∧ ∀ k, k < l → m.getLsbD k = false := by
  rw [lowestLane, zero_sub, BitVec.getLsbD_and, BitVec.getLsbD_neg]
  cases m.getLsbD l <;> simp [hl]

/-- R42: a predicate operand's result; p7 discards it. -/
theorem goes_holdP {s : State} {q : Issuer} (h : issuer s = some q) (ho : Ordered q) {d : Reg} (hd : isP d = true)
    (m bits : Word) (lat : Nat) (f : Fixed) :
    Goes s (finish (holdP s q d m bits lat) q f) q f (q.ctx.held ++ predResult q d m bits lat) := by
  cases d with
  | p n =>
    by_cases hn : n = 7
    · simpa [holdP, predResult, hn] using goes_same h f
    · rw [holdP, if_neg hn, predResult, if_neg (fun e => hn (Reg.p.inj e))]
      exact goes_hold h ho (.p n.toNat) m [bits.setWidth 64] lat f
  | _ => cases hd

theorem exec_elect {s : State} {q : Issuer} {f : Fixed} {d : Reg} (h : Ready s q (.elect f d)) :
    exec (.elect f d) s = .next (finish (holdP s q d (BitVec.allOnes 32) (lowestLane (active q f)) 4) q f) :=
  word_ready_free h (free_of_fields (Laws.Encoding.elect f d) (by decide))

theorem exec_ballot {s : State} {q : Issuer} {f : Fixed} {d : Reg} (h : Ready s q (.ballot f d)) :
    exec (.ballot f d) s = .next (finish (holdS s q d ((active q f).setWidth 64) 4) q f) :=
  word_ready_free h (free_of_fields (Laws.Encoding.ballot f d) (by decide))

/-! ## Shuffles -/

/-- R194: a source that is no member counts as none. -/
theorem laneVal_shflLane (s : State) (q : Issuer) (o : ShflForm) (l : Nat) (b : Word) :
    laneVal s q o.w64 o.a ((shflLane o.mode q.b.n16 q.lanes l b).getD l) =
      match shflSource o.mode q.b.n16 l b with
      | some k => laneVal s q o.w64 o.a (if q.lanes.getLsbD k then k else l)
      | none => laneVal s q o.w64 o.a l := by
  unfold shflLane
  cases shflSource o.mode q.b.n16 l b with
  | none => rfl
  | some k => cases hk : q.lanes.getLsbD k <;> simp [hk]

theorem exec_shfl {s : State} {q : Issuer} {f : Fixed} {o : ShflForm} (h : Ready s q (.shfl f o)) :
    exec (.shfl f o) s = .next (shflAct f o s q) :=
  word_ready_free h (free_of_fields (Laws.Encoding.shfl f o) (by decide))

theorem exec_shflX {s : State} {q : Issuer} {f : Fixed} {o : ShflForm} (h : Ready s q (.shflX f o)) :
    exec (.shflX f o) s = .next (shflXAct f o s q) :=
  word_ready_free h (free_of_fields (Laws.Encoding.shflX f o) (by decide))

/-- R194: the halves of 16, or the whole of 32, in which a lane's source is looked for. -/
theorem shflBase_le (n16 : Bool) {l : Nat} (hl : l < 32) :
    let w := if n16 then 16 else 32
    l / w * w ≤ l ∧ l < l / w * w + w ∧ (if n16 then l / 16 * 16 else 0) = l / w * w := by
  cases n16 <;> simp <;> omega

/-- R194: a half or the whole is closed under `xor` of its own places. -/
theorem xor_mod_lt (n16 : Bool) {j : Nat} (n : Nat) (hj : j < if n16 then 16 else 32) :
    j ^^^ n % (if n16 then 16 else 32) < if n16 then 16 else 32 := by
  cases n16
  · exact Nat.xor_lt_two_pow (n := 5) hj (Nat.mod_lt n (by decide))
  · exact Nat.xor_lt_two_pow (n := 4) hj (Nat.mod_lt n (by decide))

end Sys2Proof.Machine
end

section

open Sys2Proof Sys2Proof.Machine Sys2Proof.Safety

/-- Settles O34: `m &&& -m` is the lowest lane of `m`; both words only hold one result. -/
theorem electAndBallot : Obligations.ElectAndBallot := by
  refine ⟨fun s q f d hr ho => ?_, fun s q f d hr ho => ?_, by decide⟩
  · have hd : isP d = true := (Bool.and_eq_true_iff.mp (ready_legal hr)).2
    exact ⟨_, lowestLane (active q f), exec_elect hr, fun l hl => getLsbD_lowestLane _ hl,
      goes_holdP hr.issues ho hd _ _ 4 f⟩
  · have hd : isS q.where_ d = true := (Bool.and_eq_true_iff.mp (ready_legal hr)).2
    exact ⟨_, exec_ballot hr, goes_holdS hr.issues ho hd _ 4 f⟩

/-- Settles O35: the source of a lane keeps to its half, where the model counts from the half's base. -/
theorem shufflesWithinAndAcross : Obligations.ShufflesWithinAndAcross := by
  refine ⟨⟨fun s q f o hr ho => ?_, fun s q f o hr => ⟨fun hx => ?_, fun hx => ?_⟩⟩, fun n16 l b hl => ?_⟩
  · have hd : isV q.where_ o.d = true := by
      have := ready_legal hr
      simp only [legal, Bool.and_eq_true] at this
      tauto
    refine ⟨_, exec_shfl hr, ?_⟩
    simp only [shflAct, laneVal_shflLane]
    exact goes_holdV hr.issues ho hd o.w64 (active q f) _ 4 f
  · rw [exec_shflX hr, shflXAct, if_pos (Option.isSome_iff_ne_none.mpr hx)]
    rfl
  · refine ⟨_, exec_shflX hr, ?_⟩
    rw [shflXAct, hx]
    exact waits_addPending hr.issues _ _ f
  · obtain ⟨hlo, hhi, hbase⟩ := shflBase_le n16 hl
    have hx := xor_mod_lt n16 b.toNat (j := l - l / (if n16 then 16 else 32) * if n16 then 16 else 32) (by omega)
    simp only [shflSource, hbase, true_and]
    generalize l / (if n16 then 16 else 32) * (if n16 then 16 else 32) = base at *
    generalize (if n16 then 16 else 32) = w at *
    refine ⟨?_, ?_, _, rfl, Nat.le_add_right .., by omega, by omega⟩
    · -- `up`
      split
      · congr 1; omega
      · rfl
    · -- `down`
      by_cases h : l + b.toNat < base + w
      · rw [if_pos h, if_pos (by omega)]; congr 1; omega
      · rw [if_neg h, if_neg (by omega)]
end

section
/-! PROOFS. `trap` and `tret` (R207, R208). -/

namespace Sys2Proof.Machine

open Sys2Proof.Safety

/-! ## The issue of a word that changes no context -/

/-- The count of an issue is the frame of an unmarked word. -/
theorem only_countIssue_same {s : State} {q : Issuer} (h : issuer s = some q) (pc : Dword) :
    Only s (countIssue s q pc) q (counted pc q.ctx) := by
  obtain ⟨u, hu, e⟩ := ends_finishAt_same h { sw := false, stop := false, pred := 7, sense := false } pc
  exact (show countIssue s q pc = u from e) ▸ hu

theorem where_hand_iff (q : Issuer) : q.where_ = .hand ↔ q.hand = true := by
  unfold Issuer.where_
  cases q.hand <;> cases q.g.vec.isSome <;> simp

/-! ## Delivering a trap -/

/-- R390: the handler is a matter of the partitions' registers and the kernels alone. -/
theorem handlerEntry_congr {s t : State} (hp : t.parts = s.parts) (hk : t.kernels = s.kernels) : handlerEntry t = handlerEntry s := by
  funext p
  simp only [handlerEntry, hp, hk]

/-- R61, R391: with a handler installed, the group enters it: the shadow bank is that of the entry. -/
theorem deliverTrap_enters {s : State} {gid : Nat} {g : Machine.Group} {b : Block} {entry : Dword} (x : Trap)
    (hg : look s.groups gid = some g) (hb : look s.blocks g.block = some b) (he : handlerEntry s b.part = some entry) :
    (∃ t, look (deliverTrap s gid x).groups gid = some t ∧ t.handler = true) ∧
      ∃ v, (coreOf (deliverTrap s gid x) g.core).shadow = entryBank v g x entry := by
  have hg1 : look (modGroup s gid (fun g => { g with trap := none })).groups gid = some { g with trap := none } := by
    simp [hg]
  obtain ⟨g2, hg2, -⟩ := disarmHop_group _ g.block gid _ hg1
  obtain ⟨hparts, hkernels, -⟩ := disarmHop_rest (modGroup s gid (fun g => { g with trap := none })) g.block
  unfold deliverTrap
  simp only [hg, hb]
  generalize disarmHop (modGroup s gid (fun g => { g with trap := none })) g.block = s2 at *
  have r3 := (same_countEvent s2 b.part (some g.core) 0x12).trans
    (same_traceEvent _ b.part (some g.core) 1 2 b.index x.cause g.lastSafe)
  have v3 : SameRegs s2 (countEvent s2 b.part (some g.core) 0x12) := ⟨fun _ _ _ => rfl, fun _ => rfl⟩
  have e2 : handlerEntry s2 = handlerEntry s := handlerEntry_congr hparts hkernels
  have e3 := handlerEntry_same (v3.trans (regs_traceEvent _ b.part (some g.core) 1 2 b.index x.cause g.lastSafe)) r3.kernels b.part
  generalize traceEvent (countEvent s2 b.part (some g.core) 0x12) b.part (some g.core) 1 2 b.index x.cause g.lastSafe = s3 at *
  have hg3 : look s3.groups gid = some g2 := (congrArg (look · gid) r3.groups).trans hg2
  rw [e3, e2, he]
  exact ⟨⟨_, (look_modGroup ..).trans ((if_pos rfl).trans (congrArg (Option.map _) hg3)), rfl⟩,
    s3, congrArg Core.shadow ((coreOf_setCore ..).trans (if_pos rfl))⟩

/-! ## What held results that are applied leave of a group -/

section Kept
variable {α : Type} {φ : Machine.Group → α}

theorem map_modGroup (s : State) (gid k : Nat) {f : Machine.Group → Machine.Group} (hf : ∀ g, φ (f g) = φ g) :
    (look (modGroup s gid f).groups k).map φ = (look s.groups k).map φ := by
  rw [look_modGroup]
  split
  · subst_vars
    simp [Function.comp_def, hf]
  · rfl

/-- R57: results of the group's own change its context, its accumulators and its flags. -/
theorem map_applyOwn (hφ : ∀ (g : Machine.Group) c v x, φ { g with ctx := c, vec := v, fstat := x } = φ g) (gid k : Nat) (s : State)
    (h : Held) : (look (applyOwn gid s h).groups k).map φ = (look s.groups k).map φ := by
  unfold applyOwn
  split
  case h_1 => split <;> rfl
  case h_2 | h_3 | h_4 | h_5 | h_6 | h_7 => exact map_modGroup s gid k (fun g => hφ g ..)
  all_goals rfl

theorem map_foldl_applyOwn (hφ : ∀ (g : Machine.Group) c v x, φ { g with ctx := c, vec := v, fstat := x } = φ g) (gid k : Nat)
    (hs : List Held) (s : State) : (look (hs.foldl (applyOwn gid) s).groups k).map φ = (look s.groups k).map φ := by
  induction hs generalizing s with
  | nil => rfl
  | cons h hs ih => exact (ih _).trans (map_applyOwn hφ gid k s h)

/-- R391: results of a handler change the interrupted group by their flags and their writes of control registers alone. -/
theorem map_applyShadow (hf : ∀ g on x, φ (Group.putFlags g on x) = φ g) (hu : ∀ g n, φ (Group.unhide g (.cregWas n)) = φ g)
    (gid core k : Nat) (s : State) (h : Held) :
    (look (applyShadow gid core s h).groups k).map φ = (look s.groups k).map φ := by
  unfold applyShadow
  simp only
  split
  case h_5 | h_6 => exact map_modGroup s gid k (fun g => hf g ..)
  case h_7 => exact map_modGroup s gid k (fun g => hu g _)
  all_goals rfl

theorem map_foldl_applyShadow (hf : ∀ g on x, φ (Group.putFlags g on x) = φ g)
    (hu : ∀ g n, φ (Group.unhide g (.cregWas n)) = φ g) (gid core k : Nat) (hs : List Held) (s : State) :
    (look (hs.foldl (applyShadow gid core) s).groups k).map φ = (look s.groups k).map φ := by
  induction hs generalizing s with
  | nil => rfl
  | cons h hs ih => exact (ih _).trans (map_applyShadow hf hu gid core k s h)

end Kept

/-- R391: results of a handler change no core's order of groups. -/
theorem order_foldl_applyShadow (gid core k : Nat) (hs : List Held) (s : State) :
    (coreOf (hs.foldl (applyShadow gid core) s) k).order = (coreOf s k).order := by
  have one (s : State) (h : Held) : (coreOf (applyShadow gid core s h) k).order = (coreOf s k).order := by
    unfold applyShadow
    simp only
    split
    case h_1 | h_2 | h_3 | h_4 => rw [coreOf_setCore]; split <;> simp_all
    all_goals rfl
  induction hs generalizing s with
  | nil => rfl
  | cons h hs ih => exact (ih _).trans (one s h)

/-! ## Markers -/

/-- R57: a marker leaves a group outside a handler on its core and in its block, and changes no core. -/
theorem passMarker_own {s : State} {gid : Nat} {g : Machine.Group} (hg : look s.groups gid = some g) (hh : g.handler = false) :
    (∃ t, look (passMarker s gid).groups gid = some t ∧ t.core = g.core ∧ t.block = g.block) ∧
      (passMarker s gid).cores = s.cores := by
  have key := map_foldl_applyOwn (φ := fun g => (g.core, g.block)) (fun _ _ _ _ => rfl) gid gid g.ctx.held s
  rw [hg] at key
  unfold passMarker
  simp only [hg, hh, Bool.false_eq_true, if_false]
  refine ⟨?_, foldl_applyOwn_cores ..⟩
  rw [← map_modGroup _ gid gid (f := fun g => { g with ctx := { g.ctx with held := [], run := 0 } }) (fun _ => rfl)] at key
  simpa using key

/-- R57, R391: what a handler's marker leaves of every group, and of the order of every core. -/
theorem passMarker_hand {α : Type} {φ : Machine.Group → α} (hf : ∀ g on x, φ (Group.putFlags g on x) = φ g)
    (hu : ∀ g n, φ (Group.unhide g (.cregWas n)) = φ g) {s : State} {gid : Nat} {g : Machine.Group}
    (hg : look s.groups gid = some g) (hh : g.handler = true) (k : Nat) :
    (look (passMarker s gid).groups k).map φ = (look s.groups k).map φ ∧
      (coreOf (passMarker s gid) k).order = (coreOf s k).order := by
  unfold passMarker
  simp only [hg, hh, if_true]
  refine ⟨map_foldl_applyShadow hf hu .., ?_⟩
  rw [coreOf_setCore]
  split
  · subst_vars; exact order_foldl_applyShadow ..
  · exact order_foldl_applyShadow ..

/-! ## trap -/

/-- R207: the trap of `trap n`. -/
def softwareTrap (q : Issuer) (n : BitVec 4) : Trap := { cause := 0x100 + n.toNat, write := false, addr := 0, word := q.ctx.pc }

/-- R207: h0 of the trap. -/
theorem trapWord_softwareTrap (q : Issuer) (n : BitVec 4) : trapWord (softwareTrap q n) = 0x100 + n.setWidth 64 := by
  simp only [trapWord, softwareTrap, Bool.false_eq_true, if_false]
  bv_omega

/-- R207: the state in which `trap` traps: its issue is counted, at a marker if it is marked. -/
def trapIssued (s : State) (q : Issuer) (f : Fixed) : State :=
  let u := countIssue s q (q.ctx.pc + 8)
  if f.sw then passMarker u q.gid else u

theorem trapIssued_unmarked (s : State) (q : Issuer) {f : Fixed} (h : f.sw = false) :
    trapIssued s q f = countIssue s q (q.ctx.pc + 8) := by simp [trapIssued, h]

theorem trapIssued_marked (s : State) (q : Issuer) {f : Fixed} (h : f.sw = true) :
    trapIssued s q f = passMarker (countIssue s q (q.ctx.pc + 8)) q.gid := by simp [trapIssued, h]

theorem exec_trap {s : State} {q : Issuer} {f : Fixed} {n : BitVec 4} (h : Ready s q (.trap f n))
    (hp : f.sw = true → q.ctx.pend = []) :
    exec (.trap f n) s = .next (takeTrap (trapIssued s q f) q (softwareTrap q n)) := by
  refine (word_ready_free h (free_of_fields (Laws.Encoding.trap f n) (by decide))).trans ?_
  rw [if_neg]
  · rfl
  · simpa using hp

theorem exec_trap_waits {s : State} {q : Issuer} {f : Fixed} {n : BitVec 4} (h : Ready s q (.trap f n)) (hsw : f.sw = true)
    (hp : q.ctx.pend ≠ []) : exec (.trap f n) s = .next (parkGroup s q.gid .results) := by
  refine (word_ready_free h (free_of_fields (Laws.Encoding.trap f n) (by decide))).trans ?_
  rw [if_pos]
  · rfl
  · simpa [hsw] using hp

/-- R207: where `trap` traps, its group stands on its core and in its block, and cores and handlers are as before. -/
theorem trapIssued_keeps {s : State} {q : Issuer} (f : Fixed) (hi : issuer s = some q) (hh : q.hand = false) :
    (∃ g, look (trapIssued s q f).groups q.gid = some g ∧ g.core = q.g.core ∧ g.block = q.g.block) ∧
      (∃ b, look (trapIssued s q f).blocks q.g.block = some b ∧ b.part = q.part) ∧
      (trapIssued s q f).cores = s.cores ∧ handlerEntry (trapIssued s q f) = handlerEntry s := by
  obtain ⟨hd, hu, -⟩ := only_countIssue_same hi (q.ctx.pc + 8)
  obtain ⟨-, -, hb, -⟩ := issuer_eq_some.mp hu.issues
  have hc : (countIssue s q (q.ctx.pc + 8)).cores = s.cores := by simp [countIssue, modCtx, hh]
  have hg := hu.group
  have hgh : q.g.handler = false := by
    obtain ⟨-, -, -, -, -, h6, -⟩ := issuer_eq_some.mp hi
    exact h6 ▸ hh
  obtain ⟨hm, hmc⟩ := passMarker_own hg hgh
  unfold trapIssued
  cases f.sw
  · exact ⟨⟨_, hg, rfl, rfl⟩, ⟨_, hb, rfl⟩, hc, handlerEntry_congr hd.parts hd.kernels⟩
  · exact ⟨hm, ⟨_, (congrArg (look · q.g.block) (passMarker_blocks ..)).trans hb, rfl⟩, hmc.trans hc,
      handlerEntry_congr ((passMarker_parts ..).trans hd.parts) ((passMarker_kernels ..).trans hd.kernels)⟩

/-- R207, R391: the handler that `trap` enters finds the cause in h0 and the address of the word in h1. -/
theorem takeTrap_software {s : State} {q : Issuer} {f : Fixed} {entry : Dword} (n : BitVec 4) (hi : issuer s = some q)
    (hh : q.hand = false) (hs : (coreOf s q.g.core).serving = none) (he : handlerEntry s q.part = some entry) :
    (∃ g, look (takeTrap (trapIssued s q f) q (softwareTrap q n)).groups q.gid = some g ∧ g.handler = true) ∧
      let h := (coreOf (takeTrap (trapIssued s q f) q (softwareTrap q n)) q.g.core).shadow.ctx
      h.pc = entry ∧ baseS h 0 = 0x100 + n.setWidth 64 ∧ baseS h 1 = q.ctx.pc := by
  obtain ⟨⟨g, hg, hgc, hgb⟩, ⟨b, hb, hbp⟩, hcores, hentry⟩ := trapIssued_keeps f hi hh
  have hfree : (coreOf (trapIssued s q f) q.g.core).serving = none := by rwa [coreOf, hcores]
  rw [← hgb] at hb
  rw [← hbp, ← hentry] at he
  obtain ⟨hin, v, hbank⟩ := deliverTrap_enters (softwareTrap q n) hg hb he
  rw [hgc] at hbank
  simp only [takeTrap, hh, hfree, if_true, Bool.false_eq_true, if_false, hbank]
  exact ⟨hin, rfl, trapWord_softwareTrap q n, rfl⟩

/-! ## tret -/

/-- R63: no trap waits on a group of the core. -/
def NoTrapOn (s : State) (core : Nat) : Prop := ∀ o ∈ (coreOf s core).order, ∀ x, look s.groups o = some x → x.trap = none

theorem nextTrap_eq_none {s : State} {core : Nat} (h : NoTrapOn s core) : nextTrap s core = none := by
  rw [nextTrap, List.findSome?_eq_none_iff]
  intro o ho
  split
  · next x hx => rw [h o ho x hx, Option.map_none]
  · rfl

theorem noTrapOn_congr {s t : State} {core : Nat} (ho : (coreOf t core).order = (coreOf s core).order)
    (hm : ∀ k, (look t.groups k).map (·.trap) = (look s.groups k).map (·.trap)) (h : NoTrapOn s core) : NoTrapOn t core := by
  intro o hmem x hx
  have key := hm o
  rw [hx] at key
  obtain ⟨y, hy, hyx⟩ := Option.map_eq_some_iff.mp key.symm
  exact hyx.symm.trans (h o (ho ▸ hmem) y hy)

/-- R208: with no trap pending on the core, the interrupted group goes on at h1 and the shadow bank is free. -/
theorem leaveHandler_quiet {s : State} {gid core : Nat} {g : Machine.Group} (hg : look s.groups gid = some g)
    (hq : NoTrapOn s core) :
    look (leaveHandler s gid core).groups gid = some { g with
      handler := false, returned := true, ctx := { g.ctx with pc := baseS (shadowOf s core).ctx 1 }
      readyAt := if g.active then none else some s.clock } ∧
    (coreOf (leaveHandler s gid core) core).serving = none := by
  unfold leaveHandler
  extract_lets h1 c s1 s2
  have hc : coreOf s2 core = { c with serving := none, shadow := { ctx := Ctx.start 0, hv := [] } } :=
    (coreOf_setCore ..).trans (if_pos rfl)
  have hnext : nextTrap s2 core = none :=
    nextTrap_eq_none (noTrapOn_congr (s := s) (by rw [hc]) (fun k => map_modGroup s1 gid k (fun _ => rfl)) hq)
  rw [hnext]
  exact ⟨(look_modGroup ..).trans ((if_pos rfl).trans (congrArg (Option.map _) hg)), congrArg Core.serving hc⟩

/-- `own` picks no held result for flags or for a control register. -/
def OfRegisters (own : Held → Bool) : Prop :=
  ∀ d : Dest, (d = .flagsSet ∨ d = .flagsClear ∨ ∃ n, d = .cregWas n) → ∀ h : Held, h.dest = d → own h = false

/-- R208: what the interrupted group takes up again: its members, run count, place in its issue order and held results. -/
def resumes (own : Held → Bool) (g : Machine.Group) : Word × Nat × Nat × List Held :=
  (g.mask, g.ctx.run, g.ctx.issued, g.ctx.held.filter own)

/-- Results for a destination that `own` does not pick may change unseen. -/
theorem filter_map_unpicked {own : Held → Bool} {d : Dest} (hd : ∀ h : Held, h.dest = d → own h = false) {c : Held → Held}
    (hc : ∀ h, (c h).dest = h.dest) (hs : List Held) :
    (hs.map (fun h => if h.dest = d then c h else h)).filter own = hs.filter own := by
  induction hs with
  | nil => rfl
  | cons h hs ih =>
    by_cases e : h.dest = d
    · simp [e, hd h e, hd (c h) ((hc h).trans e), ih]
    · simp [e, List.filter_cons, ih]

theorem filter_filter_unpicked {own : Held → Bool} {d : Dest} (hd : ∀ h : Held, h.dest = d → own h = false) (hs : List Held) :
    (hs.filter (fun h => h.dest != d)).filter own = hs.filter own := by
  rw [List.filter_filter]
  refine List.filter_congr fun h _ => ?_
  by_cases e : h.dest = d
  · simp [hd h e]
  · simp [e]

theorem resumes_putFlags {own : Held → Bool} (ho : OfRegisters own) (g : Machine.Group) (on : Bool) (x : Dword) :
    resumes own (Group.putFlags g on x) = resumes own g := by
  have key := filter_map_unpicked (ho (if on then .flagsClear else .flagsSet) (by cases on <;> simp))
    (c := fun h => { h with vals := h.vals.map (· &&& ~~~x) }) (fun _ => rfl) g.ctx.held
  simp only [resumes, Group.putFlags, key]

theorem resumes_unhide {own : Held → Bool} (ho : OfRegisters own) (g : Machine.Group) (n : Nat) :
    resumes own (Group.unhide g (.cregWas n)) = resumes own g := by
  simp only [resumes, Group.unhide, filter_filter_unpicked (ho _ (.inr (.inr ⟨n, rfl⟩)))]

theorem exec_tret {s : State} {q : Issuer} {f : Fixed} (h : Ready s q (.tret f)) (hp : q.ctx.pend = []) :
    exec (.tret f) s =
      .next (leaveHandler (passMarker (countIssue s q (q.ctx.pc + 8)) q.gid) q.gid q.g.core) := by
  refine (word_ready_free h (free_of_fields (Laws.Encoding.tret f) (by decide))).trans ?_
  rw [if_neg (not_not.mpr hp)]

theorem exec_tret_waits {s : State} {q : Issuer} {f : Fixed} (h : Ready s q (.tret f)) (hp : q.ctx.pend ≠ []) :
    exec (.tret f) s = .next (parkGroup s q.gid .results) := by
  refine (word_ready_free h (free_of_fields (Laws.Encoding.tret f) (by decide))).trans ?_
  rw [if_pos hp]
  rfl

/-- R208: `tret` is a word of a handler alone. -/
theorem tret_in_handler {s : State} {q : Issuer} {f : Fixed} (h : Ready s q (.tret f)) : q.hand = true := by
  have : q.where_ = .hand := by simpa [legal] using ready_legal h
  exact (where_hand_iff q).mp this

/-- R208: the marker of `tret` leaves what the interrupted group takes up again, and where no trap waits on the core, none waits
after it. -/
theorem tret_marker {s : State} {q : Issuer} {own : Held → Bool} (ho : OfRegisters own) (hi : issuer s = some q)
    (hh : q.hand = true) (hq : NoTrapOn s q.g.core) :
    (∃ g, look (passMarker (countIssue s q (q.ctx.pc + 8)) q.gid).groups q.gid = some g ∧ resumes own g = resumes own q.g) ∧
      NoTrapOn (passMarker (countIssue s q (q.ctx.pc + 8)) q.gid) q.g.core := by
  obtain ⟨-, hu, -⟩ := only_countIssue_same hi (q.ctx.pc + 8)
  obtain ⟨hgid, hg, -, -, -, hhand, -⟩ := issuer_eq_some.mp hi
  rw [← hgid] at hg
  generalize countIssue s q (q.ctx.pc + 8) = u at hu ⊢
  have hgh : q.g.handler = true := hhand ▸ hh
  have hquiet : NoTrapOn u q.g.core := by
    refine noTrapOn_congr (by rw [hu.core, hh]; rfl) (fun k => ?_) hq
    by_cases hk : k = q.gid
    · rw [hk, hu.group, hg]; rfl
    · rw [hu.otherGroups k hk]
  refine ⟨?_, noTrapOn_congr ?_ (fun k => ?_) hquiet⟩
  · have key := (passMarker_hand (resumes_putFlags ho) (resumes_unhide ho) hu.group hgh q.gid).1
    rw [hu.group, hh] at key
    exact Option.map_eq_some_iff.mp key
  · exact (passMarker_hand (φ := (·.trap)) (fun _ _ _ => rfl) (fun _ _ => rfl) hu.group hgh q.g.core).2
  · exact (passMarker_hand (φ := (·.trap)) (fun _ _ _ => rfl) (fun _ _ => rfl) hu.group hgh k).1

end Sys2Proof.Machine
end

section

open Sys2Proof Sys2Proof.Machine Sys2Proof.Safety

/-- Settles O40: `trap` issues and then takes its trap; `tret` passes its handler's marker, which leaves what the interrupted group
takes up again. -/
theorem softwareTrapsAndReturns : Obligations.SoftwareTrapsAndReturns := by
  refine ⟨fun s q f n hr => ?_, fun s q f hr => ?_⟩
  · have hu := only_countIssue_same hr.issues (q.ctx.pc + 8)
    refine ⟨fun hsw => ⟨_, hu, ?_⟩, fun hsw hp => ⟨_, hu, ?_⟩, exec_trap_waits hr, fun entry hh hs he hp => ?_⟩
    · exact trapIssued_unmarked s q hsw ▸ exec_trap hr (fun h => absurd (hsw.symm.trans h) Bool.false_ne_true)
    · exact trapIssued_marked s q hsw ▸ exec_trap hr (fun _ => hp)
    · obtain ⟨⟨g, hg, hgh⟩, hbank⟩ := takeTrap_software n hr.issues hh hs he
      exact ⟨_, g, exec_trap hr hp, hg, hgh, hbank⟩
  · intro own
    refine ⟨exec_tret_waits hr, fun hp g hg hq => ?_⟩
    have ho : OfRegisters own := by
      rintro d (rfl | rfl | ⟨n, rfl⟩) h e <;> simp [own, e]
    obtain ⟨hgid, hqg, -⟩ := issuer_eq_some.mp hr.issues
    obtain rfl : q.g = g := by rw [← hgid, hg] at hqg; exact (Option.some.inj hqg).symm
    obtain ⟨⟨x, hx, hres⟩, hquiet⟩ := tret_marker ho hr.issues (tret_in_handler hr) hq
    obtain ⟨hback, hserving⟩ := leaveHandler_quiet hx hquiet
    simp only [resumes, Prod.mk.injEq] at hres
    obtain ⟨hmask, hrun, hissued, hheld⟩ := hres
    exact ⟨_, _, exec_tret hr hp, only_countIssue_same hr.issues _, ⟨_, hback, rfl, rfl, hmask, rfl, hheld, hrun, hissued⟩, hserving⟩
end
